-- ==== Sys2Proof/Word.lean ====
section
/-! DEFINITION. Bytes, frames and stations: the plainest words of the DX416's interface. -/

namespace Sys2Proof

/-- One byte of a frame. -/
abbrev Byte := BitVec 8

/-- A whole Ethernet frame: its bytes from the first byte of the destination address to the last byte of the
frame check sequence (R165). -/
abbrev Frame := List Byte

/-- A one-byte Feed Link address (section 4 of 00_scope.md, R166). -/
abbrev Station := BitVec 8

/-- One of the sixteen channel positions, 0 to 15. -/
abbrev Chan := Fin 16

/-- One of the eight envelope rows; row 0 is the shallowest (R19). -/
abbrev Row := Fin 8

end Sys2Proof
end

