-- ==== Sys2Proof/Syntax.lean ====
section
/-! DEFINITION. The commands of the DX416: one constructor of `Instr` per row of spec/opcode_table.json.

The table gives its rows no operand fields and no bits. An operand stands here only where the row's own text names
something that the part's state does not already hold: the port, the received frame, the length of a RESET pulse,
the row or channel whose timer expires; which of two blocks takes first one event that reaches both of them (R124,
R162); and, for the rows inside whose work the rules let other events fall (R71, R93, R111, R112, R120, R124), whether
the command is the whole step or one part of it (log entry 10). Every command of the Management Engine works on the
request in service, so it needs no operand (R190). -/

namespace Sys2Proof

/-- The three Ethernet ports (section 2.1 of 00_scope.md). -/
inductive Port where
  | u
  | d
  | g
  deriving DecidableEq, Repr

/-- The blocks whose records the Setpoint Engine reads when it builds a status frame (R109). -/
inductive StatusOwner where
  | ports
  | gridMonitor
  | faultModeUnit
  | demandIntake
  | reportReceiver
  deriving DecidableEq, Repr

/-- How much of a cycle start a CYCLE_START command is: the whole of it, or one of the parts between which other events
may fall (R93, R112, R124). A part first makes the earlier parts of the Setpoint Engine's work that it needs. -/
inductive CyclePart where
  /-- The whole cycle start; `reportsFirst` says that the Report Receiver takes the expiry before the Setpoint Engine's
  request reaches the Channel Manager (R124). -/
  | whole (reportsFirst : Bool)
  /-- The link cycle timer expires and the cycle number advances (R92). -/
  | start
  /-- The reading of the demand store and the pending tag (R84). -/
  | demands
  /-- The Ride-Through Controller's answer (R42). -/
  | standing
  /-- The reading of v_last (R93). -/
  | voltage
  /-- The request to the Channel Manager, with the part mode (R59, R94). -/
  | request
  /-- The allocation is closed: results, records and the contention update (R102, R105). -/
  | close
  /-- The setpoint frame is built and handed to port D (R106, R107). -/
  | setpoint
  /-- One owner's fields of the status frame are read (R109). -/
  | look (o : StatusOwner)
  /-- The status frame is built and handed to port U (R108). -/
  | status
  /-- The Report Receiver takes the expiry: the ages advance (R124). -/
  | reports
  deriving DecidableEq, Repr

/-- How much of the Report Receiver's work a REPORT_TAKEN or a REPORT_LOSS command is: the whole of it, which a command
without an operand means, or one of the parts between which other events may fall (R71, R120, R124, R127). -/
inductive ReportPart where
  | whole
  /-- The records of the Report Receiver change, and the events and faults are formed from the states it reads. -/
  | decide
  /-- The Channel Manager takes the events. -/
  | hand
  /-- The faults are raised, and a report is forwarded; the events are handed first where they have not been. -/
  | finish
  deriving DecidableEq, Repr

/-- How much of a trip a command that can trip the Ride-Through Controller is: the whole of it, which a command without
this operand means, or one of the two parts between which a cycle start may fall (R40, R111). -/
inductive TripPart where
  | whole
  /-- The Ride-Through Controller trips, and hands its raising to the Fault and Mode Unit, which has yet to take it. -/
  | trip
  /-- The Fault and Mode Unit takes the oldest raising handed to it for the fault of this command. -/
  | raise
  deriving DecidableEq, Repr

/-- The commands, in the order of spec/opcode_table.json. -/
inductive Instr where
  /-- SUPPLY_START (R203). -/
  | supplyStart
  /-- RESET_ASSERTED (R203): a low level on RESET that has lasted `lowNs` nanoseconds. -/
  | resetAsserted (lowNs : Nat)
  /-- RESET_RELEASED (R203). -/
  | resetReleased
  /-- LINK_LOSS (R179): port `p` loses its signal; `cut` says that the loss cuts a reception short. -/
  | linkLoss (p : Port) (cut : Bool)
  /-- LINK_UP (R179): port `p` detects its signal. -/
  | linkUp (p : Port)
  /-- FRAME_RECEIVED (R167): port `p` has received the whole frame `f`. -/
  | frameReceived (p : Port) (f : Frame)
  /-- GRID_SAMPLE_TAKEN (R5): the Grid Monitor takes the oldest frame port G has handed it. When the frame's sag
  trips on the repeat limit, `haltFirst` says that the Capture Unit takes the HALT notice before the record (R162). -/
  | gridSampleTaken (haltFirst : Bool) (part : TripPart := .whole)
  /-- GRID_SILENCE_EXPIRY (R13). -/
  | gridSilenceExpiry
  /-- ENVELOPE_EXIT (R27): the dwell timer of row `i` expires. -/
  | envelopeExit (i : Row) (part : TripPart := .whole)
  /-- SWELL_EXIT (R37). -/
  | swellExit (part : TripPart := .whole)
  /-- RECOVERY_HOLD_EXPIRY (R34). -/
  | recoveryHoldExpiry
  /-- RECOVERY_RAMP_EXPIRY (R35). -/
  | recoveryRampExpiry
  /-- SAG_LIST_ENTRY_AGED (R30). -/
  | sagListEntryAged
  /-- DISPATCH_FRAME_TAKEN (R77): the Demand Intake takes the oldest frame port U has handed it. -/
  | dispatchFrameTaken
  /-- DISPATCH_SILENCE_EXPIRY (R82). -/
  | dispatchSilenceExpiry
  /-- START_TIMER_EXPIRY (R62): the start timer of channel `c` expires. -/
  | startTimerExpiry (c : Chan)
  /-- PARK_TIMER_EXPIRY (R65): the park timer of channel `c` expires. -/
  | parkTimerExpiry (c : Chan)
  /-- REPORT_TAKEN (R120): the Report Receiver takes the oldest report port D has handed it. -/
  | reportTaken (part : ReportPart := .whole)
  /-- CYCLE_START (R92): the link cycle timer expires. -/
  | cycleStart (part : CyclePart)
  /-- REPORT_LOSS (R124): the loss test of the latest cycle start the Report Receiver has taken. -/
  | reportLoss (part : ReportPart := .whole)
  /-- TRANSMISSION_END_D (R185). -/
  | transmissionEndD
  /-- TRANSMISSION_END_U (R186). -/
  | transmissionEndU
  /-- MGMT_REQUEST_QUEUED (R190): the Management Engine takes the oldest request port U has handed it. -/
  | mgmtRequestQueued
  /-- MODE_RUN (R132). -/
  | modeRun
  /-- MODE_HALT (R133). -/
  | modeHalt
  /-- MODE_RESUME (R134). -/
  | modeResume
  /-- MODE_LOAD (R135). -/
  | modeLoad
  /-- ACK_HEAD (R142). -/
  | ackHead
  /-- ACK_ALL (R143). -/
  | ackAll
  /-- ARM (R156). -/
  | arm
  /-- TRIGGER (R160). -/
  | trigger
  /-- ABORT (R63). -/
  | abort
  /-- MASK (R149). -/
  | mask
  /-- COUNTER_WRITE (R198). -/
  | counterWrite
  /-- RESTART (R200). -/
  | restart
  /-- RESTART_TAKES_EFFECT (R200). -/
  | restartTakesEffect
  /-- FAULT_READ (R144). -/
  | faultRead
  /-- CAPTURE_READ (R161). -/
  | captureRead
  /-- SUMMARY_READ (R148). -/
  | summaryRead
  /-- CONTENTION_READ (R103). -/
  | contentionRead
  /-- CHANNEL_STATE_READ (R196). -/
  | channelStateRead
  /-- SAGLIST_READ (R196). -/
  | saglistRead
  /-- GLOBAL_READ (R196). -/
  | globalRead
  /-- ENVELOPE_READ (R196). -/
  | envelopeRead
  /-- SWELL_READ (R196). -/
  | swellRead
  /-- CHANNEL_READ (R196). -/
  | channelRead
  /-- GROUP_READ (R196). -/
  | groupRead
  /-- PROFILE_READ (R196). -/
  | profileRead
  /-- COUNTER_READ (R198). -/
  | counterRead
  /-- CHANNEL_WRITE (R51). -/
  | channelWrite
  /-- ENVELOPE_WRITE (R22). -/
  | envelopeWrite
  /-- SWELL_WRITE (R21). -/
  | swellWrite
  /-- GROUP_WRITE (R55). -/
  | groupWrite
  /-- PROFILE_WRITE (R56). -/
  | profileWrite
  /-- COUNTER_OBJECT_WRITE (R198). -/
  | counterObjectWrite
  /-- GLOBAL_WRITE (R197): a global setting that has no row of its own. -/
  | globalWrite
  /-- MEASUREMENT_STATION_WRITE (R4). -/
  | measurementStationWrite
  /-- N_ROWS_WRITE (R22). -/
  | nRowsWrite
  /-- V_RECOVER_WRITE (R22). -/
  | vRecoverWrite
  /-- W_WRITE (R30). -/
  | wWrite
  /-- T_CYC_WRITE (R91). -/
  | tCycWrite
  /-- L_WRITE (R116). -/
  | lWrite
  /-- P_PRE_WRITE (R155). -/
  | pPreWrite
  /-- TRIGGER_ON_SAG_WRITE (R155). -/
  | triggerOnSagWrite
  /-- MGMT_REQUEST_REFUSED (R193). -/
  | mgmtRequestRefused
  deriving DecidableEq, Repr

end Sys2Proof
end

