-- ==== Sys2Proof/Config.lean ====
section
/-! DEFINITION. What the DX416 fixes once: the reference clock, the depths of its queues and lists, and the defaults
its settings take at a power-on reset. The spec leaves no value of the part open, so there is no free value here. -/

namespace Sys2Proof.Config

/-- Periods of the 25 MHz reference clock in one microsecond (section 12.5). The time base and the link cycle timer
run from that clock. -/
def clocksPerUs : Nat := 25

/-- Periods of the reference clock in one millisecond (section 12.5, R2). -/
def clocksPerMs : Nat := 25000

/-- The shortest low level on RESET that is taken as a reset, in nanoseconds (R203). -/
def resetLowNs : Nat := 10000

/-- Frames in the pass-through queue or in the forwarding queue (R184). -/
def forwardDepth : Nat := 32

/-- Replies in port U's reply queue (R186). -/
def replyDepth : Nat := 4

/-- Requests in the Management Engine's queue (R190). -/
def requestDepth : Nat := 4

/-- Entries of the fault list (R138). -/
def faultDepth : Nat := 32

/-- Entries of the recent-sag list (R30). -/
def sagDepth : Nat := 8

/-- Records of the capture buffer (R157). -/
def captureDepth : Nat := 1024

/-- The broadcast station (R166). -/
def broadcast : Station := 0xFF

/-- The largest value of a 32-bit saturating counter (R29). -/
def sagCountMax : BitVec 32 := 0xFFFFFFFF

end Sys2Proof.Config
end

