-- ==== Sys2Proof/Machine/State.lean ====
section
/-! DEFINITION. The state of the DX416: one structure per block of the block overview (section 3 of 00_scope.md),
each holding the records its chapter gives it, and the queue of commands that wait. The pins ALERT and TRIP REQUEST
and the 32-bit time base are functions of these records (Machine/Flags.lean and Machine/Ops.lean), so they have one
home each. -/

namespace Sys2Proof.Machine

/-! ## Timers -/

/-- A one-shot millisecond timer (R2): `none` while it is stopped, `some m` while it runs towards the `m`-th
millisecond boundary after the start of the time base. A timer loaded with `n` runs towards the `n`-th boundary after
its load. Its latch is the setting it is loaded from, which stands with its owner. -/
abbrev Timer := Option Nat

/-! ## Grid Monitor (01_grid_measurement.md) -/

/-- A GRID SAMPLE frame as port G hands it to the Grid Monitor (R171). -/
structure GridSample where
  /-- Source station. -/
  source : Station
  /-- Feed Link sequence. -/
  seq : BitVec 16
  /-- Quality field; bit 0 set means valid. -/
  quality : BitVec 16
  /-- Line-to-line voltages, per-mille. -/
  vab : Nat
  /-- See `vab`. -/
  vbc : Nat
  /-- See `vab`. -/
  vca : Nat
  /-- Frequency, mHz. -/
  freq : Nat
  deriving DecidableEq, Repr

/-- What the Grid Monitor owns (section 1.1, R3). -/
structure GridMonitor where
  /-- Measurement station. -/
  station : Station
  /-- Nominal frequency f_nom, mHz. -/
  fNom : Nat
  /-- Deadband db, mHz. -/
  db : Nat
  /-- Droop gradient k, per-mille per 100 mHz. -/
  k : Nat
  /-- Frequency factor floor F_floor, per-mille. -/
  fFloor : Nat
  /-- Grid-silence duration T_gs, ms: the latch of the grid-silence timer. -/
  tGs : Nat
  /-- v_last, per-mille. -/
  vLast : Nat
  /-- vmax_last, per-mille. -/
  vMaxLast : Nat
  /-- f_last, mHz. -/
  fLast : Nat
  /-- The frequency factor F, per-mille. -/
  factor : Nat
  /-- Sequence state: NONE, or the last taken sequence. -/
  seqState : Option (BitVec 16)
  /-- grid-lost. -/
  gridLost : Bool
  /-- The grid-silence timer. -/
  silence : Timer
  /-- Missed grid frames. -/
  missed : BitVec 32
  /-- Invalid grid frames. -/
  invalid : BitVec 32
  /-- MODEL'S OWN: frames port G has handed over and the Grid Monitor has not yet taken, oldest first. -/
  handed : List GridSample
  deriving DecidableEq, Repr

/-! ## Ride-Through Controller (02_the_ride_through_envelope.md) -/

/-- The action of an envelope row (R19). -/
inductive RowAction where
  | curtail
  | block
  deriving DecidableEq, Repr

/-- One row of the envelope table (R19). -/
structure EnvelopeRow where
  /-- Threshold V_i, per-mille. -/
  threshold : Nat
  /-- Dwell limit T_i, ms, the latch of the row's dwell timer; 0 means unlimited. -/
  dwell : Nat
  /-- Cap P_i, per-mille. -/
  cap : Nat
  /-- CURTAIL or BLOCK. -/
  action : RowAction
  deriving DecidableEq, Repr

/-- The controller states (section 2.3). -/
inductive RtcState where
  | normal
  | sag
  | recover
  | gridLost
  | tripped
  deriving DecidableEq, Repr

/-- The prior states that GRID_LOST can record (R38). -/
inductive PriorState where
  | normal
  | sag
  | recover
  deriving DecidableEq, Repr

/-- The phase of the recovery timer (section 2.3). -/
inductive RecoveryPhase where
  | hold
  | ramp
  deriving DecidableEq, Repr

/-- What the Ride-Through Controller owns (R19, R21 and section 2.3). -/
structure RideThrough where
  /-- The envelope table. -/
  rows : Vector EnvelopeRow 8
  /-- Row count n_rows, 0 to 8. -/
  nRows : Nat
  /-- Recovery threshold V_recover, per-mille. -/
  vRecover : Nat
  /-- Swell threshold V_swell, per-mille. -/
  vSwell : Nat
  /-- Swell dwell T_swell, ms: the latch of the swell timer; 0 turns the swell check off. -/
  tSwell : Nat
  /-- Recovery hold H, ms. -/
  hold : Nat
  /-- Recovery slope S, per-mille per ms. -/
  slope : Nat
  /-- Fallback allowance A_fb, per-mille. -/
  aFb : Nat
  /-- Sag window W, ms. -/
  window : Nat
  /-- Repeat limit N_rep. -/
  nRep : Nat
  /-- The controller state. -/
  state : RtcState
  /-- The prior state, kept while in GRID_LOST. -/
  prior : Option PriorState
  /-- The below standing of each row. -/
  below : Vector Bool 8
  /-- The active row, or none. -/
  active : Option Row
  /-- P_low, per-mille. -/
  pLow : Nat
  /-- P_loss, per-mille. -/
  pLoss : Nat
  /-- The eight dwell timers. -/
  dwellTimers : Vector Timer 8
  /-- The swell timer. -/
  swellTimer : Timer
  /-- The swell standing: true is ABOVE. -/
  swellAbove : Bool
  /-- The recovery timer. -/
  recovery : Timer
  /-- The phase of the recovery timer. -/
  phase : RecoveryPhase
  /-- The ramp start time, a time base value. -/
  rampStart : BitVec 32
  /-- The ramp slope captured at the ramp's start. -/
  rampSlope : Nat
  /-- The recent-sag list, oldest first. -/
  sags : List (BitVec 32)
  /-- The sag counter. -/
  sagCount : BitVec 32
  deriving DecidableEq, Repr

/-! ## Demand Intake (04_demand_intake.md) -/

/-- One entry of a DISPATCH frame: the channel index as sent and the demand in amperes (R172). -/
structure DispatchEntry where
  /-- Channel index, 0 to 255 as sent. -/
  channel : Nat
  /-- Demand, A. -/
  demand : Nat
  deriving DecidableEq, Repr

/-- A DISPATCH frame as port U hands it to the Demand Intake (R172). -/
structure Dispatch where
  /-- Source station. -/
  source : Station
  /-- Declared payload length. -/
  length : Nat
  /-- Dispatch tag. -/
  tag : BitVec 16
  /-- Entry count n as sent. -/
  count : Nat
  /-- The entries the payload has room for, in the order they stand. -/
  entries : List DispatchEntry
  deriving DecidableEq, Repr

/-- What the Demand Intake owns (section 4.1, R76). -/
structure DemandIntake where
  /-- Supervisor station. -/
  supervisor : Station
  /-- Dispatch-silence duration T_ds, ms: the latch of the dispatch-silence timer. -/
  tDs : Nat
  /-- The demand store: one raw demand per channel, A. -/
  store : Vector Nat 16
  /-- Pending tag. -/
  pendingTag : BitVec 16
  /-- Applied tag. -/
  appliedTag : BitVec 16
  /-- The dispatch-silence timer. -/
  silence : Timer
  /-- Fallback-active flag. -/
  fallbackActive : Bool
  /-- Accepted dispatch frames. -/
  accepted : BitVec 32
  /-- Refused dispatch frames. -/
  refused : BitVec 32
  /-- Ignored dispatch entries. -/
  ignored : BitVec 32
  /-- MODEL'S OWN: frames port U has handed over and the Demand Intake has not yet taken, oldest first. -/
  handed : List Dispatch
  deriving DecidableEq, Repr

/-! ## Channel Manager (03_channels_feeder_groups_and_profiles.md) -/

/-- The ready source of a channel (R50): its own reports, or those of its leader. -/
inductive ReadySource where
  | self
  | leader (c : Chan)
  deriving DecidableEq, Repr

/-- The compare class of a channel (R50). -/
inductive CompareClass where
  | hold
  | trip
  deriving DecidableEq, Repr

/-- One entry of the channel table (R50). -/
structure ChannelEntry where
  /-- enable. -/
  enable : Bool
  /-- station. -/
  station : Station
  /-- group. -/
  group : Fin 4
  /-- rank. -/
  rank : Fin 16
  /-- rated current R, A. -/
  rated : Nat
  /-- minimum current I_min, A. -/
  iMin : Nat
  /-- profile. -/
  profile : Fin 8
  /-- ready source. -/
  ready : ReadySource
  /-- compare reference. -/
  cmpRef : BitVec 16
  /-- compare mask; 0 means no compare. -/
  cmpMask : BitVec 16
  /-- compare class. -/
  cmpClass : CompareClass
  /-- fallback demand, A. -/
  fallback : Nat
  deriving DecidableEq, Repr

/-- One ramp profile (R56). -/
structure Profile where
  /-- up rate, A/ms. -/
  up : Nat
  /-- down rate, A/ms. -/
  down : Nat
  /-- recovery rate, A/ms. -/
  recovery : Nat
  /-- park limit, ms; 0 means no limit. -/
  park : Nat
  deriving DecidableEq, Repr

/-- The channel states (section 3.6). -/
inductive ChannelState where
  | off
  | standby
  | starting
  | running
  | parked
  | faulted
  deriving DecidableEq, Repr

/-- What the Channel Manager owns (R50, R55, R56, R57 and section 3.6). -/
structure ChannelManager where
  /-- The channel table. -/
  table : Vector ChannelEntry 16
  /-- The group table: the capacity C_g of each feeder group, A. -/
  groups : Vector Nat 4
  /-- The profile store. -/
  profiles : Vector Profile 8
  /-- T_start, ms: the latch of all sixteen start timers. -/
  tStart : Nat
  /-- The state of each channel. -/
  chan : Vector ChannelState 16
  /-- The sixteen start timers. -/
  startTimers : Vector Timer 16
  /-- The sixteen park timers. -/
  parkTimers : Vector Timer 16
  deriving DecidableEq, Repr

/-! ## Part modes, faults and event flags (07_operating_modes_faults_and_alerts.md) -/

/-- The part modes (section 7.2). -/
inductive PartMode where
  | load
  | run
  | halt
  deriving DecidableEq, Repr

/-- The fault codes (R136). -/
inductive FaultCode where
  | envelopeExit
  | swellExit
  | repeatedSag
  | gridDataLost
  | dispatchLost
  | linkDown
  | dispatchRefused
  | managementOverrun
  | startTimeout
  | reportLoss
  | rectifierFault
  | compareMismatch
  | rectifierLeftRun
  | parkLimit
  | demandClamped
  deriving DecidableEq, Repr

/-- The fault classes (R136). -/
inductive FaultClass where
  | trip
  | hold
  | note
  deriving DecidableEq, Repr

/-- What a fault names (R136). -/
inductive Subject where
  | channel (c : Chan)
  | port (p : Port)
  | none
  deriving DecidableEq, Repr

/-- A raising: a code, a class and a subject (R136). -/
structure Raising where
  /-- Code. -/
  code : FaultCode
  /-- Class. -/
  cls : FaultClass
  /-- Subject. -/
  subject : Subject
  deriving DecidableEq, Repr

/-- Six bits, one for each event flag: the event summary and the alert mask (R147, R149). -/
structure EventFlags where
  /-- SAG. -/
  sag : Bool
  /-- HALT. -/
  halt : Bool
  /-- CONTENTION. -/
  contention : Bool
  /-- FAULT. -/
  fault : Bool
  /-- CAPTURE. -/
  capture : Bool
  /-- LINK. -/
  link : Bool
  deriving DecidableEq, Repr

/-! ## Setpoint Engine (05_allocation_and_the_setpoint_cycle.md) -/

/-- The Demand Intake's whole store and its pending tag, in one reading (R84). -/
structure DemandReading where
  /-- The demand store as read. -/
  store : Vector Nat 16
  /-- The pending tag as read, which the applied tag takes. -/
  tag : BitVec 16
  deriving DecidableEq, Repr

/-- The Ride-Through Controller's answer (R42, R43). -/
structure Standing where
  /-- The controller state. -/
  rtc : RtcState
  /-- The active row, or none. -/
  active : Option Row
  /-- That row's action is BLOCK. -/
  blocking : Bool
  /-- The allowance A. -/
  allowance : Nat
  deriving DecidableEq, Repr

/-- The Channel Manager's answer to the request of a cycle start: the states after the start examination and the
tables as they stand when it takes the request (R59, R93). -/
structure ChannelAnswer where
  /-- The channel table. -/
  table : Vector ChannelEntry 16
  /-- The group table. -/
  groups : Vector Nat 4
  /-- The profile store. -/
  profiles : Vector Profile 8
  /-- The state of each channel after the start examination. -/
  chan : Vector ChannelState 16
  deriving DecidableEq, Repr

/-- A cycle start whose inputs are being gathered (R93): what has been read so far. -/
structure Gathering where
  /-- The reading of the Demand Intake, once it is made. -/
  demands : Option DemandReading
  /-- The answer of the Ride-Through Controller, once it is given. -/
  standing : Option Standing
  /-- v_last, once it is read. -/
  vLast : Option Nat
  /-- The part mode handed with the request (R94) and the Channel Manager's answer, once it is given. -/
  answer : Option (PartMode × ChannelAnswer)
  deriving DecidableEq, Repr

/-- All the inputs of one cycle (R93). -/
structure CycleInputs where
  /-- The part mode of the cycle (R94). -/
  mode : PartMode
  /-- The demand store as read. -/
  store : Vector Nat 16
  /-- The pending tag as read. -/
  tag : BitVec 16
  /-- The controller state of the RTC's answer. -/
  rtc : RtcState
  /-- The active row of the RTC's answer, or none. -/
  active : Option Row
  /-- That row's action is BLOCK. -/
  blocking : Bool
  /-- The allowance A of the RTC's answer. -/
  allowance : Nat
  /-- v_last as read. -/
  vLast : Nat
  /-- The period of the cycle now begun, µs (R98). -/
  period : Nat
  /-- The Channel Manager's answer. -/
  cm : ChannelAnswer
  /-- The last commands. -/
  prev : Vector Nat 16
  deriving DecidableEq, Repr

/-- A cycle start whose allocation is closed: what its frames still need (R105, R106, R108). -/
structure ClosedCycle where
  /-- The inputs. -/
  inputs : CycleInputs
  /-- The commands. -/
  cmd : Vector Nat 16
  /-- The contention record after this cycle's update. -/
  contention : Vector Bool 16
  deriving DecidableEq, Repr

/-- The Grid Monitor's fields of a status frame (R109). -/
structure GridShown where
  /-- F. -/
  factor : Nat
  /-- v_last. -/
  vLast : Nat
  /-- f_last. -/
  fLast : Nat
  /-- Grid-lost. -/
  gridLost : Bool
  deriving DecidableEq, Repr

/-- The Fault and Mode Unit's fields of a status frame (R109). -/
structure FaultsShown where
  /-- Event summary. -/
  summary : EventFlags
  /-- Alert mask. -/
  mask : EventFlags
  /-- Fault list count. -/
  count : Nat
  /-- The head of the fault list, or none. -/
  head : Option (FaultCode × Subject)
  /-- Dropped-trip flag. -/
  droppedTrip : Bool
  deriving DecidableEq, Repr

/-- The other blocks' fields of a status frame, as far as they have been read (R109). -/
structure StatusReadings where
  /-- Port link states, U, D and G; true is UP. -/
  links : Option (Bool × Bool × Bool)
  /-- Grid Monitor. -/
  grid : Option GridShown
  /-- Fault and Mode Unit. -/
  faults : Option FaultsShown
  /-- Fallback-active flag of the Demand Intake. -/
  fallback : Option Bool
  /-- Measured current of each channel, from the Report Receiver. -/
  measured : Option (Vector Nat 16)
  deriving DecidableEq, Repr

/-- How far the Setpoint Engine has come in its work for a cycle start (R92, R112). -/
inductive CycleWork where
  /-- No work: the frames of the last cycle start have been handed. -/
  | idle
  /-- The inputs are being gathered. -/
  | gathering (g : Gathering)
  /-- The allocation is closed, and no frame has been handed. -/
  | closed (w : ClosedCycle)
  /-- The setpoint frame has been handed, and the status frame is being built. -/
  | building (w : ClosedCycle) (shown : StatusReadings)
  deriving DecidableEq, Repr

/-- What the Setpoint Engine owns (section 5.1, R91, R92). -/
structure SetpointEngine where
  /-- T_cyc, µs: the latch of the link cycle timer. -/
  tCyc : Nat
  /-- The duration the link cycle timer loaded for the cycle in progress, µs (R91, R98). -/
  period : Nat
  /-- The next expiry of the link cycle timer, in periods of the reference clock since the time base started. -/
  nextCycle : Nat
  /-- Cycle number. -/
  cycle : BitVec 16
  /-- Last command of each channel, A. -/
  last : Vector Nat 16
  /-- Contention record: which channels are members. -/
  contention : Vector Bool 16
  /-- Last allowance, per-mille. -/
  lastAllowance : Nat
  /-- Last command sum, A. -/
  lastSum : Nat
  /-- MODEL'S OWN: how far the work for the latest cycle start has come. -/
  work : CycleWork
  deriving DecidableEq, Repr

/-! ## Report Receiver (06_rectifier_reports.md) -/

/-- What a report can bring a channel (R121). -/
inductive ChannelEvent where
  /-- Readiness (R61). -/
  | ready
  /-- A channel fault event (R66). -/
  | fault
  /-- Rectifier-left-run (R67). -/
  | leftRun
  deriving DecidableEq, Repr

/-- How far the Report Receiver has come in its work for a report or a loss test (R120, R124). -/
inductive ReportWork where
  /-- No work. -/
  | idle
  /-- The events and the faults are formed; `forward` is the report to be forwarded, and none for a loss test. -/
  | decided (events : Vector (Option ChannelEvent) 16) (faults : List Raising) (forward : Option Frame)
  /-- The Channel Manager has taken the events. -/
  | handed (faults : List Raising) (forward : Option Frame)
  deriving DecidableEq, Repr

/-- A REPORT frame as port D hands it to the Report Receiver (R174): the six bytes it reads, and the whole frame,
which it forwards unchanged (R117). -/
structure Report where
  /-- The frame as received. -/
  raw : Frame
  /-- Source station. -/
  source : Station
  /-- Rectifier state byte as received. -/
  state : Byte
  /-- Reserved byte as received. -/
  reserved : Byte
  /-- Status word. -/
  status : BitVec 16
  /-- Measured DC current, A. -/
  current : Nat
  deriving DecidableEq, Repr

/-- A last-report record that is not EMPTY (section 6.1). -/
structure ReportRecord where
  /-- Rectifier state byte as received. -/
  state : Byte
  /-- Reserved byte as received. -/
  reserved : Byte
  /-- Status word. -/
  status : BitVec 16
  /-- Measured DC current, A. -/
  current : Nat
  deriving DecidableEq, Repr

/-- What the Report Receiver owns (section 6.1, R116). -/
structure ReportReceiver where
  /-- L, the report-loss limit, in cycle starts. -/
  limit : Nat
  /-- The last-report record of each channel; `none` is EMPTY. -/
  record : Vector (Option ReportRecord) 16
  /-- The report age of each channel. -/
  age : Vector Nat 16
  /-- The loss mark of each channel. -/
  mark : Vector Bool 16
  /-- Unmatched reports. -/
  unmatched : BitVec 32
  /-- MODEL'S OWN: the expiry of the latest cycle start has not been taken yet. -/
  expiryDue : Bool
  /-- MODEL'S OWN: the ages of a taken cycle start have advanced and the loss test of R124 that belongs to it has not
  been made yet; it holds the limit L in force when the cycle start was taken (R116). -/
  testDue : Option Nat
  /-- MODEL'S OWN: how far the work for the latest report or loss test has come. -/
  work : ReportWork
  /-- MODEL'S OWN: reports port D has handed over and the Report Receiver has not yet taken, oldest first. -/
  handed : List Report
  deriving DecidableEq, Repr

/-! ## Fault and Mode Unit (07_operating_modes_faults_and_alerts.md) -/

/-- One entry of the fault list (R138). -/
structure FaultEntry where
  /-- Code. -/
  code : FaultCode
  /-- Class of the entry. -/
  cls : FaultClass
  /-- Subject. -/
  subject : Subject
  /-- Time of first raising, a time base value. -/
  time : BitVec 32
  /-- Grid sequence at first raising, or none. -/
  gridSeq : Option (BitVec 16)
  /-- Repeat count, 1 to 255. -/
  count : Nat
  deriving DecidableEq, Repr

/-- What the Fault and Mode Unit owns (section 7.1); its two pins are functions of the state. -/
structure FaultModeUnit where
  /-- Part mode. -/
  mode : PartMode
  /-- Fault list, oldest first. -/
  faults : List FaultEntry
  /-- Dropped-trip flag. -/
  droppedTrip : Bool
  /-- Faults-dropped counter. -/
  dropped : BitVec 32
  /-- Event summary. -/
  summary : EventFlags
  /-- Alert mask. -/
  mask : EventFlags
  /-- MODEL's own (log entry 3): raisings of a tripped Ride-Through Controller, handed over and not yet taken. -/
  handed : List Raising
  deriving DecidableEq, Repr

/-! ## Capture Unit (08_disturbance_capture.md) -/

/-- The capture states (section 8.4). -/
inductive CaptureState where
  | idle
  | armed
  | triggered
  | complete
  deriving DecidableEq, Repr

/-- The trigger sources (section 8.1). -/
inductive TriggerSource where
  | none
  | sag
  | halt
  | request
  deriving DecidableEq, Repr

/-- One capture record (R154). -/
structure CaptureRecord where
  /-- Time, a time base value. -/
  time : BitVec 32
  /-- Grid sequence. -/
  seq : BitVec 16
  /-- Valid flag. -/
  valid : Bool
  /-- v_min as received, per-mille. -/
  vMin : Nat
  /-- v_max as received, per-mille. -/
  vMax : Nat
  /-- f as received, mHz. -/
  freq : Nat
  /-- RTC state. -/
  rtc : RtcState
  /-- Active row, when present. -/
  active : Option Row
  /-- A of the last cycle start, per-mille. -/
  allowance : Nat
  /-- F, per-mille. -/
  factor : Nat
  /-- Sum of commands of the last cycle start, A. -/
  sum : Nat
  /-- Trigger mark. -/
  trigger : Bool
  deriving DecidableEq, Repr

/-- What the Capture Unit owns (section 8.1, R155). -/
structure CaptureUnit where
  /-- Capture buffer, oldest first. -/
  buffer : List CaptureRecord
  /-- Capture state. -/
  state : CaptureState
  /-- Trigger source. -/
  source : TriggerSource
  /-- Trigger pending. -/
  trigPending : Bool
  /-- Trigger position, or none. -/
  trigPos : Option Nat
  /-- P_pre, the pre-trigger count. -/
  pPre : Nat
  /-- Trigger-on-sag. -/
  onSag : Bool
  /-- Ignored triggers. -/
  ignored : BitVec 32
  deriving DecidableEq, Repr

/-! ## Management Engine (11_in_band_management.md) -/

/-- A MGMT REQUEST frame as port U hands it to the Management Engine (R176). -/
structure Request where
  /-- Source station. -/
  source : Station
  /-- Feed Link sequence. -/
  seq : BitVec 16
  /-- Request id. -/
  id : BitVec 16
  /-- Operation code. -/
  op : Byte
  /-- Object code. -/
  object : Byte
  /-- Index. -/
  index : Nat
  /-- Count. -/
  count : Nat
  /-- Data. -/
  data : List Byte
  deriving DecidableEq, Repr

/-- How far the RESTART request in service has come (R200). -/
inductive RestartPhase where
  /-- No RESTART has been answered. -/
  | none
  /-- The reply has been handed to port U and has not left the part. -/
  | waiting
  /-- The reply has left the part or was dropped: the restart takes effect now. -/
  | due
  deriving DecidableEq, Repr

/-- What the Management Engine owns (R190, R195, R200). -/
structure ManagementEngine where
  /-- The request queue; its head is the request in service. -/
  queue : List Request
  /-- The entries of a multi-entry WRITE in service that their owner has already accepted (R195). -/
  accepted : Nat
  /-- Where a RESTART in service stands (R200). -/
  restart : RestartPhase
  /-- MODEL'S OWN: requests port U has handed over and the Management Engine has not yet taken, oldest first. -/
  handed : List Request
  deriving DecidableEq, Repr

/-! ## Port units and forwarding fabric (09_feed_link_frames.md, 10_ports_and_forwarding.md) -/

/-- The receive counters of every port (R187). -/
structure RxCounters where
  /-- rx good frames. -/
  good : BitVec 32
  /-- rx good bytes. -/
  bytes : BitVec 40
  /-- rx FCS errors. -/
  fcs : BitVec 32
  /-- rx length errors. -/
  length : BitVec 32
  /-- rx header errors. -/
  header : BitVec 32
  deriving DecidableEq, Repr

/-- The transmit counters of ports U and D (R187). -/
structure TxCounters where
  /-- tx frames. -/
  frames : BitVec 32
  /-- tx bytes. -/
  bytes : BitVec 40
  /-- forward drops. -/
  drops : BitVec 32
  /-- tx discards. -/
  discards : BitVec 32
  /-- slot overruns. -/
  overruns : BitVec 32
  deriving DecidableEq, Repr

/-- A frame on its way out of a port: in transmission, or waiting in port U's reply queue. -/
structure OutFrame where
  /-- The frame. -/
  frame : Frame
  /-- It is the reply to the RESTART request in service (R200). -/
  isRestart : Bool
  deriving DecidableEq, Repr

/-- A transmission in progress (R185). -/
structure Transmission where
  /-- The frame being sent. -/
  out : OutFrame
  /-- When the link is free again, in periods of the reference clock since the time base started. -/
  endsAt : Nat
  deriving DecidableEq, Repr

/-- Port unit U (R179, R186, R187). -/
structure PortU where
  /-- Link state: true is UP. -/
  up : Bool
  /-- Whether the physical layer detects the signal now; the outside sets it. -/
  signal : Bool
  /-- Receive counters. -/
  rx : RxCounters
  /-- rx foreign/stale drops. -/
  foreign : BitVec 32
  /-- Transmit counters. -/
  tx : TxCounters
  /-- reply drops. -/
  replyDrops : BitVec 32
  /-- Status slot. -/
  slot : Option Frame
  /-- Reply queue, oldest first. -/
  replies : List OutFrame
  /-- Forwarding queue, oldest first. -/
  forwarding : List Frame
  /-- The frame in transmission. -/
  sending : Option Transmission
  deriving DecidableEq, Repr

/-- Port unit D (R179, R185, R187). -/
structure PortD where
  /-- Link state: true is UP. -/
  up : Bool
  /-- Whether the physical layer detects the signal now; the outside sets it. -/
  signal : Bool
  /-- Receive counters. -/
  rx : RxCounters
  /-- Transmit counters. -/
  tx : TxCounters
  /-- Setpoint slot. -/
  slot : Option Frame
  /-- Pass-through queue, oldest first. -/
  passThrough : List Frame
  /-- The frame in transmission. -/
  sending : Option Transmission
  deriving DecidableEq, Repr

/-- Port unit G (R179, R183, R187). -/
structure PortG where
  /-- Link state: true is UP. -/
  up : Bool
  /-- Whether the physical layer detects the signal now; the outside sets it. -/
  signal : Bool
  /-- Receive counters. -/
  rx : RxCounters
  /-- rx foreign/stale drops. -/
  foreign : BitVec 32
  deriving DecidableEq, Repr

/-- The port units with the two settings they keep (R165, R166, R189). -/
structure PortUnits where
  /-- Port U. -/
  u : PortU
  /-- Port D. -/
  d : PortD
  /-- Port G. -/
  g : PortG
  /-- Own station. -/
  ownStation : Station
  /-- Feed Link type value. -/
  typeValue : BitVec 16
  deriving DecidableEq, Repr

/-! ## The part -/

/-- The whole part, with the queue of commands that wait. -/
structure State where
  /-- The RESET input holds the part in reset (R203). -/
  held : Bool
  /-- Periods of the reference clock since the time base started (R2, section 12.5). -/
  clock : Nat
  /-- Grid Monitor. -/
  gm : GridMonitor
  /-- Ride-Through Controller. -/
  rtc : RideThrough
  /-- Demand Intake. -/
  di : DemandIntake
  /-- Channel Manager. -/
  cm : ChannelManager
  /-- Setpoint Engine. -/
  se : SetpointEngine
  /-- Report Receiver. -/
  rr : ReportReceiver
  /-- Fault and Mode Unit. -/
  fmu : FaultModeUnit
  /-- Capture Unit. -/
  cu : CaptureUnit
  /-- Management Engine. -/
  me : ManagementEngine
  /-- Port units and forwarding fabric. -/
  pu : PortUnits
  /-- The commands that wait, first in, first out. -/
  pending : List Instr
  deriving DecidableEq, Repr

/-- Why the machine would stop. The spec gives every command an effect in every state, so there is no such reason:
no command ends in a fault. -/
inductive Fault where
  deriving DecidableEq, Repr

/-- Why a command would have no meaning. -/
inductive Refusal where
  /-- Raised only by an arm of `exec` whose command has no meaning yet; safe. No arm of this model raises it. -/
  | notModelled (mnemonic : String)
  deriving DecidableEq, Repr

/-! ## Power-on values -/

/-- Counters at 0 (R189). -/
def RxCounters.zero : RxCounters := { good := 0, bytes := 0, fcs := 0, length := 0, header := 0 }

/-- Counters at 0 (R189). -/
def TxCounters.zero : TxCounters := { frames := 0, bytes := 0, drops := 0, discards := 0, overruns := 0 }

/-- No flag (R152). -/
def EventFlags.clear : EventFlags :=
  { sag := false, halt := false, contention := false, fault := false, capture := false, link := false }

/-- R17. -/
def GridMonitor.reset : GridMonitor :=
  { station := 0xF2, fNom := 50000, db := 200, k := 100, fFloor := 500, tGs := 20,
    vLast := 1000, vMaxLast := 1000, fLast := 50000, factor := 1000, seqState := none, gridLost := false,
    silence := none, missed := 0, invalid := 0, handed := [] }

/-- The default row of R19. -/
def EnvelopeRow.default : EnvelopeRow := { threshold := 1, dwell := 0, cap := 0, action := .curtail }

/-- R48. DESIGN CHOICE (log entry 5): the phase, the ramp start and the ramp slope, which R48 does not give. -/
def RideThrough.reset : RideThrough :=
  { rows := Vector.replicate 8 EnvelopeRow.default, nRows := 0, vRecover := 900, vSwell := 1200, tSwell := 0,
    hold := 100, slope := 10, aFb := 500, window := 60000, nRep := 0, state := .normal, prior := none,
    below := Vector.replicate 8 false, active := none, pLow := 1000, pLoss := 1000,
    dwellTimers := Vector.replicate 8 none, swellTimer := none, swellAbove := false, recovery := none,
    phase := .hold, rampStart := 0, rampSlope := 0, sags := [], sagCount := 0 }

/-- R89. -/
def DemandIntake.reset : DemandIntake :=
  { supervisor := 0xF1, tDs := 500, store := Vector.replicate 16 0, pendingTag := 0, appliedTag := 0,
    silence := none, fallbackActive := false, accepted := 0, refused := 0, ignored := 0, handed := [] }

/-- The default entry of channel `c` (R50). -/
def ChannelEntry.default (c : Chan) : ChannelEntry :=
  { enable := false, station := BitVec.ofNat 8 (c.val + 1), group := 0, rank := c, rated := 1000, iMin := 0,
    profile := 0, ready := .self, cmpRef := 0, cmpMask := 0, cmpClass := .hold, fallback := 0 }

/-- The default profile (R56). -/
def Profile.default : Profile := { up := 50, down := 50, recovery := 200, park := 10000 }

/-- R74. -/
def ChannelManager.reset : ChannelManager :=
  { table := Vector.ofFn ChannelEntry.default, groups := Vector.replicate 4 0,
    profiles := Vector.replicate 8 Profile.default, tStart := 3000, chan := Vector.replicate 16 .off,
    startTimers := Vector.replicate 16 none, parkTimers := Vector.replicate 16 none }

/-- R114: the link cycle timer is started at the reset with its latch at 1000 µs. -/
def SetpointEngine.reset : SetpointEngine :=
  { tCyc := 1000, period := 1000, nextCycle := 1000 * Config.clocksPerUs, cycle := 0,
    last := Vector.replicate 16 0, contention := Vector.replicate 16 false, lastAllowance := 0, lastSum := 0,
    work := .idle }

/-- R129. -/
def ReportReceiver.reset : ReportReceiver :=
  { limit := 4, record := Vector.replicate 16 none, age := Vector.replicate 16 0,
    mark := Vector.replicate 16 false, unmatched := 0, expiryDue := false, testDue := none, work := .idle,
    handed := [] }

/-- R152. -/
def FaultModeUnit.reset : FaultModeUnit :=
  { mode := .load, faults := [], droppedTrip := false, dropped := 0, summary := .clear, mask := .clear, handed := [] }

/-- R163. -/
def CaptureUnit.reset : CaptureUnit :=
  { buffer := [], state := .idle, source := .none, trigPending := false, trigPos := none, pPre := 256,
    onSag := true, ignored := 0 }

/-- R201. -/
def ManagementEngine.reset : ManagementEngine :=
  { queue := [], accepted := 0, restart := .none, handed := [] }

/-- R189: every link is DOWN until its signal is first detected. -/
def PortU.reset : PortU :=
  { up := false, signal := false, rx := .zero, foreign := 0, tx := .zero, replyDrops := 0, slot := none,
    replies := [], forwarding := [], sending := none }

/-- R189. -/
def PortD.reset : PortD :=
  { up := false, signal := false, rx := .zero, tx := .zero, slot := none, passThrough := [], sending := none }

/-- R189. -/
def PortG.reset : PortG := { up := false, signal := false, rx := .zero, foreign := 0 }

/-- R189. -/
def PortUnits.reset : PortUnits :=
  { u := .reset, d := .reset, g := .reset, ownStation := 0xF0, typeValue := 0x88B5 }

/-- The part right after a power-on reset, with no signal at any port and no command waiting (R203). -/
def State.reset : State :=
  { held := false, clock := 0, gm := .reset, rtc := .reset, di := .reset, cm := .reset, se := .reset,
    rr := .reset, fmu := .reset, cu := .reset, me := .reset, pu := .reset, pending := [] }

end Sys2Proof.Machine
end

