-- ==== Sys2Proof/Machine/Flags.lean ====
section
/-! DEFINITION. The event flags, the alert mask and the two output pins (R147 to R151, R202), and the order of the
fault classes (R139). -/

namespace Sys2Proof.Machine

/-- The byte of the six flags: bit 0 SAG, 1 HALT, 2 CONTENTION, 3 FAULT, 4 CAPTURE, 5 LINK (R175). -/
def EventFlags.toByte (e : EventFlags) : Byte :=
  BitVec.ofNat 8 (e.sag.toNat + 2 * e.halt.toNat + 4 * e.contention.toNat + 8 * e.fault.toNat +
    16 * e.capture.toNat + 32 * e.link.toNat)

/-- The flags a byte selects: bits 5 to 0, placed as in the event summary (R177). -/
def EventFlags.ofByte (b : Byte) : EventFlags :=
  { sag := b.getLsbD 0, halt := b.getLsbD 1, contention := b.getLsbD 2, fault := b.getLsbD 3,
    capture := b.getLsbD 4, link := b.getLsbD 5 }

/-- The flags of `m` with those `sel` selects set, or cleared; the others unchanged (R149). -/
def EventFlags.write (m sel : EventFlags) (set : Bool) : EventFlags :=
  { sag := if sel.sag then set else m.sag, halt := if sel.halt then set else m.halt,
    contention := if sel.contention then set else m.contention, fault := if sel.fault then set else m.fault,
    capture := if sel.capture then set else m.capture, link := if sel.link then set else m.link }

/-- Some flag is set whose mask bit is also set (R150). -/
def EventFlags.unmasked (e m : EventFlags) : Bool :=
  (e.sag && m.sag) || (e.halt && m.halt) || (e.contention && m.contention) || (e.fault && m.fault) ||
    (e.capture && m.capture) || (e.link && m.link)

/-- The ALERT pin is asserted (R150). -/
def FaultModeUnit.alert (f : FaultModeUnit) : Bool := f.summary.unmasked f.mask

/-- What the part puts on an output pin (R202). -/
inductive PinLevel where
  | low
  | high
  | highZ
  deriving DecidableEq, Repr

/-- The ALERT pin: driven low when asserted, high impedance when released and while the part is held in reset
(R150, R202). -/
def State.alertPin (s : State) : PinLevel :=
  if s.held then .highZ else if s.fmu.alert then .low else .highZ

/-- The TRIP REQUEST pin: high exactly while the Ride-Through Controller is in TRIPPED, low while the part is held in
reset (R151, R202). -/
def State.tripRequestPin (s : State) : PinLevel :=
  if s.held then .low else if s.rtc.state = .tripped then .high else .low

/-- The graver of two classes, TRIP above HOLD above NOTE (R139). -/
def FaultClass.graver : FaultClass → FaultClass → FaultClass
  | .trip, _ => .trip
  | _, .trip => .trip
  | .hold, _ => .hold
  | _, .hold => .hold
  | .note, .note => .note

/-- The class is TRIP or HOLD. -/
def FaultClass.grave : FaultClass → Bool
  | .trip => true
  | .hold => true
  | .note => false

/-- The class of a COMPARE MISMATCH raised for a channel of this compare class (R123, R136). -/
def CompareClass.faultClass : CompareClass → FaultClass
  | .hold => .hold
  | .trip => .trip

end Sys2Proof.Machine
end

