-- ==== Sys2Proof/Machine/Operands.lean ====
section
/-! DEFINITION. Every form in which data enters or leaves the part: bytes and multi-byte fields, the frame check
sequence, the receive checks' view of a frame (R165 to R169), the code values (R178), the payload layouts (R170 to
R176) and the records of management data (R177). -/

namespace Sys2Proof.Machine

/-! ## Bytes -/

/-- `n` in `k` bytes, most significant byte first (section 5.4 of 00_scope.md). -/
def be : Nat → Nat → List Byte
  | 0, _ => []
  | k + 1, n => BitVec.ofNat 8 (n / 256 ^ k) :: be k n

/-- The whole number that bytes spell, most significant first. -/
def ofBe (l : List Byte) : Nat := l.foldl (fun a b => a * 256 + b.toNat) 0

/-- The field of `size` bytes at offset `off`. -/
def field (l : List Byte) (off size : Nat) : Nat := ofBe ((l.drop off).take size)

/-- The byte at offset `off`; 0 past the end. -/
def byteAt (l : List Byte) (off : Nat) : Byte := l.getD off 0

/-- The 16-bit field at offset `off`. -/
def word16 (l : List Byte) (off : Nat) : BitVec 16 := BitVec.ofNat 16 (field l off 2)

/-- `v` as an index below `n`, when it is one. -/
def index? (n v : Nat) : Option (Fin n) := if h : v < n then some ⟨v, h⟩ else none

/-- The 16-bit value whose bit `c` says whether `c` is a member (R175). -/
def memberBits (v : Vector Bool 16) : Nat :=
  (List.finRange 16).foldl (fun a c => a + (v[c]).toNat * 2 ^ c.val) 0

/-! ## The frame check sequence (R167) -/

/-- One bit of the Ethernet CRC-32. PRESUMED (log entry 6): the polynomial, its bit order, the start value and the
final inversion are those of IEEE 802.3. -/
def crcBit (c : Nat) : Nat := if c % 2 = 1 then Nat.xor (c / 2) 0xEDB88320 else c / 2

/-- One byte of the Ethernet CRC-32. -/
def crcByte (c : Nat) (b : Byte) : Nat :=
  crcBit (crcBit (crcBit (crcBit (crcBit (crcBit (crcBit (crcBit (Nat.xor c b.toNat))))))))

/-- The Ethernet CRC-32 of `l`. -/
def crc32 (l : List Byte) : Nat := Nat.xor (l.foldl crcByte 0xFFFFFFFF) 0xFFFFFFFF

/-- The frame check sequence of the bytes before it, as it stands on the link: least significant byte of the CRC
first. PRESUMED (log entry 6). -/
def fcs (l : List Byte) : List Byte := (be 4 (crc32 l)).reverse

/-- The last four bytes of `f` are the frame check sequence of the bytes before them (R167). -/
def fcsMatches (f : Frame) : Bool :=
  decide (4 ≤ f.length) && decide (f.drop (f.length - 4) = fcs (f.take (f.length - 4)))

/-! ## A received frame (R165, R166) -/

/-- The value marks a VLAN tag (R165). -/
def isVlanTag (v : Nat) : Bool := v == 0x8100 || v == 0x88A8

/-- The number of VLAN tags recognised, at most two (R165). -/
def vlanTags (f : Frame) : Nat :=
  if isVlanTag (field f 12 2) then (if isVlanTag (field f 16 2) then 2 else 1) else 0

/-- The type field (R165). -/
def typeField (f : Frame) : BitVec 16 := word16 f (12 + 4 * vlanTags f)

/-- Where the Feed Link header starts. -/
def headerStart (f : Frame) : Nat := 14 + 4 * vlanTags f

/-- The frame's length lies within the bounds of R167. -/
def lengthOk (f : Frame) : Bool := decide (64 ≤ f.length) && decide (f.length ≤ 1518 + 4 * vlanTags f)

/-- A Feed Link header (R166). -/
structure Header where
  /-- Version. -/
  version : Byte
  /-- Kind. -/
  kind : Byte
  /-- Declared payload length. -/
  length : Nat
  /-- Source station. -/
  source : Station
  /-- Destination station. -/
  dest : Station
  /-- Sequence. -/
  seq : BitVec 16
  deriving DecidableEq, Repr

/-- The Feed Link header of a frame. -/
def headerOf (f : Frame) : Header :=
  let h := f.drop (headerStart f)
  { version := byteAt h 0, kind := byteAt h 1, length := field h 2 2, source := byteAt h 4, dest := byteAt h 5,
    seq := word16 h 6 }

/-- The bytes between the end of the header and the start of the FCS. -/
def afterHeader (f : Frame) : List Byte := (f.drop (headerStart f + 8)).take (f.length - (headerStart f + 8) - 4)

/-- The declared payload. -/
def payloadOf (f : Frame) : List Byte := (afterHeader f).take (headerOf f).length

/-! ## Code values (R178) -/

/-- Kind GRID SAMPLE. -/
def kindGridSample : Byte := 0x10
/-- Kind DISPATCH. -/
def kindDispatch : Byte := 0x20
/-- Kind SETPOINT. -/
def kindSetpoint : Byte := 0x30
/-- Kind REPORT. -/
def kindReport : Byte := 0x40
/-- Kind CONTROLLER STATUS. -/
def kindStatus : Byte := 0x50
/-- Kind MGMT REQUEST. -/
def kindRequest : Byte := 0x60
/-- Kind MGMT REPLY. -/
def kindReply : Byte := 0x61

/-- The orders of a setpoint frame (R104). -/
inductive Order where
  | standby
  | start
  | run
  | block
  | trip
  deriving DecidableEq, Repr

/-- Code of an order. -/
def Order.code : Order → Byte
  | .standby => 0x01
  | .start => 0x02
  | .run => 0x03
  | .block => 0x04
  | .trip => 0x05

/-- The six rectifier states (R178). -/
inductive RectifierState where
  | off
  | standby
  | ready
  | running
  | blocked
  | fault
  deriving DecidableEq, Repr

/-- The rectifier state a report's state byte names, or none (R122). -/
def rectifierState? (b : Byte) : Option RectifierState :=
  if b = 0x00 then some .off else if b = 0x01 then some .standby else if b = 0x02 then some .ready
  else if b = 0x03 then some .running else if b = 0x04 then some .blocked else if b = 0x05 then some .fault
  else none

/-- Code of a channel state. -/
def ChannelState.code : ChannelState → Byte
  | .off => 0x00
  | .standby => 0x01
  | .starting => 0x02
  | .running => 0x03
  | .parked => 0x04
  | .faulted => 0x05

/-- Code of a part mode. -/
def PartMode.code : PartMode → Byte
  | .load => 0x0
  | .run => 0x1
  | .halt => 0x2

/-- Code of a controller state. -/
def RtcState.code : RtcState → Byte
  | .normal => 0x0
  | .sag => 0x1
  | .recover => 0x2
  | .gridLost => 0x3
  | .tripped => 0x4

/-- Code of a capture state. -/
def CaptureState.code : CaptureState → Byte
  | .idle => 0x00
  | .armed => 0x01
  | .triggered => 0x02
  | .complete => 0x03

/-- Code of a trigger source. -/
def TriggerSource.code : TriggerSource → Byte
  | .none => 0x00
  | .sag => 0x01
  | .halt => 0x02
  | .request => 0x03

/-- Code of a fault class. -/
def FaultClass.code : FaultClass → Byte
  | .trip => 0x01
  | .hold => 0x02
  | .note => 0x03

/-- Code of a port as a subject. -/
def portCode : Port → Byte
  | .u => 0x10
  | .d => 0x11
  | .g => 0x12

/-- Code of a subject. -/
def Subject.code : Subject → Byte
  | .channel c => BitVec.ofNat 8 c.val
  | .port p => portCode p
  | .none => 0xFF

/-- Code of a fault. -/
def FaultCode.code : FaultCode → Byte
  | .envelopeExit => 0x01
  | .swellExit => 0x02
  | .repeatedSag => 0x03
  | .gridDataLost => 0x04
  | .dispatchLost => 0x05
  | .linkDown => 0x06
  | .dispatchRefused => 0x07
  | .managementOverrun => 0x08
  | .startTimeout => 0x10
  | .reportLoss => 0x11
  | .rectifierFault => 0x12
  | .compareMismatch => 0x13
  | .rectifierLeftRun => 0x14
  | .parkLimit => 0x15
  | .demandClamped => 0x16

/-- The results of a management request (R192). -/
inductive Result where
  | done
  | busy
  | badObject
  | badIndex
  | badValue
  | badMode
  | badLength
  deriving DecidableEq, Repr

/-- Code of a result. -/
def Result.code : Result → Byte
  | .done => 0x00
  | .busy => 0x01
  | .badObject => 0x02
  | .badIndex => 0x03
  | .badValue => 0x04
  | .badMode => 0x05
  | .badLength => 0x06

/-- The management operations (R178). -/
inductive Operation where
  | read
  | write
  | readAndClear
  | mode
  | ackHead
  | ackAll
  | arm
  | trigger
  | abort
  | mask
  | counterWrite
  | restart
  deriving DecidableEq, Repr

/-- Code of an operation. -/
def Operation.code : Operation → Byte
  | .read => 0x01
  | .write => 0x02
  | .readAndClear => 0x03
  | .mode => 0x10
  | .ackHead => 0x11
  | .ackAll => 0x12
  | .arm => 0x13
  | .trigger => 0x14
  | .abort => 0x15
  | .mask => 0x16
  | .counterWrite => 0x17
  | .restart => 0x18

/-- Every operation, in the order of the table. -/
def allOperations : List Operation :=
  [.read, .write, .readAndClear, .mode, .ackHead, .ackAll, .arm, .trigger, .abort, .mask, .counterWrite, .restart]

/-- The operation an operation code names (R193, check 1). -/
def operation? (b : Byte) : Option Operation := allOperations.find? (fun o => o.code == b)

/-- The management objects, with the code 0x00 of an action that names none (R176, R178). -/
inductive Object where
  | none
  | global
  | envelope
  | swell
  | channel
  | group
  | profile
  | counter
  | channelState
  | fault
  | sagList
  | capture
  | summary
  | contention
  deriving DecidableEq, Repr

/-- Code of an object. -/
def Object.code : Object → Byte
  | .none => 0x00
  | .global => 0x01
  | .envelope => 0x02
  | .swell => 0x03
  | .channel => 0x04
  | .group => 0x05
  | .profile => 0x06
  | .counter => 0x07
  | .channelState => 0x08
  | .fault => 0x09
  | .sagList => 0x0A
  | .capture => 0x0B
  | .summary => 0x0C
  | .contention => 0x0D

/-- Every object, in the order of the table. -/
def allObjects : List Object :=
  [.none, .global, .envelope, .swell, .channel, .group, .profile, .counter, .channelState, .fault, .sagList,
    .capture, .summary, .contention]

/-- The object an object code names. -/
def object? (b : Byte) : Option Object := allObjects.find? (fun o => o.code == b)

/-- The mode requests (R178). -/
inductive ModeRequest where
  | run
  | halt
  | resume
  | load
  deriving DecidableEq, Repr

/-- The mode request a code names, or none (R199). -/
def modeRequest? (b : Byte) : Option ModeRequest :=
  if b = 0x01 then some .run else if b = 0x02 then some .halt else if b = 0x03 then some .resume
  else if b = 0x04 then some .load else none

/-! ## Header checks (R168, R169) -/

/-- The payload lengths a kind allows (R169). -/
def allowedLength (kind : Byte) (n : Nat) : Bool :=
  if kind = kindGridSample then n == 12
  else if kind = kindDispatch then decide (8 ≤ n) && decide (n ≤ 68) && n % 4 == 0
  else if kind = kindReport then decide (6 ≤ n)
  else if kind = kindRequest then decide (8 ≤ n)
  else false

/-- The kinds known at a port (R168). -/
def kindKnown (p : Port) (kind : Byte) : Bool :=
  match p with
  | .u => kind == kindDispatch || kind == kindRequest
  | .d => kind == kindReport
  | .g => kind == kindGridSample

/-- What the header checks of R168 decide about a frame they are given. -/
inductive HeaderVerdict where
  /-- The frame fails a check and is dropped as a header error. -/
  | error
  /-- The frame is good and goes to the block its kind names. -/
  | deliver
  /-- At port D: version 1 and a kind other than REPORT; the frame goes to port U's forwarding queue. -/
  | forward
  deriving DecidableEq, Repr

/-- The header checks, in their order (R168). DEDUCED (log entry 7): a frame that check 2 sends on at port D is given
no further check. -/
def headerVerdict (p : Port) (f : Frame) : HeaderVerdict :=
  let h := headerOf f
  let present := (afterHeader f).length
  if h.version ≠ 1 then .error
  else if p = .d ∧ kindKnown p h.kind = false then .forward
  else if kindKnown p h.kind = false then .error
  else if present < h.length then .error
  else if h.length < present ∧ f.length ≠ 64 then .error
  else if allowedLength h.kind h.length = false then .error
  else .deliver

/-! ## Payloads received (R171, R172, R174, R176) -/

/-- A GRID SAMPLE frame (R171). -/
def gridSampleOf (f : Frame) : GridSample :=
  let h := headerOf f
  let p := payloadOf f
  { source := h.source, seq := h.seq, quality := word16 p 0, vab := field p 2 2, vbc := field p 4 2,
    vca := field p 6 2, freq := field p 8 4 }

/-- The `k` dispatch entries from entry `j` on (R172). -/
def dispatchEntries (p : List Byte) : Nat → Nat → List DispatchEntry
  | _, 0 => []
  | j, k + 1 =>
    { channel := (byteAt p (4 + 4 * j)).toNat, demand := field p (6 + 4 * j) 2 } :: dispatchEntries p (j + 1) k

/-- A DISPATCH frame (R172). -/
def dispatchOf (f : Frame) : Dispatch :=
  let h := headerOf f
  let p := payloadOf f
  { source := h.source, length := h.length, tag := word16 p 0, count := (byteAt p 2).toNat,
    entries := dispatchEntries p 0 ((h.length - 4) / 4) }

/-- A REPORT frame (R174). -/
def reportOf (f : Frame) : Report :=
  let p := payloadOf f
  { raw := f, source := (headerOf f).source, state := byteAt p 0, reserved := byteAt p 1, status := word16 p 2,
    current := field p 4 2 }

/-- A MGMT REQUEST frame (R176). -/
def requestOf (f : Frame) : Request :=
  let h := headerOf f
  let p := payloadOf f
  { source := h.source, seq := h.seq, id := word16 p 0, op := byteAt p 2, object := byteAt p 3, index := field p 4 2,
    count := field p 6 2, data := p.drop 8 }

/-! ## Frames the part builds (R170) -/

/-- The bytes of a frame before its FCS, without padding (R170). -/
def frameBody (own : Station) (type : BitVec 16) (kind : Byte) (dest : Station) (seq : BitVec 16)
    (payload : List Byte) : List Byte :=
  [0xFF, 0xFF, 0xFF, 0xFF, 0xFF, 0xFF, 0x02, 0x00, 0x00, 0x00, 0x00, own] ++ be 2 type.toNat ++
    ([0x01, kind] ++ be 2 payload.length ++ [own, dest] ++ be 2 seq.toNat) ++ payload

/-- A frame the part originates, padded with zero bytes to 64 bytes, with its FCS (R170). -/
def buildFrame (own : Station) (type : BitVec 16) (kind : Byte) (dest : Station) (seq : BitVec 16)
    (payload : List Byte) : Frame :=
  let body := frameBody own type kind dest seq payload
  let padded := body ++ List.replicate (60 - body.length) 0
  padded ++ fcs padded

/-! ## The setpoint and status payloads (R173, R175) -/

/-- One entry of a setpoint frame (R173). -/
structure SetpointEntry where
  /-- Station. -/
  station : Station
  /-- Order. -/
  order : Order
  /-- Command current, A. -/
  command : Nat
  deriving DecidableEq, Repr

/-- The content of a setpoint frame (R106). -/
structure SetpointContent where
  /-- Cycle number. -/
  cycle : BitVec 16
  /-- Applied tag. -/
  tag : BitVec 16
  /-- Allowance A used. -/
  allowance : Nat
  /-- Part mode. -/
  mode : PartMode
  /-- Controller state. -/
  rtc : RtcState
  /-- Entries, in ascending channel number. -/
  entries : List SetpointEntry
  deriving DecidableEq, Repr

/-- The payload of a SETPOINT frame (R173). -/
def SetpointContent.payload (c : SetpointContent) : List Byte :=
  be 2 c.cycle.toNat ++ be 2 c.tag.toNat ++ be 2 c.allowance ++
    [BitVec.ofNat 8 (16 * c.mode.code.toNat + c.rtc.code.toNat), BitVec.ofNat 8 c.entries.length] ++
    c.entries.flatMap (fun e => [e.station, e.order.code] ++ be 2 e.command)

/-- One channel block of a status frame (R175). -/
structure ChannelBlock where
  /-- Channel state. -/
  state : ChannelState
  /-- Order. -/
  order : Order
  /-- Command current, A. -/
  command : Nat
  /-- Measured current, A. -/
  measured : Nat
  deriving DecidableEq, Repr

/-- The content of a controller status frame (R108, R109). -/
structure StatusContent where
  /-- Cycle number. -/
  cycle : BitVec 16
  /-- Applied tag. -/
  tag : BitVec 16
  /-- Part mode. -/
  mode : PartMode
  /-- Controller state. -/
  rtc : RtcState
  /-- Active row, or none. -/
  active : Option Row
  /-- Port link states, U, D and G; true is UP. -/
  links : Bool × Bool × Bool
  /-- Allowance A used. -/
  allowance : Nat
  /-- F. -/
  factor : Nat
  /-- v_last. -/
  vLast : Nat
  /-- f_last. -/
  fLast : Nat
  /-- Event summary. -/
  summary : EventFlags
  /-- Alert mask. -/
  mask : EventFlags
  /-- Fault list count. -/
  faultCount : Nat
  /-- The head of the fault list, or none. -/
  head : Option (FaultCode × Subject)
  /-- Dropped-trip flag. -/
  droppedTrip : Bool
  /-- Fallback-active flag. -/
  fallbackActive : Bool
  /-- Grid-lost flag. -/
  gridLost : Bool
  /-- Contention record. -/
  contention : Vector Bool 16
  /-- The sixteen channel blocks. -/
  blocks : Vector ChannelBlock 16
  deriving DecidableEq, Repr

/-- The byte of an active row: 0xFF when none (R175). -/
def rowByte : Option Row → Byte
  | none => 0xFF
  | some i => BitVec.ofNat 8 i.val

/-- The payload of a CONTROLLER STATUS frame, 122 bytes (R175). -/
def StatusContent.payload (c : StatusContent) : List Byte :=
  be 2 c.cycle.toNat ++ be 2 c.tag.toNat ++
    [c.mode.code, c.rtc.code, rowByte c.active,
      BitVec.ofNat 8 (c.links.1.toNat + 2 * c.links.2.1.toNat + 4 * c.links.2.2.toNat)] ++
    be 2 c.allowance ++ be 2 c.factor ++ be 2 c.vLast ++ be 4 c.fLast ++
    [c.summary.toByte, c.mask.toByte, BitVec.ofNat 8 c.faultCount,
      (match c.head with | none => 0x00 | some h => h.1.code),
      (match c.head with | none => 0xFF | some h => h.2.code),
      BitVec.ofNat 8 (c.droppedTrip.toNat + 2 * c.fallbackActive.toNat + 4 * c.gridLost.toNat)] ++
    be 2 (memberBits c.contention) ++
    (List.finRange 16).flatMap (fun i =>
      [(c.blocks[i]).state.code, (c.blocks[i]).order.code] ++ be 2 (c.blocks[i]).command ++
        be 2 (c.blocks[i]).measured)

/-! ## Management replies (R176, R192) -/

/-- The content of a reply. -/
structure ReplyContent where
  /-- Result. -/
  result : Result
  /-- Object code. -/
  object : Byte
  /-- Index. -/
  index : Nat
  /-- Count. -/
  count : Nat
  /-- Data. -/
  data : List Byte
  deriving DecidableEq, Repr

/-- The payload of the MGMT REPLY to `q` (R176). -/
def ReplyContent.payload (c : ReplyContent) (q : Request) : List Byte :=
  be 2 q.id.toNat ++ [c.result.code, q.op, c.object] ++ be 2 c.index ++ be 2 c.count ++ c.data

/-! ## Records of management data (R177) -/

/-- A rectifier station, 0x01 to 0xEF (R166). -/
def isRectifierStation (v : Nat) : Bool := decide (1 ≤ v) && decide (v ≤ 0xEF)

/-- The numeric fields of a channel entry lie in their ranges (R50). -/
def ChannelEntry.inRange (e : ChannelEntry) : Bool :=
  isRectifierStation e.station.toNat && decide (100 ≤ e.rated) && decide (e.rated ≤ 60000) &&
    decide (e.iMin ≤ e.rated) && decide (e.fallback ≤ e.rated)

/-- A flag byte: 0x00 no, 0x01 yes, anything else out of range. -/
def flagByte? (b : Byte) : Option Bool := if b = 0 then some false else if b = 1 then some true else none

/-- A ready source byte: 0xFF SELF, else a leader 0 to 15. -/
def readyByte? (b : Byte) : Option ReadySource :=
  if b = 0xFF then some .self else (index? 16 b.toNat).map .leader

/-- A compare class byte: the class code of HOLD or TRIP. -/
def compareByte? (b : Byte) : Option CompareClass :=
  if b = 0x01 then some .trip else if b = 0x02 then some .hold else none

/-- The channel entry that 18 bytes spell, when every field lies in its range (R50, R51 step 1, R177). The reserved
byte is not examined. -/
def channelEntry? (l : List Byte) : Option ChannelEntry :=
  match flagByte? (byteAt l 0), index? 4 (field l 2 1), index? 16 (field l 3 1), index? 8 (field l 8 1),
      readyByte? (byteAt l 9), compareByte? (byteAt l 14) with
  | some en, some g, some rk, some pr, some rs, some cc =>
    let e : ChannelEntry :=
      { enable := en, station := byteAt l 1, group := g, rank := rk, rated := field l 4 2, iMin := field l 6 2,
        profile := pr, ready := rs, cmpRef := word16 l 10, cmpMask := word16 l 12, cmpClass := cc,
        fallback := field l 16 2 }
    if e.inRange then some e else none
  | _, _, _, _, _, _ => none

/-- The byte of a ready source. -/
def ReadySource.byte : ReadySource → Byte
  | .self => 0xFF
  | .leader c => BitVec.ofNat 8 c.val

/-- The 18 bytes of a channel entry (R177). -/
def ChannelEntry.bytes (e : ChannelEntry) : List Byte :=
  [BitVec.ofNat 8 e.enable.toNat, e.station, BitVec.ofNat 8 e.group.val, BitVec.ofNat 8 e.rank.val] ++
    be 2 e.rated ++ be 2 e.iMin ++ [BitVec.ofNat 8 e.profile.val, e.ready.byte] ++ be 2 e.cmpRef.toNat ++
    be 2 e.cmpMask.toNat ++ [e.cmpClass.faultClass.code, 0] ++ be 2 e.fallback

/-- The numeric fields of an envelope row lie in their ranges (R19). -/
def EnvelopeRow.inRange (r : EnvelopeRow) : Bool :=
  decide (1 ≤ r.threshold) && decide (r.threshold ≤ 1099) && decide (r.dwell ≤ 60000) && decide (r.cap ≤ 1000)

/-- The envelope row that 8 bytes spell, when every field lies in its range (R19, R177). -/
def envelopeRow? (l : List Byte) : Option EnvelopeRow :=
  match flagByte? (byteAt l 6) with
  | some blk =>
    let r : EnvelopeRow :=
      { threshold := field l 0 2, dwell := field l 2 2, cap := field l 4 2,
        action := if blk then .block else .curtail }
    if r.inRange then some r else none
  | none => none

/-- The byte of a row's action. -/
def RowAction.byte : RowAction → Byte
  | .curtail => 0x00
  | .block => 0x01

/-- The 8 bytes of an envelope row (R177). -/
def EnvelopeRow.bytes (r : EnvelopeRow) : List Byte :=
  be 2 r.threshold ++ be 2 r.dwell ++ be 2 r.cap ++ [r.action.byte, 0]

/-- The fields of a profile lie in their ranges (R56). -/
def Profile.inRange (p : Profile) : Bool :=
  decide (1 ≤ p.up) && decide (p.up ≤ 5000) && decide (1 ≤ p.down) && decide (p.down ≤ 5000) &&
    decide (1 ≤ p.recovery) && decide (p.recovery ≤ 5000) && decide (p.park ≤ 600000)

/-- The profile that 10 bytes spell, when every field lies in its range (R56, R177). -/
def profile? (l : List Byte) : Option Profile :=
  let p : Profile := { up := field l 0 2, down := field l 2 2, recovery := field l 4 2, park := field l 6 4 }
  if p.inRange then some p else none

/-- The 10 bytes of a profile (R177). -/
def Profile.bytes (p : Profile) : List Byte := be 2 p.up ++ be 2 p.down ++ be 2 p.recovery ++ be 4 p.park

/-- The 10 bytes of a channel state record (R177). -/
def channelStateBytes (st : ChannelState) (age : Nat) (r : Option ReportRecord) : List Byte :=
  match r with
  | none => [st.code, BitVec.ofNat 8 age, 0, 0, 0, 0, 0, 0, 0, 0]
  | some r =>
    [st.code, BitVec.ofNat 8 age, 1, r.state, r.reserved, 0] ++ be 2 r.status.toNat ++ be 2 r.current

/-- The 12 bytes of a fault entry (R177). -/
def FaultEntry.bytes (e : FaultEntry) : List Byte :=
  [e.code.code, e.cls.code, e.subject.code, BitVec.ofNat 8 e.count] ++ be 4 e.time.toNat ++
    (match e.gridSeq with
      | none => [0, 0, 0, 0]
      | some q => [1, 0] ++ be 2 q.toNat)

/-- The data of a SAGLIST read (R177). -/
def sagListBytes (count : BitVec 32) (l : List (BitVec 32)) : List Byte :=
  be 4 count.toNat ++ [BitVec.ofNat 8 l.length] ++ l.flatMap (fun t => be 4 t.toNat)

/-- The 6 bytes of a capture summary (R177). -/
def CaptureUnit.summaryBytes (c : CaptureUnit) : List Byte :=
  [c.state.code, c.source.code] ++ be 2 c.buffer.length ++
    (match c.trigPos with | none => [0xFF, 0xFF] | some p => be 2 p)

/-- The 26 bytes of a capture record (R177). -/
def CaptureRecord.bytes (r : CaptureRecord) : List Byte :=
  be 4 r.time.toNat ++ be 2 r.seq.toNat ++
    [BitVec.ofNat 8 (r.valid.toNat + 2 * r.trigger.toNat + 4 * r.active.isSome.toNat), r.rtc.code,
      rowByte r.active, 0] ++
    be 2 r.vMin ++ be 2 r.vMax ++ be 4 r.freq ++ be 2 r.allowance ++ be 2 r.factor ++ be 4 r.sum

end Sys2Proof.Machine
end

