-- ==== Sys2Proof/Machine/Ops.lean ====
section
/-! DEFINITION. The operations that the commands share: the passing of time and the timers (R2), the pruning of the
recent-sag list (R30), raising a fault and entering HALT (R133, R136 to R141), the events the Channel Manager takes
(R61, R66 to R69), the Capture Unit's records and triggers (R157 to R159), and handing frames to the transmitters
(R180, R184 to R186). -/

namespace Sys2Proof.Machine

/-! ## Time -/

/-- Whole milliseconds since the time base started. -/
def State.ms (s : State) : Nat := s.clock / Config.clocksPerMs

/-- The time base value after `ms` milliseconds: a 32-bit count that wraps (R2). -/
def timeBaseAt (ms : Nat) : BitVec 32 := BitVec.ofNat 32 ms

/-- The time base (R2). -/
def State.timeBase (s : State) : BitVec 32 := timeBaseAt s.ms

/-- A one-shot millisecond timer loaded with `n` at millisecond `ms` and started: it expires at the `n`-th
millisecond boundary after its load (R2). -/
def startTimer (ms n : Nat) : Timer := some (ms + n)

/-- The age of a recent-sag entry: the time base value now minus the entry, modulo 2^32 (R30). -/
def sagAge (now t : BitVec 32) : Nat := (now - t).toNat

/-- The entries whose age does not exceed `w` (R30). -/
def pruneSags (now : BitVec 32) (w : Nat) (l : List (BitVec 32)) : List (BitVec 32) :=
  l.filter (fun t => decide (sagAge now t ≤ w))

/-- The recent-sag list without the entries whose age exceeds W (R30). -/
def RideThrough.prune (now : BitVec 32) (r : RideThrough) : RideThrough :=
  { r with sags := pruneSags now r.window r.sags }

/-- The recent-sag list after `passed` milliseconds during which the time base moved on from `now`: the entries whose
age grew beyond W on the way have left it (R30). -/
def RideThrough.ageSags (now : BitVec 32) (passed : Nat) (r : RideThrough) : RideThrough :=
  { r with sags := r.sags.filter (fun t => decide (sagAge now t + passed ≤ r.window)) }

/-- Time passes until reference clock period `t`, if that is still to come. At the millisecond boundaries it
passes, the entries of the recent-sag list that grow older than W leave the list (R30). -/
def State.advanceTo (t : Nat) (s : State) : State :=
  let clock := max s.clock t
  { s with clock := clock, rtc := s.rtc.ageSags s.timeBase (clock / Config.clocksPerMs - s.ms) }

/-- Time passes until the `m`-th millisecond boundary of the time base. -/
def State.advanceMs (m : Nat) (s : State) : State := s.advanceTo (m * Config.clocksPerMs)

/-- What the part does while no command waits: time passes until the next millisecond boundary. While the part is held
in reset the time base does not run (R203). -/
def State.tick (s : State) : State := if s.held then s else s.advanceMs (s.ms + 1)

/-- A command takes effect unless the part is held in reset: its ports then receive nothing and send nothing, and its
timers and the time base do not run (R203). -/
def State.live (f : State → State) (s : State) : State := if s.held then s else f s

/-- An expiry of timer `t`: on a running timer, time passes until the boundary at which it expires, and `f` is what
the expiry does; a stopped timer has no expiry. -/
def State.onExpiry (t : Timer) (f : State → State) (s : State) : State :=
  match t with
  | none => s
  | some m => f (s.advanceMs m)

/-! ## Channel Manager events -/

/-- The channel is STARTING, RUNNING or PARKED (R51, R69). -/
def ChannelState.isActive : ChannelState → Bool
  | .starting => true
  | .running => true
  | .parked => true
  | .off => false
  | .standby => false
  | .faulted => false

/-- The channel is RUNNING or PARKED. -/
def ChannelState.isOn : ChannelState → Bool
  | .running => true
  | .parked => true
  | .starting => false
  | .off => false
  | .standby => false
  | .faulted => false

/-- Channel `c` passes to state `st` with both its timers stopped. -/
def ChannelManager.pass (m : ChannelManager) (c : Chan) (st : ChannelState) : ChannelManager :=
  { m with chan := m.chan.set c st, startTimers := m.startTimers.set c none, parkTimers := m.parkTimers.set c none }

/-- The Channel Manager takes an event for channel `c` (R61, R66, R67). -/
def ChannelManager.take (m : ChannelManager) (c : Chan) (e : ChannelEvent) : ChannelManager :=
  match e with
  | .ready => if m.chan[c] = .starting then m.pass c .running else m
  | .fault => if (m.chan[c]).isOn then m.pass c .faulted else m
  | .leftRun => if (m.chan[c]).isOn then m.pass c .standby else m

/-- The Channel Manager takes a release event for channel `c` (R68). -/
def ChannelManager.release (m : ChannelManager) (c : Chan) : ChannelManager :=
  if m.chan[c] = .faulted then m.pass c .standby else m

/-- A release event for every channel (R143). -/
def ChannelManager.releaseAll (m : ChannelManager) : ChannelManager :=
  (List.finRange 16).foldl ChannelManager.release m

/-- Entry to HALT: every STARTING, RUNNING or PARKED channel passes to STANDBY with its timer stopped (R69). -/
def ChannelManager.enterHalt (m : ChannelManager) : ChannelManager :=
  { m with
    chan := Vector.ofFn fun c => if (m.chan[c]).isActive then .standby else m.chan[c]
    startTimers := Vector.ofFn fun c => if (m.chan[c]).isActive then none else m.startTimers[c]
    parkTimers := Vector.ofFn fun c => if (m.chan[c]).isActive then none else m.parkTimers[c] }

/-- The states of R69 at entry to LOAD and of R75 after a RESTART: enabled channels in STANDBY, disabled ones OFF. -/
def ChannelManager.standbyStates (m : ChannelManager) : Vector ChannelState 16 :=
  Vector.ofFn fun c => if (m.table[c]).enable then .standby else .off

/-! ## Capture Unit -/

/-- Add 1 to the ignored-triggers counter (R159). -/
def CaptureUnit.ignoreTrigger (c : CaptureUnit) : CaptureUnit := { c with ignored := c.ignored + 1 }

/-- A HALT or REQUEST trigger (R158); outside ARMED it is ignored and counted (R159). -/
def CaptureUnit.trigger (src : TriggerSource) (c : CaptureUnit) : CaptureUnit :=
  if c.state = .armed then { c with state := .triggered, source := src, trigPending := true }
  else c.ignoreTrigger

/-- The records from the trigger record onward (R157). -/
def CaptureUnit.fromTrigger (c : CaptureUnit) : Nat :=
  match c.trigPos with
  | none => 0
  | some p => c.buffer.length - p

/-- COMPLETE is entered when the records from the trigger record onward reach 1024 − P_pre (R157). -/
def CaptureUnit.settle (c : CaptureUnit) : CaptureUnit :=
  if Config.captureDepth - c.pPre ≤ c.fromTrigger then { c with state := .complete } else c

/-- The record is appended as the trigger record of a capture in TRIGGERED (R157). -/
def CaptureUnit.appendTrigger (r : CaptureRecord) (c : CaptureUnit) : CaptureUnit :=
  CaptureUnit.settle
    { c with buffer := c.buffer ++ [{ r with trigger := true }], trigPos := some c.buffer.length,
             trigPending := false, state := .triggered }

/-- The record is appended at the end of an ARMED window; when the buffer then holds more than P_pre records, the
oldest is removed (R157). -/
def CaptureUnit.appendWindow (r : CaptureRecord) (c : CaptureUnit) : CaptureUnit :=
  let b := c.buffer ++ [r]
  { c with buffer := if c.pPre < b.length then b.tail else b }

/-- The Capture Unit acts on a finished record, which bears the sag mark when `sagMark` is set (R157 to R159). -/
def CaptureUnit.takeRecord (r : CaptureRecord) (sagMark : Bool) (c : CaptureUnit) : CaptureUnit :=
  let sagTrigger := sagMark && c.onSag
  let counted := if sagTrigger then c.ignoreTrigger else c
  match c.state with
  | .idle => counted
  | .complete => counted
  | .armed => if sagTrigger then CaptureUnit.appendTrigger r { c with source := .sag } else c.appendWindow r
  | .triggered =>
    if c.trigPending then counted.appendTrigger r
    else CaptureUnit.settle { counted with buffer := counted.buffer ++ [r] }

/-! ## Faults and the entry to HALT -/

/-- The entry has the code and subject of the raising (R139). -/
def FaultEntry.matches (e : FaultEntry) (r : Raising) : Bool :=
  decide (e.code = r.code) && decide (e.subject = r.subject)

/-- A repeat: 1 more on the repeat count, up to 255, and the graver of the two classes (R139). -/
def FaultEntry.repeated (e : FaultEntry) (r : Raising) : FaultEntry :=
  { e with count := min 255 (e.count + 1), cls := e.cls.graver r.cls }

/-- The list without its newest NOTE entry, when it holds one (R140). -/
def dropNewestNote : List FaultEntry → Option (List FaultEntry)
  | [] => none
  | e :: l =>
    match dropNewestNote l with
    | some l' => some (e :: l')
    | none => if e.cls = .note then some l else none

/-- The Fault and Mode Unit takes a raising into its list, or drops it (R138 to R141). -/
def FaultModeUnit.record (f : FaultModeUnit) (r : Raising) (now : BitVec 32) (gridSeq : Option (BitVec 16)) :
    FaultModeUnit :=
  let entry : FaultEntry :=
    { code := r.code, cls := r.cls, subject := r.subject, time := now, gridSeq := gridSeq, count := 1 }
  if f.faults.any (fun e => e.matches r) then
    { f with faults := f.faults.map (fun e => if e.matches r then e.repeated r else e) }
  else if f.faults.length < Config.faultDepth then
    { f with faults := f.faults ++ [entry], summary := { f.summary with fault := true } }
  else if r.cls.grave then
    match dropNewestNote f.faults with
    | some l =>
      { f with faults := l ++ [entry], summary := { f.summary with fault := true }, dropped := f.dropped + 1 }
    | none =>
      { f with dropped := f.dropped + 1, droppedTrip := f.droppedTrip || decide (r.cls = .trip) }
  else { f with dropped := f.dropped + 1 }

/-- The part enters HALT (R133): the HALT flag, the HALT notice to the Capture Unit (R158), and the notices of R131
to the Channel Manager (R69) and the Demand Intake (R81). The Ride-Through Controller keeps its state (R24). -/
def State.enterHalt (s : State) : State :=
  { s with
    fmu := { s.fmu with mode := .halt, summary := { s.fmu.summary with halt := true } }
    cu := s.cu.trigger .halt
    cm := s.cm.enterHalt
    di := { s.di with silence := none } }

/-- A block raises a fault: the list takes it or drops it, and a TRIP-class raising taken in RUN puts the part in HALT
whatever became of the entry (R136, R137). -/
def State.raise (r : Raising) (s : State) : State :=
  let s' := { s with fmu := s.fmu.record r s.timeBase s.gm.seqState }
  if r.cls = .trip ∧ s.fmu.mode = .run then s'.enterHalt else s'

/-- A raising is handed to the Fault and Mode Unit, which has yet to take it (R111). -/
def State.handRaising (r : Raising) (s : State) : State :=
  { s with fmu := { s.fmu with handed := s.fmu.handed ++ [r] } }

/-- The Fault and Mode Unit takes the oldest raising of `code` that has been handed to it, if there is one. -/
def State.takeRaising (code : FaultCode) (s : State) : State :=
  match s.fmu.handed.find? (fun r => decide (r.code = code)) with
  | none => s
  | some r =>
    State.raise r { s with fmu := { s.fmu with
      handed := s.fmu.handed.eraseP (fun x => decide (x.code = code)) } }

/-- Raisings taken one after another. -/
def State.raiseAll (l : List Raising) (s : State) : State := l.foldl (fun s r => s.raise r) s

/-- The Fault and Mode Unit takes every raising that has been handed to it, oldest first. -/
def State.takeRaisings (s : State) : State :=
  State.raiseAll s.fmu.handed { s with fmu := { s.fmu with handed := [] } }

/-- The Capture Unit acts on a record; completion sets the CAPTURE flag (R147, R157). -/
def State.takeRecord (r : CaptureRecord) (sagMark : Bool) (s : State) : State :=
  let c := s.cu.takeRecord r sagMark
  let done := decide (c.state = .complete) && decide (s.cu.state ≠ .complete)
  { s with cu := c, fmu := { s.fmu with summary := { s.fmu.summary with capture := s.fmu.summary.capture || done } } }

/-! ## Transmitters -/

/-- Periods of the reference clock for which a frame holds the link: (L + 20) × 8 / 100 µs (R185). -/
def holdClocks (f : Frame) : Nat := (f.length + 20) * 8 * Config.clocksPerUs / 100

/-- The transmission of `o` begun at clock period `clock`. -/
def beginSending (clock : Nat) (o : OutFrame) : Transmission := { out := o, endsAt := clock + holdClocks o.frame }

/-- A frame that is not the RESTART reply. -/
def plainOut (f : Frame) : OutFrame := { frame := f, isRestart := false }

/-- Port D's transmitter, when free, takes the setpoint slot, else the head of the pass-through queue (R185). -/
def PortD.serve (clock : Nat) (p : PortD) : PortD :=
  match p.sending, p.slot, p.passThrough with
  | some _, _, _ => p
  | none, some f, _ => { p with slot := none, sending := some (beginSending clock (plainOut f)) }
  | none, none, f :: q => { p with passThrough := q, sending := some (beginSending clock (plainOut f)) }
  | none, none, [] => p

/-- Port U's transmitter, when free, takes the status slot, else the head of the reply queue, else the head of the
forwarding queue (R186). -/
def PortU.serve (clock : Nat) (p : PortU) : PortU :=
  match p.sending, p.slot, p.replies, p.forwarding with
  | some _, _, _, _ => p
  | none, some f, _, _ => { p with slot := none, sending := some (beginSending clock (plainOut f)) }
  | none, none, o :: q, _ => { p with replies := q, sending := some (beginSending clock o) }
  | none, none, [], f :: q => { p with forwarding := q, sending := some (beginSending clock (plainOut f)) }
  | none, none, [], [] => p

/-- Add `n` to the tx discards (R187). -/
def TxCounters.discard (t : TxCounters) (n : Nat) : TxCounters := { t with discards := t.discards + BitVec.ofNat 32 n }

/-- Count a frame whose transmission ends (R187). -/
def TxCounters.sent (t : TxCounters) (f : Frame) : TxCounters :=
  { t with frames := t.frames + 1, bytes := t.bytes + BitVec.ofNat 40 f.length }

/-- The Setpoint Engine hands port D a setpoint frame (R107, R180, R185). -/
def PortD.handSetpoint (clock : Nat) (f : Frame) (p : PortD) : PortD :=
  if p.up = false then { p with tx := p.tx.discard 1 }
  else
    let runs := if p.slot.isSome then p.tx.overruns + 1 else p.tx.overruns
    PortD.serve clock { p with slot := some f, tx := { p.tx with overruns := runs } }

/-- Port U hands port D's pass-through queue a frame (R180, R184). -/
def PortD.handPassThrough (clock : Nat) (f : Frame) (p : PortD) : PortD :=
  if p.up = false then { p with tx := p.tx.discard 1 }
  else if Config.forwardDepth ≤ p.passThrough.length then { p with tx := { p.tx with drops := p.tx.drops + 1 } }
  else PortD.serve clock { p with passThrough := p.passThrough ++ [f] }

/-- The Setpoint Engine hands port U a status frame (R108, R180, R186). -/
def PortU.handStatus (clock : Nat) (f : Frame) (p : PortU) : PortU :=
  if p.up = false then { p with tx := p.tx.discard 1 }
  else
    let runs := if p.slot.isSome then p.tx.overruns + 1 else p.tx.overruns
    PortU.serve clock { p with slot := some f, tx := { p.tx with overruns := runs } }

/-- Port U drops a reply handed now: its link is DOWN, or its reply queue is full (R180, R186). -/
def PortU.dropsReply (p : PortU) : Bool := !p.up || decide (Config.replyDepth ≤ p.replies.length)

/-- The Management Engine hands port U a reply (R180, R186). -/
def PortU.handReply (clock : Nat) (o : OutFrame) (p : PortU) : PortU :=
  if p.up = false then { p with tx := p.tx.discard 1 }
  else if Config.replyDepth ≤ p.replies.length then { p with replyDrops := p.replyDrops + 1 }
  else PortU.serve clock { p with replies := p.replies ++ [o] }

/-- Port D or the Report Receiver hands port U's forwarding queue a frame (R117, R180, R184). -/
def PortU.handForward (clock : Nat) (f : Frame) (p : PortU) : PortU :=
  if p.up = false then { p with tx := p.tx.discard 1 }
  else if Config.forwardDepth ≤ p.forwarding.length then { p with tx := { p.tx with drops := p.tx.drops + 1 } }
  else PortU.serve clock { p with forwarding := p.forwarding ++ [f] }

/-- The state with port U changed. -/
def State.onU (f : PortU → PortU) (s : State) : State := { s with pu := { s.pu with u := f s.pu.u } }

/-- The state with port D changed. -/
def State.onD (f : PortD → PortD) (s : State) : State := { s with pu := { s.pu with d := f s.pu.d } }

/-- The state with port G changed. -/
def State.onG (f : PortG → PortG) (s : State) : State := { s with pu := { s.pu with g := f s.pu.g } }

end Sys2Proof.Machine
end

