-- ==== Sys2Proof/Machine/Management.lean ====
section
/-! DEFINITION. The Management Engine (11_in_band_management.md): its queue, the checks that decide whether a request
reaches an owner, the reply, and the way a multi-entry WRITE is decided entry by entry. Every command that serves a
request acts on the request in service, the head of the queue, when that request passes the checks and is of the
command's own operation and object; otherwise there is nothing for it to serve. -/

namespace Sys2Proof.Machine

/-! ## The checks (R193, R194) -/

/-- The object is one the operation allows (R193, check 2). -/
def allowsObject (op : Operation) (o : Object) : Bool :=
  match op with
  | .read =>
    match o with
    | .global => true
    | .envelope => true
    | .swell => true
    | .channel => true
    | .group => true
    | .profile => true
    | .counter => true
    | .channelState => true
    | .fault => true
    | .sagList => true
    | .capture => true
    | .none => false
    | .summary => false
    | .contention => false
  | .write =>
    match o with
    | .global => true
    | .envelope => true
    | .swell => true
    | .channel => true
    | .group => true
    | .profile => true
    | .counter => true
    | .none => false
    | .channelState => false
    | .fault => false
    | .sagList => false
    | .capture => false
    | .summary => false
    | .contention => false
  | .readAndClear => decide (o = .summary) || decide (o = .contention)
  | .mode => decide (o = .none)
  | .ackHead => decide (o = .none)
  | .ackAll => decide (o = .none)
  | .arm => decide (o = .none)
  | .trigger => decide (o = .none)
  | .mask => decide (o = .none)
  | .restart => decide (o = .none)
  | .abort => decide (o = .channel)
  | .counterWrite => decide (o = .counter)

/-- The counter indices that exist (R198). -/
def counterExists (i : Nat) : Bool :=
  decide (i ≤ 0x0B) || (decide (0x10 ≤ i) && decide (i ≤ 0x14)) || (decide (0x16 ≤ i) && decide (i ≤ 0x1B)) ||
    (decide (0x20 ≤ i) && decide (i ≤ 0x26)) || (decide (0x30 ≤ i) && decide (i ≤ 0x35))

/-- A run of `count` items from `index`, all below `n`. -/
def runWithin (n index count : Nat) : Bool := decide (1 ≤ count) && decide (index + count ≤ n)

/-- A run of counters that all exist (R194, R198). A run longer than the table reaches an absent index. -/
def counterRun (index count : Nat) : Bool :=
  runWithin 0x36 index count && (List.range 0x36).all (fun i =>
    !(decide (index ≤ i) && decide (i < index + count)) || counterExists i)

/-- The index and count name items that exist (R193, check 3; R194). -/
def itemsExist (op : Operation) (o : Object) (index count : Nat) : Bool :=
  match op with
  | .mode => true
  | .ackHead => true
  | .ackAll => true
  | .arm => true
  | .trigger => true
  | .mask => true
  | .restart => true
  | .abort => decide (index ≤ 15)
  | .counterWrite => counterRun index count
  | .readAndClear => decide (index = 0) && decide (count = 1)
  | .read | .write =>
    match o with
    | .global => runWithin 0x16 index count
    | .envelope => runWithin 8 index count
    | .swell => decide (index = 0) && decide (count = 1)
    | .channel => runWithin 16 index count
    | .group => runWithin 4 index count
    | .profile => runWithin 8 index count
    | .counter => counterRun index count
    | .channelState => runWithin 16 index count
    | .fault => decide (count ≤ 32)
    | .capture => decide (count ≤ 32)
    | .sagList => decide (index = 0) && decide (count = 1)
    | .none => false
    | .summary => false
    | .contention => false

/-- The record size of a writable object (R177). -/
def recordSize (o : Object) : Nat :=
  match o with
  | .global => 4
  | .envelope => 8
  | .swell => 4
  | .channel => 18
  | .group => 4
  | .profile => 10
  | .counter => 8
  | .none => 0
  | .channelState => 0
  | .fault => 0
  | .sagList => 0
  | .capture => 0
  | .summary => 0
  | .contention => 0

/-- The data length the operation and count require (R193, check 4; R194). -/
def dataLength (op : Operation) (o : Object) (count : Nat) : Nat :=
  match op with
  | .read => 0
  | .write => count * recordSize o
  | .readAndClear => 0
  | .mode => 1
  | .ackHead => 0
  | .ackAll => 0
  | .arm => 0
  | .trigger => 0
  | .abort => 0
  | .mask => 1
  | .counterWrite => 8
  | .restart => 0

/-- The result with which the Management Engine refuses a request by its own checks, in their order; none when the
request reaches its owner (R193). -/
def Request.refusal (q : Request) : Option Result :=
  match operation? q.op with
  | none => some .badObject
  | some op =>
    match object? q.object with
    | none => some .badObject
    | some o =>
      if allowsObject op o = false then some .badObject
      else if itemsExist op o q.index q.count = false then some .badIndex
      else if q.data.length ≠ dataLength op o q.count then some .badLength
      else none

/-- The request passes the checks and is an `op` of object `o`. -/
def Request.isFor (q : Request) (op : Operation) (o : Object) : Bool :=
  decide (q.op = op.code) && decide (q.object = o.code) && q.refusal.isNone

/-! ## Replies (R190, R192) -/

/-- The reply DONE with data: object, index and count copied from the request. -/
def Request.done (q : Request) (data : List Byte) : ReplyContent :=
  { result := .done, object := q.object, index := q.index, count := q.count, data := data }

/-- A reply without data: object, index and count copied from the request (R192). -/
def Request.answered (q : Request) (r : Result) : ReplyContent :=
  { result := r, object := q.object, index := q.index, count := q.count, data := [] }

/-- The reply to a request that the Management Engine's checks refuse. DEDUCED (log entry 8): a READ carries in its
count the number of records returned, here 0 (R192); and a MODE request with the code of RESUME copies its index, as it
is no RESUME that its owner refuses. -/
def Request.turnedAway (q : Request) (r : Result) : ReplyContent :=
  { q.answered r with count := if q.op = Operation.read.code then 0 else q.count }

/-- The MGMT REPLY frame to request `q` (R170, R192). -/
def State.replyFrame (s : State) (q : Request) (c : ReplyContent) : Frame :=
  buildFrame s.pu.ownStation s.pu.typeValue kindReply q.source q.seq (c.payload q)

/-- The request in service leaves the queue (R190). -/
def ManagementEngine.leave (m : ManagementEngine) : ManagementEngine := { m with queue := m.queue.tail, accepted := 0 }

/-- The reply to the request in service is handed to port U, and the request leaves the queue (R190). -/
def State.answer (q : Request) (c : ReplyContent) (s : State) : State :=
  { s.onU (PortU.handReply s.clock (plainOut (s.replyFrame q c))) with me := s.me.leave }

/-- An owner's decision of a request: the state after the effect, and the reply. -/
abbrev Service := Request → State → State × ReplyContent

/-- The request in service is served when it passes the checks as an `op` of object `o` that the command `accepts`, and
no RESTART has been answered: the effect is taken before the reply is handed (R190, R193). -/
def State.serve (op : Operation) (o : Object) (accepts : Request → Bool) (f : Service) (s : State) : State :=
  match s.me.queue with
  | [] => s
  | q :: _ =>
    if s.me.restart = .none ∧ q.isFor op o ∧ accepts q then (f q s).1.answer q (f q s).2 else s

/-- A command that serves every request of its operation and object. -/
def anyRequest : Request → Bool := fun _ => true

/-! ## Writes of several entries (R195) -/

/-- An owner's decision of one entry: its index and its bytes. -/
abbrev EntryDecision := Nat → List Byte → State → Except Result State

/-- The index of the entry that is decided next. -/
def State.entryIndex (s : State) (q : Request) : Nat := q.index + s.me.accepted

/-- The bytes of the entry that is decided next. -/
def State.entryData (s : State) (q : Request) (size : Nat) : List Byte :=
  (q.data.drop (s.me.accepted * size)).take size

/-- One entry of the WRITE in service is handed to its owner (R195). When it is the last and accepted, the reply is
DONE; when it is refused, the reply carries its result, its index and the number of entries accepted; otherwise the
next entry waits. `owns` says which entries are the command's own. -/
def State.serveEntry (o : Object) (owns : Nat → Bool) (decideEntry : EntryDecision) (s : State) : State :=
  match s.me.queue with
  | [] => s
  | q :: _ =>
    if s.me.restart = .none ∧ q.isFor .write o ∧ owns (s.entryIndex q) then
      match decideEntry (s.entryIndex q) (s.entryData q (recordSize o)) s with
      | .error r =>
        s.answer q { q.answered r with index := s.entryIndex q, count := s.me.accepted }
      | .ok s' =>
        if q.count ≤ s.me.accepted + 1 then s'.answer q (q.done [])
        else { s' with me := { s'.me with accepted := s.me.accepted + 1 } }
    else s

/-- A command that takes every entry of its object. -/
def anyEntry : Nat → Bool := fun _ => true

/-! ## Commands -/

/-- The oldest request handed over enters the queue; when the queue holds 4 requests it is dropped without a reply and
MANAGEMENT OVERRUN is raised (R190, R191). -/
def State.queueRequest (q : Request) (s : State) : State :=
  if Config.requestDepth ≤ s.me.queue.length then
    s.raise { code := .managementOverrun, cls := .note, subject := .none }
  else { s with me := { s.me with queue := s.me.queue ++ [q] } }

/-- MGMT_REQUEST_QUEUED (R190). -/
def execMgmtRequestQueued (s : State) : Host.Outcome State Fault Refusal :=
  .next (s.live (fun s =>
    match s.me.handed with
    | [] => s
    | q :: rest => State.queueRequest q { s with me := { s.me with handed := rest } }))

/-- MGMT_REQUEST_REFUSED: the request in service fails one of the checks 1 to 4; it is answered and leaves the queue
without reaching an owner (R193). -/
def execMgmtRequestRefused (s : State) : Host.Outcome State Fault Refusal :=
  .next (s.live (fun s =>
    match s.me.queue with
    | [] => s
    | q :: _ =>
      match q.refusal with
      | none => s
      | some r => if s.me.restart = .none then s.answer q (q.turnedAway r) else s))

/-- The RESTART request is answered DONE and stays in service (R200); when port U drops the reply, the restart takes
effect at once. -/
def State.acceptRestart (q : Request) (s : State) : State :=
  let reply : OutFrame := { frame := s.replyFrame q (q.done []), isRestart := true }
  { s.onU (PortU.handReply s.clock reply) with
    me := { s.me with restart := if s.pu.u.dropsReply then .due else .waiting } }

/-- RESTART (R200). -/
def execRestart (s : State) : Host.Outcome State Fault Refusal :=
  .next (s.live (fun s =>
    match s.me.queue with
    | [] => s
    | q :: _ => if s.me.restart = .none ∧ q.isFor .restart .none then s.acceptRestart q else s))

end Sys2Proof.Machine
end

