-- ==== Sys2Proof/Machine/Counters.lean ====
section
/-! DEFINITION. The COUNTER object (R187, R188, R198): which index names which counter, their widths, and their reads
and writes. -/

namespace Sys2Proof.Machine

/-- The receive counters of a port, in the order of R198. -/
inductive RxName where
  | good
  | bytes
  | fcs
  | length
  | header
  deriving DecidableEq, Repr

/-- The transmit counters of a port, in the order of R198. -/
inductive TxName where
  | frames
  | bytes
  | drops
  | discards
  | overruns
  deriving DecidableEq, Repr

/-- The counters of the COUNTER object (R198). -/
inductive CounterName where
  | rx (p : Port) (n : RxName)
  | foreignU
  | foreignG
  | txU (n : TxName)
  | txD (n : TxName)
  | replyDrops
  | unmatched
  | missedGrid
  | invalidGrid
  | acceptedDispatch
  | refusedDispatch
  | ignoredEntries
  | faultsDropped
  | ignoredTriggers
  deriving DecidableEq, Repr

/-- The counters by index (R198). -/
def counterTable : List (Nat × CounterName) :=
  [(0x00, .rx .u .good), (0x01, .rx .u .bytes), (0x02, .rx .u .fcs), (0x03, .rx .u .length), (0x04, .rx .u .header),
   (0x05, .foreignU), (0x06, .txU .frames), (0x07, .txU .bytes), (0x08, .txU .drops), (0x09, .txU .discards),
   (0x0A, .txU .overruns), (0x0B, .replyDrops),
   (0x10, .rx .d .good), (0x11, .rx .d .bytes), (0x12, .rx .d .fcs), (0x13, .rx .d .length), (0x14, .rx .d .header),
   (0x16, .txD .frames), (0x17, .txD .bytes), (0x18, .txD .drops), (0x19, .txD .discards), (0x1A, .txD .overruns),
   (0x1B, .unmatched),
   (0x20, .rx .g .good), (0x21, .rx .g .bytes), (0x22, .rx .g .fcs), (0x23, .rx .g .length), (0x24, .rx .g .header),
   (0x25, .foreignG), (0x26, .missedGrid),
   (0x30, .invalidGrid), (0x31, .acceptedDispatch), (0x32, .refusedDispatch), (0x33, .ignoredEntries),
   (0x34, .faultsDropped), (0x35, .ignoredTriggers)]

/-- The counter an index names, or none (R198). -/
def counterAt (i : Nat) : Option CounterName := (counterTable.find? fun e => e.1 == i).map Prod.snd

/-- A receive counter is 32 bits wide, rx good bytes 40 (R187). -/
def RxName.width : RxName → Nat
  | .good => 32
  | .bytes => 40
  | .fcs => 32
  | .length => 32
  | .header => 32

/-- A transmit counter is 32 bits wide, tx bytes 40 (R187). -/
def TxName.width : TxName → Nat
  | .frames => 32
  | .bytes => 40
  | .drops => 32
  | .discards => 32
  | .overruns => 32

/-- The width of a counter in bits (R198). -/
def CounterName.width : CounterName → Nat
  | .rx _ n => n.width
  | .txU n => n.width
  | .txD n => n.width
  | .foreignU => 32
  | .foreignG => 32
  | .replyDrops => 32
  | .unmatched => 32
  | .missedGrid => 32
  | .invalidGrid => 32
  | .acceptedDispatch => 32
  | .refusedDispatch => 32
  | .ignoredEntries => 32
  | .faultsDropped => 32
  | .ignoredTriggers => 32

/-- The count of a receive counter. -/
def RxCounters.get (r : RxCounters) : RxName → Nat
  | .good => r.good.toNat
  | .bytes => r.bytes.toNat
  | .fcs => r.fcs.toNat
  | .length => r.length.toNat
  | .header => r.header.toNat

/-- A receive counter's count replaced. -/
def RxCounters.put (r : RxCounters) (n : RxName) (v : Nat) : RxCounters :=
  match n with
  | .good => { r with good := BitVec.ofNat 32 v }
  | .bytes => { r with bytes := BitVec.ofNat 40 v }
  | .fcs => { r with fcs := BitVec.ofNat 32 v }
  | .length => { r with length := BitVec.ofNat 32 v }
  | .header => { r with header := BitVec.ofNat 32 v }

/-- The count of a transmit counter. -/
def TxCounters.get (t : TxCounters) : TxName → Nat
  | .frames => t.frames.toNat
  | .bytes => t.bytes.toNat
  | .drops => t.drops.toNat
  | .discards => t.discards.toNat
  | .overruns => t.overruns.toNat

/-- A transmit counter's count replaced. -/
def TxCounters.put (t : TxCounters) (n : TxName) (v : Nat) : TxCounters :=
  match n with
  | .frames => { t with frames := BitVec.ofNat 32 v }
  | .bytes => { t with bytes := BitVec.ofNat 40 v }
  | .drops => { t with drops := BitVec.ofNat 32 v }
  | .discards => { t with discards := BitVec.ofNat 32 v }
  | .overruns => { t with overruns := BitVec.ofNat 32 v }

/-- The receive counters of port `p`. -/
def State.rxOf (s : State) (p : Port) : RxCounters :=
  match p with
  | .u => s.pu.u.rx
  | .d => s.pu.d.rx
  | .g => s.pu.g.rx

/-- The state with the receive counters of port `p` replaced. -/
def State.putRx (s : State) (p : Port) (r : RxCounters) : State :=
  match p with
  | .u => s.onU (fun u => { u with rx := r })
  | .d => s.onD (fun d => { d with rx := r })
  | .g => s.onG (fun g => { g with rx := r })

/-- The count of a counter (R198). -/
def State.counter (s : State) : CounterName → Nat
  | .rx p n => (s.rxOf p).get n
  | .foreignU => s.pu.u.foreign.toNat
  | .foreignG => s.pu.g.foreign.toNat
  | .txU n => s.pu.u.tx.get n
  | .txD n => s.pu.d.tx.get n
  | .replyDrops => s.pu.u.replyDrops.toNat
  | .unmatched => s.rr.unmatched.toNat
  | .missedGrid => s.gm.missed.toNat
  | .invalidGrid => s.gm.invalid.toNat
  | .acceptedDispatch => s.di.accepted.toNat
  | .refusedDispatch => s.di.refused.toNat
  | .ignoredEntries => s.di.ignored.toNat
  | .faultsDropped => s.fmu.dropped.toNat
  | .ignoredTriggers => s.cu.ignored.toNat

/-- A written value replaces the count (R188, R198). -/
def State.putCounter (s : State) (n : CounterName) (v : Nat) : State :=
  match n with
  | .rx p n => s.putRx p ((s.rxOf p).put n v)
  | .foreignU => s.onU (fun u => { u with foreign := BitVec.ofNat 32 v })
  | .foreignG => s.onG (fun g => { g with foreign := BitVec.ofNat 32 v })
  | .txU n => s.onU (fun u => { u with tx := u.tx.put n v })
  | .txD n => s.onD (fun d => { d with tx := d.tx.put n v })
  | .replyDrops => s.onU (fun u => { u with replyDrops := BitVec.ofNat 32 v })
  | .unmatched => { s with rr := { s.rr with unmatched := BitVec.ofNat 32 v } }
  | .missedGrid => { s with gm := { s.gm with missed := BitVec.ofNat 32 v } }
  | .invalidGrid => { s with gm := { s.gm with invalid := BitVec.ofNat 32 v } }
  | .acceptedDispatch => { s with di := { s.di with accepted := BitVec.ofNat 32 v } }
  | .refusedDispatch => { s with di := { s.di with refused := BitVec.ofNat 32 v } }
  | .ignoredEntries => { s with di := { s.di with ignored := BitVec.ofNat 32 v } }
  | .faultsDropped => { s with fmu := { s.fmu with dropped := BitVec.ofNat 32 v } }
  | .ignoredTriggers => { s with cu := { s.cu with ignored := BitVec.ofNat 32 v } }

/-- The counters of a run, in ascending index (R198). -/
def counterNames (index count : Nat) : List CounterName :=
  (List.range' index count).filterMap counterAt

/-- COUNTER READ: the counts of the run, 8 bytes each (R198). -/
def decideCounterRead : Service := fun q s =>
  (s, q.done ((counterNames q.index q.count).flatMap fun n => be 8 (s.counter n)))

/-- COUNTER_READ (R198). -/
def execCounterRead (s : State) : Host.Outcome State Fault Refusal :=
  .next (s.live (State.serve .read .counter anyRequest decideCounterRead))

/-- COUNTER WRITE: one value replaces every count of the run; a value too wide for one of them refuses the whole run
(R198). -/
def decideCounterWrite : Service := fun q s =>
  let v := ofBe q.data
  let names := counterNames q.index q.count
  if names.all (fun n => decide (v < 2 ^ n.width)) then
    (names.foldl (fun s n => s.putCounter n v) s, q.answered .done)
  else (s, q.answered .badValue)

/-- COUNTER_WRITE (R198). -/
def execCounterWrite (s : State) : Host.Outcome State Fault Refusal :=
  .next (s.live (State.serve .counterWrite .counter anyRequest decideCounterWrite))

/-- One value of a WRITE of the COUNTER object (R195, R198). -/
def writeCounter : EntryDecision := fun i data s =>
  match counterAt i with
  | none => .error .badIndex
  | some n => if ofBe data < 2 ^ n.width then .ok (s.putCounter n (ofBe data)) else .error .badValue

/-- COUNTER_OBJECT_WRITE: each count of the run is replaced by its own value (R198). -/
def execCounterObjectWrite (s : State) : Host.Outcome State Fault Refusal :=
  .next (s.live (State.serveEntry .counter anyEntry writeCounter))

end Sys2Proof.Machine
end

