-- ==== Sys2Proof/Machine/Envelope.lean ====
section
/-! DEFINITION. The Ride-Through Controller (02_the_ride_through_envelope.md): classification against the envelope,
dwell, swell and recovery, grid loss and trips, P_state and the allowance, and the expiries of its timers. The
functions on `RideThrough` take the millisecond count `ms`, from which timers are loaded and the time base is read. -/

namespace Sys2Proof.Machine

/-! ## The envelope table (R19, R20) -/

/-- A row's effective cap: 0 when its action is BLOCK (R19). -/
def EnvelopeRow.effCap (r : EnvelopeRow) : Nat :=
  match r.action with
  | .curtail => r.cap
  | .block => 0

/-- Row `i` fails the validity test: row 0 against V_recover, a later row against the row before it (R20). -/
def rowFails (rows : Vector EnvelopeRow 8) (vRecover : Nat) (i : Row) : Bool :=
  let bound := if i.val = 0 then vRecover else (rows[(⟨i.val - 1, by omega⟩ : Row)]).threshold
  decide (bound ≤ (rows[i]).threshold)

/-- The first failing row among the rows in use (R20). -/
def firstFailingRow (rows : Vector EnvelopeRow 8) (nRows vRecover : Nat) : Option Row :=
  (List.finRange 8).find? (fun i => decide (i.val < nRows) && rowFails rows vRecover i)

/-- The envelope is valid (R20). -/
def envelopeValid (rows : Vector EnvelopeRow 8) (nRows vRecover : Nat) : Bool :=
  decide (1 ≤ nRows) && (firstFailingRow rows nRows vRecover).isNone

/-- The envelope of the controller is valid (R20). -/
def RideThrough.valid (r : RideThrough) : Bool := envelopeValid r.rows r.nRows r.vRecover

/-! ## Standings, the active row and dwell timers (R25, R26) -/

/-- No standing. -/
def noStandings : Vector Bool 8 := Vector.replicate 8 false

/-- Every dwell timer stopped. -/
def noDwell : Vector Timer 8 := Vector.replicate 8 none

/-- The below standings of the rows in use under `vMin` (R25). -/
def RideThrough.standings (r : RideThrough) (vMin : Nat) : Vector Bool 8 :=
  Vector.ofFn fun i => decide (i.val < r.nRows) && decide (vMin < (r.rows[i]).threshold)

/-- The row of highest index that is below, or none (R25). -/
def activeRow (below : Vector Bool 8) : Option Row := (List.finRange 8).reverse.find? (fun i => below[i])

/-- The dwell timers after the standings change from `old` to `new`: a row newly below loads its timer when T_i > 0, a
row still below keeps it, and every other row's timer is stopped (R26). -/
def RideThrough.dwellAfter (r : RideThrough) (ms : Nat) (old new : Vector Bool 8) : Vector Timer 8 :=
  Vector.ofFn fun i =>
    if new[i] = false then none
    else if old[i] then r.dwellTimers[i]
    else if (r.rows[i]).dwell = 0 then none
    else startTimer ms (r.rows[i]).dwell

/-- The standings, the active row and the dwell timers formed from `vMin` (R25, R26). -/
def RideThrough.classify (r : RideThrough) (ms vMin : Nat) : RideThrough :=
  let below := r.standings vMin
  { r with below := below, active := activeRow below, dwellTimers := r.dwellAfter ms r.below below }

/-- Every standing cleared, no active row, and every dwell timer stopped (R25, R26). -/
def RideThrough.clearRows (r : RideThrough) : RideThrough :=
  { r with below := noStandings, active := none, dwellTimers := noDwell }

/-! ## P_state (R42) -/

/-- P_state in SAG: the active row's cap, or row 0's, or P_low with no row in use (R42). -/
def RideThrough.sagPState (r : RideThrough) : Nat :=
  match r.active with
  | some i => (r.rows[i]).effCap
  | none => if 1 ≤ r.nRows then (r.rows[(0 : Row)]).effCap else r.pLow

/-- P_state in RECOVER at time base value `now` (R42). -/
def RideThrough.recoverPState (r : RideThrough) (now : BitVec 32) : Nat :=
  match r.phase with
  | .hold => r.pLow
  | .ramp => min 1000 (r.pLow + r.rampSlope * (now - r.rampStart).toNat)

/-- P_state at time base value `now` (R42). -/
def RideThrough.pState (r : RideThrough) (now : BitVec 32) : Nat :=
  match r.state with
  | .normal => 1000
  | .sag => r.sagPState
  | .recover => r.recoverPState now
  | .gridLost => min r.pLoss r.aFb
  | .tripped => 0

/-- The allowance A that the controller hands the Setpoint Engine (R43). -/
def allowance (pState factor : Nat) : Nat := pState * factor / 1000

/-! ## Changes of state -/

/-- Entry to TRIPPED (R40): every timer stopped, every standing cleared, the prior state discarded. -/
def RideThrough.enterTripped (r : RideThrough) : RideThrough :=
  { r.clearRows with state := .tripped, prior := none, swellTimer := none, swellAbove := false, recovery := none }

/-- Entry to LOAD (R24). -/
def RideThrough.enterLoad (r : RideThrough) : RideThrough :=
  { r.clearRows with state := .normal, prior := none, swellTimer := none, swellAbove := false, recovery := none,
                     pLow := 1000, sags := [] }

/-- The resume notice: a TRIPPED controller enters NORMAL, its list and counter kept (R41). -/
def RideThrough.untrip (r : RideThrough) : RideThrough :=
  { r.clearRows with state := .normal, prior := none, swellTimer := none, swellAbove := false, recovery := none,
                     pLow := 1000 }

/-- Entry to NORMAL from RECOVER, or from GRID_LOST with no sag (R25, R26). -/
def RideThrough.enterNormal (r : RideThrough) : RideThrough :=
  { r.clearRows with state := .normal, prior := none, recovery := none }

/-- The ramp duration: (1000 − P_low) / S rounded up, in milliseconds (R34). -/
def rampDuration (pLow slope : Nat) : Nat := (1000 - pLow + slope - 1) / slope

/-- The step a hold expiry takes (R34): NORMAL when P_low is 1000, else the ramp begins. -/
def RideThrough.endHold (r : RideThrough) (ms : Nat) : RideThrough :=
  if r.pLow = 1000 then r.enterNormal
  else
    { r with phase := .ramp, rampSlope := r.slope, rampStart := timeBaseAt ms,
             recovery := startTimer ms (rampDuration r.pLow r.slope) }

/-- Entry to RECOVER (R32): the hold is timed, or with H = 0 its step is taken at once. -/
def RideThrough.enterRecover (r : RideThrough) (ms : Nat) : RideThrough :=
  let r := { r.clearRows with state := .recover, prior := none, phase := .hold, recovery := none }
  if r.hold = 0 then r.endHold ms else { r with recovery := startTimer ms r.hold }

/-- The recent-sag list with the entry of a sag that begins now (R30). -/
def addSag (now : BitVec 32) (w : Nat) (l : List (BitVec 32)) : List (BitVec 32) :=
  let l := pruneSags now w l
  if l.getLast? = some now then l
  else (if Config.sagDepth ≤ l.length then l.tail else l) ++ [now]

/-- The sag counter saturates (R29). -/
def countSag (n : BitVec 32) : BitVec 32 := if n = Config.sagCountMax then n else n + 1

/-- A repeated sag: the list holds more than N_rep entries, with N_rep above 0 (R31). -/
def RideThrough.isRepeated (r : RideThrough) : Bool := decide (0 < r.nRep) && decide (r.nRep < r.sags.length)

/-- What the Ride-Through Controller does with a notice. -/
structure NoticeResult where
  /-- The controller after the notice. -/
  rtc : RideThrough
  /-- "Sag began" is sent (R29). -/
  sagBegan : Bool
  /-- The repeat limit tripped: REPEATED SAG is to be raised (R31). -/
  repeated : Bool
  deriving DecidableEq, Repr

/-- A sag entry (R29). -/
def RideThrough.beginSag (r : RideThrough) (ms vMin : Nat) : NoticeResult :=
  let r := { r with sagCount := countSag r.sagCount, sags := addSag (timeBaseAt ms) r.window r.sags }
  if r.isRepeated then { rtc := r.enterTripped, sagBegan := true, repeated := true }
  else
    let r := { (r.clearRows.classify ms vMin) with state := .sag, prior := none, recovery := none }
    { rtc := { r with pLow := r.sagPState }, sagBegan := true, repeated := false }

/-- A controller that sends nothing. -/
def quiet (r : RideThrough) : NoticeResult := { rtc := r, sagBegan := false, repeated := false }

/-- `vMin` is below row 0 of a table in use (R28, R33). -/
def RideThrough.belowRow0 (r : RideThrough) (vMin : Nat) : Bool :=
  decide (1 ≤ r.nRows) && decide (vMin < (r.rows[(0 : Row)]).threshold)

/-- A valid notice in SAG (R32), also the continuation of a sag after grid loss (R39). -/
def RideThrough.continueSag (r : RideThrough) (ms vMin : Nat) : RideThrough :=
  let r := { (r.classify ms vMin) with state := .sag, prior := none }
  let r := { r with pLow := min r.pLow r.sagPState }
  if r.vRecover ≤ vMin then r.enterRecover ms else r

/-- A valid notice in GRID_LOST (R39). -/
def RideThrough.leaveGridLost (r : RideThrough) (ms vMin : Nat) : NoticeResult :=
  match r.prior with
  | some .sag => quiet (if r.vRecover ≤ vMin then r.enterRecover ms else r.continueSag ms vMin)
  | some .recover => quiet (if r.vRecover ≤ vMin then r.enterRecover ms else r.continueSag ms vMin)
  | some .normal => if r.belowRow0 vMin then r.beginSag ms vMin else quiet r.enterNormal
  | none => if r.belowRow0 vMin then r.beginSag ms vMin else quiet r.enterNormal

/-- The swell check (R36). -/
def RideThrough.swellCheck (r : RideThrough) (ms vMax : Nat) : RideThrough :=
  if r.state = .tripped then r
  else if 0 < r.tSwell ∧ r.vSwell < vMax then
    (if r.swellAbove then r else { r with swellAbove := true, swellTimer := startTimer ms r.tSwell })
  else { r with swellAbove := false, swellTimer := none }

/-- A valid notice that leaves the controller in RECOVER: the standings and the active row are formed (R25), no dwell
timer starts (R26), and the recovery goes on unchanged (R33). -/
def RideThrough.stayInRecover (r : RideThrough) (vMin : Nat) : RideThrough :=
  { r with below := r.standings vMin, active := activeRow (r.standings vMin) }

/-- The state handling of a valid notice (R28, R32, R33, R39, R40). -/
def RideThrough.handleNotice (r : RideThrough) (ms vMin : Nat) : NoticeResult :=
  match r.state with
  | .normal => if r.belowRow0 vMin then r.beginSag ms vMin else quiet r
  | .sag => quiet (r.continueSag ms vMin)
  | .recover => if r.belowRow0 vMin then r.beginSag ms vMin else quiet (r.stayInRecover vMin)
  | .gridLost => r.leaveGridLost ms vMin
  | .tripped => quiet r

/-- A valid notice taken in RUN or HALT: the state handling, then the swell check (R36, R40). -/
def RideThrough.notice (r : RideThrough) (ms vMin vMax : Nat) : NoticeResult :=
  let n := r.handleNotice ms vMin
  { n with rtc := n.rtc.swellCheck ms vMax }

/-- Entry to GRID_LOST from `p` (R38). -/
def RideThrough.loseGrid (r : RideThrough) (p : PriorState) (now : BitVec 32) : RideThrough :=
  { r with state := .gridLost, prior := some p, pLoss := r.pState now, recovery := none }

/-- A "grid lost" notice taken in RUN or HALT (R38). -/
def RideThrough.gridLostNotice (r : RideThrough) (now : BitVec 32) : RideThrough :=
  match r.state with
  | .normal => r.loseGrid .normal now
  | .sag => r.loseGrid .sag now
  | .recover => r.loseGrid .recover now
  | .gridLost => r
  | .tripped => r

/-! ## Expiries -/

/-- The fault of a trip (R136). -/
def tripFault (code : FaultCode) : Raising := { code := code, cls := .trip, subject := .none }

/-- The expiry of timer `t` trips the controller: TRIPPED, and the fault, which the Fault and Mode Unit takes at once,
or which is handed to it (R40, R111). -/
def State.tripOn (code : FaultCode) (t : Timer) (part : TripPart) (s : State) : State :=
  match part with
  | .whole => s.onExpiry t (fun s => State.raise (tripFault code) { s with rtc := s.rtc.enterTripped })
  | .trip => s.onExpiry t (fun s => State.handRaising (tripFault code) { s with rtc := s.rtc.enterTripped })
  | .raise => s.takeRaising code

/-- ENVELOPE_EXIT: the dwell timer of row `i` expires (R27). -/
def execEnvelopeExit (i : Row) (s : State) (part : TripPart := .whole) : Host.Outcome State Fault Refusal :=
  .next (s.live (fun s => s.tripOn .envelopeExit s.rtc.dwellTimers[i] part))

/-- SWELL_EXIT: the swell timer expires (R37). -/
def execSwellExit (s : State) (part : TripPart := .whole) : Host.Outcome State Fault Refusal :=
  .next (s.live (fun s => s.tripOn .swellExit s.rtc.swellTimer part))

/-- RECOVERY_HOLD_EXPIRY: the recovery timer expires in phase HOLD (R34). -/
def execRecoveryHoldExpiry (s : State) : Host.Outcome State Fault Refusal :=
  .next (s.live (fun s =>
    if s.rtc.phase = .hold then
      s.onExpiry s.rtc.recovery (fun s => { s with rtc := { s.rtc with recovery := none }.endHold s.ms })
    else s))

/-- RECOVERY_RAMP_EXPIRY: the recovery timer expires in phase RAMP (R35). -/
def execRecoveryRampExpiry (s : State) : Host.Outcome State Fault Refusal :=
  .next (s.live (fun s =>
    if s.rtc.phase = .ramp then
      s.onExpiry s.rtc.recovery (fun s => { s with rtc := { s.rtc with pLow := 1000 }.enterNormal })
    else s))

/-- SAG_LIST_ENTRY_AGED: time passes until the millisecond boundary at which the age of the oldest entry becomes
W + 1, and the entry leaves the list (R30). -/
def execSagListEntryAged (s : State) : Host.Outcome State Fault Refusal :=
  .next (s.live (fun s =>
    match s.rtc.sags with
    | [] => s
    | t :: _ => s.advanceMs (s.ms + (s.rtc.window + 1 - sagAge s.timeBase t))))

end Sys2Proof.Machine
end

