-- ==== Sys2Proof/Machine/Channels.lean ====
section
/-! DEFINITION. The Channel Manager (03_channels_feeder_groups_and_profiles.md): its timers, its table law and the
decision of a channel write. -/

namespace Sys2Proof.Machine

/-! ## The table law (R52) -/

/-- Another enabled channel holds station `st` (R52, first case). -/
def stationTaken (t : Vector ChannelEntry 16) (c : Chan) (st : Station) : Bool :=
  (List.finRange 16).any (fun d => decide (d ≠ c) && (t[d]).enable && decide ((t[d]).station = st))

/-- The leader is disabled or is itself a follower (R52, third case). -/
def leaderUnfit (t : Vector ChannelEntry 16) (l : Chan) : Bool :=
  (t[l]).enable = false || decide ((t[l]).ready ≠ .self)

/-- Some other enabled channel names `c` as its leader (R52, fourth case). -/
def isLed (t : Vector ChannelEntry 16) (c : Chan) : Bool :=
  (List.finRange 16).any (fun d => decide (d ≠ c) && (t[d]).enable && decide ((t[d]).ready = .leader c))

/-- Writing entry `e` at channel `c` would break the law: one of the four cases of R52. -/
def breaksLaw (t : Vector ChannelEntry 16) (c : Chan) (e : ChannelEntry) : Bool :=
  (e.enable && stationTaken t c e.station) ||
    (match e.ready with
      | .self => false
      | .leader l => decide (l = c) || (e.enable && leaderUnfit t l)) ||
    ((e.enable = false || decide (e.ready ≠ .self)) && isLed t c)

/-! ## A channel write (R51 to R54) -/

/-- The write changes enable, station, group or ready source (R51, step 2). -/
def changesIdentity (old new : ChannelEntry) : Bool :=
  decide (old.enable ≠ new.enable) || decide (old.station ≠ new.station) || decide (old.group ≠ new.group) ||
    decide (old.ready ≠ new.ready)

/-- The write of entry `e` at channel `c` is accepted. What it does to the records that follow the enable field: the
channel's state (R54), its raw demand (R85), and its report records (R126). -/
def State.putChannel (c : Chan) (e : ChannelEntry) (s : State) : State :=
  let was := (s.cm.table[c]).enable
  let s := { s with cm := { s.cm with table := s.cm.table.set c e } }
  if was = e.enable then s
  else
    let fresh : ReportReceiver :=
      { s.rr with record := s.rr.record.set c none, age := s.rr.age.set c 0, mark := s.rr.mark.set c false }
    if e.enable then { s with cm := s.cm.pass c .standby, rr := fresh }
    else { s with cm := s.cm.pass c .off, rr := fresh, di := { s.di with store := s.di.store.set c 0 } }

/-- The Channel Manager decides one channel entry in the three steps of R51. -/
def State.writeChannel (c : Chan) (data : List Byte) (s : State) : Except Result State :=
  match channelEntry? data with
  | none => .error .badValue
  | some e =>
    if (s.cm.chan[c]).isActive ∧ changesIdentity s.cm.table[c] e then .error .busy
    else if breaksLaw s.cm.table c e then .error .badValue
    else .ok (s.putChannel c e)

/-! ## Expiries -/

/-- START_TIMER_EXPIRY: in STARTING the channel passes to FAULTED and START TIMEOUT is raised (R62). -/
def execStartTimerExpiry (c : Chan) (s : State) : Host.Outcome State Fault Refusal :=
  .next (s.live (fun s =>
    if s.cm.chan[c] = .starting then
      s.onExpiry s.cm.startTimers[c] (fun s =>
        State.raise { code := .startTimeout, cls := .hold, subject := .channel c }
          { s with cm := s.cm.pass c .faulted })
    else s))

/-- PARK_TIMER_EXPIRY: in PARKED the channel passes to STANDBY and PARK LIMIT is raised (R65). -/
def execParkTimerExpiry (c : Chan) (s : State) : Host.Outcome State Fault Refusal :=
  .next (s.live (fun s =>
    if s.cm.chan[c] = .parked then
      s.onExpiry s.cm.parkTimers[c] (fun s =>
        State.raise { code := .parkLimit, cls := .note, subject := .channel c }
          { s with cm := s.cm.pass c .standby })
    else s))

end Sys2Proof.Machine
end

