-- ==== Sys2Proof/Machine/Reports.lean ====
section
/-! DEFINITION. The Report Receiver (06_rectifier_reports.md): matching, report ages, the events and faults a report
gives, and report loss. -/

namespace Sys2Proof.Machine

/-- The report source station of channel `c`: its own station, or its leader's (R58). -/
def reportSource (t : Vector ChannelEntry 16) (c : Chan) : Station :=
  match (t[c]).ready with
  | .self => (t[c]).station
  | .leader l => (t[l]).station

/-- The enabled channel that holds station `st` (R118). -/
def matchedChannel (t : Vector ChannelEntry 16) (st : Station) : Option Chan :=
  (List.finRange 16).find? (fun c => (t[c]).enable && decide ((t[c]).station = st))

/-- A report from station `st` acts on channel `c`: the channel is enabled and `st` is its report source (R119). -/
def actsOn (t : Vector ChannelEntry 16) (st : Station) (c : Chan) : Bool :=
  (t[c]).enable && decide (reportSource t c = st)

/-- The status word differs from the reference in a bit of the mask (R123). -/
def mismatch (e : ChannelEntry) (status : BitVec 16) : Bool :=
  decide ((status &&& e.cmpMask) ≠ (e.cmpRef &&& e.cmpMask))

/-- What a report gives one channel: at most one event, and its faults in the order R123 gives. -/
structure ReportVerdict where
  /-- The event for the Channel Manager. -/
  event : Option ChannelEvent
  /-- The faults, by code and class. -/
  faults : List (FaultCode × FaultClass)
  deriving DecidableEq, Repr

/-- What the rectifier state of a report means for a RUNNING or PARKED channel (R121, R122): a code that is none of
the six is taken as FAULT. -/
def onRectifier (state : Byte) : ReportVerdict :=
  match rectifierState? state with
  | some .running => { event := none, faults := [] }
  | some .ready => { event := none, faults := [] }
  | some .blocked => { event := none, faults := [] }
  | some .off => { event := some .leftRun, faults := [(.rectifierLeftRun, .note)] }
  | some .standby => { event := some .leftRun, faults := [(.rectifierLeftRun, .note)] }
  | some .fault => { event := some .fault, faults := [(.rectifierFault, .hold)] }
  | none => { event := some .fault, faults := [(.rectifierFault, .hold)] }

/-- The status-word compare adds a fault event and COMPARE MISMATCH with the channel's compare class (R123). A fault
event stands in place of a rectifier-left-run event (R121). A mask of 0 never mismatches. -/
def withCompare (e : ChannelEntry) (status : BitVec 16) (v : ReportVerdict) : ReportVerdict :=
  if mismatch e status then
    { event := some .fault, faults := v.faults ++ [(.compareMismatch, e.cmpClass.faultClass)] }
  else v

/-- What a report gives a channel in state `st` with entry `e` (R121 to R123). -/
def reportVerdict (st : ChannelState) (e : ChannelEntry) (r : Report) : ReportVerdict :=
  match st with
  | .starting =>
    if rectifierState? r.state = some .ready ∨ rectifierState? r.state = some .running then
      { event := some .ready, faults := [] }
    else { event := none, faults := [] }
  | .running => withCompare e r.status (onRectifier r.state)
  | .parked => withCompare e r.status (onRectifier r.state)
  | .off => { event := none, faults := [] }
  | .standby => { event := none, faults := [] }
  | .faulted => { event := none, faults := [] }

/-- The verdict on channel `c`; none when the report does not act on it. -/
def State.verdict (s : State) (r : Report) (c : Chan) : ReportVerdict :=
  if actsOn s.cm.table r.source c then reportVerdict s.cm.chan[c] s.cm.table[c] r
  else { event := none, faults := [] }

/-- Step 1: the report fills the record of the channel it matches, or counts as unmatched (R118). -/
def ReportReceiver.fill (rr : ReportReceiver) (t : Vector ChannelEntry 16) (r : Report) : ReportReceiver :=
  match matchedChannel t r.source with
  | some c =>
    let filled : ReportRecord :=
      { state := r.state, reserved := r.reserved, status := r.status, current := r.current }
    { rr with record := rr.record.set c (some filled) }
  | none => { rr with unmatched := rr.unmatched + 1 }

/-- Step 2: the age becomes 0 and the mark clear for every channel the report acts on (R119). -/
def ReportReceiver.hear (rr : ReportReceiver) (t : Vector ChannelEntry 16) (st : Station) : ReportReceiver :=
  { rr with
    age := Vector.ofFn fun c => if actsOn t st c then 0 else rr.age[c]
    mark := Vector.ofFn fun c => if actsOn t st c then false else rr.mark[c] }

/-- Step 3: the Channel Manager takes the events, in ascending channel number (R120). -/
def ChannelManager.takeEvents (m : ChannelManager) (ev : Chan → Option ChannelEvent) : ChannelManager :=
  (List.finRange 16).foldl
    (fun m c =>
      match ev c with
      | none => m
      | some e => m.take c e) m

/-- Step 4: the faults as raisings, in ascending channel number (R120). -/
def State.reportFaults (s : State) (r : Report) : List Raising :=
  (List.finRange 16).flatMap fun c =>
    (s.verdict r c).faults.map fun f => { code := f.1, cls := f.2, subject := .channel c }

/-- Steps 1 and 2: the records of the Report Receiver change, and the events and faults are formed from the states
that the Channel Manager holds now (R120). -/
def State.decideReport (r : Report) (s : State) : State :=
  let s := { s with rr := (s.rr.fill s.cm.table r).hear s.cm.table r.source }
  { s with rr := { s.rr with
      work := .decided (Vector.ofFn fun c => (s.verdict r c).event) (s.reportFaults r) (some r.raw) } }

/-- Step 3: the Channel Manager applies each event to the state it holds when it takes it (R120, R124). -/
def State.handEvents (s : State) : State :=
  match s.rr.work with
  | .idle => s
  | .decided events faults forward =>
    { s with cm := s.cm.takeEvents (fun c => events[c]), rr := { s.rr with work := .handed faults forward } }
  | .handed _ _ => s

/-- Steps 4 and 5: the faults are raised, whatever became of the events, and a report goes on to port U (R117, R120). -/
def State.finishReport (s : State) : State :=
  let s := s.handEvents
  match s.rr.work with
  | .idle => s
  | .decided _ _ _ => s
  | .handed faults forward =>
    let s := State.raiseAll faults { s with rr := { s.rr with work := .idle } }
    match forward with
    | none => s
    | some f => s.onU (PortU.handForward s.clock f)

/-! ## Report loss (R124) -/

/-- The ages of the enabled channels advance by 1, saturating at 255 (R124). -/
def ReportReceiver.ageAll (rr : ReportReceiver) (t : Vector ChannelEntry 16) : ReportReceiver :=
  { rr with age := Vector.ofFn fun c => if (t[c]).enable then min 255 (rr.age[c] + 1) else rr.age[c] }

/-- Channel `c` is enabled, RUNNING or PARKED, with an age above `limit` and a clear mark (R124). -/
def State.isLost (s : State) (limit : Nat) (c : Chan) : Bool :=
  (s.cm.table[c]).enable && (s.cm.chan[c]).isOn && decide (limit < s.rr.age[c]) && !s.rr.mark[c]

/-- The REPORT LOSS of channel `c` (R124). -/
def reportLossOf (c : Chan) : Raising := { code := .reportLoss, cls := .hold, subject := .channel c }

/-- The loss test of a taken cycle start, where one is due: the marks are set, and the fault events and the faults are
formed, all events before all faults, in ascending channel number (R124). -/
def State.decideLoss (s : State) : State :=
  match s.rr.testDue with
  | none => s
  | some limit =>
    { s with rr := { s.rr with
        testDue := none
        mark := Vector.ofFn fun c => s.isLost limit c || s.rr.mark[c]
        work := .decided (Vector.ofFn fun c => if s.isLost limit c then some .fault else none)
          (((List.finRange 16).filter fun c => s.isLost limit c).map reportLossOf) none } }

/-- The Report Receiver ends the work it has begun, a loss test that is due among it: it takes its next report or cycle
start only after that (R120). -/
def State.settleReports (s : State) : State := s.finishReport.decideLoss.finishReport

/-- The Report Receiver takes the expiry of a cycle start: the ages advance, and the loss test is due with the limit L
now in force (R116, R124). -/
def State.takeExpiry (s : State) : State :=
  if s.rr.expiryDue then
    let s := s.settleReports
    { s with rr := { (s.rr.ageAll s.cm.table) with expiryDue := false, testDue := some s.rr.limit } }
  else s

/-! ## Commands -/

/-- The faults that the work in progress has still to raise. -/
def ReportWork.faults : ReportWork → List Raising
  | .idle => []
  | .decided _ faults _ => faults
  | .handed faults _ => faults

/-- The work in progress is for a report. -/
def ReportWork.isReport : ReportWork → Bool
  | .idle => false
  | .decided _ _ forward => forward.isSome
  | .handed _ forward => forward.isSome

/-- The work in progress is for a loss test. -/
def ReportWork.isLossTest : ReportWork → Bool
  | .idle => false
  | .decided _ _ forward => forward.isNone
  | .handed _ forward => forward.isNone

/-- The Report Receiver takes the oldest report port D has handed it, once its earlier work is done (R120). -/
def State.takeReport (s : State) : State :=
  match s.rr.handed with
  | [] => s
  | r :: rest =>
    let s := s.settleReports
    State.decideReport r { s with rr := { s.rr with handed := rest } }

/-- REPORT_TAKEN: the report port D handed first, in the steps of R120. -/
def execReportTaken (s : State) (part : ReportPart := .whole) : Host.Outcome State Fault Refusal :=
  .next (s.live (fun s =>
    match part with
    | .whole => if s.rr.handed = [] then s else s.takeReport.finishReport
    | .decide => s.takeReport
    | .hand => if s.rr.work.isReport then s.handEvents else s
    | .finish => if s.rr.work.isReport then s.finishReport else s))

/-- REPORT_LOSS: the loss test of the latest cycle start the Report Receiver has taken, made once for each (R124). A
report in progress is ended first (R120). -/
def execReportLoss (s : State) (part : ReportPart := .whole) : Host.Outcome State Fault Refusal :=
  .next (s.live (fun s =>
    match part with
    | .whole => if s.rr.testDue.isSome then s.settleReports else s
    | .decide => if s.rr.testDue.isSome then s.finishReport.decideLoss else s
    | .hand => if s.rr.work.isLossTest then s.handEvents else s
    | .finish => if s.rr.work.isLossTest then s.finishReport else s))

end Sys2Proof.Machine
end

