-- ==== Sys2Proof/Machine/Allocation.lean ====
section
/-! DEFINITION. Allocation (05_allocation_and_the_setpoint_cycle.md): the five stages that turn the inputs of a cycle
into commands and orders, what the Channel Manager does at a cycle start, and the update of the contention record. -/

namespace Sys2Proof.Machine

/-! ## Stages 1 to 3: from demand to need -/

/-- Stage 1, the clamped demand D′ (R96). -/
def clampedDemand (e : ChannelEntry) (d : Nat) : Nat :=
  if d = 0 then 0 else if d < e.iMin then e.iMin else min d e.rated

/-- Stage 2, the target T under allowance `a` (R97). -/
def target (e : ChannelEntry) (a d' : Nat) : Nat :=
  let t := min d' (e.rated * a / 1000)
  if t < e.iMin then 0 else t

/-- A step of `rate` A/ms over a period in µs, at least 1 A (R98). -/
def rampStep (rate period : Nat) : Nat := max 1 (rate * period / 1000)

/-- The rate of the up-step: the recovery rate in SAG and RECOVER, else the up rate (R98). -/
def upRate (p : Profile) (rtc : RtcState) : Nat :=
  match rtc with
  | .normal => p.up
  | .sag => p.recovery
  | .recover => p.recovery
  | .gridLost => p.up
  | .tripped => p.up

/-- The move from the previous command towards the target by at most one step (R99, the five cases). -/
def rampMove (e : ChannelEntry) (a prev t up down : Nat) : Nat :=
  if prev < t then (if prev = 0 then max e.iMin (min t up) else min t (prev + up))
  else if t < prev then (if a < 1000 then t else max t (prev - down))
  else prev

/-- The cut of a need to R, and its rise to I_min or fall to 0 when it lies below I_min (R99). -/
def fitNeed (e : ChannelEntry) (t n : Nat) : Nat :=
  let n := min n e.rated
  if 0 < n ∧ n < e.iMin then (if e.iMin ≤ t then e.iMin else 0) else n

/-- Stage 3, the ramped need (R98, R99). -/
def rampedNeed (e : ChannelEntry) (a prev t up down : Nat) : Nat := fitNeed e t (rampMove e a prev t up down)

/-- Channel `c` takes part in the allocation (R95). -/
def CycleInputs.takesPart (i : CycleInputs) (c : Chan) : Bool := decide (i.mode = .run) && (i.cm.chan[c]).isOn

/-- The A used at this cycle start: 0 in HALT and LOAD (R110). -/
def CycleInputs.used (i : CycleInputs) : Nat := if i.mode = .run then i.allowance else 0

/-- The target of channel `c` (R96, R97). -/
def CycleInputs.target (i : CycleInputs) (c : Chan) : Nat :=
  Machine.target i.cm.table[c] i.used (clampedDemand i.cm.table[c] i.store[c])

/-- The up-step in force for channel `c` (R98). -/
def CycleInputs.upStep (i : CycleInputs) (c : Chan) : Nat :=
  rampStep (upRate i.cm.profiles[(i.cm.table[c]).profile] i.rtc) i.period

/-- The down-step in force for channel `c` (R98). -/
def CycleInputs.downStep (i : CycleInputs) (c : Chan) : Nat :=
  rampStep (i.cm.profiles[(i.cm.table[c]).profile]).down i.period

/-- The need of channel `c` (R99). -/
def CycleInputs.need (i : CycleInputs) (c : Chan) : Nat :=
  rampedNeed i.cm.table[c] i.used i.prev[c] (i.target c) (i.upStep c) (i.downStep c)

/-! ## Stage 4: group fill -/

/-- The effective capacity of a group (R100). -/
def effCapacity (cap vLast : Nat) : Nat := cap * min vLast 1000 / 1000

/-- A group fill in progress (R101). -/
structure Fill where
  /-- The remaining capacity. -/
  remaining : Nat
  /-- The commands given so far. -/
  cmd : Vector Nat 16
  /-- The channels noted for the contention record. -/
  noted : Vector Bool 16
  deriving DecidableEq, Repr

/-- The command of a channel of need `need` with `remaining` capacity left (R101, steps 1 and 3). -/
def fillCommand (e : ChannelEntry) (need remaining : Nat) : Nat :=
  let cmd := min need remaining
  if cmd < e.iMin then 0 else cmd

/-- The fill takes channel `c` (R101, steps 1 to 4). -/
def CycleInputs.fillChannel (i : CycleInputs) (f : Fill) (c : Chan) : Fill :=
  let cmd := fillCommand i.cm.table[c] (i.need c) f.remaining
  { remaining := f.remaining - cmd
    cmd := f.cmd.set c cmd
    noted := f.noted.set c (decide (f.remaining < i.need c)) }

/-- The channels of group `g` that take part, in ascending order of rank, equal ranks in ascending channel number
(R101). -/
def CycleInputs.fillOrder (i : CycleInputs) (g : Fin 4) : List Chan :=
  (List.finRange 16).flatMap fun (rank : Fin 16) =>
    (List.finRange 16).filter fun c =>
      i.takesPart c && decide ((i.cm.table[c]).group = g) && decide ((i.cm.table[c]).rank = rank)

/-- A fill that has given nothing of a capacity. -/
def Fill.empty (cap : Nat) : Fill :=
  { remaining := cap, cmd := Vector.replicate 16 0, noted := Vector.replicate 16 false }

/-- The fill of group `g` (R100, R101). -/
def CycleInputs.groupFill (i : CycleInputs) (g : Fin 4) : Fill :=
  (i.fillOrder g).foldl i.fillChannel (Fill.empty (effCapacity i.cm.groups[g] i.vLast))

/-- The outcome of stages 1 to 4. -/
structure Allocation where
  /-- The command of each channel, A. -/
  cmd : Vector Nat 16
  /-- The channels that received less than their need. -/
  noted : Vector Bool 16
  deriving DecidableEq, Repr

/-- Stages 1 to 4: each channel's command and note come from the fill of its own group; a channel that takes no part
is commanded 0 (R95, R101). -/
def CycleInputs.allocate (i : CycleInputs) : Allocation :=
  let fills : Vector Fill 4 := Vector.ofFn i.groupFill
  { cmd := Vector.ofFn fun c => ((fills[(i.cm.table[c]).group]).cmd)[c]
    noted := Vector.ofFn fun c => ((fills[(i.cm.table[c]).group]).noted)[c] }

/-- The sum of the commands of all sixteen channels (R105). -/
def commandSum (cmd : Vector Nat 16) : Nat := ((List.finRange 16).map fun c => cmd[c]).sum

/-! ## Stage 5: orders -/

/-- The order of a channel in state `st` (R104): the first line of the table that applies. In LOAD every channel's
order is STANDBY (R108); a disabled channel's block carries STANDBY in every mode (R108). -/
def CycleInputs.order (i : CycleInputs) (c : Chan) : Order :=
  if i.cm.chan[c] = .off then .standby
  else
    match i.mode with
    | .load => .standby
    | .halt => if i.rtc = .tripped then .trip else .standby
    | .run =>
      match i.cm.chan[c] with
      | .off => .standby
      | .standby => .standby
      | .faulted => .standby
      | .starting => .start
      | .running => if i.rtc = .sag ∧ i.blocking then .block else .run
      | .parked => if i.rtc = .sag ∧ i.blocking then .block else .run

/-! ## The Channel Manager at a cycle start -/

/-- Channel `c` passes to STARTING at this request (R59). -/
def ChannelManager.starts (m : ChannelManager) (mode : PartMode) (rtc : RtcState) (store : Vector Nat 16)
    (c : Chan) : Bool :=
  decide (m.chan[c] = .standby) && decide (mode = .run) && decide (rtc = .normal) && decide (0 < store[c])

/-- The start examination (R59): the channels that pass to STARTING have their start timers loaded with T_start. -/
def ChannelManager.examine (m : ChannelManager) (mode : PartMode) (rtc : RtcState) (store : Vector Nat 16)
    (ms : Nat) : ChannelManager :=
  { m with
    chan := Vector.ofFn fun c => if m.starts mode rtc store c then .starting else m.chan[c]
    startTimers := Vector.ofFn fun c => if m.starts mode rtc store c then startTimer ms m.tStart
                                        else m.startTimers[c] }

/-- The state of a channel in state `st` after a result (R64). -/
def resultState (st : ChannelState) (positive : Bool) : ChannelState :=
  match st with
  | .running => if positive then .running else .parked
  | .parked => if positive then .running else .parked
  | .off => .off
  | .standby => .standby
  | .starting => .starting
  | .faulted => .faulted

/-- The park timer of channel `c` after a result (R64, R65): loaded at entry to PARKED when the park limit is above 0,
stopped when the channel returns to RUNNING. -/
def ChannelManager.resultPark (m : ChannelManager) (ms : Nat) (c : Chan) (positive : Bool) : Timer :=
  match m.chan[c] with
  | .running =>
    if positive then m.parkTimers[c]
    else if (m.profiles[(m.table[c]).profile]).park = 0 then none
    else startTimer ms (m.profiles[(m.table[c]).profile]).park
  | .parked => if positive then none else m.parkTimers[c]
  | .off => m.parkTimers[c]
  | .standby => m.parkTimers[c]
  | .starting => m.parkTimers[c]
  | .faulted => m.parkTimers[c]

/-- The Channel Manager applies the results of an allocation: `took c` says that channel `c` took part, `cmd` holds
the commands (R64). -/
def ChannelManager.takeResults (m : ChannelManager) (ms : Nat) (took : Chan → Bool) (cmd : Vector Nat 16) :
    ChannelManager :=
  { m with
    chan := Vector.ofFn fun c => if took c then resultState m.chan[c] (decide (0 < cmd[c])) else m.chan[c]
    parkTimers := Vector.ofFn fun c =>
      if took c then m.resultPark ms c (decide (0 < cmd[c])) else m.parkTimers[c] }

/-! ## The contention record -/

/-- The contention record after a cycle's update (R102). -/
def joinContention (old noted : Vector Bool 16) : Vector Bool 16 := Vector.ofFn fun c => old[c] || noted[c]

/-- The set has a member. -/
def anyMember (v : Vector Bool 16) : Bool := (List.finRange 16).any fun c => v[c]

/-- The update of the contention record hands a contention notice: the set was empty and is not empty after (R102). -/
def contentionNotice (old noted : Vector Bool 16) : Bool := !anyMember old && anyMember noted

end Sys2Proof.Machine
end

