-- ==== Sys2Proof/Machine/Cycle.lean ====
section
/-! DEFINITION. The setpoint cycle (05_allocation_and_the_setpoint_cycle.md): the cycle start and the parts of the
Setpoint Engine's work for it, between which the owners of its inputs may take other events (R93, R112). Each part
acts on the work that stands in `se.work` and is the identity where that work has passed it; a part first makes the
earlier parts that it needs. -/

namespace Sys2Proof.Machine

/-! ## The cycle start -/

/-- The Setpoint Engine's work stands at `w`. -/
def State.atWork (w : CycleWork) (s : State) : State := { s with se := { s.se with work := w } }

/-- A gathering that has read nothing. -/
def Gathering.none : Gathering := { demands := .none, standing := .none, vLast := .none, answer := .none }

/-- The link cycle timer expires (R91, R92): time passes up to the expiry, the timer reloads from its latch, the cycle
number increases by 1, and both blocks have the expiry to take (R124). -/
def State.beginCycle (s : State) : State :=
  let s := s.advanceTo s.se.nextCycle
  { s with
    se := { s.se with cycle := s.se.cycle + 1, period := s.se.tCyc,
                      nextCycle := s.se.nextCycle + s.se.tCyc * Config.clocksPerUs, work := .gathering .none }
    rr := { s.rr with expiryDue := true } }

/-! ## Gathering the inputs (R93, R94) -/

/-- The allowance of the RTC's answer now (R42, R43). -/
def State.allowanceNow (s : State) : Nat := allowance (s.rtc.pState s.timeBase) s.gm.factor

/-- The active row's action is BLOCK. -/
def RideThrough.blocking (r : RideThrough) : Bool :=
  match r.active with
  | none => false
  | some i => decide ((r.rows[i]).action = .block)

/-- The whole demand store and the pending tag are read, and the applied tag takes the tag read (R84). -/
def State.readDemands (s : State) : State :=
  match s.se.work with
  | .gathering { demands := .none, standing := st, vLast := v, answer := a } =>
    State.atWork (.gathering { demands := some { store := s.di.store, tag := s.di.pendingTag }, standing := st, vLast := v,
                               answer := a })
      { s with di := { s.di with appliedTag := s.di.pendingTag } }
  | _ => s

/-- The Ride-Through Controller answers (R42, R43). -/
def State.readStanding (s : State) : State :=
  match s.se.work with
  | .gathering { demands := d, standing := .none, vLast := v, answer := a } =>
    s.atWork (.gathering {
      demands := d
      standing := some { rtc := s.rtc.state, active := s.rtc.active, blocking := s.rtc.blocking,
                         allowance := s.allowanceNow }
      vLast := v, answer := a })
  | _ => s

/-- v_last is read (R93). -/
def State.readVoltage (s : State) : State :=
  match s.se.work with
  | .gathering { demands := d, standing := st, vLast := .none, answer := a } =>
    s.atWork (.gathering { demands := d, standing := st, vLast := some s.gm.vLast, answer := a })
  | _ => s

/-- The Channel Manager's answer as it now stands. -/
def ChannelManager.answer (m : ChannelManager) : ChannelAnswer :=
  { table := m.table, groups := m.groups, profiles := m.profiles, chan := m.chan }

/-- The request to the Channel Manager, after the readings it carries: it makes its start examination for the part mode
that now stands and the demands and controller state read, and answers (R59, R93, R94). -/
def State.requestChannels (s : State) : State :=
  let s := s.readDemands.readStanding
  match s.se.work with
  | .gathering { demands := some d, standing := some st, vLast := v, answer := .none } =>
    let m := s.cm.examine s.fmu.mode st.rtc d.store s.ms
    State.atWork (.gathering { demands := some d, standing := some st, vLast := v, answer := some (s.fmu.mode, m.answer) })
      { s with cm := m }
  | _ => s

/-- The inputs of the cycle, when all are gathered. -/
def State.inputs (s : State) : Option CycleInputs :=
  match s.se.work with
  | .gathering { demands := some d, standing := some st, vLast := some v, answer := some a } =>
    some { mode := a.1, store := d.store, tag := d.tag, rtc := st.rtc, active := st.active, blocking := st.blocking,
           allowance := st.allowance, vLast := v, period := s.se.period, cm := a.2, prev := s.se.last }
  | _ => none

/-! ## Closing the allocation (R101, R102, R105) -/

/-- The allocation of inputs `i` is closed: the Channel Manager applies the results to the states it now holds (R64),
the contention record is joined and the Fault and Mode Unit takes its notice in the same step (R102; DESIGN CHOICE, log
entry 22), and the records of R105 are written. -/
def State.closeAllocation (s : State) (i : CycleInputs) : State :=
  let a := i.allocate
  let contention := joinContention s.se.contention a.noted
  { s with
    se := { s.se with last := a.cmd, contention := contention, lastAllowance := i.used, lastSum := commandSum a.cmd,
                      work := .closed { inputs := i, cmd := a.cmd, contention := contention } }
    cm := s.cm.takeResults s.ms i.takesPart a.cmd
    fmu := { s.fmu with summary := { s.fmu.summary with
      contention := s.fmu.summary.contention || contentionNotice s.se.contention a.noted } } }

/-- The inputs not yet gathered are gathered, and the allocation is closed. -/
def State.closeCycle (s : State) : State :=
  let s := s.readVoltage.requestChannels
  match s.inputs with
  | none => s
  | some i => s.closeAllocation i

/-! ## The frames (R106 to R109) -/

/-- The setpoint frame's content (R106). -/
def CycleInputs.setpoint (i : CycleInputs) (cycle : BitVec 16) (cmd : Vector Nat 16) : SetpointContent :=
  { cycle := cycle, tag := i.tag, allowance := i.used, mode := i.mode, rtc := i.rtc
    entries := ((List.finRange 16).filter fun c => decide (i.cm.chan[c] ≠ .off)).map fun c =>
      { station := (i.cm.table[c]).station, order := i.order c, command := cmd[c] } }

/-- The setpoint frame (R107). -/
def State.setpointFrame (s : State) (w : ClosedCycle) : Frame :=
  buildFrame s.pu.ownStation s.pu.typeValue kindSetpoint Config.broadcast s.se.cycle
    (w.inputs.setpoint s.se.cycle w.cmd).payload

/-- No owner's fields read. -/
def StatusReadings.none : StatusReadings :=
  { links := .none, grid := .none, faults := .none, fallback := .none, measured := .none }

/-- The setpoint frame is handed to port D, in RUN and HALT (R107, R110). -/
def State.handSetpointFrame (s : State) : State :=
  let s := s.closeCycle
  match s.se.work with
  | .closed w =>
    let s := s.atWork (.building w .none)
    if w.inputs.mode = .load then s else s.onD (PortD.handSetpoint s.clock (s.setpointFrame w))
  | _ => s

/-- The Grid Monitor's fields of a status frame (R109). -/
def GridMonitor.shown (g : GridMonitor) : GridShown :=
  { factor := g.factor, vLast := g.vLast, fLast := g.fLast, gridLost := g.gridLost }

/-- The Fault and Mode Unit's fields of a status frame (R109). -/
def FaultModeUnit.shown (f : FaultModeUnit) : FaultsShown :=
  { summary := f.summary, mask := f.mask, count := f.faults.length
    head := f.faults.head?.map fun e => (e.code, e.subject), droppedTrip := f.droppedTrip }

/-- The measured current of a last-report record: 0 when none has been stored (R109). -/
def measuredCurrent (r : Option ReportRecord) : Nat :=
  match r with
  | none => 0
  | some r => r.current

/-- The measured currents of a status frame (R109). -/
def ReportReceiver.shown (r : ReportReceiver) : Vector Nat 16 := Vector.ofFn fun c => measuredCurrent r.record[c]

/-- The link states of a status frame (R109). -/
def PortUnits.shown (p : PortUnits) : Bool × Bool × Bool := (p.u.up, p.d.up, p.g.up)

/-- The fields of owner `o` are read together, unless they have been read (R109). -/
def State.readOwner (s : State) (o : StatusOwner) (v : StatusReadings) : StatusReadings :=
  match o with
  | .ports => { v with links := some (v.links.getD s.pu.shown) }
  | .gridMonitor => { v with grid := some (v.grid.getD s.gm.shown) }
  | .faultModeUnit => { v with faults := some (v.faults.getD s.fmu.shown) }
  | .demandIntake => { v with fallback := some (v.fallback.getD s.di.fallbackActive) }
  | .reportReceiver => { v with measured := some (v.measured.getD s.rr.shown) }

/-- One owner's fields are read for the status frame. DESIGN CHOICE (log entry 21): the setpoint frame is handed
first. -/
def State.lookAt (o : StatusOwner) (s : State) : State :=
  let s := s.handSetpointFrame
  match s.se.work with
  | .building w v => s.atWork (.building w (s.readOwner o v))
  | _ => s

/-- The status frame's content (R108, R109): the cycle's own work, and each owner's fields as they were read, or as
they stand now where they have not been read. -/
def State.statusContent (s : State) (w : ClosedCycle) (v : StatusReadings) : StatusContent :=
  let i := w.inputs
  let links := v.links.getD s.pu.shown
  let grid := v.grid.getD s.gm.shown
  let faults := v.faults.getD s.fmu.shown
  let measured := v.measured.getD s.rr.shown
  { cycle := s.se.cycle, tag := i.tag, mode := i.mode, rtc := i.rtc, active := i.active, links := links,
    allowance := i.used, factor := grid.factor, vLast := grid.vLast, fLast := grid.fLast, summary := faults.summary,
    mask := faults.mask, faultCount := faults.count, head := faults.head, droppedTrip := faults.droppedTrip,
    fallbackActive := v.fallback.getD s.di.fallbackActive, gridLost := grid.gridLost, contention := w.contention
    blocks := Vector.ofFn fun c =>
      { state := i.cm.chan[c], order := i.order c, command := w.cmd[c], measured := measured[c] } }

/-- The controller status frame (R108). -/
def State.statusFrame (s : State) (w : ClosedCycle) (v : StatusReadings) : Frame :=
  buildFrame s.pu.ownStation s.pu.typeValue kindStatus s.di.supervisor s.se.cycle (s.statusContent w v).payload

/-- The status frame is handed to port U, and the work for the cycle start is done (R92, R108). -/
def State.handStatusFrame (s : State) : State :=
  let s := s.handSetpointFrame
  match s.se.work with
  | .building w v => (s.atWork .idle).onU (PortU.handStatus s.clock (s.statusFrame w v))
  | _ => s

/-! ## CYCLE_START -/

/-- The work for the cycle start before is done: each expiry finds it complete (R92, R120). -/
def State.settle (s : State) : State := s.handStatusFrame.takeExpiry.settleReports

/-- CYCLE_START, as a whole or one of its parts (R92, R93, R112, R124). When the Report Receiver takes the expiry
first, its loss test is made before the Channel Manager's request; otherwise the test is due after the cycle's work.
-/
def execCycleStart (part : CyclePart) (s : State) : Host.Outcome State Fault Refusal :=
  .next (s.live (fun s =>
    match part with
    | .whole true => s.settle.beginCycle.takeExpiry.settleReports.handStatusFrame
    | .whole false => s.settle.beginCycle.handStatusFrame.takeExpiry
    | .start => s.settle.beginCycle
    | .demands => s.readDemands
    | .standing => s.readStanding
    | .voltage => s.readVoltage
    | .request => s.requestChannels
    | .close => s.closeCycle
    | .setpoint => s.handSetpointFrame
    | .look o => s.lookAt o
    | .status => s.handStatusFrame
    | .reports => s.takeExpiry))

end Sys2Proof.Machine
end

