-- ==== Sys2Proof/Machine/Demand.lean ====
section
/-! DEFINITION. The Demand Intake (04_demand_intake.md): dispatch frames, the demand store and dispatch silence. -/

namespace Sys2Proof.Machine

/-- The frame-level checks of a dispatch frame from the supervisor station (R78). -/
def Dispatch.acceptable (f : Dispatch) : Bool :=
  decide (1 ≤ f.count) && decide (f.count ≤ 16) && decide (f.length = 4 + 4 * f.count) &&
    f.entries.all (fun e => decide (e.channel ≤ 15)) && decide ((f.entries.map DispatchEntry.channel).Nodup)

/-- One entry is stored, clamped, or ignored (R79). An index outside 0..15 does not pass R78. -/
def State.storeEntry (s : State) (e : DispatchEntry) : State :=
  match index? 16 e.channel with
  | none => s
  | some c =>
    if (s.cm.table[c]).enable = false then { s with di := { s.di with ignored := s.di.ignored + 1 } }
    else if e.demand ≤ (s.cm.table[c]).rated then { s with di := { s.di with store := s.di.store.set c e.demand } }
    else
      State.raise { code := .demandClamped, cls := .note, subject := .channel c }
        { s with di := { s.di with store := s.di.store.set c (s.cm.table[c]).rated } }

/-- The acceptance is completed (R80). -/
def State.acceptDispatch (f : Dispatch) (s : State) : State :=
  { s with di := { s.di with
      pendingTag := f.tag
      fallbackActive := false
      silence := if s.fmu.mode = .run then startTimer s.ms s.di.tDs else s.di.silence
      accepted := s.di.accepted + 1 } }

/-- The Demand Intake takes a dispatch frame (R77 to R80). -/
def State.takeDispatch (f : Dispatch) (s : State) : State :=
  if f.source ≠ s.di.supervisor then s.onU (fun p => { p with foreign := p.foreign + 1 })
  else if f.acceptable = false then
    State.raise { code := .dispatchRefused, cls := .note, subject := .none }
      { s with di := { s.di with refused := s.di.refused + 1 } }
  else (f.entries.foldl State.storeEntry s).acceptDispatch f

/-- DISPATCH_FRAME_TAKEN: the Demand Intake takes the oldest frame port U has handed it (R77). -/
def execDispatchFrameTaken (s : State) : Host.Outcome State Fault Refusal :=
  .next (s.live (fun s =>
    match s.di.handed with
    | [] => s
    | f :: rest => State.takeDispatch f { s with di := { s.di with handed := rest } }))

/-- The store after a silence expiry: every enabled channel at its fallback demand (R82). -/
def State.fallbackStore (s : State) : Vector Nat 16 :=
  Vector.ofFn fun c => if (s.cm.table[c]).enable then (s.cm.table[c]).fallback else s.di.store[c]

/-- DISPATCH_SILENCE_EXPIRY (R82). The timer runs in RUN only (R81). -/
def execDispatchSilenceExpiry (s : State) : Host.Outcome State Fault Refusal :=
  .next (s.live (fun s => s.onExpiry s.di.silence (fun s =>
    State.raise { code := .dispatchLost, cls := .hold, subject := .none }
      { s with di := { s.di with store := s.fallbackStore, fallbackActive := true, silence := none } })))

end Sys2Proof.Machine
end

