-- ==== Sys2Proof/Machine/Grid.lean ====
section
/-! DEFINITION. The Grid Monitor (01_grid_measurement.md): classifying the frames it takes, the frequency factor, the
capture record of a frame (R154), and grid silence. -/

namespace Sys2Proof.Machine

/-- The distance of a sequence from the last taken one (R7). -/
def seqDistance (s last : BitVec 16) : Nat := (s - last).toNat

/-- A sequence is newer than the sequence state (R7). -/
def isNewer (st : Option (BitVec 16)) (s : BitVec 16) : Bool :=
  match st with
  | none => true
  | some last => decide (1 ≤ seqDistance s last) && decide (seqDistance s last ≤ 32767)

/-- The frames a newer sequence shows to be missed (R7). -/
def missedBy (st : Option (BitVec 16)) (s : BitVec 16) : Nat :=
  match st with
  | none => 0
  | some last => seqDistance s last - 1

/-- The least of the three voltages (R9). -/
def GridSample.vMin (f : GridSample) : Nat := min f.vab (min f.vbc f.vca)

/-- The greatest of the three voltages (R9). -/
def GridSample.vMax (f : GridSample) : Nat := max f.vab (max f.vbc f.vca)

/-- The plausibility test (R8). -/
def GridSample.plausible (f : GridSample) : Bool :=
  f.quality.getLsbD 0 && decide (f.vab ≤ 2000) && decide (f.vbc ≤ 2000) && decide (f.vca ≤ 2000) &&
    decide (40000 ≤ f.freq) && decide (f.freq ≤ 70000)

/-- The frequency factor F for frequency `f` under the settings in force (R10). -/
def GridMonitor.factorFor (g : GridMonitor) (f : Nat) : Nat :=
  if g.fNom - g.db ≤ f then 1000 else max g.fFloor (1000 - g.k * (g.fNom - g.db - f) / 100)

/-- The four outcomes of a grid frame (R5). -/
inductive GridOutcome where
  | foreign
  | stale
  | invalid
  | valid
  deriving DecidableEq, Repr

/-- The outcome of a frame: each row of the table applies only when the rows above it do not (R5). -/
def GridMonitor.outcome (g : GridMonitor) (f : GridSample) : GridOutcome :=
  if f.source ≠ g.station then .foreign
  else if isNewer g.seqState f.seq = false then .stale
  else if f.plausible = false then .invalid
  else .valid

/-- A newer frame advances the sequence state and the missed grid frames counter (R7). -/
def GridMonitor.advanceSeq (g : GridMonitor) (f : GridSample) : GridMonitor :=
  { g with missed := g.missed + BitVec.ofNat 32 (missedBy g.seqState f.seq), seqState := some f.seq }

/-- The Grid Monitor after an invalid frame (R7, R8). -/
def GridMonitor.takeInvalid (g : GridMonitor) (f : GridSample) : GridMonitor :=
  { g.advanceSeq f with invalid := g.invalid + 1 }

/-- The Grid Monitor after a valid frame taken at millisecond `ms` (R7, R9 to R12). -/
def GridMonitor.takeValid (g : GridMonitor) (f : GridSample) (ms : Nat) : GridMonitor :=
  { g.advanceSeq f with
    vLast := f.vMin
    vMaxLast := f.vMax
    fLast := f.freq
    factor := g.factorFor f.freq
    gridLost := false
    silence := startTimer ms g.tGs }

/-- The active row a record shows: only in SAG (R154). -/
def recordRow (st : RtcState) (active : Option Row) : Option Row := if st = .sag then active else none

/-- The controller state that the record of a frame carries: the one returned for a valid frame, NORMAL in LOAD
(R24), and the one read for an invalid frame (R154). -/
def State.recordState (s : State) (valid : Bool) : RtcState :=
  if valid ∧ s.fmu.mode = .load then .normal else s.rtc.state

/-- The capture record of a frame, completed from the state after the Grid Monitor and the Ride-Through Controller
have taken it (R154). -/
def State.recordOf (s : State) (f : GridSample) (valid : Bool) : CaptureRecord :=
  { time := s.timeBase, seq := f.seq, valid := valid, vMin := f.vMin, vMax := f.vMax, freq := f.freq,
    rtc := s.recordState valid, active := recordRow (s.recordState valid) s.rtc.active,
    allowance := s.se.lastAllowance, factor := s.gm.factor, sum := s.se.lastSum, trigger := false }

/-- A foreign or stale frame is counted in port G's receive foreign/stale drops (R6, R7). -/
def State.countForeignG (s : State) : State := s.onG (fun p => { p with foreign := p.foreign + 1 })

/-- A valid notice in LOAD is ignored (R24); in RUN and HALT the Ride-Through Controller acts on it. -/
def State.noticeResult (s : State) (f : GridSample) : NoticeResult :=
  if s.fmu.mode = .load then quiet s.rtc else s.rtc.notice s.ms f.vMin f.vMax

/-- A valid frame (R11): the Grid Monitor's values, the notice to the Ride-Through Controller, the SAG flag of a sag
that began (R29), the capture record, and the REPEATED SAG of a sag that tripped (R31). When that fault forces HALT,
`haltFirst` says whether the Capture Unit takes the HALT notice or the record first (R162); `held` says that the
raising is only handed to the Fault and Mode Unit (R111). -/
def State.takeValidFrame (f : GridSample) (haltFirst held : Bool) (s : State) : State :=
  let s := { s with gm := s.gm.takeValid f s.ms }
  let n := s.noticeResult f
  let s := { s with rtc := n.rtc
                    fmu := { s.fmu with summary := { s.fmu.summary with sag := s.fmu.summary.sag || n.sagBegan } } }
  let rec' := s.recordOf f true
  let trip := tripFault .repeatedSag
  if n.repeated then
    if held then (s.takeRecord rec' n.sagBegan).handRaising trip
    else if haltFirst then (s.raise trip).takeRecord rec' n.sagBegan
    else (s.takeRecord rec' n.sagBegan).raise trip
  else s.takeRecord rec' n.sagBegan

/-- An invalid frame (R8): the Grid Monitor's counts, and a record marked invalid. -/
def State.takeInvalidFrame (f : GridSample) (s : State) : State :=
  let s := { s with gm := s.gm.takeInvalid f }
  s.takeRecord (s.recordOf f false) false

/-- The Grid Monitor takes frame `f` (R5). -/
def State.takeGridFrame (f : GridSample) (haltFirst held : Bool) (s : State) : State :=
  match s.gm.outcome f with
  | .foreign => s.countForeignG
  | .stale => s.countForeignG
  | .invalid => s.takeInvalidFrame f
  | .valid => s.takeValidFrame f haltFirst held

/-- The Grid Monitor takes the oldest frame port G has handed it, if there is one. -/
def State.takeSample (haltFirst held : Bool) (s : State) : State :=
  match s.gm.handed with
  | [] => s
  | f :: rest => State.takeGridFrame f haltFirst held { s with gm := { s.gm with handed := rest } }

/-- GRID_SAMPLE_TAKEN: the Grid Monitor takes a frame (R5); in parts, the Fault and Mode Unit takes the REPEATED SAG
of a sag that trips by a command of its own (R111). -/
def execGridSampleTaken (haltFirst : Bool) (s : State) (part : TripPart := .whole) :
    Host.Outcome State Fault Refusal :=
  .next (s.live (fun s =>
    match part with
    | .whole => s.takeSample haltFirst false
    | .trip => s.takeSample haltFirst true
    | .raise => s.takeRaising .repeatedSag))

/-- GRID_SILENCE_EXPIRY: grid-lost is set, GRID DATA LOST is raised and, in RUN and HALT, the Ride-Through Controller
takes the "grid lost" notice (R13, R24, R38). -/
def execGridSilenceExpiry (s : State) : Host.Outcome State Fault Refusal :=
  .next (s.live (fun s => s.onExpiry s.gm.silence (fun s =>
    let rtc := if s.fmu.mode = .load then s.rtc else s.rtc.gridLostNotice s.timeBase
    State.raise { code := .gridDataLost, cls := .hold, subject := .none }
      { s with gm := { s.gm with gridLost := true, silence := none }, rtc := rtc })))

end Sys2Proof.Machine
end

