-- ==== Sys2Proof/Machine/Modes.lean ====
section
/-! DEFINITION. The Fault and Mode Unit's requests (07_operating_modes_faults_and_alerts.md): the four mode requests,
acknowledgement, and the alert mask; and the Channel Manager's ABORT (R63). -/

namespace Sys2Proof.Machine

/-! ## The mode requests (R131) -/

/-- The fault list holds a TRIP-class entry. -/
def FaultModeUnit.holdsTrip (f : FaultModeUnit) : Bool := f.faults.any fun e => decide (e.cls = .trip)

/-- The part is barred from RUN by a trip, listed or dropped (R132, R134). -/
def FaultModeUnit.barred (f : FaultModeUnit) : Bool := f.holdsTrip || f.droppedTrip

/-- The index field that means none (R132). -/
def noIndex : Nat := 0xFFFF

/-- The first enabled channel whose group's capacity is below its I_min (R132, check 4). -/
def ChannelManager.firstUncarried (m : ChannelManager) : Option Chan :=
  (List.finRange 16).find? fun c =>
    (m.table[c]).enable && decide (m.groups[(m.table[c]).group] < (m.table[c]).iMin)

/-- Some channel is enabled (R132, check 3). -/
def ChannelManager.anyEnabled (m : ChannelManager) : Bool := (List.finRange 16).any fun c => (m.table[c]).enable

/-- The object and index that name the first of the four RUN checks that fails; none when all pass (R132). -/
def State.runFailure (s : State) : Option (Object × Nat) :=
  if s.fmu.barred then some (.fault, noIndex)
  else if s.rtc.valid = false then
    match firstFailingRow s.rtc.rows s.rtc.nRows s.rtc.vRecover with
    | some i => some (.envelope, i.val)
    | none => some (.envelope, noIndex)
  else if s.cm.anyEnabled = false then some (.channel, noIndex)
  else
    match s.cm.firstUncarried with
    | some c => some (.channel, c.val)
    | none => none

/-- Entry to RUN (R131): the mode, and the notice to the Demand Intake, whose silence timer is loaded (R81). No channel
changes state (R69). -/
def State.enterRun (s : State) : State :=
  { s with fmu := { s.fmu with mode := .run }, di := { s.di with silence := startTimer s.ms s.di.tDs } }

/-- Entry to RUN from LOAD: when grid-lost is set, the Ride-Through Controller enters GRID_LOST from NORMAL (R24). -/
def State.enterRunFromLoad (s : State) : State :=
  let s := s.enterRun
  if s.gm.gridLost then { s with rtc := s.rtc.loseGrid .normal s.timeBase } else s

/-- Entry to LOAD (R135): the notices to the Ride-Through Controller (R24), to the Channel Manager (R69) and to the
Demand Intake (R81). -/
def State.enterLoad (s : State) : State :=
  { s with
    fmu := { s.fmu with mode := .load }
    rtc := s.rtc.enterLoad
    cm := { s.cm with chan := s.cm.standbyStates, startTimers := Vector.replicate 16 none,
                      parkTimers := Vector.replicate 16 none }
    di := { s.di with silence := none } }

/-- The conditions of RESUME (R134). -/
def State.resumeAllowed (s : State) : Bool :=
  !s.fmu.barred && !s.gm.gridLost &&
    (decide (s.rtc.state = .normal) || (decide (s.rtc.state = .tripped) && decide (s.rtc.vRecover ≤ s.gm.vLast)))

/-- Entry to RUN from HALT: the resume notice takes a TRIPPED controller to NORMAL (R41, R134). -/
def State.enterRunFromHalt (s : State) : State :=
  let s := s.enterRun
  if s.rtc.state = .tripped then { s with rtc := s.rtc.untrip } else s

/-- The mode request's code is this one, or is absent from the table (R199). -/
def Request.modeIs (m : ModeRequest) (q : Request) : Bool :=
  match modeRequest? (byteAt q.data 0) with
  | none => true
  | some r => decide (r = m)

/-- The mode request's code is absent from the table: BAD_VALUE, and no mode changes (R199). -/
def Request.modeAbsent (q : Request) : Bool := (modeRequest? (byteAt q.data 0)).isNone

/-- The RUN request (R131, R132). -/
def decideRun : Service := fun q s =>
  if q.modeAbsent then (s, q.answered .badValue)
  else if s.fmu.mode ≠ .load then (s, q.answered .badMode)
  else
    match s.runFailure with
    | some (o, i) => (s, { q.answered .badValue with object := o.code, index := i })
    | none => (s.enterRunFromLoad, q.answered .done)

/-- The HALT request (R131, R133). -/
def decideHalt : Service := fun q s =>
  if q.modeAbsent then (s, q.answered .badValue)
  else if s.fmu.mode ≠ .run then (s, q.answered .badMode)
  else (s.enterHalt, q.answered .done)

/-- The RESUME request; a refusal carries index 0 (R131, R134, R192). -/
def decideResume : Service := fun q s =>
  if q.modeAbsent then (s, q.answered .badValue)
  else if s.fmu.mode ≠ .halt then (s, { q.answered .badMode with index := 0 })
  else if s.resumeAllowed then (s.enterRunFromHalt, q.answered .done)
  else (s, { q.answered .busy with index := 0 })

/-- Work of the Report Receiver that has a TRIP-class fault to raise is ended. -/
def State.endTrippingReport (s : State) : State :=
  if s.rr.work.faults.any (fun r => decide (r.cls = .trip)) then s.finishReport else s

/-- The LOAD request (R131, R135). A trip that came before it is taken in full, its fault with it, before the part
enters LOAD (R46, R145). -/
def decideLoad : Service := fun q s =>
  if q.modeAbsent then (s, q.answered .badValue)
  else if s.fmu.mode ≠ .halt then (s, q.answered .badMode)
  else (s.endTrippingReport.takeRaisings.enterLoad, q.answered .done)

/-- MODE_RUN (R132). -/
def execModeRun (s : State) : Host.Outcome State Fault Refusal :=
  .next (s.live (State.serve .mode .none (Request.modeIs .run) decideRun))

/-- MODE_HALT (R133). -/
def execModeHalt (s : State) : Host.Outcome State Fault Refusal :=
  .next (s.live (State.serve .mode .none (Request.modeIs .halt) decideHalt))

/-- MODE_RESUME (R134). -/
def execModeResume (s : State) : Host.Outcome State Fault Refusal :=
  .next (s.live (State.serve .mode .none (Request.modeIs .resume) decideResume))

/-- MODE_LOAD (R135). -/
def execModeLoad (s : State) : Host.Outcome State Fault Refusal :=
  .next (s.live (State.serve .mode .none (Request.modeIs .load) decideLoad))

/-! ## Acknowledgement (R142, R143) -/

/-- The entry is of class HOLD or TRIP and names channel `c` (R142). -/
def FaultEntry.holds (e : FaultEntry) (c : Chan) : Bool := e.cls.grave && decide (e.subject = .channel c)

/-- The channel that removing entry `e` from before `rest` releases: the channel a HOLD or TRIP entry names, when no
entry left holds it (R142). -/
def releasedBy (e : FaultEntry) (rest : List FaultEntry) : Option Chan :=
  match e.subject with
  | .channel c => if e.cls.grave && !rest.any (fun x => x.holds c) then some c else none
  | .port _ => none
  | .none => none

/-- The release event of `c`, when there is one (R68). -/
def ChannelManager.releaseIf (m : ChannelManager) (c : Option Chan) : ChannelManager :=
  match c with
  | none => m
  | some c => m.release c

/-- ACK HEAD (R142). -/
def decideAckHead : Service := fun q s =>
  match s.fmu.faults with
  | [] => (s, q.answered .busy)
  | e :: rest =>
    ({ s with fmu := { s.fmu with faults := rest }, cm := s.cm.releaseIf (releasedBy e rest) }, q.answered .done)

/-- ACK_HEAD (R142). -/
def execAckHead (s : State) : Host.Outcome State Fault Refusal :=
  .next (s.live (State.serve .ackHead .none anyRequest decideAckHead))

/-- ACK ALL (R143). -/
def decideAckAll : Service := fun q s =>
  ({ s with fmu := { s.fmu with faults := [], droppedTrip := false }, cm := s.cm.releaseAll }, q.answered .done)

/-- ACK_ALL (R143). -/
def execAckAll (s : State) : Host.Outcome State Fault Refusal :=
  .next (s.live (State.serve .ackAll .none anyRequest decideAckAll))

/-! ## The alert mask (R149) -/

/-- MASK: bit 7 of the data byte chooses set or clear, bits 5 to 0 select the flags (R149, R177). -/
def decideMask : Service := fun q s =>
  let b := byteAt q.data 0
  ({ s with fmu := { s.fmu with mask := s.fmu.mask.write (EventFlags.ofByte b) (b.getLsbD 7) } }, q.answered .done)

/-- MASK (R149). -/
def execMask (s : State) : Host.Outcome State Fault Refusal :=
  .next (s.live (State.serve .mask .none anyRequest decideMask))

/-! ## ABORT (R63) -/

/-- ABORT: a STARTING channel passes to STANDBY with its timer stopped; in any other state the request is refused
(R63). -/
def decideAbort : Service := fun q s =>
  match index? 16 q.index with
  | none => (s, q.answered .badIndex)
  | some c =>
    if s.cm.chan[c] = .starting then ({ s with cm := s.cm.pass c .standby }, q.answered .done)
    else (s, q.answered .busy)

/-- ABORT (R63). -/
def execAbort (s : State) : Host.Outcome State Fault Refusal :=
  .next (s.live (State.serve .abort .channel anyRequest decideAbort))

end Sys2Proof.Machine
end

