-- ==== Sys2Proof/Machine/Ports.lean ====
section
/-! DEFINITION. The port units and the forwarding fabric (09_feed_link_frames.md, 10_ports_and_forwarding.md): the
receive checks, delivery and forwarding, link state, and the ends of transmissions. -/

namespace Sys2Proof.Machine

/-! ## Reception -/

/-- A good frame is counted (R187). -/
def RxCounters.countGood (f : Frame) (r : RxCounters) : RxCounters :=
  { r with good := r.good + 1, bytes := r.bytes + BitVec.ofNat 40 f.length }

/-- A frame that fails the FCS check is counted (R167, R187). -/
def RxCounters.countFcs (r : RxCounters) : RxCounters := { r with fcs := r.fcs + 1 }

/-- A frame that fails the length check is counted (R167, R187). -/
def RxCounters.countLength (r : RxCounters) : RxCounters := { r with length := r.length + 1 }

/-- A frame that fails the header checks is counted (R168, R187). -/
def RxCounters.countHeader (r : RxCounters) : RxCounters := { r with header := r.header + 1 }

/-- The state with the receive counters of port `p` changed. -/
def State.onRx (p : Port) (g : RxCounters → RxCounters) (s : State) : State :=
  match p with
  | .u => s.onU (fun u => { u with rx := g u.rx })
  | .d => s.onD (fun d => { d with rx := g d.rx })
  | .g => s.onG (fun q => { q with rx := g q.rx })

/-- The link state of port `p`: true is UP (R179). -/
def State.linkUp (s : State) (p : Port) : Bool :=
  match p with
  | .u => s.pu.u.up
  | .d => s.pu.d.up
  | .g => s.pu.g.up

/-- The fates of a received frame (R167, R168, R181 to R183). -/
inductive Reception where
  /-- The port is DOWN: no frame is received (R180). -/
  | unheard
  /-- Dropped by the FCS check. -/
  | badFcs
  /-- Dropped by the length check. -/
  | badLength
  /-- Dropped by the header checks. -/
  | badHeader
  /-- A good frame that passes to the other port's queue. -/
  | pass
  /-- A good frame for the block its kind names. -/
  | deliver
  /-- A good frame at port G that is not of the Feed Link type. -/
  | foreign
  deriving DecidableEq, Repr

/-- The frame is given the header checks: a Feed Link frame for the own station, or any Feed Link frame at port G
(R168). -/
def State.givesHeaderChecks (s : State) (p : Port) (f : Frame) : Bool :=
  decide (p = .g) || decide ((headerOf f).dest = s.pu.ownStation)

/-- What becomes of frame `f` at port `p` (R167, R168, R180 to R183). -/
def State.reception (s : State) (p : Port) (f : Frame) : Reception :=
  if s.linkUp p = false then .unheard
  else if fcsMatches f = false then .badFcs
  else if lengthOk f = false then .badLength
  else if typeField f ≠ s.pu.typeValue then (if p = .g then .foreign else .pass)
  else if s.givesHeaderChecks p f = false then .pass
  else
    match headerVerdict p f with
    | .error => .badHeader
    | .deliver => .deliver
    | .forward => .pass

/-- A good frame is handed to the other port: from U to port D's pass-through queue, from D to port U's forwarding
queue (R181, R182). Port G forwards nothing (R183). -/
def State.passOn (p : Port) (f : Frame) (s : State) : State :=
  match p with
  | .u => s.onD (PortD.handPassThrough s.clock f)
  | .d => s.onU (PortU.handForward s.clock f)
  | .g => s

/-- A good frame is handed to the block its kind names (R168, R181 to R183). -/
def State.deliver (p : Port) (f : Frame) (s : State) : State :=
  match p with
  | .u =>
    if (headerOf f).kind = kindDispatch then { s with di := { s.di with handed := s.di.handed ++ [dispatchOf f] } }
    else { s with me := { s.me with handed := s.me.handed ++ [requestOf f] } }
  | .d => { s with rr := { s.rr with handed := s.rr.handed ++ [reportOf f] } }
  | .g => { s with gm := { s.gm with handed := s.gm.handed ++ [gridSampleOf f] } }

/-- The part receives frame `f` at port `p`. -/
def State.receive (p : Port) (f : Frame) (s : State) : State :=
  match s.reception p f with
  | .unheard => s
  | .badFcs => s.onRx p RxCounters.countFcs
  | .badLength => s.onRx p RxCounters.countLength
  | .badHeader => s.onRx p RxCounters.countHeader
  | .pass => (s.onRx p (RxCounters.countGood f)).passOn p f
  | .deliver => (s.onRx p (RxCounters.countGood f)).deliver p f
  | .foreign => (s.onRx p (RxCounters.countGood f)).onG (fun q => { q with foreign := q.foreign + 1 })

/-- FRAME_RECEIVED: port `p` takes the whole frame `f` through the checks, then delivers, queues or drops it (R167). -/
def execFrameReceived (p : Port) (f : Frame) (s : State) : Host.Outcome State Fault Refusal :=
  .next (s.live (State.receive p f))

/-! ## Link state (R179, R180) -/

/-- One when `b` holds. -/
def countOf (b : Bool) : Nat := if b then 1 else 0

/-- The transmitter of port U is emptied: every frame in it counts as a tx discard (R179). -/
def PortU.flush (p : PortU) : PortU :=
  { p with
    tx := p.tx.discard (countOf p.sending.isSome + countOf p.slot.isSome + p.replies.length + p.forwarding.length)
    sending := none, slot := none, replies := [], forwarding := [] }

/-- The transmitter of port D is emptied (R179). -/
def PortD.flush (p : PortD) : PortD :=
  { p with
    tx := p.tx.discard (countOf p.sending.isSome + countOf p.slot.isSome + p.passThrough.length)
    sending := none, slot := none, passThrough := [] }

/-- The RESTART reply stands in port U's transmitter. -/
def PortU.holdsRestart (p : PortU) : Bool :=
  (match p.sending with
    | none => false
    | some t => t.out.isRestart) || p.replies.any OutFrame.isRestart

/-- The link state and the signal of port `p` are set. -/
def State.setLink (p : Port) (up signal : Bool) (s : State) : State :=
  match p with
  | .u => s.onU (fun u => { u with up := up, signal := signal })
  | .d => s.onD (fun d => { d with up := up, signal := signal })
  | .g => s.onG (fun g => { g with up := up, signal := signal })

/-- The transmitter of port `p` is emptied (R179, step 3); a RESTART whose reply is thereby discarded takes effect
(R200). -/
def State.flushPort (p : Port) (s : State) : State :=
  match p with
  | .u =>
    let restart := if s.pu.u.holdsRestart then .due else s.me.restart
    { s.onU PortU.flush with me := { s.me with restart := restart } }
  | .d => s.onD PortD.flush
  | .g => s

/-- A port in UP loses its signal: the four steps of R179. -/
def State.loseSignal (p : Port) (cut : Bool) (s : State) : State :=
  let s := s.setLink p false false
  let s := { s with fmu := { s.fmu with summary := { s.fmu.summary with link := true } } }
  let s := s.raise { code := .linkDown, cls := .hold, subject := .port p }
  let s := s.flushPort p
  if cut then s.onRx p RxCounters.countFcs else s

/-- LINK_LOSS: port `p` loses its signal (R179). While the part is held in reset only the signal itself changes. -/
def execLinkLoss (p : Port) (cut : Bool) (s : State) : Host.Outcome State Fault Refusal :=
  .next
    (if s.held then s.setLink p (s.linkUp p) false
     else if s.linkUp p then s.loseSignal p cut else s.setLink p false false)

/-- LINK_UP: port `p` detects its signal; a port in DOWN becomes UP with empty queues (R179, R189). -/
def execLinkUp (p : Port) (s : State) : Host.Outcome State Fault Refusal :=
  .next (if s.held then s.setLink p (s.linkUp p) true else s.setLink p true true)

/-! ## Ends of transmissions (R185, R186) -/

/-- TRANSMISSION_END_D: the frame in transmission at port D has held its link for its time; it is counted, and the
transmitter takes the next frame (R185). -/
def execTransmissionEndD (s : State) : Host.Outcome State Fault Refusal :=
  .next (s.live (fun s =>
    match s.pu.d.sending with
    | none => s
    | some t =>
      let s := s.advanceTo t.endsAt
      s.onD (fun d => PortD.serve s.clock { d with sending := none, tx := d.tx.sent t.out.frame })))

/-- TRANSMISSION_END_U: the same at port U (R186). The end of the RESTART reply's transmission lets the restart take
effect (R200). -/
def execTransmissionEndU (s : State) : Host.Outcome State Fault Refusal :=
  .next (s.live (fun s =>
    match s.pu.u.sending with
    | none => s
    | some t =>
      let s := s.advanceTo t.endsAt
      let s := s.onU (fun u => PortU.serve s.clock { u with sending := none, tx := u.tx.sent t.out.frame })
      { s with me := { s.me with restart := if t.out.isRestart then .due else s.me.restart } }))

end Sys2Proof.Machine
end

