-- ==== Sys2Proof/Machine/Capture.lean ====
section
/-! DEFINITION. The Capture Unit's requests (08_disturbance_capture.md): ARM, TRIGGER and CAPTURE READ. -/

namespace Sys2Proof.Machine

/-- The capture after ARM, from any state (R156). -/
def CaptureUnit.arm (c : CaptureUnit) : CaptureUnit :=
  { c with buffer := [], source := .none, trigPos := none, trigPending := false, state := .armed }

/-- ARM is answered DONE (R156). -/
def decideArm : Service := fun q s => ({ s with cu := s.cu.arm }, q.answered .done)

/-- ARM (R156). -/
def execArm (s : State) : Host.Outcome State Fault Refusal :=
  .next (s.live (State.serve .arm .none anyRequest decideArm))

/-- TRIGGER: in ARMED it triggers with source REQUEST; else it is refused with BUSY and counted (R159, R160). -/
def decideTrigger : Service := fun q s =>
  ({ s with cu := s.cu.trigger .request }, q.answered (if s.cu.state = .armed then .done else .busy))

/-- TRIGGER (R160). -/
def execTrigger (s : State) : Host.Outcome State Fault Refusal :=
  .next (s.live (State.serve .trigger .none anyRequest decideTrigger))

/-- The number of records a FAULT READ or a CAPTURE READ asks for: a count of 0 means 32 (R144, R161). -/
def askedFor (count : Nat) : Nat := if count = 0 then 32 else count

/-- The items from position `start` on, up to the count (R144, R161). -/
def window {α : Type} (l : List α) (start count : Nat) : List α := (l.drop start).take (askedFor count)

/-- The reply to a CAPTURE READ: every one carries the summary (R161). -/
def CaptureUnit.readReply (c : CaptureUnit) (q : Request) (r : Result) (records : List CaptureRecord) : ReplyContent :=
  { result := r, object := q.object, index := q.index, count := records.length,
    data := c.summaryBytes ++ records.flatMap CaptureRecord.bytes }

/-- CAPTURE READ (R161). -/
def decideCaptureRead : Service := fun q s =>
  (s,
    if s.cu.state = .complete then
      (if q.index ≤ s.cu.buffer.length then s.cu.readReply q .done (window s.cu.buffer q.index q.count)
       else s.cu.readReply q .badIndex [])
    else s.cu.readReply q .busy [])

/-- CAPTURE_READ (R161). -/
def execCaptureRead (s : State) : Host.Outcome State Fault Refusal :=
  .next (s.live (State.serve .read .capture anyRequest decideCaptureRead))

end Sys2Proof.Machine
end

