-- ==== Sys2Proof/Machine/Reads.lean ====
section
/-! DEFINITION. The reads of tables, settings and records (R144, R148, R196, R103). Records are returned in ascending
index, in the layouts of R177. -/

namespace Sys2Proof.Machine

/-- The bytes of the entries `index` to `index + count - 1` of a table of `n` entries. -/
def tableBytes {n : Nat} (f : Fin n → List Byte) (index count : Nat) : List Byte :=
  (((List.finRange n).drop index).take count).flatMap f

/-- A read of a run of entries, answered DONE (R196). -/
def readTable {n : Nat} (f : State → Fin n → List Byte) : Service := fun q s =>
  (s, q.done (tableBytes (f s) q.index q.count))

/-- The global settings as they are read back, by index (R197). -/
def State.globalValue (s : State) (i : Nat) : Nat :=
  match i with
  | 0x00 => s.pu.ownStation.toNat
  | 0x01 => s.di.supervisor.toNat
  | 0x02 => s.gm.station.toNat
  | 0x03 => s.pu.typeValue.toNat
  | 0x04 => s.gm.fNom
  | 0x05 => s.se.tCyc
  | 0x06 => s.rtc.nRows
  | 0x07 => s.gm.db
  | 0x08 => s.gm.k
  | 0x09 => s.gm.fFloor
  | 0x0A => s.gm.tGs
  | 0x0B => s.rtc.vRecover
  | 0x0C => s.rtc.hold
  | 0x0D => s.rtc.slope
  | 0x0E => s.rtc.aFb
  | 0x0F => s.rtc.window
  | 0x10 => s.rtc.nRep
  | 0x11 => s.di.tDs
  | 0x12 => s.cm.tStart
  | 0x13 => s.rr.limit
  | 0x14 => s.cu.pPre
  | 0x15 => s.cu.onSag.toNat
  | _ => 0

/-- GLOBAL_READ (R196, R197). -/
def execGlobalRead (s : State) : Host.Outcome State Fault Refusal :=
  .next (s.live (State.serve .read .global anyRequest (readTable fun s (i : Fin 22) => be 4 (s.globalValue i.val))))

/-- ENVELOPE_READ (R196). -/
def execEnvelopeRead (s : State) : Host.Outcome State Fault Refusal :=
  .next (s.live (State.serve .read .envelope anyRequest (readTable fun s (i : Row) => (s.rtc.rows[i]).bytes)))

/-- SWELL READ: V_swell and T_swell (R177, R196). -/
def decideSwellRead : Service := fun q s => (s, q.done (be 2 s.rtc.vSwell ++ be 2 s.rtc.tSwell))

/-- SWELL_READ (R196). -/
def execSwellRead (s : State) : Host.Outcome State Fault Refusal :=
  .next (s.live (State.serve .read .swell anyRequest decideSwellRead))

/-- CHANNEL_READ (R196). -/
def execChannelRead (s : State) : Host.Outcome State Fault Refusal :=
  .next (s.live (State.serve .read .channel anyRequest (readTable fun s (c : Chan) => (s.cm.table[c]).bytes)))

/-- GROUP_READ (R196). -/
def execGroupRead (s : State) : Host.Outcome State Fault Refusal :=
  .next (s.live (State.serve .read .group anyRequest (readTable fun s (g : Fin 4) => be 4 s.cm.groups[g])))

/-- PROFILE_READ (R196). -/
def execProfileRead (s : State) : Host.Outcome State Fault Refusal :=
  .next (s.live (State.serve .read .profile anyRequest (readTable fun s (i : Fin 8) => (s.cm.profiles[i]).bytes)))

/-- CHANNEL_STATE_READ: state, report age and last-report record, read together (R196). -/
def execChannelStateRead (s : State) : Host.Outcome State Fault Refusal :=
  .next (s.live (State.serve .read .channelState anyRequest
    (readTable fun s (c : Chan) => channelStateBytes s.cm.chan[c] s.rr.age[c] s.rr.record[c])))

/-- SAGLIST READ: the sag counter and the recent-sag list (R196). -/
def decideSaglistRead : Service := fun q s => (s, q.done (sagListBytes s.rtc.sagCount s.rtc.sags))

/-- SAGLIST_READ (R196). -/
def execSaglistRead (s : State) : Host.Outcome State Fault Refusal :=
  .next (s.live (State.serve .read .sagList anyRequest decideSaglistRead))

/-- FAULT READ (R144). -/
def decideFaultRead : Service := fun q s =>
  if q.index ≤ s.fmu.faults.length then
    (s, { q.done ((window s.fmu.faults q.index q.count).flatMap FaultEntry.bytes) with
          count := (window s.fmu.faults q.index q.count).length })
  else (s, { q.answered .badIndex with count := 0 })

/-- FAULT_READ (R144). -/
def execFaultRead (s : State) : Host.Outcome State Fault Refusal :=
  .next (s.live (State.serve .read .fault anyRequest decideFaultRead))

/-- SUMMARY READ: the six flags are returned and cleared (R148). -/
def decideSummaryRead : Service := fun q s =>
  ({ s with fmu := { s.fmu with summary := .clear } }, q.done [s.fmu.summary.toByte])

/-- SUMMARY_READ (R148). -/
def execSummaryRead (s : State) : Host.Outcome State Fault Refusal :=
  .next (s.live (State.serve .readAndClear .summary anyRequest decideSummaryRead))

/-- CONTENTION READ: the record is returned and emptied (R103). -/
def decideContentionRead : Service := fun q s =>
  ({ s with se := { s.se with contention := Vector.replicate 16 false } }, q.done (be 2 (memberBits s.se.contention)))

/-- CONTENTION_READ (R103). -/
def execContentionRead (s : State) : Host.Outcome State Fault Refusal :=
  .next (s.live (State.serve .readAndClear .contention anyRequest decideContentionRead))

end Sys2Proof.Machine
end

