-- ==== Sys2Proof/Machine/Resets.lean ====
section
/-! DEFINITION. The resets: the power-on reset (R203, section 7 of 00_scope.md) and the RESTART (R200). -/

namespace Sys2Proof.Machine

/-- A power-on reset: every record takes its power-on value. The commands that wait and the signals at the three ports
belong to the outside and stay; every link is DOWN until its signal is detected again (R189). -/
def State.powerOn (s : State) : State :=
  { State.reset with
    pending := s.pending
    pu := { PortUnits.reset with
      u := { PortU.reset with signal := s.pu.u.signal }
      d := { PortD.reset with signal := s.pu.d.signal }
      g := { PortG.reset with signal := s.pu.g.signal } } }

/-- SUPPLY_START: the start of supply puts the part through a power-on reset; a RESET input that is low goes on holding
the part until it returns high (R203). -/
def execSupplyStart (s : State) : Host.Outcome State Fault Refusal := .next { s.powerOn with held := s.held }

/-- RESET_ASSERTED: a low level of 10 µs or longer puts the part in reset, where it is held, and cancels a RESTART that
waits; a shorter one changes nothing (R203). -/
def execResetAsserted (lowNs : Nat) (s : State) : Host.Outcome State Fault Refusal :=
  .next
    (if Config.resetLowNs ≤ lowNs then { s with held := true, me := { s.me with restart := .none } } else s)

/-- RESET_RELEASED: RESET returns high, and a part held in reset takes its power-on values (R203). -/
def execResetReleased (s : State) : Host.Outcome State Fault Refusal := .next (if s.held then s.powerOn else s)

/-! ## RESTART (R200) -/

/-- R18. -/
def GridMonitor.restart (g : GridMonitor) : GridMonitor :=
  { GridMonitor.reset with
    station := g.station, fNom := g.fNom, db := g.db, k := g.k, fFloor := g.fFloor, tGs := g.tGs, fLast := g.fNom,
    missed := g.missed, invalid := g.invalid }

/-- R49. -/
def RideThrough.restart (r : RideThrough) : RideThrough :=
  { RideThrough.reset with
    rows := r.rows, nRows := r.nRows, vRecover := r.vRecover, vSwell := r.vSwell, tSwell := r.tSwell, hold := r.hold,
    slope := r.slope, aFb := r.aFb, window := r.window, nRep := r.nRep, sagCount := r.sagCount }

/-- R90. -/
def DemandIntake.restart (d : DemandIntake) : DemandIntake :=
  { DemandIntake.reset with
    supervisor := d.supervisor, tDs := d.tDs, accepted := d.accepted, refused := d.refused, ignored := d.ignored }

/-- R75. -/
def ChannelManager.restart (m : ChannelManager) : ChannelManager :=
  { ChannelManager.reset with
    table := m.table, groups := m.groups, profiles := m.profiles, tStart := m.tStart, chan := m.standbyStates }

/-- R115: the link cycle timer is force-loaded with its latch. -/
def SetpointEngine.restart (e : SetpointEngine) (clock : Nat) : SetpointEngine :=
  { SetpointEngine.reset with
    tCyc := e.tCyc, period := e.tCyc, nextCycle := clock + e.tCyc * Config.clocksPerUs }

/-- R130. -/
def ReportReceiver.restart (r : ReportReceiver) : ReportReceiver :=
  { ReportReceiver.reset with limit := r.limit, unmatched := r.unmatched }

/-- R153. -/
def FaultModeUnit.restart (f : FaultModeUnit) : FaultModeUnit :=
  { FaultModeUnit.reset with mask := f.mask, dropped := f.dropped }

/-- R164. -/
def CaptureUnit.restart (c : CaptureUnit) : CaptureUnit :=
  { CaptureUnit.reset with pPre := c.pPre, onSag := c.onSag, ignored := c.ignored }

/-- R189: the slots and queues are emptied without counting, a frame in transmission goes on, and the link state is
set from the signal. -/
def PortUnits.restart (p : PortUnits) : PortUnits :=
  { p with
    u := { p.u with up := p.u.signal, slot := none, replies := [], forwarding := [] }
    d := { p.d with up := p.d.signal, slot := none, passThrough := [] }
    g := { p.g with up := p.g.signal } }

/-- The restart takes effect: every block takes its RESTART values at one moment, and the time base is kept (R200). -/
def State.restartNow (s : State) : State :=
  { s with
    gm := s.gm.restart, rtc := s.rtc.restart, di := s.di.restart, cm := s.cm.restart, se := s.se.restart s.clock,
    rr := s.rr.restart, fmu := s.fmu.restart, cu := s.cu.restart, me := .reset, pu := s.pu.restart }

/-- RESTART_TAKES_EFFECT: when the RESTART reply has left port U or was dropped (R200). -/
def execRestartTakesEffect (s : State) : Host.Outcome State Fault Refusal :=
  .next (s.live (fun s => if s.me.restart = .due then s.restartNow else s))

end Sys2Proof.Machine
end

