-- ==== Sys2Proof/Machine/Writes.lean ====
section
/-! DEFINITION. The writes of tables and global settings, one owner's rule per entry (R195, R197). Each command takes
the entries of the WRITE in service that are its own. -/

namespace Sys2Proof.Machine

/-! ## Channel Manager (R51, R55, R56) -/

/-- One channel entry (R51). -/
def writeChannelEntry : EntryDecision := fun i data s =>
  match index? 16 i with
  | none => .error .badIndex
  | some c => s.writeChannel c data

/-- CHANNEL_WRITE (R51). -/
def execChannelWrite (s : State) : Host.Outcome State Fault Refusal :=
  .next (s.live (State.serveEntry .channel anyEntry writeChannelEntry))

/-- One group capacity, 0 to 1,000,000 A (R55). -/
def writeGroup : EntryDecision := fun i data s =>
  match index? 4 i with
  | none => .error .badIndex
  | some g =>
    if ofBe data ≤ 1000000 then .ok { s with cm := { s.cm with groups := s.cm.groups.set g (ofBe data) } }
    else .error .badValue

/-- GROUP_WRITE (R55). -/
def execGroupWrite (s : State) : Host.Outcome State Fault Refusal :=
  .next (s.live (State.serveEntry .group anyEntry writeGroup))

/-- One profile (R56). -/
def writeProfile : EntryDecision := fun i data s =>
  match index? 8 i, profile? data with
  | none, _ => .error .badIndex
  | some _, none => .error .badValue
  | some p, some v => .ok { s with cm := { s.cm with profiles := s.cm.profiles.set p v } }

/-- PROFILE_WRITE (R56). -/
def execProfileWrite (s : State) : Host.Outcome State Fault Refusal :=
  .next (s.live (State.serveEntry .profile anyEntry writeProfile))

/-! ## Ride-Through Controller (R21 to R23, R30) -/

/-- The decision of a write of an envelope row or of V_recover (R22): `inRange` says that every field lies in its
range, `valid` that the table with the write applied passes the validity test. -/
def State.decideEnvelope (s : State) (inRange valid : Bool) (written : State) : Except Result State :=
  if s.fmu.mode = .run ∧ s.rtc.state ≠ .normal then .error .busy
  else if inRange = false then .error .badValue
  else if s.fmu.mode = .run ∧ valid = false then .error .badValue
  else .ok written

/-- Row `i` is replaced; a dwell limit of 0 stops the row's timer at once (R23). -/
def RideThrough.putRow (r : RideThrough) (i : Row) (row : EnvelopeRow) : RideThrough :=
  { r with rows := r.rows.set i row
           dwellTimers := if row.dwell = 0 then r.dwellTimers.set i none else r.dwellTimers }

/-- One envelope row (R22, R23). -/
def writeEnvelopeRow : EntryDecision := fun i data s =>
  match index? 8 i with
  | none => .error .badIndex
  | some r =>
    match envelopeRow? data with
    | none => s.decideEnvelope false true s
    | some row =>
      s.decideEnvelope true (envelopeValid (s.rtc.rows.set r row) s.rtc.nRows s.rtc.vRecover)
        { s with rtc := s.rtc.putRow r row }

/-- ENVELOPE_WRITE (R22). -/
def execEnvelopeWrite (s : State) : Host.Outcome State Fault Refusal :=
  .next (s.live (State.serveEntry .envelope anyEntry writeEnvelopeRow))

/-- V_swell and T_swell are replaced together; T_swell = 0 stops the swell timer and clears its standing at once
(R21). -/
def RideThrough.putSwell (r : RideThrough) (v t : Nat) : RideThrough :=
  if t = 0 then { r with vSwell := v, tSwell := t, swellTimer := none, swellAbove := false }
  else { r with vSwell := v, tSwell := t }

/-- The SWELL settings, decided whole (R21). -/
def writeSwell : EntryDecision := fun _ data s =>
  let v := field data 0 2
  let t := field data 2 2
  if 1000 ≤ v ∧ v ≤ 2000 ∧ t ≤ 60000 then .ok { s with rtc := s.rtc.putSwell v t } else .error .badValue

/-- SWELL_WRITE (R21). -/
def execSwellWrite (s : State) : Host.Outcome State Fault Refusal :=
  .next (s.live (State.serveEntry .swell anyEntry writeSwell))

/-! ## Global settings (R197) -/

/-- The write of a setting that only its range decides. -/
def inRange (ok : Bool) (written : State) : Except Result State := if ok then .ok written else .error .badValue

/-- The write of a class A setting: BAD_MODE in RUN, whatever the value; else its range decides (R197). -/
def State.classA (s : State) (ok : Bool) (written : State) : Except Result State :=
  if s.fmu.mode = .run then .error .badMode else inRange ok written

/-- A station value: a rectifier station or the block's own default (R3, R76, R166). -/
def isStation (v own : Nat) : Bool := isRectifierStation v || decide (v = own)

/-- The value of a global setting: 4 bytes (R177). -/
def settingValue (data : List Byte) : Nat := ofBe data

/-- A Feed Link type value (R165). -/
def isTypeValue (v : Nat) : Bool := decide (0x600 ≤ v) && decide (v ≤ 0xFFFF) && !isVlanTag v

/-- `v` lies between `lo` and `hi`. -/
def between (lo hi v : Nat) : Bool := decide (lo ≤ v) && decide (v ≤ hi)

/-- The write of a global setting that has no command of its own, by index (R197). -/
def State.writeSetting (s : State) (i v : Nat) : Except Result State :=
  match i with
  | 0x00 => s.classA (isStation v 0xF0) { s with pu := { s.pu with ownStation := BitVec.ofNat 8 v } }
  | 0x01 => s.classA (isStation v 0xF1) { s with di := { s.di with supervisor := BitVec.ofNat 8 v } }
  | 0x03 => s.classA (isTypeValue v) { s with pu := { s.pu with typeValue := BitVec.ofNat 16 v } }
  | 0x04 => s.classA (decide (v = 50000) || decide (v = 60000)) { s with gm := { s.gm with fNom := v } }
  | 0x07 => inRange (between 0 2000 v) { s with gm := { s.gm with db := v } }
  | 0x08 => inRange (between 0 1000 v) { s with gm := { s.gm with k := v } }
  | 0x09 => inRange (between 0 1000 v) { s with gm := { s.gm with fFloor := v } }
  | 0x0A => inRange (between 2 1000 v) { s with gm := { s.gm with tGs := v } }
  | 0x0C => inRange (between 0 5000 v) { s with rtc := { s.rtc with hold := v } }
  | 0x0D => inRange (between 1 1000 v) { s with rtc := { s.rtc with slope := v } }
  | 0x0E => inRange (between 0 1000 v) { s with rtc := { s.rtc with aFb := v } }
  | 0x10 => inRange (between 0 7 v) { s with rtc := { s.rtc with nRep := v } }
  | 0x11 => inRange (between 10 60000 v) { s with di := { s.di with tDs := v } }
  | 0x12 => inRange (between 100 60000 v) { s with cm := { s.cm with tStart := v } }
  | _ => .error .badIndex

/-- The settings that have a command of their own. -/
def hasOwnCommand (i : Nat) : Bool :=
  i == 0x02 || i == 0x05 || i == 0x06 || i == 0x0B || i == 0x0F || i == 0x13 || i == 0x14 || i == 0x15

/-- One global setting of GLOBAL_WRITE. -/
def writeGlobal : EntryDecision := fun i data s => s.writeSetting i (settingValue data)

/-- GLOBAL_WRITE: the settings without a command of their own (R197). -/
def execGlobalWrite (s : State) : Host.Outcome State Fault Refusal :=
  .next (s.live (State.serveEntry .global (fun i => !hasOwnCommand i) writeGlobal))

/-- The measurement station; a changed value returns the sequence state to NONE (R3, R4). -/
def writeMeasurementStation : EntryDecision := fun _ data s =>
  let st : Station := BitVec.ofNat 8 (settingValue data)
  s.classA (isStation (settingValue data) 0xF2)
    { s with gm := { s.gm with station := st, seqState := if st = s.gm.station then s.gm.seqState else none } }

/-- MEASUREMENT_STATION_WRITE (R4). -/
def execMeasurementStationWrite (s : State) : Host.Outcome State Fault Refusal :=
  .next (s.live (State.serveEntry .global (fun i => i == 0x02) writeMeasurementStation))

/-- T_cyc: 250 to 4000 µs in steps of 250 (R91). -/
def writeTCyc : EntryDecision := fun _ data s =>
  s.classA (between 250 4000 (settingValue data) && settingValue data % 250 == 0)
    { s with se := { s.se with tCyc := settingValue data } }

/-- T_CYC_WRITE (R91). -/
def execTCycWrite (s : State) : Host.Outcome State Fault Refusal :=
  .next (s.live (State.serveEntry .global (fun i => i == 0x05) writeTCyc))

/-- The rows at `n` and above go out of use: their timers stop, their standings are cleared, and the active row is
found again (R23). -/
def RideThrough.putNRows (r : RideThrough) (n : Nat) : RideThrough :=
  let below : Vector Bool 8 := Vector.ofFn fun i => decide (i.val < n) && r.below[i]
  { r with nRows := n, below := below, active := activeRow below
           dwellTimers := Vector.ofFn fun i => if i.val < n then r.dwellTimers[i] else none }

/-- n_rows, 0 to 8 (R22, R23). -/
def writeNRows : EntryDecision := fun _ data s =>
  s.classA (between 0 8 (settingValue data)) { s with rtc := s.rtc.putNRows (settingValue data) }

/-- N_ROWS_WRITE (R22). -/
def execNRowsWrite (s : State) : Host.Outcome State Fault Refusal :=
  .next (s.live (State.serveEntry .global (fun i => i == 0x06) writeNRows))

/-- V_recover, 500 to 1100 per-mille (R21, R22). -/
def writeVRecover : EntryDecision := fun _ data s =>
  s.decideEnvelope (between 500 1100 (settingValue data))
    (envelopeValid s.rtc.rows s.rtc.nRows (settingValue data))
    { s with rtc := { s.rtc with vRecover := settingValue data } }

/-- V_RECOVER_WRITE (R22). -/
def execVRecoverWrite (s : State) : Host.Outcome State Fault Refusal :=
  .next (s.live (State.serveEntry .global (fun i => i == 0x0B) writeVRecover))

/-- W, 1000 to 600000 ms: entries already older than the new W leave the list at once (R21, R30). -/
def writeW : EntryDecision := fun _ data s =>
  inRange (between 1000 600000 (settingValue data))
    { s with rtc := RideThrough.prune s.timeBase { s.rtc with window := settingValue data } }

/-- W_WRITE (R30). -/
def execWWrite (s : State) : Host.Outcome State Fault Refusal :=
  .next (s.live (State.serveEntry .global (fun i => i == 0x0F) writeW))

/-- L, 1 to 255 (R116). -/
def writeL : EntryDecision := fun _ data s =>
  inRange (between 1 255 (settingValue data)) { s with rr := { s.rr with limit := settingValue data } }

/-- L_WRITE (R116). -/
def execLWrite (s : State) : Host.Outcome State Fault Refusal :=
  .next (s.live (State.serveEntry .global (fun i => i == 0x13) writeL))

/-- The capture after an accepted write of P_pre: a changed value in COMPLETE empties the buffer and returns the
capture to IDLE (R155). -/
def CaptureUnit.putPPre (c : CaptureUnit) (v : Nat) : CaptureUnit :=
  if c.state = .complete ∧ v ≠ c.pPre then
    { c with pPre := v, buffer := [], state := .idle, source := .none, trigPos := none }
  else { c with pPre := v }

/-- P_pre, 0 to 1023 (R155). -/
def writePPre : EntryDecision := fun _ data s =>
  if between 0 1023 (settingValue data) = false then .error .badValue
  else if s.cu.state = .armed ∨ s.cu.state = .triggered then .error .busy
  else .ok { s with cu := s.cu.putPPre (settingValue data) }

/-- P_PRE_WRITE (R155). -/
def execPPreWrite (s : State) : Host.Outcome State Fault Refusal :=
  .next (s.live (State.serveEntry .global (fun i => i == 0x14) writePPre))

/-- Trigger-on-sag, off or on (R155). -/
def writeTriggerOnSag : EntryDecision := fun _ data s =>
  inRange (between 0 1 (settingValue data)) { s with cu := { s.cu with onSag := decide (settingValue data = 1) } }

/-- TRIGGER_ON_SAG_WRITE (R155). -/
def execTriggerOnSagWrite (s : State) : Host.Outcome State Fault Refusal :=
  .next (s.live (State.serveEntry .global (fun i => i == 0x15) writeTriggerOnSag))

end Sys2Proof.Machine
end

