-- ==== Sys2Proof/Machine/Dispatch.lean ====
section
/-! DEFINITION. One arm per command: each calls the meaning of its own command. -/

namespace Sys2Proof.Machine

def exec (i : Instr) (s : State) : Host.Outcome State Fault Refusal :=
  match i with
  | .supplyStart => Sys2Proof.Machine.execSupplyStart s
  | .resetAsserted lowNs => Sys2Proof.Machine.execResetAsserted lowNs s
  | .resetReleased => Sys2Proof.Machine.execResetReleased s
  | .linkLoss p cut => Sys2Proof.Machine.execLinkLoss p cut s
  | .linkUp p => Sys2Proof.Machine.execLinkUp p s
  | .frameReceived p f => Sys2Proof.Machine.execFrameReceived p f s
  | .gridSampleTaken haltFirst part => Sys2Proof.Machine.execGridSampleTaken haltFirst s part
  | .gridSilenceExpiry => Sys2Proof.Machine.execGridSilenceExpiry s
  | .envelopeExit row part => Sys2Proof.Machine.execEnvelopeExit row s part
  | .swellExit part => Sys2Proof.Machine.execSwellExit s part
  | .recoveryHoldExpiry => Sys2Proof.Machine.execRecoveryHoldExpiry s
  | .recoveryRampExpiry => Sys2Proof.Machine.execRecoveryRampExpiry s
  | .sagListEntryAged => Sys2Proof.Machine.execSagListEntryAged s
  | .dispatchFrameTaken => Sys2Proof.Machine.execDispatchFrameTaken s
  | .dispatchSilenceExpiry => Sys2Proof.Machine.execDispatchSilenceExpiry s
  | .startTimerExpiry c => Sys2Proof.Machine.execStartTimerExpiry c s
  | .parkTimerExpiry c => Sys2Proof.Machine.execParkTimerExpiry c s
  | .reportTaken part => Sys2Proof.Machine.execReportTaken s part
  | .cycleStart part => Sys2Proof.Machine.execCycleStart part s
  | .reportLoss part => Sys2Proof.Machine.execReportLoss s part
  | .transmissionEndD => Sys2Proof.Machine.execTransmissionEndD s
  | .transmissionEndU => Sys2Proof.Machine.execTransmissionEndU s
  | .mgmtRequestQueued => Sys2Proof.Machine.execMgmtRequestQueued s
  | .modeRun => Sys2Proof.Machine.execModeRun s
  | .modeHalt => Sys2Proof.Machine.execModeHalt s
  | .modeResume => Sys2Proof.Machine.execModeResume s
  | .modeLoad => Sys2Proof.Machine.execModeLoad s
  | .ackHead => Sys2Proof.Machine.execAckHead s
  | .ackAll => Sys2Proof.Machine.execAckAll s
  | .arm => Sys2Proof.Machine.execArm s
  | .trigger => Sys2Proof.Machine.execTrigger s
  | .abort => Sys2Proof.Machine.execAbort s
  | .mask => Sys2Proof.Machine.execMask s
  | .counterWrite => Sys2Proof.Machine.execCounterWrite s
  | .restart => Sys2Proof.Machine.execRestart s
  | .restartTakesEffect => Sys2Proof.Machine.execRestartTakesEffect s
  | .faultRead => Sys2Proof.Machine.execFaultRead s
  | .captureRead => Sys2Proof.Machine.execCaptureRead s
  | .summaryRead => Sys2Proof.Machine.execSummaryRead s
  | .contentionRead => Sys2Proof.Machine.execContentionRead s
  | .channelStateRead => Sys2Proof.Machine.execChannelStateRead s
  | .saglistRead => Sys2Proof.Machine.execSaglistRead s
  | .globalRead => Sys2Proof.Machine.execGlobalRead s
  | .envelopeRead => Sys2Proof.Machine.execEnvelopeRead s
  | .swellRead => Sys2Proof.Machine.execSwellRead s
  | .channelRead => Sys2Proof.Machine.execChannelRead s
  | .groupRead => Sys2Proof.Machine.execGroupRead s
  | .profileRead => Sys2Proof.Machine.execProfileRead s
  | .counterRead => Sys2Proof.Machine.execCounterRead s
  | .channelWrite => Sys2Proof.Machine.execChannelWrite s
  | .envelopeWrite => Sys2Proof.Machine.execEnvelopeWrite s
  | .swellWrite => Sys2Proof.Machine.execSwellWrite s
  | .groupWrite => Sys2Proof.Machine.execGroupWrite s
  | .profileWrite => Sys2Proof.Machine.execProfileWrite s
  | .counterObjectWrite => Sys2Proof.Machine.execCounterObjectWrite s
  | .globalWrite => Sys2Proof.Machine.execGlobalWrite s
  | .measurementStationWrite => Sys2Proof.Machine.execMeasurementStationWrite s
  | .nRowsWrite => Sys2Proof.Machine.execNRowsWrite s
  | .vRecoverWrite => Sys2Proof.Machine.execVRecoverWrite s
  | .wWrite => Sys2Proof.Machine.execWWrite s
  | .tCycWrite => Sys2Proof.Machine.execTCycWrite s
  | .lWrite => Sys2Proof.Machine.execLWrite s
  | .pPreWrite => Sys2Proof.Machine.execPPreWrite s
  | .triggerOnSagWrite => Sys2Proof.Machine.execTriggerOnSagWrite s
  | .mgmtRequestRefused => Sys2Proof.Machine.execMgmtRequestRefused s

end Sys2Proof.Machine
end

