-- ==== Sys2Proof/Safety.lean ====
section
/-! DEFINITION. What counts as a safe state, in the terms claims use: the laws the manual says hold at every moment,
and the words in which statements name what a command leaves alone and which request it serves. -/

namespace Sys2Proof.Machine

/-! ## What a command changes -/

/-- The parts of the state, one for each field of `State`. -/
inductive Part where
  | held
  | clock
  | gm
  | rtc
  | di
  | cm
  | se
  | rr
  | fmu
  | cu
  | me
  | pu
  | pending
  deriving DecidableEq, Repr

/-- `t` has the same part `p` as `s`. -/
def State.agrees (s t : State) (p : Part) : Prop :=
  match p with
  | .held => t.held = s.held
  | .clock => t.clock = s.clock
  | .gm => t.gm = s.gm
  | .rtc => t.rtc = s.rtc
  | .di => t.di = s.di
  | .cm => t.cm = s.cm
  | .se => t.se = s.se
  | .rr => t.rr = s.rr
  | .fmu => t.fmu = s.fmu
  | .cu => t.cu = s.cu
  | .me => t.me = s.me
  | .pu => t.pu = s.pu
  | .pending => t.pending = s.pending

/-- Going from `s` to `t` changes no part but those listed. -/
def State.changesOnly (s t : State) (ps : List Part) : Prop := ∀ p, p ∉ ps → s.agrees t p

/-- The request `q` is in service, no RESTART has been answered, the part is not held in reset, and `q` passes the
Management Engine's checks as an `op` of object `o` (R190, R193). -/
def State.serves (s : State) (q : Request) (op : Operation) (o : Object) : Prop :=
  s.held = false ∧ s.me.restart = .none ∧ s.me.queue.head? = some q ∧ q.isFor op o = true

/-- Going from `s` to `w`, nothing but counters of the COUNTER object changes (R198). -/
def State.countersOnly (s w : State) : Prop :=
  w = { s with
    gm := { s.gm with missed := w.gm.missed, invalid := w.gm.invalid }
    di := { s.di with accepted := w.di.accepted, refused := w.di.refused, ignored := w.di.ignored }
    rr := { s.rr with unmatched := w.rr.unmatched }
    fmu := { s.fmu with dropped := w.fmu.dropped }
    cu := { s.cu with ignored := w.cu.ignored }
    pu := { s.pu with
      u := { s.pu.u with rx := w.pu.u.rx, tx := w.pu.u.tx, foreign := w.pu.u.foreign, replyDrops := w.pu.u.replyDrops }
      d := { s.pu.d with rx := w.pu.d.rx, tx := w.pu.d.tx }
      g := { s.pu.g with rx := w.pu.g.rx, foreign := w.pu.g.foreign } } }

/-! ## Work in parts -/

/-- No block has work in progress or an event to take: the frames of the last cycle start have been handed, its expiry
and its loss test have been taken, and no report is half taken (R92, R120). -/
def State.settled (s : State) : Prop :=
  s.se.work = .idle ∧ s.rr.work = .idle ∧ s.rr.testDue = none ∧ s.rr.expiryDue = false

/-- The state after the commands of a list, taken one after another; none once one of them gives no next state. -/
def State.afterAll (s : State) : List Instr → Option State
  | [] => some s
  | c :: l =>
    match exec c s with
    | .next t => t.afterAll l
    | .fault _ => none
    | .refused _ => none

/-- The state at which the Setpoint Engine begins its work for a cycle start: right after the expiry, or, when the
Report Receiver goes first, after its loss test (R124). -/
def State.cycleBegun (s : State) (reportsFirst : Bool) : State :=
  if reportsFirst then s.beginCycle.takeExpiry.settleReports else s.beginCycle

/-- The inputs that a cycle start gathers when no other event falls into its work (R93). -/
def State.gathered (s : State) : Option CycleInputs := s.readVoltage.requestChannels.inputs

/-! ## What a port does with a frame it is handed -/

/-- The transmission of `o` begun at clock period `clock`: the link is free again after (L + 20) × 8 / 100 µs (R185).
-/
def sendingFrom (clock : Nat) (o : OutFrame) : Option Transmission :=
  some { out := o, endsAt := clock + 2 * (o.frame.length + 20) }

/-- Port D, `p`, is handed the setpoint frame `f` at clock period `clock` and becomes `p'`: a DOWN port counts a tx
discard, a frame found in the slot is replaced and counted, and a free transmitter sends `f` at once (R107, R180,
R185). -/
def PortD.TakesSetpoint (p : PortD) (clock : Nat) (f : Frame) (p' : PortD) : Prop :=
  let tx := { p.tx with overruns := p.tx.overruns + (if p.slot.isSome then 1 else 0) }
  (p.up = false → p' = { p with tx := { p.tx with discards := p.tx.discards + 1 } }) ∧
  (p.up = true → p.sending.isSome = true → p' = { p with slot := some f, tx := tx }) ∧
  (p.up = true → p.sending = none →
    p' = { p with slot := none, sending := sendingFrom clock { frame := f, isRestart := false }, tx := tx })

/-- Port U, `p`, is handed the status frame `f` at clock period `clock` and becomes `p'` (R108, R180, R186). -/
def PortU.TakesStatus (p : PortU) (clock : Nat) (f : Frame) (p' : PortU) : Prop :=
  let tx := { p.tx with overruns := p.tx.overruns + (if p.slot.isSome then 1 else 0) }
  (p.up = false → p' = { p with tx := { p.tx with discards := p.tx.discards + 1 } }) ∧
  (p.up = true → p.sending.isSome = true → p' = { p with slot := some f, tx := tx }) ∧
  (p.up = true → p.sending = none →
    p' = { p with slot := none, sending := sendingFrom clock { frame := f, isRestart := false }, tx := tx })

/-- Port D, `p`, is handed the frame `f` to pass on at clock period `clock` and becomes `p'` (R180, R181, R184, R185).
-/
def PortD.TakesPassThrough (p : PortD) (clock : Nat) (f : Frame) (p' : PortD) : Prop :=
  (p.up = false → p' = { p with tx := { p.tx with discards := p.tx.discards + 1 } }) ∧
  (p.up = true → 32 ≤ p.passThrough.length → p' = { p with tx := { p.tx with drops := p.tx.drops + 1 } }) ∧
  (p.up = true → p.passThrough.length < 32 → p.sending.isSome = true →
    p' = { p with passThrough := p.passThrough ++ [f] }) ∧
  (p.up = true → p.sending = none → p.slot = none → p.passThrough = [] →
    p' = { p with sending := sendingFrom clock { frame := f, isRestart := false } })

/-- Port U, `p`, is handed the frame `f` to forward at clock period `clock` and becomes `p'` (R117, R180, R184, R186).
-/
def PortU.TakesForward (p : PortU) (clock : Nat) (f : Frame) (p' : PortU) : Prop :=
  (p.up = false → p' = { p with tx := { p.tx with discards := p.tx.discards + 1 } }) ∧
  (p.up = true → 32 ≤ p.forwarding.length → p' = { p with tx := { p.tx with drops := p.tx.drops + 1 } }) ∧
  (p.up = true → p.forwarding.length < 32 → p.sending.isSome = true →
    p' = { p with forwarding := p.forwarding ++ [f] }) ∧
  (p.up = true → p.sending = none → p.slot = none → p.replies = [] → p.forwarding = [] →
    p' = { p with sending := sendingFrom clock { frame := f, isRestart := false } })

/-- Port U, `p`, is handed the reply `o` at clock period `clock` and becomes `p'`: the reply is dropped at a DOWN
link, dropped and counted at a full reply queue, queued behind a frame in transmission, and sent at once by a
transmitter that is free (R180, R186). -/
def PortU.TakesReply (p : PortU) (clock : Nat) (o : OutFrame) (p' : PortU) : Prop :=
  (p.up = false → p' = { p with tx := { p.tx with discards := p.tx.discards + 1 } }) ∧
  (p.up = true → 4 ≤ p.replies.length → p' = { p with replyDrops := p.replyDrops + 1 }) ∧
  (p.up = true → p.replies.length < 4 → p.sending.isSome = true → p' = { p with replies := p.replies ++ [o] }) ∧
  (p.up = true → p.sending = none → p.slot = none → p.replies = [] → p' = { p with sending := sendingFrom clock o })

/-! ## What a served request leaves -/

/-- The frame of a reply of content `c` to request `q` (R170, R176). -/
def State.replyTo (w : State) (q : Request) (c : ReplyContent) : Frame :=
  buildFrame w.pu.ownStation w.pu.typeValue 0x61 q.source q.seq
    (be 2 q.id.toNat ++ [c.result.code, q.op, c.object] ++ be 2 c.index ++ be 2 c.count ++ c.data)

/-- Going from `w` to `t`, the request in service, `q`, has left the queue and its reply of content `c` has been handed
to port U, and nothing else has changed (R170, R176, R180, R186, R190, R192). -/
def State.repliesTo (w : State) (q : Request) (c : ReplyContent) (t : State) : Prop :=
  w.changesOnly t [.me, .pu] ∧ t.me = { w.me with queue := w.me.queue.tail, accepted := 0 } ∧
  t.pu = { w.pu with u := t.pu.u } ∧
  w.pu.u.TakesReply w.clock { frame := w.replyTo q c, isRestart := false } t.pu.u

/-- Going from `w` to `t`, the entry that the owner has just accepted is counted, and when it is the last of the WRITE
in service, `q`, the reply DONE is handed (R195). -/
def State.entryTaken (w : State) (q : Request) (t : State) : Prop :=
  (w.me.accepted + 1 < q.count → t = { w with me := { w.me with accepted := w.me.accepted + 1 } }) ∧
  (q.count ≤ w.me.accepted + 1 →
    w.repliesTo q { result := .done, object := q.object, index := q.index, count := q.count, data := [] } t)

/-- Going from `s` to `t`, the owner has refused the entry decided next with result `r`: the reply carries its index
and the number of entries accepted (R195). -/
def State.entryRefused (s : State) (q : Request) (r : Result) (t : State) : Prop :=
  s.repliesTo q
    { result := r, object := q.object, index := q.index + s.me.accepted, count := s.me.accepted, data := [] } t

/-! ## The manual's tables, written out -/

/-- Each threshold of the rows in use lies below the one before it, and the first below V_recover, from row 0 to the
row before `n` (R20). -/
def RowsDescend (rows : Vector EnvelopeRow 8) (vRecover n : Nat) : Prop :=
  ∀ i : Row, i.val < n →
    (i.val = 0 → (rows[i]).threshold < vRecover) ∧
    (∀ j : Row, j.val + 1 = i.val → (rows[i]).threshold < (rows[j]).threshold)

/-- The envelope is valid (R20). -/
def EnvelopeOk (rows : Vector EnvelopeRow 8) (nRows vRecover : Nat) : Prop :=
  1 ≤ nRows ∧ RowsDescend rows vRecover nRows

/-- The command that writes the global setting at an index (R197). -/
def settingCommand (i : Nat) : Instr :=
  match i with
  | 0x02 => .measurementStationWrite
  | 0x05 => .tCycWrite
  | 0x06 => .nRowsWrite
  | 0x0B => .vRecoverWrite
  | 0x0F => .wWrite
  | 0x13 => .lWrite
  | 0x14 => .pPreWrite
  | 0x15 => .triggerOnSagWrite
  | _ => .globalWrite

/-- The range of the global setting at an index (R3, R21, R22, R57, R76, R91, R116, R155, R165, R166). -/
def settingRange (i v : Nat) : Prop :=
  match i with
  | 0x00 => 0x01 ≤ v ∧ v ≤ 0xF0
  | 0x01 => (0x01 ≤ v ∧ v ≤ 0xEF) ∨ v = 0xF1
  | 0x02 => (0x01 ≤ v ∧ v ≤ 0xEF) ∨ v = 0xF2
  | 0x03 => 0x0600 ≤ v ∧ v ≤ 0xFFFF ∧ v ≠ 0x8100 ∧ v ≠ 0x88A8
  | 0x04 => v = 50000 ∨ v = 60000
  | 0x05 => 250 ≤ v ∧ v ≤ 4000 ∧ v % 250 = 0
  | 0x06 => v ≤ 8
  | 0x07 => v ≤ 2000
  | 0x08 => v ≤ 1000
  | 0x09 => v ≤ 1000
  | 0x0A => 2 ≤ v ∧ v ≤ 1000
  | 0x0B => 500 ≤ v ∧ v ≤ 1100
  | 0x0C => v ≤ 5000
  | 0x0D => 1 ≤ v ∧ v ≤ 1000
  | 0x0E => v ≤ 1000
  | 0x0F => 1000 ≤ v ∧ v ≤ 600000
  | 0x10 => v ≤ 7
  | 0x11 => 10 ≤ v ∧ v ≤ 60000
  | 0x12 => 100 ≤ v ∧ v ≤ 60000
  | 0x13 => 1 ≤ v ∧ v ≤ 255
  | 0x14 => v ≤ 1023
  | 0x15 => v ≤ 1
  | _ => False

/-- The state with the global setting at an index written, and with what the manual says goes with it: a changed
measurement station returns the sequence state to NONE (R4), a decrease of n_rows takes rows out of use (R23), a write
of W removes the entries already older (R30), and a changed P_pre in COMPLETE discards the capture (R155). -/
def State.withSetting (s : State) (i v : Nat) : State :=
  match i with
  | 0x00 => { s with pu := { s.pu with ownStation := BitVec.ofNat 8 v } }
  | 0x01 => { s with di := { s.di with supervisor := BitVec.ofNat 8 v } }
  | 0x02 => { s with gm := { s.gm with
      station := BitVec.ofNat 8 v
      seqState := if s.gm.station.toNat = v then s.gm.seqState else none } }
  | 0x03 => { s with pu := { s.pu with typeValue := BitVec.ofNat 16 v } }
  | 0x04 => { s with gm := { s.gm with fNom := v } }
  | 0x05 => { s with se := { s.se with tCyc := v } }
  | 0x06 => { s with rtc := { s.rtc with
      nRows := v
      below := Vector.ofFn fun i => decide (i.val < v) && s.rtc.below[i]
      active := ((List.finRange 8).filter fun i => decide (i.val < v) && s.rtc.below[i]).getLast?
      dwellTimers := Vector.ofFn fun i => if i.val < v then s.rtc.dwellTimers[i] else none } }
  | 0x07 => { s with gm := { s.gm with db := v } }
  | 0x08 => { s with gm := { s.gm with k := v } }
  | 0x09 => { s with gm := { s.gm with fFloor := v } }
  | 0x0A => { s with gm := { s.gm with tGs := v } }
  | 0x0B => { s with rtc := { s.rtc with vRecover := v } }
  | 0x0C => { s with rtc := { s.rtc with hold := v } }
  | 0x0D => { s with rtc := { s.rtc with slope := v } }
  | 0x0E => { s with rtc := { s.rtc with aFb := v } }
  | 0x0F => { s with rtc := { s.rtc with
      window := v, sags := s.rtc.sags.filter fun x => decide (sagAge s.timeBase x ≤ v) } }
  | 0x10 => { s with rtc := { s.rtc with nRep := v } }
  | 0x11 => { s with di := { s.di with tDs := v } }
  | 0x12 => { s with cm := { s.cm with tStart := v } }
  | 0x13 => { s with rr := { s.rr with limit := v } }
  | 0x14 =>
    { s with cu :=
      if s.cu.state = .complete ∧ v ≠ s.cu.pPre then
        { s.cu with pPre := v, buffer := [], state := .idle, source := .none, trigPos := none }
      else { s.cu with pPre := v } }
  | 0x15 => { s with cu := { s.cu with onSag := decide (v = 1) } }
  | _ => s

/-- A report from station `st` acts on channel `c` (R58, R119): `c` is enabled and `st` is its report source. -/
def ActsOn (t : Vector ChannelEntry 16) (st : Station) (c : Chan) : Prop :=
  (t[c]).enable = true ∧
  (((t[c]).ready = .self ∧ (t[c]).station = st) ∨ ∃ l, (t[c]).ready = .leader l ∧ (t[l]).station = st)

/-- The status word differs from the channel's compare reference in a bit that is set in its mask (R123). -/
def Mismatches (e : ChannelEntry) (status : BitVec 16) : Prop :=
  ∃ b : Fin 16, e.cmpMask.getLsbD b = true ∧ status.getLsbD b ≠ e.cmpRef.getLsbD b

/-! ## Received frames -/

/-- The kinds known at a port (R168). -/
def KindAtPort (p : Port) (kind : Byte) : Prop :=
  match p with
  | .u => kind = 0x20 ∨ kind = 0x60
  | .d => kind = 0x40
  | .g => kind = 0x10

/-- The payload lengths a kind allows (R169). -/
def LengthAllowed (kind : Byte) (n : Nat) : Prop :=
  (kind = 0x10 ∧ n = 12) ∨ (kind = 0x20 ∧ ∃ k, 1 ≤ k ∧ k ≤ 16 ∧ n = 4 + 4 * k) ∨ (kind = 0x40 ∧ 6 ≤ n) ∨
  (kind = 0x60 ∧ 8 ≤ n)

/-- The five header checks of R168; `n` bytes stand between the end of the header and the start of the FCS. -/
def PassesHeaderChecks (p : Port) (f : Frame) : Prop :=
  ∃ n, n = f.length - (26 + 4 * vlanTags f) ∧
    (headerOf f).version = 1 ∧ KindAtPort p (headerOf f).kind ∧ (headerOf f).length ≤ n ∧
    ((headerOf f).length < n → f.length = 64) ∧ LengthAllowed (headerOf f).kind (headerOf f).length

/-- A frame of version 1 whose kind port D does not know: no header error (R168, check 2). -/
def SentOnAtD (p : Port) (f : Frame) : Prop :=
  p = .d ∧ (headerOf f).version = 1 ∧ ¬KindAtPort .d (headerOf f).kind

/-- The sequence `n` is newer than the sequence state (R7). -/
def IsNewer (st : Option (BitVec 16)) (n : BitVec 16) : Prop :=
  st = none ∨ ∃ last, st = some last ∧ 1 ≤ (n - last).toNat ∧ (n - last).toNat ≤ 32767

/-- The frames that a newer sequence shows to be missed (R7). -/
def MissedBetween (st : Option (BitVec 16)) (n : BitVec 16) (k : Nat) : Prop :=
  (st = none → k = 0) ∧ ∀ last, st = some last → k = (n - last).toNat - 1

/-- The plausibility test (R8). -/
def IsPlausible (f : GridSample) : Prop :=
  f.quality.getLsbD 0 = true ∧ f.vab ≤ 2000 ∧ f.vbc ≤ 2000 ∧ f.vca ≤ 2000 ∧ 40000 ≤ f.freq ∧ f.freq ≤ 70000

/-- The part takes the frame as valid (R5). -/
def State.takesAsValid (s : State) (f : GridSample) : Prop :=
  f.source = s.gm.station ∧ IsNewer s.gm.seqState f.seq ∧ IsPlausible f

/-- A dispatch frame that is not refused (R78). -/
def IsAcceptable (f : Dispatch) : Prop :=
  1 ≤ f.count ∧ f.count ≤ 16 ∧ f.length = 4 + 4 * f.count ∧ (∀ e ∈ f.entries, e.channel ≤ 15) ∧
  (f.entries.map DispatchEntry.channel).Nodup

/-! ## Notices to the Ride-Through Controller -/

/-- The least of the three voltages (R9). -/
def leastVoltage (f : GridSample) : Nat := min f.vab (min f.vbc f.vca)

/-- The greatest of the three voltages (R9). -/
def greatestVoltage (f : GridSample) : Nat := max f.vab (max f.vbc f.vca)

/-- A valid notice of `v` finds row 0 of a table in use above it (R28, R33). -/
def RideThrough.BelowRow0 (r : RideThrough) (v : Nat) : Prop := 1 ≤ r.nRows ∧ v < (r.rows[(0 : Row)]).threshold

/-- The valid frame `f` begins a sag: from NORMAL, from RECOVER, or on leaving GRID_LOST with prior state NORMAL (R28,
R29, R33, R39), and not in LOAD (R24). -/
def State.sagStarts (s : State) (f : GridSample) : Prop :=
  s.fmu.mode ≠ .load ∧ s.rtc.BelowRow0 (leastVoltage f) ∧
  (s.rtc.state = .normal ∨ s.rtc.state = .recover ∨ (s.rtc.state = .gridLost ∧ s.rtc.prior = some .normal))

/-- The rows in use under `v` are below exactly where R25 says, and the active row is the last of them (R25). -/
def RideThrough.RowsFormed (r : RideThrough) (v : Nat) (t : RideThrough) : Prop :=
  (∀ i : Row, t.below[i] = true ↔ i.val < r.nRows ∧ v < (r.rows[i]).threshold) ∧
  (∀ i : Row, t.active = some i ↔ t.below[i] = true ∧ ∀ j : Row, i < j → t.below[j] = false)

/-- No standing, no active row and no dwell timer (R25, R26). -/
def RideThrough.RowsCleared (t : RideThrough) : Prop :=
  t.active = none ∧ ∀ i : Row, t.below[i] = false ∧ t.dwellTimers[i] = none

/-- The dwell timers after a notice at millisecond `ms`: a row newly below is loaded when T_i > 0, a row still below
keeps its timer, and every other row's timer is stopped (R26). -/
def RideThrough.DwellFollows (r : RideThrough) (ms : Nat) (t : RideThrough) : Prop :=
  ∀ i : Row,
    (t.below[i] = false → t.dwellTimers[i] = none) ∧
    (t.below[i] = true → r.below[i] = true → t.dwellTimers[i] = r.dwellTimers[i]) ∧
    (t.below[i] = true → r.below[i] = false →
      t.dwellTimers[i] = if (r.rows[i]).dwell = 0 then none else some (ms + (r.rows[i]).dwell))

/-- The effective cap of a row (R19). -/
def capOf (row : EnvelopeRow) : Nat := if row.action = .block then 0 else row.cap

/-- The P_state of SAG with active row `active` (R42). -/
def RideThrough.sagCap (r : RideThrough) (active : Option Row) : Nat :=
  match active with
  | some i => capOf r.rows[i]
  | none => if 1 ≤ r.nRows then capOf r.rows[(0 : Row)] else r.pLow

/-- RECOVER is entered at millisecond `ms` with P_low `p`: the rows are cleared and the hold is timed, or with H = 0
the step of a hold expiry is taken at once (R32, R34). -/
def RideThrough.RecoverEntered (r : RideThrough) (ms p : Nat) (t : RideThrough) : Prop :=
  t.RowsCleared ∧ t.prior = none ∧ t.pLow = p ∧
  (0 < r.hold → t.state = .recover ∧ t.phase = .hold ∧ t.recovery = some (ms + r.hold)) ∧
  (r.hold = 0 → p = 1000 → t.state = .normal ∧ t.recovery = none) ∧
  (r.hold = 0 → p ≠ 1000 → t.state = .recover ∧ t.phase = .ramp ∧ t.rampSlope = r.slope ∧
    t.rampStart = timeBaseAt ms ∧ t.recovery = some (ms + (1000 - p + r.slope - 1) / r.slope))

/-- Everything that no notice touches: the settings and the recent sags (R21, R29). -/
def RideThrough.SameSettings (r t : RideThrough) : Prop :=
  t = { r with
    state := t.state, prior := t.prior, below := t.below, active := t.active, pLow := t.pLow
    dwellTimers := t.dwellTimers, swellTimer := t.swellTimer, swellAbove := t.swellAbove, recovery := t.recovery
    phase := t.phase, rampStart := t.rampStart, rampSlope := t.rampSlope }

/-- Time has passed from `s` to `t`: of the controller's records only the recent-sag list changed, which holds the
entries that are still no older than W (R30). -/
def State.agesSags (s t : State) : Prop :=
  t.rtc = { s.rtc with sags := t.rtc.sags } ∧
  t.rtc.sags = s.rtc.sags.filter fun x => decide (sagAge s.timeBase x + (t.ms - s.ms) ≤ s.rtc.window)

/-- The fault list and its two companions stand as in `m`. -/
def FaultModeUnit.SameList (f m : FaultModeUnit) : Prop :=
  f.faults = m.faults ∧ f.dropped = m.dropped ∧ f.droppedTrip = m.droppedTrip

/-! ## Reports -/

/-- The event that a report gives a channel in state `st` with entry `e` on which it acts (R121 to R123). -/
def ReportEvent (st : ChannelState) (e : ChannelEntry) (r : Report) (ev : Option ChannelEvent) : Prop :=
  ((st = .off ∨ st = .standby ∨ st = .faulted) → ev = none) ∧
  (st = .starting → ev = if r.state = 0x02 ∨ r.state = 0x03 then some .ready else none) ∧
  (st.isOn = true →
    ((Mismatches e r.status ∨ 5 ≤ r.state.toNat) → ev = some .fault) ∧
    (¬Mismatches e r.status → r.state.toNat ≤ 1 → ev = some .leftRun) ∧
    (¬Mismatches e r.status → 2 ≤ r.state.toNat → r.state.toNat ≤ 4 → ev = none))

/-- The faults that a report gives the channels, in the order in which they are raised (R120 to R123). -/
def State.ReportFaults (s : State) (r : Report) (l : List Raising) : Prop :=
  ∃ faults : Chan → List (FaultCode × FaultClass),
    (∀ c : Chan, ¬(ActsOn s.cm.table r.source c ∧ (s.cm.chan[c]).isOn = true) → faults c = []) ∧
    (∀ c : Chan, ActsOn s.cm.table r.source c → (s.cm.chan[c]).isOn = true →
      ∃ l, l = (if r.state.toNat ≤ 1 then [(FaultCode.rectifierLeftRun, FaultClass.note)]
          else if r.state.toNat ≤ 4 then [] else [(.rectifierFault, .hold)]) ∧
        (¬Mismatches s.cm.table[c] r.status → faults c = l) ∧
        (Mismatches s.cm.table[c] r.status →
          faults c = l ++ [(.compareMismatch, (s.cm.table[c]).cmpClass.faultClass)])) ∧
    l = (List.finRange 16).flatMap fun c =>
      (faults c).map fun f => { code := f.1, cls := f.2, subject := .channel c }

/-- The records of the Report Receiver after it has taken a report from `st` (R118, R119). -/
def State.ReportRecorded (s : State) (r : Report) (t : ReportReceiver) : Prop :=
  (∀ c : Chan, (s.cm.table[c]).enable = true → (s.cm.table[c]).station = r.source →
    t.record[c] = some { state := r.state, reserved := r.reserved, status := r.status, current := r.current } ∧
    t.unmatched = s.rr.unmatched) ∧
  (∀ c : Chan, ¬((s.cm.table[c]).enable = true ∧ (s.cm.table[c]).station = r.source) →
    t.record[c] = s.rr.record[c]) ∧
  ((∀ c : Chan, ¬((s.cm.table[c]).enable = true ∧ (s.cm.table[c]).station = r.source)) →
    t.unmatched = s.rr.unmatched + 1) ∧
  (∀ c : Chan, ActsOn s.cm.table r.source c → t.age[c] = 0 ∧ t.mark[c] = false) ∧
  (∀ c : Chan, ¬ActsOn s.cm.table r.source c → t.age[c] = s.rr.age[c] ∧ t.mark[c] = s.rr.mark[c])

/-- The state of a channel in state `st` after the Channel Manager has taken an event for it, or none (R61, R66, R67).
-/
def afterEvent (st : ChannelState) (ev : Option ChannelEvent) : ChannelState :=
  match ev with
  | none => st
  | some .ready => if st = .starting then .running else st
  | some .fault => if st = .running ∨ st = .parked then .faulted else st
  | some .leftRun => if st = .running ∨ st = .parked then .standby else st

/-! ## Laws -/

/-- No two enabled channels have the same station, and every enabled follower's leader is enabled and has ready source
SELF (R52). -/
def TableLaw (t : Vector ChannelEntry 16) : Prop :=
  (∀ c d : Chan, c ≠ d → (t[c]).enable = true → (t[d]).enable = true → (t[c]).station ≠ (t[d]).station) ∧
  (∀ c l : Chan, (t[c]).enable = true → (t[c]).ready = .leader l →
    (t[l]).enable = true ∧ (t[l]).ready = .self)

/-- Every field of every channel entry lies in its range (R50). -/
def EntryLaw (t : Vector ChannelEntry 16) : Prop := ∀ c : Chan, (t[c]).inRange = true

/-- The part mode is RUN only while the fault list holds no TRIP-class entry and the dropped-trip flag is clear
(R136). -/
def ModeLaw (f : FaultModeUnit) : Prop :=
  f.mode = .run → (∀ e ∈ f.faults, e.cls ≠ .trip) ∧ f.droppedTrip = false

/-- The raisings that wait are those of a tripped Ride-Through Controller, and in LOAD none waits and the Report Receiver
has no TRIP-class fault to raise (R40, R46, R145). -/
def RaisingLaw (s : State) : Prop :=
  (s.fmu.mode = .load → s.fmu.handed = [] ∧ ∀ r ∈ s.rr.work.faults, r.cls ≠ .trip) ∧
  ∀ r ∈ s.fmu.handed, r.cls = .trip ∧ r.subject = .none ∧
    (r.code = .envelopeExit ∨ r.code = .swellExit ∨ r.code = .repeatedSag)

/-- The fault list holds at most 32 entries, never two with the same code and subject, each with a repeat count in
1..255 (R138). -/
def FaultListLaw (f : FaultModeUnit) : Prop :=
  f.faults.length ≤ Config.faultDepth ∧
  f.faults.Pairwise (fun a b => ¬(a.code = b.code ∧ a.subject = b.subject)) ∧
  ∀ e ∈ f.faults, 1 ≤ e.count ∧ e.count ≤ 255

/-- A channel is OFF exactly while it is disabled, STARTING, RUNNING or PARKED only in RUN, a start timer runs exactly
in STARTING and a park timer only in PARKED (section 3.6, R54, R60, R65, R69). -/
def ChannelLaw (m : ChannelManager) (mode : PartMode) : Prop :=
  ∀ c : Chan,
    (m.chan[c] = .off ↔ (m.table[c]).enable = false) ∧
    ((m.chan[c]).isActive = true → mode = .run) ∧
    ((m.startTimers[c]).isSome = true ↔ m.chan[c] = .starting) ∧
    ((m.parkTimers[c]).isSome = true → m.chan[c] = .parked)

/-- The Ride-Through Controller's timers run only where the manual lets them, and a TRIPPED controller has no standing
(R24, R26, R27, R34, R36, R38, R40). -/
def RideThroughLaw (r : RideThrough) (mode : PartMode) : Prop :=
  (mode = .load → r.state = .normal ∧ r.swellAbove = false) ∧
  (∀ i : Row, (r.dwellTimers[i]).isSome = true → (r.state = .sag ∨ r.state = .gridLost) ∧ r.below[i] = true) ∧
  (∀ i : Row, r.below[i] = true → i.val < r.nRows) ∧
  r.active = activeRow r.below ∧
  (r.recovery.isSome = true ↔ r.state = .recover) ∧
  (r.swellTimer.isSome = r.swellAbove) ∧
  (r.prior.isSome = true ↔ r.state = .gridLost) ∧
  (r.state = .normal ∨ r.state = .tripped → ∀ i : Row, r.below[i] = false) ∧
  (r.state = .tripped → r.swellAbove = false)

/-- Every cap and factor from which an allowance is formed lies in 0..1000, and the recovery slope is at least 1 (R3,
R10, R19, R21, R42). -/
def AllowanceLaw (r : RideThrough) (g : GridMonitor) : Prop :=
  (∀ i : Row, (r.rows[i]).cap ≤ 1000) ∧ r.pLow ≤ 1000 ∧ r.pLoss ≤ 1000 ∧ r.aFb ≤ 1000 ∧ 1 ≤ r.slope ∧
  g.fFloor ≤ 1000 ∧ g.factor ≤ 1000

/-- The recent-sag list holds at most 8 entries, none older than W, each younger than the one before it (R30). -/
def SagListLaw (r : RideThrough) (now : BitVec 32) : Prop :=
  r.window ≤ 600000 ∧ r.sags.length ≤ Config.sagDepth ∧
  (∀ t ∈ r.sags, sagAge now t ≤ r.window) ∧
  r.sags.Pairwise (fun a b => sagAge now b < sagAge now a)

/-- What the capture buffer holds in each capture state (R155, R157). -/
def CaptureLaw (c : CaptureUnit) : Prop :=
  c.pPre ≤ 1023 ∧
  match c.state with
  | .idle => c.buffer = [] ∧ c.trigPos = none ∧ c.trigPending = false
  | .armed => c.buffer.length ≤ c.pPre ∧ c.trigPos = none ∧ c.trigPending = false
  | .triggered =>
    (c.trigPending = true ∧ c.trigPos = none ∧ c.buffer.length ≤ c.pPre) ∨
    (c.trigPending = false ∧ ∃ p, c.trigPos = some p ∧ p ≤ c.pPre ∧ p < c.buffer.length ∧
      c.buffer.length - p < Config.captureDepth - c.pPre)
  | .complete =>
    c.trigPending = false ∧ ∃ p, c.trigPos = some p ∧ p ≤ c.pPre ∧
      c.buffer.length - p = Config.captureDepth - c.pPre ∧ p < c.buffer.length

/-- Port U's queues keep their depths, a DOWN port holds no frame, and the transmitter is never free while a frame
waits (R180, R184, R186). -/
def PortULaw (p : PortU) : Prop :=
  p.replies.length ≤ Config.replyDepth ∧ p.forwarding.length ≤ Config.forwardDepth ∧
  (p.up = false → p.sending = none) ∧
  (p.sending = none → p.slot = none ∧ p.replies = [] ∧ p.forwarding = [])

/-- Port D's queue keeps its depth, a DOWN port holds no frame, and the transmitter is never free while a frame waits
(R180, R184, R185). -/
def PortDLaw (p : PortD) : Prop :=
  p.passThrough.length ≤ Config.forwardDepth ∧
  (p.up = false → p.sending = none) ∧
  (p.sending = none → p.slot = none ∧ p.passThrough = [])

/-- The port units and the request queue keep their bounds, a link is UP only where a signal is detected, unless the
part is held in reset, and every report age lies in 0..255 (R124, R179, R180, R184 to R186, R190). -/
def QueueLaw (s : State) : Prop :=
  PortULaw s.pu.u ∧ PortDLaw s.pu.d ∧ s.me.queue.length ≤ Config.requestDepth ∧
  (s.held = false → (s.pu.u.up = true → s.pu.u.signal = true) ∧ (s.pu.d.up = true → s.pu.d.signal = true)) ∧
  ∀ c : Chan, s.rr.age[c] ≤ 255

/-- A command is 0 or lies between the channel's minimum and rated current (R101). -/
def CommandOk (e : ChannelEntry) (cmd : Nat) : Prop := cmd = 0 ∨ (e.iMin ≤ cmd ∧ cmd ≤ e.rated)

/-- The sum of the commands of the channels of group `g`. -/
def groupSum (t : Vector ChannelEntry 16) (g : Fin 4) (cmd : Vector Nat 16) : Nat :=
  (((List.finRange 16).filter fun c => decide ((t[c]).group = g)).map fun c => cmd[c]).sum

/-- The fill of a group takes channel `d` before channel `c`: it has the lower rank, or an equal rank and the lower
number (R101). -/
def filledBefore (t : Vector ChannelEntry 16) (d c : Chan) : Bool :=
  decide ((t[d]).rank < (t[c]).rank) || (decide ((t[d]).rank = (t[c]).rank) && decide (d < c))

/-- What the group of channel `c`, derated for v_last `v`, has left for it after the commands `cmd` of the channels
that take part and are filled before it (R100, R101). -/
def capacityLeft (a : ChannelAnswer) (v : Nat) (on : Chan → Bool) (cmd : Vector Nat 16) (c : Chan) : Nat :=
  a.groups[(a.table[c]).group] * min v 1000 / 1000 -
    (((List.finRange 16).filter fun d =>
      on d && decide ((a.table[d]).group = (a.table[c]).group) && filledBefore a.table d c).map fun d => cmd[d]).sum

end Sys2Proof.Machine
end

