-- ==== Sys2Proof/Certificates/Slice0/Obligations.lean ====
section
/-! DEFINITION. The statements about the DX416 model that are put to the provers. Where a statement names `clock`,
`ms` or a time that a command waits for, it rests on the model's clock (log entry 1); where it names `handed`, `work`,
`testDue` or `expiryDue`, on the model's own fields (log entry 3). Where a command of a row is sent in parts, the
parts are those of log entry 10, and `PartsMakeTheWhole` says that they make the whole. -/

open Sys2Proof Sys2Proof.Machine

/-! ## The machine as a whole -/

/-- A step takes the command at the front of the queue. -/
def Obligations.StepTakesFront : Prop :=
  ∀ (c : Instr) (rest : List Instr) (s : State), s.pending = c :: rest →
    step s = exec c { s with pending := rest }

/-- With no command waiting time passes to the next millisecond boundary (log entry 2, the model's choice), and while
the part is held in reset nothing happens. The time base runs on through every command but a power-on reset (R2,
R203). -/
def Obligations.TimePasses : Prop :=
  (∀ s : State, s.pending = [] →
     ∃ t, step s = .next t ∧ s.changesOnly t [.clock, .rtc] ∧
       (s.held = true → t = s) ∧
       (s.held = false → t.ms = s.ms + 1 ∧ t.timeBase = s.timeBase + 1 ∧
         t.rtc = { s.rtc with sags := s.rtc.sags.filter fun x => decide (sagAge s.timeBase x + 1 ≤ s.rtc.window) })) ∧
  (∀ (c : Instr) (s t : State), c ≠ .supplyStart → c ≠ .resetReleased → exec c s = .next t → s.clock ≤ t.clock)

/-- Which command can change the part mode, and from what to what (R131, R136, R200, R203). -/
def Obligations.ModeTransitions : Prop :=
  ∀ (c : Instr) (s t : State), exec c s = .next t →
    (s.fmu.mode = .load → t.fmu.mode ≠ .halt) ∧
    (s.fmu.mode = .load → t.fmu.mode = .run → c = .modeRun) ∧
    (s.fmu.mode = .halt → t.fmu.mode = .run → c = .modeResume) ∧
    (s.fmu.mode = .halt → t.fmu.mode = .load →
      c = .modeLoad ∨ c = .restartTakesEffect ∨ c = .supplyStart ∨ c = .resetReleased) ∧
    (s.fmu.mode = .run → t.fmu.mode = .load →
      c = .restartTakesEffect ∨ c = .supplyStart ∨ c = .resetReleased) ∧
    (s.fmu.mode = .run → t.fmu.mode = .halt →
      c = .modeHalt ∨ (∃ e ∈ t.fmu.faults, e.cls = .trip) ∨ t.fmu.droppedTrip = true)

/-! ## Resets -/

/-- A low level of 10 µs or longer holds the part in reset, releases both pins and cancels a RESTART that waits; a
shorter one changes nothing (R202, R203). While the part is held in reset only the end of the reset, the start of
supply and the signals at its ports act, and the start of supply does not release it: only the return of RESET to high
does (R203). -/
def Obligations.ResetHoldsPart : Prop :=
  (∀ (n : Nat) (s : State),
     (n < 10000 → exec (.resetAsserted n) s = .next s) ∧
     (10000 ≤ n → ∃ t, exec (.resetAsserted n) s = .next t ∧ t.held = true ∧ t.me.restart = .none ∧
       t.alertPin = .highZ ∧ t.tripRequestPin = .low ∧ s.changesOnly t [.held, .me] ∧
       t.me = { s.me with restart := .none })) ∧
  (∀ (c : Instr) (s : State), s.held = true → c ≠ .supplyStart → c ≠ .resetReleased →
     (∀ n, c ≠ .resetAsserted n) → (∀ p cut, c ≠ .linkLoss p cut) → (∀ p, c ≠ .linkUp p) →
     exec c s = .next s) ∧
  (∀ s : State,
     (s.held = true → ∃ t u, exec .supplyStart s = .next t ∧ t.held = true ∧ t.alertPin = .highZ ∧
       t.tripRequestPin = .low ∧ exec .resetReleased t = .next u ∧ u.held = false) ∧
     (s.held = false → exec .resetReleased s = .next s))

/-- The start of supply, and the release of a RESET that holds the part, give every block its power-on values (R17,
R48, R74, R89, R114, R129, R152, R163, R189, R201, R203). Left out here, because their values are the model's:
`handed`, `work`, `testDue` and `expiryDue` (log entry 3), and `phase`, `rampStart` and `rampSlope` (log entry 5).
The first cycle start falls 25000 periods of 40 ns, 1000 µs, after the reset; that the time is counted so is log entry
1. A part that a low RESET holds is held through the start of supply until RESET returns high. That the commands that
wait stay is log entry 12. -/
def Obligations.PowerOnReset : Prop :=
  ∀ (c : Instr) (s : State), (c = .supplyStart ∨ (c = .resetReleased ∧ s.held = true)) →
    ∃ t, exec c s = .next t ∧ (c = .supplyStart → t.held = s.held) ∧ (c = .resetReleased → t.held = false) ∧
      t.clock = 0 ∧ t.timeBase = 0 ∧ t.pending = s.pending ∧
      (t.gm.station = 0xF2 ∧ t.gm.fNom = 50000 ∧ t.gm.db = 200 ∧ t.gm.k = 100 ∧ t.gm.fFloor = 500 ∧ t.gm.tGs = 20 ∧
        t.gm.seqState = none ∧ t.gm.vLast = 1000 ∧ t.gm.vMaxLast = 1000 ∧ t.gm.fLast = 50000 ∧ t.gm.factor = 1000 ∧
        t.gm.gridLost = false ∧ t.gm.silence = none ∧ t.gm.missed = 0 ∧ t.gm.invalid = 0) ∧
      (t.rtc.nRows = 0 ∧ t.rtc.vRecover = 900 ∧ t.rtc.vSwell = 1200 ∧ t.rtc.tSwell = 0 ∧ t.rtc.hold = 100 ∧
        t.rtc.slope = 10 ∧ t.rtc.aFb = 500 ∧ t.rtc.window = 60000 ∧ t.rtc.nRep = 0 ∧ t.rtc.state = .normal ∧
        t.rtc.prior = none ∧ t.rtc.active = none ∧ t.rtc.pLow = 1000 ∧ t.rtc.pLoss = 1000 ∧ t.rtc.swellAbove = false ∧
        t.rtc.swellTimer = none ∧ t.rtc.recovery = none ∧ t.rtc.sags = [] ∧ t.rtc.sagCount = 0 ∧
        ∀ i : Row, t.rtc.rows[i] = { threshold := 1, dwell := 0, cap := 0, action := .curtail } ∧
          t.rtc.below[i] = false ∧ t.rtc.dwellTimers[i] = none) ∧
      (t.di.supervisor = 0xF1 ∧ t.di.tDs = 500 ∧ t.di.pendingTag = 0 ∧ t.di.appliedTag = 0 ∧ t.di.silence = none ∧
        t.di.fallbackActive = false ∧ t.di.accepted = 0 ∧ t.di.refused = 0 ∧ t.di.ignored = 0) ∧
      (t.cm.tStart = 3000 ∧ (∀ g : Fin 4, t.cm.groups[g] = 0) ∧
        (∀ i : Fin 8, t.cm.profiles[i] = { up := 50, down := 50, recovery := 200, park := 10000 }) ∧
        ∀ c : Chan, (t.cm.table[c]).enable = false ∧ (t.cm.table[c]).station.toNat = c.val + 1 ∧
          (t.cm.table[c]).group = 0 ∧ (t.cm.table[c]).rank = c ∧ (t.cm.table[c]).rated = 1000 ∧
          (t.cm.table[c]).iMin = 0 ∧ (t.cm.table[c]).profile = 0 ∧ (t.cm.table[c]).ready = .self ∧
          (t.cm.table[c]).cmpRef = 0 ∧ (t.cm.table[c]).cmpMask = 0 ∧ (t.cm.table[c]).cmpClass = .hold ∧
          (t.cm.table[c]).fallback = 0 ∧ t.cm.chan[c] = .off ∧ t.cm.startTimers[c] = none ∧
          t.cm.parkTimers[c] = none ∧ t.di.store[c] = 0 ∧ t.se.last[c] = 0 ∧ t.se.contention[c] = false ∧
          t.rr.record[c] = none ∧ t.rr.age[c] = 0 ∧ t.rr.mark[c] = false) ∧
      (t.se.tCyc = 1000 ∧ t.se.period = 1000 ∧ t.se.nextCycle = 25000 ∧ t.se.cycle = 0 ∧ t.se.lastAllowance = 0 ∧
        t.se.lastSum = 0) ∧
      (t.rr.limit = 4 ∧ t.rr.unmatched = 0) ∧
      (t.fmu.mode = .load ∧ t.fmu.faults = [] ∧ t.fmu.droppedTrip = false ∧ t.fmu.dropped = 0 ∧
        t.fmu.summary = .clear ∧ t.fmu.mask = .clear) ∧
      (t.cu.state = .idle ∧ t.cu.buffer = [] ∧ t.cu.source = .none ∧ t.cu.trigPos = none ∧ t.cu.trigPending = false ∧
        t.cu.pPre = 256 ∧ t.cu.onSag = true ∧ t.cu.ignored = 0) ∧
      t.me.queue = [] ∧ t.me.accepted = 0 ∧ t.me.restart = .none ∧
      (t.pu.ownStation = 0xF0 ∧ t.pu.typeValue = 0x88B5 ∧ (∀ p, t.linkUp p = false) ∧ t.pu.u.sending = none ∧
        t.pu.u.slot = none ∧ t.pu.u.replies = [] ∧ t.pu.u.forwarding = [] ∧ t.pu.d.sending = none ∧
        t.pu.d.slot = none ∧ t.pu.d.passThrough = [] ∧ ∀ n : CounterName, t.counter n = 0)

/-- A restart that is due takes effect: the kept records stay and every other record of the spec takes its power-on
value (R18, R49, R75, R90, R115, R130, R153, R164, R189, R200). Left out here: `handed`, `work`, `testDue` and
`expiryDue`, which are the model's own (log entry 3), and `phase`, `rampStart` and `rampSlope` (log entry 5). That the
commands that wait stay is the model's choice (log entry 12). -/
def Obligations.RestartTakesEffect : Prop :=
  ∀ s : State, s.held = false → s.me.restart = .due →
    ∃ t, exec .restartTakesEffect s = .next t ∧ t.clock = s.clock ∧ t.pending = s.pending ∧ t.held = false ∧
      (t.gm.station = s.gm.station ∧ t.gm.fNom = s.gm.fNom ∧ t.gm.db = s.gm.db ∧ t.gm.k = s.gm.k ∧
        t.gm.fFloor = s.gm.fFloor ∧ t.gm.tGs = s.gm.tGs ∧ t.gm.missed = s.gm.missed ∧ t.gm.invalid = s.gm.invalid ∧
        t.gm.seqState = none ∧ t.gm.vLast = 1000 ∧ t.gm.vMaxLast = 1000 ∧ t.gm.fLast = s.gm.fNom ∧
        t.gm.factor = 1000 ∧ t.gm.gridLost = false ∧ t.gm.silence = none) ∧
      (t.rtc.rows = s.rtc.rows ∧ t.rtc.nRows = s.rtc.nRows ∧ t.rtc.vRecover = s.rtc.vRecover ∧
        t.rtc.vSwell = s.rtc.vSwell ∧ t.rtc.tSwell = s.rtc.tSwell ∧ t.rtc.hold = s.rtc.hold ∧
        t.rtc.slope = s.rtc.slope ∧ t.rtc.aFb = s.rtc.aFb ∧ t.rtc.window = s.rtc.window ∧ t.rtc.nRep = s.rtc.nRep ∧
        t.rtc.sagCount = s.rtc.sagCount ∧ t.rtc.state = .normal ∧ t.rtc.prior = none ∧ t.rtc.active = none ∧
        t.rtc.pLow = 1000 ∧ t.rtc.pLoss = 1000 ∧ t.rtc.recovery = none ∧ t.rtc.swellTimer = none ∧
        t.rtc.swellAbove = false ∧ t.rtc.sags = [] ∧ ∀ i : Row, t.rtc.below[i] = false ∧ t.rtc.dwellTimers[i] = none) ∧
      (t.di.supervisor = s.di.supervisor ∧ t.di.tDs = s.di.tDs ∧ t.di.accepted = s.di.accepted ∧
        t.di.refused = s.di.refused ∧ t.di.ignored = s.di.ignored ∧ t.di.pendingTag = 0 ∧ t.di.appliedTag = 0 ∧
        t.di.fallbackActive = false ∧ t.di.silence = none ∧ ∀ c : Chan, t.di.store[c] = 0) ∧
      (t.cm.table = s.cm.table ∧ t.cm.groups = s.cm.groups ∧ t.cm.profiles = s.cm.profiles ∧
        t.cm.tStart = s.cm.tStart ∧
        ∀ c : Chan, t.cm.chan[c] = (if (s.cm.table[c]).enable then .standby else .off) ∧
          t.cm.startTimers[c] = none ∧ t.cm.parkTimers[c] = none) ∧
      (t.se.tCyc = s.se.tCyc ∧ t.se.period = s.se.tCyc ∧ t.se.nextCycle = s.clock + 25 * s.se.tCyc ∧ t.se.cycle = 0 ∧
        t.se.lastAllowance = 0 ∧ t.se.lastSum = 0 ∧ ∀ c : Chan, t.se.last[c] = 0 ∧ t.se.contention[c] = false) ∧
      (t.rr.limit = s.rr.limit ∧ t.rr.unmatched = s.rr.unmatched ∧
        ∀ c : Chan, t.rr.record[c] = none ∧ t.rr.age[c] = 0 ∧ t.rr.mark[c] = false) ∧
      (t.fmu.mask = s.fmu.mask ∧ t.fmu.dropped = s.fmu.dropped ∧ t.fmu.mode = .load ∧ t.fmu.faults = [] ∧
        t.fmu.droppedTrip = false ∧ t.fmu.summary = .clear) ∧
      (t.cu.pPre = s.cu.pPre ∧ t.cu.onSag = s.cu.onSag ∧ t.cu.ignored = s.cu.ignored ∧ t.cu.state = .idle ∧
        t.cu.buffer = [] ∧ t.cu.source = .none ∧ t.cu.trigPos = none ∧ t.cu.trigPending = false) ∧
      t.me.queue = [] ∧ t.me.accepted = 0 ∧ t.me.restart = .none ∧
      (t.pu.ownStation = s.pu.ownStation ∧ t.pu.typeValue = s.pu.typeValue ∧
        t.pu.u = { s.pu.u with up := s.pu.u.signal, slot := none, replies := [], forwarding := [] } ∧
        t.pu.d = { s.pu.d with up := s.pu.d.signal, slot := none, passThrough := [] } ∧
        t.pu.g = { s.pu.g with up := s.pu.g.signal })

/-- A RESTART request stays in service and its reply, which says DONE and is marked as the restart's, is handed to
port U; the restart is due at once when port U drops that reply, and waits for it to leave the part otherwise (R176,
R192, R200). That the restart then waits for its own command, RESTART_TAKES_EFFECT, is the model's choice (log entry
11). -/
def Obligations.RestartAnswered : Prop :=
  ∀ (s : State) (q : Request), s.serves q .restart .none →
    ∃ t, exec .restart s = .next t ∧ s.changesOnly t [.me, .pu] ∧
      t.me = { s.me with restart := t.me.restart } ∧
      t.me.restart = (if s.pu.u.up = true ∧ s.pu.u.replies.length < 4 then .waiting else .due) ∧
      t.pu = { s.pu with u := t.pu.u } ∧
      s.pu.u.TakesReply s.clock { frame := s.replyTo q (q.answered .done), isRestart := true } t.pu.u ∧
      (s.pu.u.up = true → s.pu.u.replies.length < 4 → t.pu.u.holdsRestart = true)

/-! ## Port units and forwarding -/

/-- A loss of signal at a port in UP: DOWN, the LINK flag, LINK DOWN, the transmitter emptied with one tx discard per
frame, and a cut reception counted; the other ports keep their slots, queues and counters (R179). A discarded RESTART
reply makes the restart due (R200; that it then waits for its own command is the model's choice, log entry 11). A
signal detected at a port makes it UP and touches nothing else (R179). A loss at a port that is DOWN, and both
commands while the part is held in reset, change the signal alone (log entry 12, the model's choice). -/
def Obligations.LinkChanges : Prop :=
  (∀ (p : Port) (cut : Bool) (s : State), s.held = false → s.linkUp p = true →
    ∃ t, exec (.linkLoss p cut) s = .next t ∧ s.changesOnly t [.fmu, .pu, .me] ∧ t.fmu.summary.link = true ∧
      t.fmu = { s.fmu with summary := { s.fmu.summary with link := true } }.record
        { code := .linkDown, cls := .hold, subject := .port p } s.timeBase s.gm.seqState ∧
      t.fmu.mode = s.fmu.mode ∧ t.pu = { s.pu with u := t.pu.u, d := t.pu.d, g := t.pu.g } ∧
      (p ≠ .u → t.pu.u = s.pu.u ∧ t.me = s.me) ∧ (p ≠ .d → t.pu.d = s.pu.d) ∧ (p ≠ .g → t.pu.g = s.pu.g) ∧
      (p = .u →
        t.pu.u = { s.pu.u with
          up := false, signal := false, sending := none, slot := none, replies := [], forwarding := []
          rx := { s.pu.u.rx with fcs := s.pu.u.rx.fcs + (if cut then 1 else 0) }
          tx := { s.pu.u.tx with discards := s.pu.u.tx.discards + BitVec.ofNat 32 (s.pu.u.sending.toList.length +
            s.pu.u.slot.toList.length + s.pu.u.replies.length + s.pu.u.forwarding.length) } } ∧
        t.me = { s.me with restart := if s.pu.u.holdsRestart then .due else s.me.restart }) ∧
      (p = .d →
        t.pu.d = { s.pu.d with
          up := false, signal := false, sending := none, slot := none, passThrough := []
          rx := { s.pu.d.rx with fcs := s.pu.d.rx.fcs + (if cut then 1 else 0) }
          tx := { s.pu.d.tx with discards := s.pu.d.tx.discards + BitVec.ofNat 32 (s.pu.d.sending.toList.length +
            s.pu.d.slot.toList.length + s.pu.d.passThrough.length) } }) ∧
      (p = .g →
        t.pu.g = { s.pu.g with
          up := false, signal := false, rx := { s.pu.g.rx with fcs := s.pu.g.rx.fcs + (if cut then 1 else 0) } })) ∧
  (∀ (p : Port) (s : State), s.held = false →
    ∃ t, exec (.linkUp p) s = .next t ∧ s.changesOnly t [.pu] ∧
      (p = .u → t.pu = { s.pu with u := { s.pu.u with up := true, signal := true } }) ∧
      (p = .d → t.pu = { s.pu with d := { s.pu.d with up := true, signal := true } }) ∧
      (p = .g → t.pu = { s.pu with g := { s.pu.g with up := true, signal := true } })) ∧
  (∀ (p : Port) (cut : Bool) (s : State) (c : Instr) (signal : Bool),
    (c = .linkLoss p cut ∧ signal = false ∧ (s.held = true ∨ s.linkUp p = false)) ∨
      (c = .linkUp p ∧ signal = true ∧ s.held = true) →
    ∃ t, exec c s = .next t ∧ s.changesOnly t [.pu] ∧
      (p = .u → t.pu = { s.pu with u := { s.pu.u with signal := signal } }) ∧
      (p = .d → t.pu = { s.pu with d := { s.pu.d with signal := signal } }) ∧
      (p = .g → t.pu = { s.pu with g := { s.pu.g with signal := signal } }))

/-- What the receive checks decide about a whole frame at a port, in their order, and what becomes of a good frame
that a block takes (R167 to R169, R180 to R183, R187): a frame that fails a check is counted and nothing else changes,
and a frame that is handed to a block is neither queued nor sent. What the handed frame holds is in
`HeadersAndPayloadsRead`. -/
def Obligations.FrameReceived : Prop :=
  ∀ (p : Port) (f : Frame) (s : State), s.held = false →
    (s.linkUp p = false → exec (.frameReceived p f) s = .next s) ∧
    (s.linkUp p = true → ∃ t, exec (.frameReceived p f) s = .next t ∧
      (fcsMatches f = false → t = s.putRx p { s.rxOf p with fcs := (s.rxOf p).fcs + 1 }) ∧
      (fcsMatches f = true → f.length < 64 ∨ 1518 + 4 * vlanTags f < f.length →
        t = s.putRx p { s.rxOf p with length := (s.rxOf p).length + 1 }) ∧
      (fcsMatches f = true → 64 ≤ f.length → f.length ≤ 1518 + 4 * vlanTags f → typeField f = s.pu.typeValue →
        (p = .g ∨ (headerOf f).dest = s.pu.ownStation) →
        (¬PassesHeaderChecks p f → ¬SentOnAtD p f →
          t = s.putRx p { s.rxOf p with header := (s.rxOf p).header + 1 }) ∧
        (PassesHeaderChecks p f →
          t.pu = (s.putRx p { s.rxOf p with good := (s.rxOf p).good + 1
                                            bytes := (s.rxOf p).bytes + BitVec.ofNat 40 f.length }).pu ∧
          (p = .g → t.gm = { s.gm with handed := s.gm.handed ++ [gridSampleOf f] } ∧ s.changesOnly t [.gm, .pu]) ∧
          (p = .d → t.rr = { s.rr with handed := s.rr.handed ++ [reportOf f] } ∧ s.changesOnly t [.rr, .pu]) ∧
          (p = .u → (headerOf f).kind = 0x20 →
            t.di = { s.di with handed := s.di.handed ++ [dispatchOf f] } ∧ s.changesOnly t [.di, .pu]) ∧
          (p = .u → (headerOf f).kind = 0x60 →
            t.me = { s.me with handed := s.me.handed ++ [requestOf f] } ∧ s.changesOnly t [.me, .pu]))) ∧
      (fcsMatches f = true → 64 ≤ f.length → f.length ≤ 1518 + 4 * vlanTags f → typeField f ≠ s.pu.typeValue → p = .g →
        s.changesOnly t [.pu] ∧ t.pu = { s.pu with g := { s.pu.g with
          foreign := s.pu.g.foreign + 1
          rx := { s.pu.g.rx with good := s.pu.g.rx.good + 1
                                 bytes := s.pu.g.rx.bytes + BitVec.ofNat 40 f.length } } }))

/-- Where the part reads each field of a received frame: at most two VLAN tags, the type field, the header, and, for a
frame that passes the header checks, the payload of its kind, counted from the first payload byte (R165, R166, R171,
R172, R174, R176). -/
def Obligations.HeadersAndPayloadsRead : Prop :=
  ∀ (f : Frame) (tag : Nat → Prop) (t b : Nat), (∀ o, tag o ↔ field f o 2 = 0x8100 ∨ field f o 2 = 0x88A8) →
    t = vlanTags f → b = 22 + 4 * t →
    t ≤ 2 ∧ (1 ≤ t ↔ tag 12) ∧ (t = 2 ↔ tag 12 ∧ tag 16) ∧ typeField f = word16 f (12 + 4 * t) ∧
    headerOf f = { version := byteAt f (b - 8), kind := byteAt f (b - 7), length := field f (b - 6) 2
                   source := byteAt f (b - 4), dest := byteAt f (b - 3), seq := word16 f (b - 2) } ∧
    (PassesHeaderChecks .g f →
      gridSampleOf f = { source := byteAt f (b - 4), seq := word16 f (b - 2), quality := word16 f b
                         vab := field f (b + 2) 2, vbc := field f (b + 4) 2, vca := field f (b + 6) 2
                         freq := field f (b + 8) 4 }) ∧
    (PassesHeaderChecks .u f → byteAt f (b - 7) = 0x20 →
      dispatchOf f = { source := byteAt f (b - 4), length := field f (b - 6) 2, tag := word16 f b
                       count := (byteAt f (b + 2)).toNat, entries := (dispatchOf f).entries } ∧
      4 + 4 * (dispatchOf f).entries.length = field f (b - 6) 2 ∧
      ∀ j, j < (dispatchOf f).entries.length → (dispatchOf f).entries[j]? =
        some { channel := (byteAt f (b + 4 + 4 * j)).toNat, demand := field f (b + 6 + 4 * j) 2 }) ∧
    (PassesHeaderChecks .d f →
      reportOf f = { raw := f, source := byteAt f (b - 4), state := byteAt f b, reserved := byteAt f (b + 1)
                     status := word16 f (b + 2), current := field f (b + 4) 2 }) ∧
    (PassesHeaderChecks .u f → byteAt f (b - 7) = 0x60 →
      requestOf f = { source := byteAt f (b - 4), seq := word16 f (b - 2), id := word16 f b, op := byteAt f (b + 2)
                      object := byteAt f (b + 3), index := field f (b + 4) 2, count := field f (b + 6) 2
                      data := (f.drop (b + 8)).take (field f (b - 6) 2 - 8) })

/-- Foreign traffic passes through unchanged: a good frame that no block of the part takes enters the other port's
queue byte for byte, or is dropped and counted, and nothing but the ports changes (R168, R180 to R182, R184). That a
frame for the own station which check 2 of R168 sends on at port D is given none of the later header checks is the
model's reading (log entry 7, DEDUCED). -/
def Obligations.ForeignTrafficPasses : Prop :=
  ∀ (p : Port) (f : Frame) (s : State), s.held = false → s.linkUp p = true → fcsMatches f = true →
    lengthOk f = true → p ≠ .g →
    (typeField f ≠ s.pu.typeValue ∨ (headerOf f).dest ≠ s.pu.ownStation ∨ SentOnAtD p f) →
    ∃ t, exec (.frameReceived p f) s = .next t ∧ s.changesOnly t [.pu] ∧ t.pu.g = s.pu.g ∧
      t.rxOf p = { s.rxOf p with good := (s.rxOf p).good + 1
                                 bytes := (s.rxOf p).bytes + BitVec.ofNat 40 f.length } ∧
      (p = .u → t.pu.u = { s.pu.u with rx := t.pu.u.rx } ∧ s.pu.d.TakesPassThrough s.clock f t.pu.d) ∧
      (p = .d → t.pu.d = { s.pu.d with rx := t.pu.d.rx } ∧ s.pu.u.TakesForward s.clock f t.pu.u)

/-- The end of a transmission counts the frame and takes the next: at port D the setpoint slot before the queue, at
port U the status slot before the replies before the forwarded frames (R185 to R187, R200). That the command waits for
the end is the model's (log entry 1), and so is the next frame's start beside a restart that is due (log entry 11). -/
def Obligations.TransmissionEnds : Prop :=
  (∀ (s : State) (x : Transmission), s.held = false → s.pu.d.sending = some x →
    ∃ t, exec .transmissionEndD s = .next t ∧ s.changesOnly t [.clock, .rtc, .pu] ∧ t.clock = max s.clock x.endsAt ∧
      s.agesSags t ∧ t.pu = { s.pu with d := t.pu.d } ∧
      ∀ d : PortD, d = { s.pu.d with
          tx := { s.pu.d.tx with frames := s.pu.d.tx.frames + 1
                                 bytes := s.pu.d.tx.bytes + BitVec.ofNat 40 x.out.frame.length } } →
        (∀ f, d.slot = some f →
          t.pu.d = { d with slot := none, sending := sendingFrom t.clock { frame := f, isRestart := false } }) ∧
        (∀ f r, d.slot = none → d.passThrough = f :: r →
          t.pu.d = { d with passThrough := r, sending := sendingFrom t.clock { frame := f, isRestart := false } }) ∧
        (d.slot = none → d.passThrough = [] → t.pu.d = { d with sending := none })) ∧
  (∀ (s : State) (x : Transmission), s.held = false → s.pu.u.sending = some x →
    ∃ t, exec .transmissionEndU s = .next t ∧ s.changesOnly t [.clock, .rtc, .pu, .me] ∧
      t.clock = max s.clock x.endsAt ∧ s.agesSags t ∧ t.pu = { s.pu with u := t.pu.u } ∧
      t.me = { s.me with restart := if x.out.isRestart then .due else s.me.restart } ∧
      ∀ u : PortU, u = { s.pu.u with
          tx := { s.pu.u.tx with frames := s.pu.u.tx.frames + 1
                                 bytes := s.pu.u.tx.bytes + BitVec.ofNat 40 x.out.frame.length } } →
        (∀ f, u.slot = some f →
          t.pu.u = { u with slot := none, sending := sendingFrom t.clock { frame := f, isRestart := false } }) ∧
        (∀ o r, u.slot = none → u.replies = o :: r →
          t.pu.u = { u with replies := r, sending := sendingFrom t.clock o }) ∧
        (∀ f r, u.slot = none → u.replies = [] → u.forwarding = f :: r →
          t.pu.u = { u with forwarding := r, sending := sendingFrom t.clock { frame := f, isRestart := false } }) ∧
        (u.slot = none → u.replies = [] → u.forwarding = [] → t.pu.u = { u with sending := none }))

/-- A frame the part builds passes its own receive checks and reads back as it was built (R165, R166, R167, R170).
Every record that is written comes back: the bytes of a channel entry, an envelope row and a profile whose fields lie
in their ranges decode to the record itself, what decodes lies in its ranges, and numbers survive their bytes (R19,
R50, R56, R177). The form of the frame check sequence is the Ethernet standard's (log entry 6). -/
def Obligations.FramesAndRecordsReadBack : Prop :=
  (∀ (own dest : Station) (type : BitVec 16) (kind : Byte) (seq : BitVec 16) (payload : List Byte),
     payload.length ≤ 1492 → isVlanTag type.toNat = false →
     fcsMatches (buildFrame own type kind dest seq payload) = true ∧
     lengthOk (buildFrame own type kind dest seq payload) = true ∧
     (buildFrame own type kind dest seq payload).length = max 64 (26 + payload.length) ∧
     typeField (buildFrame own type kind dest seq payload) = type ∧
     headerOf (buildFrame own type kind dest seq payload) =
       { version := 1, kind := kind, length := payload.length, source := own, dest := dest, seq := seq } ∧
     payloadOf (buildFrame own type kind dest seq payload) = payload) ∧
  ((∀ e : ChannelEntry, e.inRange = true → channelEntry? e.bytes = some e ∧ e.bytes.length = 18) ∧
   (∀ (l : List Byte) (e : ChannelEntry), channelEntry? l = some e →
     1 ≤ e.station.toNat ∧ e.station.toNat ≤ 0xEF ∧ 100 ≤ e.rated ∧ e.rated ≤ 60000 ∧ e.iMin ≤ e.rated ∧
       e.fallback ≤ e.rated) ∧
   (∀ r : EnvelopeRow, r.inRange = true → envelopeRow? r.bytes = some r ∧ r.bytes.length = 8) ∧
   (∀ (l : List Byte) (r : EnvelopeRow), envelopeRow? l = some r →
     1 ≤ r.threshold ∧ r.threshold ≤ 1099 ∧ r.dwell ≤ 60000 ∧ r.cap ≤ 1000) ∧
   (∀ p : Profile, p.inRange = true → profile? p.bytes = some p ∧ p.bytes.length = 10) ∧
   (∀ k n : Nat, n < 256 ^ k → ofBe (be k n) = n ∧ (be k n).length = k))

/-! ## Grid Monitor and Ride-Through Controller -/

/-- Frames that change no grid value: a frame of another station, or one whose sequence is not newer, is only counted;
an implausible newer one advances the sequence, and is counted and recorded (R5 to R8). A dispatch frame from another
station, or one that fails a frame-level check of R78, stores nothing (R77, R78). -/
def Obligations.FramesTurnedAway : Prop :=
  (∀ (s : State) (b : Bool) (f : GridSample) (rest : List GridSample), s.held = false → s.gm.handed = f :: rest →
    ∃ t, exec (.gridSampleTaken b) s = .next t ∧
      (f.source ≠ s.gm.station ∨ ¬IsNewer s.gm.seqState f.seq →
        t.gm = { s.gm with handed := rest } ∧ t.pu = { s.pu with g := { s.pu.g with foreign := s.pu.g.foreign + 1 } } ∧
        s.changesOnly t [.gm, .pu]) ∧
      (f.source = s.gm.station → IsNewer s.gm.seqState f.seq → ¬IsPlausible f →
        (∀ k, MissedBetween s.gm.seqState f.seq k →
          t.gm = { s.gm with handed := rest, seqState := some f.seq, invalid := s.gm.invalid + 1
                             missed := s.gm.missed + BitVec.ofNat 32 k }) ∧
        s.changesOnly t [.gm, .cu, .fmu] ∧ t.fmu.mode = s.fmu.mode ∧ t.fmu.SameList s.fmu)) ∧
  (∀ (s : State) (f : Dispatch) (rest : List Dispatch), s.held = false → s.di.handed = f :: rest →
    ∃ t, exec .dispatchFrameTaken s = .next t ∧
      (f.source ≠ s.di.supervisor →
        t.di = { s.di with handed := rest } ∧ t.pu = { s.pu with u := { s.pu.u with foreign := s.pu.u.foreign + 1 } } ∧
        s.changesOnly t [.di, .pu]) ∧
      (f.source = s.di.supervisor → ¬IsAcceptable f →
        t.di = { s.di with handed := rest, refused := s.di.refused + 1 } ∧
        t.fmu = s.fmu.record { code := .dispatchRefused, cls := .note, subject := .none } s.timeBase s.gm.seqState ∧
        s.changesOnly t [.di, .fmu]))

/-- A valid grid frame gives the Grid Monitor its values, clears grid-lost and starts the silence timer, in every part
mode (R5, R7, R9 to R12); in LOAD the Ride-Through Controller ignores it (R24). -/
def Obligations.ValidGridFrame : Prop :=
  ∀ (s : State) (b : Bool) (f : GridSample) (rest : List GridSample), s.held = false → s.gm.handed = f :: rest →
    s.takesAsValid f →
    ∃ t, exec (.gridSampleTaken b) s = .next t ∧
      (∀ k, MissedBetween s.gm.seqState f.seq k → t.gm = { s.gm with
        handed := rest, seqState := some f.seq, missed := s.gm.missed + BitVec.ofNat 32 k
        vLast := leastVoltage f, vMaxLast := greatestVoltage f, fLast := f.freq
        factor := (if s.gm.fNom - s.gm.db ≤ f.freq then 1000
          else max s.gm.fFloor (1000 - s.gm.k * (s.gm.fNom - s.gm.db - f.freq) / 100))
        gridLost := false, silence := some (s.ms + s.gm.tGs) }) ∧
      t.clock = s.clock ∧ t.pu = s.pu ∧ t.se = s.se ∧ t.rr = s.rr ∧ t.me = s.me ∧
      (s.fmu.mode = .load → t.rtc = s.rtc ∧ t.cm = s.cm ∧ t.di = s.di ∧ t.fmu.mode = .load ∧
        t.fmu.faults = s.fmu.faults)

/-- In RUN or HALT a valid frame below row 0 begins a sag, from NORMAL, from RECOVER, or on leaving GRID_LOST with
prior state NORMAL: it is counted and listed, the standings are formed, P_low is the active row's cap, the dwell
timers of the rows below start, and the SAG flag is set (R25, R26, R28 to R30, R33, R39). When the list is then longer
than N_rep the controller trips instead, REPEATED SAG is raised and a part in RUN halts (R31, R40, R136). -/
def Obligations.SagBegins : Prop :=
  ∀ (s : State) (b : Bool) (f : GridSample) (rest : List GridSample), s.held = false → s.gm.handed = f :: rest →
    s.takesAsValid f → s.sagStarts f →
    ∃ t, exec (.gridSampleTaken b) s = .next t ∧ t.fmu.summary.sag = true ∧
      t.rtc.sags = addSag s.timeBase s.rtc.window s.rtc.sags ∧
      t.rtc.sagCount = (if s.rtc.sagCount = 0xFFFFFFFF then s.rtc.sagCount else s.rtc.sagCount + 1) ∧
      RideThrough.SameSettings { s.rtc with sags := t.rtc.sags, sagCount := t.rtc.sagCount } t.rtc ∧
      t.rtc.prior = none ∧ t.rtc.recovery = none ∧
      (¬(0 < s.rtc.nRep ∧ s.rtc.nRep < t.rtc.sags.length) →
        t.rtc.state = .sag ∧ s.rtc.RowsFormed (leastVoltage f) t.rtc ∧
        (∀ i : Row, t.rtc.dwellTimers[i] = (if t.rtc.below[i] = true ∧ 0 < (s.rtc.rows[i]).dwell then
          some (s.ms + (s.rtc.rows[i]).dwell) else none)) ∧
        (∃ i : Row, t.rtc.active = some i ∧ t.rtc.pLow = capOf s.rtc.rows[i]) ∧
        t.fmu.mode = s.fmu.mode ∧ t.fmu.SameList s.fmu ∧ t.cm = s.cm ∧ t.di = s.di) ∧
      (0 < s.rtc.nRep ∧ s.rtc.nRep < t.rtc.sags.length →
        t.rtc.state = .tripped ∧ t.rtc.RowsCleared ∧ t.tripRequestPin = .high ∧ t.fmu.mode = .halt ∧
        t.fmu.SameList (s.fmu.record { code := .repeatedSag, cls := .trip, subject := .none } s.timeBase (some f.seq)))

/-- A valid frame taken in RUN or HALT that begins no sag, in each controller state (R25, R26, R28, R32 to R34, R39,
R40). NORMAL stays as it is. SAG re-forms its rows and lowers P_low, and at V_recover enters RECOVER, with a hold or,
with H = 0, by the step of a hold expiry. RECOVER forms the standings and goes on unchanged. GRID_LOST is left in
three ways by its prior state. TRIPPED ignores the notice. The swell standing and timer are in `SwellCheck`. With a
table that is not valid, that NORMAL has no row below and that RECOVER starts no dwell timer is log entry 14. -/
def Obligations.GridNotices : Prop :=
  ∀ (s : State) (b : Bool) (f : GridSample) (rest : List GridSample) (v : Nat), s.held = false →
    s.gm.handed = f :: rest → s.takesAsValid f → s.fmu.mode ≠ .load → ¬s.sagStarts f → v = leastVoltage f →
    (s.rtc.state = .gridLost → s.rtc.prior ≠ none) →
    ∃ t, exec (.gridSampleTaken b) s = .next t ∧ s.rtc.SameSettings t.rtc ∧ t.cm = s.cm ∧ t.di = s.di ∧
      t.fmu.mode = s.fmu.mode ∧ t.fmu.SameList s.fmu ∧ t.fmu.summary.sag = s.fmu.summary.sag ∧
      (s.rtc.state = .normal →
        t.rtc = { s.rtc with swellTimer := t.rtc.swellTimer, swellAbove := t.rtc.swellAbove }) ∧
      (s.rtc.state = .sag ∨ (s.rtc.state = .gridLost ∧ s.rtc.prior ≠ some .normal) → v < s.rtc.vRecover →
        t.rtc.state = .sag ∧ t.rtc.prior = none ∧ s.rtc.RowsFormed v t.rtc ∧ s.rtc.DwellFollows s.ms t.rtc ∧
        t.rtc.pLow = min s.rtc.pLow (s.rtc.sagCap t.rtc.active) ∧ t.rtc.recovery = s.rtc.recovery) ∧
      (s.rtc.state = .sag → s.rtc.vRecover ≤ v →
        ∃ m : RideThrough, s.rtc.RowsFormed v m ∧
          s.rtc.RecoverEntered s.ms (min s.rtc.pLow (s.rtc.sagCap m.active)) t.rtc) ∧
      (s.rtc.state = .recover → s.rtc.RowsFormed v t.rtc ∧
        t.rtc = { s.rtc with below := t.rtc.below, active := t.rtc.active, swellTimer := t.rtc.swellTimer
                             swellAbove := t.rtc.swellAbove }) ∧
      (s.rtc.state = .gridLost → s.rtc.prior ≠ some .normal → s.rtc.vRecover ≤ v →
        s.rtc.RecoverEntered s.ms s.rtc.pLow t.rtc) ∧
      (s.rtc.state = .gridLost → s.rtc.prior = some .normal →
        t.rtc.state = .normal ∧ t.rtc.RowsCleared ∧ t.rtc.prior = none ∧ t.rtc.recovery = none ∧
        t.rtc.pLow = s.rtc.pLow) ∧
      (s.rtc.state = .tripped → t.rtc = s.rtc)

/-- The swell check of every valid notice that the controller acts on (R36): with T_swell above 0 and v_max above
V_swell the standing is ABOVE, the timer is loaded when it was NOT ABOVE and runs on when it was ABOVE; otherwise the
standing is NOT ABOVE and the timer is stopped. A notice that trips the controller leaves the standing clear and the
timer stopped (R40). -/
def Obligations.SwellCheck : Prop :=
  ∀ (s : State) (b : Bool) (f : GridSample) (rest : List GridSample), s.held = false → s.gm.handed = f :: rest →
    s.takesAsValid f → s.fmu.mode ≠ .load → s.rtc.state ≠ .tripped →
    ∃ t, exec (.gridSampleTaken b) s = .next t ∧
      (t.rtc.state ≠ .tripped →
        (0 < s.rtc.tSwell ∧ s.rtc.vSwell < greatestVoltage f → t.rtc.swellAbove = true ∧
          (s.rtc.swellAbove = false → t.rtc.swellTimer = some (s.ms + s.rtc.tSwell)) ∧
          (s.rtc.swellAbove = true → t.rtc.swellTimer = s.rtc.swellTimer)) ∧
        (¬(0 < s.rtc.tSwell ∧ s.rtc.vSwell < greatestVoltage f) →
          t.rtc.swellAbove = false ∧ t.rtc.swellTimer = none)) ∧
      (t.rtc.state = .tripped → t.rtc.swellAbove = false ∧ t.rtc.swellTimer = none)

/-- Grid silence: grid-lost, GRID DATA LOST, and in RUN and HALT a controller in NORMAL, SAG or RECOVER enters
GRID_LOST with P_loss the P_state at the loss, its dwell and swell timers running on (R13, R24, R38). That the command
waits for the boundary is the model's (log entry 1). -/
def Obligations.GridSilence : Prop :=
  ∀ (s : State) (m : Nat), s.held = false → s.gm.silence = some m →
    ∃ t, exec .gridSilenceExpiry s = .next t ∧ t.clock = max s.clock (m * 25000) ∧
      t.gm = { s.gm with gridLost := true, silence := none } ∧
      t.fmu = s.fmu.record { code := .gridDataLost, cls := .hold, subject := .none } t.timeBase s.gm.seqState ∧
      t.fmu.mode = s.fmu.mode ∧ s.changesOnly t [.clock, .rtc, .gm, .fmu] ∧
      (s.fmu.mode = .load ∨ s.rtc.state = .gridLost ∨ s.rtc.state = .tripped →
        t.rtc = (s.advanceMs m).rtc) ∧
      (s.fmu.mode ≠ .load → s.rtc.state = .normal ∨ s.rtc.state = .sag ∨ s.rtc.state = .recover →
        t.rtc.state = .gridLost ∧ t.rtc.pLoss = s.rtc.pState t.timeBase ∧ t.rtc.recovery = none ∧
        t.rtc.dwellTimers = s.rtc.dwellTimers ∧ t.rtc.below = s.rtc.below ∧ t.rtc.active = s.rtc.active ∧
        t.rtc.swellTimer = s.rtc.swellTimer ∧ t.rtc.pLow = s.rtc.pLow ∧
        t.rtc.prior = (match s.rtc.state with
          | .normal => some .normal
          | .sag => some .sag
          | .recover => some .recover
          | .gridLost => s.rtc.prior
          | .tripped => s.rtc.prior))

/-- An envelope exit or a swell exit trips the controller, raises ENVELOPE EXIT or SWELL EXIT, asserts TRIP REQUEST,
stops every RTC timer, clears every standing, and puts a part in RUN into HALT whatever became of the fault entry
(R27, R37, R40, R133, R136, R151). That the command waits for the boundary is the model's (log entry 1). A trip may be
sent in parts: the controller trips with the part mode as it was and its raising handed over, as R111 has it of a
cycle start that reads RUN, and the Fault and Mode Unit then takes the raising (the parts are log entry 10). -/
def Obligations.TripByExpiry : Prop :=
  (∀ (c : Instr) (s : State) (m : Nat), s.held = false →
     ((∃ i : Row, c = .envelopeExit i ∧ s.rtc.dwellTimers[i] = some m) ∨
       (c = .swellExit ∧ s.rtc.swellTimer = some m)) →
     ∃ t, exec c s = .next t ∧ t.clock = max s.clock (m * 25000) ∧ t.rtc.state = .tripped ∧
       t.tripRequestPin = .high ∧ t.rtc.swellTimer = none ∧ t.rtc.recovery = none ∧ t.rtc.swellAbove = false ∧
       t.rtc.active = none ∧ t.rtc.prior = none ∧ (∀ i : Row, t.rtc.below[i] = false ∧ t.rtc.dwellTimers[i] = none) ∧
       t.rtc.rows = s.rtc.rows ∧ t.rtc.nRows = s.rtc.nRows ∧ t.rtc.sagCount = s.rtc.sagCount ∧
       t.fmu.SameList (s.fmu.record
         { code := if c = .swellExit then .swellExit else .envelopeExit, cls := .trip, subject := .none } t.timeBase
         s.gm.seqState) ∧
       t.gm = s.gm ∧ t.se = s.se ∧ t.rr = s.rr ∧ t.me = s.me ∧ t.pu = s.pu ∧
       (s.fmu.mode = .run → t.fmu.mode = .halt ∧ t.fmu.summary.halt = true ∧ t.di.silence = none ∧
         t.cu = s.cu.trigger .halt ∧
         ∀ d : Chan, t.cm.chan[d] = (if (s.cm.chan[d]).isActive then .standby else s.cm.chan[d])) ∧
       (s.fmu.mode ≠ .run → t.fmu.mode = s.fmu.mode ∧ t.cm = s.cm ∧ t.di = s.di ∧ t.cu = s.cu)) ∧
  (∀ (c : Instr) (code : FaultCode) (s : State) (m : Nat), s.held = false →
     ((∃ i : Row, c = .envelopeExit i .trip ∧ code = .envelopeExit ∧ s.rtc.dwellTimers[i] = some m) ∨
       (c = .swellExit .trip ∧ code = .swellExit ∧ s.rtc.swellTimer = some m)) →
     ∃ t, exec c s = .next t ∧ s.changesOnly t [.clock, .rtc, .fmu] ∧ t.clock = max s.clock (m * 25000) ∧
       t.rtc.state = .tripped ∧ t.tripRequestPin = .high ∧ t.rtc.RowsCleared ∧ t.rtc.swellTimer = none ∧
       t.rtc.recovery = none ∧ t.rtc.swellAbove = false ∧ t.rtc.prior = none ∧
       t.fmu = { s.fmu with handed := s.fmu.handed ++ [{ code := code, cls := .trip, subject := .none }] }) ∧
  (∀ (s : State) (b : Bool) (f : GridSample) (rest : List GridSample), s.held = false → s.gm.handed = f :: rest →
     s.takesAsValid f → s.sagStarts f → 0 < s.rtc.nRep →
     s.rtc.nRep < (addSag s.timeBase s.rtc.window s.rtc.sags).length →
     ∃ t, exec (.gridSampleTaken b .trip) s = .next t ∧ t.rtc.state = .tripped ∧ t.tripRequestPin = .high ∧
       t.rtc.RowsCleared ∧ t.cm = s.cm ∧ t.di = s.di ∧ t.fmu.mode = s.fmu.mode ∧ t.fmu.SameList s.fmu ∧
       t.fmu.handed = s.fmu.handed ++ [{ code := .repeatedSag, cls := .trip, subject := .none }]) ∧
  (∀ (c : Instr) (code : FaultCode) (s : State), s.held = false →
     ((∃ i : Row, c = .envelopeExit i .raise) ∧ code = .envelopeExit) ∨ (c = .swellExit .raise ∧ code = .swellExit) ∨
       ((∃ b : Bool, c = .gridSampleTaken b .raise) ∧ code = .repeatedSag) →
     ((∀ x ∈ s.fmu.handed, x.code ≠ code) → exec c s = .next s) ∧
     ∀ (l1 l2 : List Raising) (r : Raising), s.fmu.handed = l1 ++ r :: l2 → (∀ x ∈ l1, x.code ≠ code) →
       r.code = code → exec c s = .next (State.raise r { s with fmu := { s.fmu with handed := l1 ++ l2 } }))

/-- The recovery timer: a hold that expires with P_low 1000 ends in NORMAL, else it begins a ramp of (1000 - P_low) /
S ms, rounded up, at whose end P_low + S × duration is at least 1000; a ramp that expires ends in NORMAL with P_low
1000 (R34, R35). The oldest entry of the recent-sag list leaves it at the boundary at which its age becomes W + 1, and
the entries that are then no older than W stay (R30). That the commands wait for the boundary is the model's (log
entry 1). -/
def Obligations.RecoveryAndSagListExpiries : Prop :=
  (∀ (s : State) (m : Nat), s.held = false → s.rtc.recovery = some m →
     (s.rtc.phase = .hold → ∃ t, exec .recoveryHoldExpiry s = .next t ∧ t.clock = max s.clock (m * 25000) ∧
       s.changesOnly t [.clock, .rtc] ∧ t.rtc.pLow = s.rtc.pLow ∧
       (s.rtc.pLow = 1000 → t.rtc.state = .normal ∧ t.rtc.recovery = none) ∧
       (s.rtc.pLow < 1000 → 1 ≤ s.rtc.slope → s.rtc.state = .recover →
         t.rtc.state = .recover ∧ t.rtc.phase = .ramp ∧ t.rtc.rampSlope = s.rtc.slope ∧
         t.rtc.rampStart = t.timeBase ∧
         ∃ d, t.rtc.recovery = some (t.ms + d) ∧ 1 ≤ d ∧ d ≤ 1000 ∧ 1000 ≤ s.rtc.pLow + s.rtc.slope * d ∧
           s.rtc.pLow + s.rtc.slope * (d - 1) < 1000)) ∧
     (s.rtc.phase = .ramp → ∃ t, exec .recoveryRampExpiry s = .next t ∧ t.clock = max s.clock (m * 25000) ∧
       s.changesOnly t [.clock, .rtc] ∧ t.rtc.state = .normal ∧ t.rtc.pLow = 1000 ∧ t.rtc.recovery = none)) ∧
  (∀ (s : State) (x : BitVec 32) (rest : List (BitVec 32)), s.held = false → SagListLaw s.rtc s.timeBase →
     s.rtc.sags = x :: rest →
     ∃ t, exec .sagListEntryAged s = .next t ∧ s.changesOnly t [.clock, .rtc] ∧
       sagAge t.timeBase x = s.rtc.window + 1 ∧ t.rtc = { s.rtc with sags := t.rtc.sags } ∧ x ∉ t.rtc.sags ∧
       ∀ y, y ∈ t.rtc.sags ↔ y ∈ rest ∧ sagAge t.timeBase y ≤ s.rtc.window)

/-- P_state in every controller state, and the allowance formed from it (R42, R43); P_state lies in 0..1000, and the
allowance never exceeds the frequency factor. -/
def Obligations.AllowanceBounds : Prop :=
  ∀ (r : RideThrough) (g : GridMonitor) (now : BitVec 32),
    (r.state = .normal → r.pState now = 1000) ∧
    (r.state = .sag → ∀ i, r.active = some i → r.pState now = capOf r.rows[i]) ∧
    (r.state = .sag → r.active = none → 1 ≤ r.nRows → r.pState now = capOf r.rows[(0 : Row)]) ∧
    (r.state = .sag → r.active = none → r.nRows = 0 → r.pState now = r.pLow) ∧
    (r.state = .recover → r.phase = .hold → r.pState now = r.pLow) ∧
    (r.state = .recover → r.phase = .ramp →
      r.pState now = min 1000 (r.pLow + r.rampSlope * (now - r.rampStart).toNat)) ∧
    (r.state = .gridLost → r.pState now = min r.pLoss r.aFb) ∧ (r.state = .tripped → r.pState now = 0) ∧
    (∀ p, allowance p g.factor = p * g.factor / 1000) ∧
    (AllowanceLaw r g → r.pState now ≤ 1000 ∧ allowance (r.pState now) g.factor ≤ g.factor ∧
      allowance (r.pState now) g.factor ≤ 1000)

/-- The capture record of a taken valid or invalid frame, its fields, and what each capture state does with it (R8,
R154, R157 to R159). In IDLE and COMPLETE it is discarded; in ARMED it joins the window, or, with a sag mark and
trigger-on-sag on, it is the trigger record; in TRIGGERED it is appended, as the trigger record when one is awaited;
the record that completes the capture sets the CAPTURE flag; a sag trigger outside ARMED is counted. When the sag
trips a part in RUN, the HALT notice comes before or after the record (R162; which one is an operand, log entry 9). -/
def Obligations.CaptureOfGridFrame : Prop :=
  ∀ (s : State) (haltFirst : Bool) (f : GridSample) (rest : List GridSample), s.held = false →
    s.gm.handed = f :: rest → f.source = s.gm.station → IsNewer s.gm.seqState f.seq →
    (s.rtc.state = .gridLost → s.rtc.prior ≠ none) → s.cu.pPre ≤ 1023 →
    ∃ (t : State) (valid mark : Bool) (r : CaptureRecord) (sagTrigger : Bool) (n : BitVec 32),
      exec (.gridSampleTaken haltFirst) s = .next t ∧ (valid = true ↔ IsPlausible f) ∧
      (mark = true ↔ IsPlausible f ∧ s.sagStarts f) ∧ sagTrigger = (mark && s.cu.onSag) ∧
      n = (if sagTrigger then 1 else 0) ∧
      r = { time := s.timeBase, seq := f.seq, valid := valid, vMin := leastVoltage f, vMax := greatestVoltage f
            freq := f.freq, rtc := (if valid = true ∧ s.fmu.mode = .load then .normal else t.rtc.state)
            active := r.active, allowance := s.se.lastAllowance, factor := t.gm.factor
            sum := s.se.lastSum, trigger := false } ∧
      r.active = (if r.rtc = .sag then t.rtc.active else none) ∧
      t.cu.pPre = s.cu.pPre ∧ t.cu.onSag = s.cu.onSag ∧
      (t.fmu.mode = s.fmu.mode →
        (s.cu.state = .idle ∨ s.cu.state = .complete →
          t.cu = { s.cu with ignored := s.cu.ignored + n } ∧ t.fmu.summary.capture = s.fmu.summary.capture) ∧
        (s.cu.state = .armed → sagTrigger = false →
          t.cu = { s.cu with buffer := if s.cu.buffer.length < s.cu.pPre then s.cu.buffer ++ [r]
                                       else (s.cu.buffer ++ [r]).tail } ∧
          t.fmu.summary.capture = s.fmu.summary.capture) ∧
        (s.cu.state = .armed ∧ sagTrigger = true ∨ s.cu.state = .triggered ∧ s.cu.trigPending = true →
          t.cu.buffer = s.cu.buffer ++ [{ r with trigger := true }] ∧ t.cu.trigPos = some s.cu.buffer.length ∧
          t.cu.trigPending = false ∧ t.cu.source = (if s.cu.state = .armed then .sag else s.cu.source) ∧
          t.cu.ignored = (if s.cu.state = .armed then s.cu.ignored else s.cu.ignored + n) ∧
          (s.cu.pPre = 1023 → t.cu.state = .complete ∧ t.fmu.summary.capture = true) ∧
          (s.cu.pPre < 1023 → t.cu.state = .triggered ∧ t.fmu.summary.capture = s.fmu.summary.capture)) ∧
        (∀ p, s.cu.state = .triggered → s.cu.trigPending = false → s.cu.trigPos = some p → p ≤ s.cu.buffer.length →
          t.cu.buffer = s.cu.buffer ++ [r] ∧ t.cu.trigPos = some p ∧ t.cu.trigPending = false ∧
          t.cu.source = s.cu.source ∧ t.cu.ignored = s.cu.ignored + n ∧
          (1024 ≤ s.cu.buffer.length + 1 - p + s.cu.pPre → t.cu.state = .complete ∧ t.fmu.summary.capture = true) ∧
          (s.cu.buffer.length + 1 - p + s.cu.pPre < 1024 →
            t.cu.state = .triggered ∧ t.fmu.summary.capture = s.fmu.summary.capture))) ∧
      (t.fmu.mode ≠ s.fmu.mode → mark = true ∧ t.rtc.state = .tripped ∧
        (s.cu.state = .idle ∨ s.cu.state = .complete → t.cu = { s.cu with ignored := s.cu.ignored + n + 1 }) ∧
        (s.cu.state = .triggered → t.cu.ignored = s.cu.ignored + n + 1 ∧ t.cu.source = s.cu.source ∧
          t.cu.buffer = s.cu.buffer ++ [{ r with trigger := s.cu.trigPending }]) ∧
        (s.cu.state = .armed → s.cu.onSag = true ∨ haltFirst = true →
          t.cu.buffer = s.cu.buffer ++ [{ r with trigger := true }] ∧ t.cu.trigPos = some s.cu.buffer.length ∧
          t.cu.trigPending = false ∧ t.cu.source = (if haltFirst then .halt else .sag) ∧
          t.cu.ignored = s.cu.ignored + n) ∧
        (s.cu.state = .armed → s.cu.onSag = false → haltFirst = false →
          t.cu = { s.cu with
            buffer := if s.cu.buffer.length < s.cu.pPre then s.cu.buffer ++ [r] else (s.cu.buffer ++ [r]).tail
            state := .triggered, source := .halt, trigPending := true }))

/-! ## Demand Intake -/

/-- An accepted dispatch frame: each entry of an enabled channel is stored, at R when it lies above R with DEMAND
CLAMPED raised, each entry of a disabled channel is ignored and counted, channels not named keep their demand, and the
tag, the flag, the silence timer and the counter follow (R78 to R80). Dispatch silence: every enabled channel takes
its fallback demand, the flag is set, the timer stops and DISPATCH LOST is raised; the tags, the mode and the channels
stay (R82). That the expiry waits for its boundary is the model's (log entry 1). -/
def Obligations.DispatchFramesAndSilence : Prop :=
  (∀ (s : State) (f : Dispatch) (rest : List Dispatch), s.held = false → s.di.handed = f :: rest →
     f.source = s.di.supervisor → IsAcceptable f →
     ∃ t, exec .dispatchFrameTaken s = .next t ∧ s.changesOnly t [.di, .fmu] ∧
       t.di = { s.di with
         handed := rest, pendingTag := f.tag, fallbackActive := false, accepted := s.di.accepted + 1
         store := t.di.store
         silence := (if s.fmu.mode = .run then some (s.ms + s.di.tDs) else s.di.silence)
         ignored := s.di.ignored + BitVec.ofNat 32 ((List.finRange 16).filter fun c : Chan =>
           !(s.cm.table[c]).enable && f.entries.any fun e => e.channel == c.val).length } ∧
       (∀ c : Chan, (∀ e ∈ f.entries, e.channel ≠ c.val) → t.di.store[c] = s.di.store[c]) ∧
       (∀ c : Chan, ∀ e ∈ f.entries, e.channel = c.val →
         t.di.store[c] = if (s.cm.table[c]).enable then min e.demand (s.cm.table[c]).rated else s.di.store[c]) ∧
       t.fmu = f.entries.foldl (fun (m : FaultModeUnit) e =>
         match (List.finRange 16).find? fun c : Chan =>
             c.val == e.channel && (s.cm.table[c]).enable && decide ((s.cm.table[c]).rated < e.demand) with
         | none => m
         | some c =>
           m.record { code := .demandClamped, cls := .note, subject := .channel c } s.timeBase s.gm.seqState) s.fmu) ∧
  (∀ (s : State) (m : Nat), s.held = false → s.di.silence = some m →
     ∃ t, exec .dispatchSilenceExpiry s = .next t ∧ s.changesOnly t [.clock, .rtc, .di, .fmu] ∧
       t.di = { s.di with store := t.di.store, fallbackActive := true, silence := none } ∧
       (∀ c : Chan, t.di.store[c] = if (s.cm.table[c]).enable then (s.cm.table[c]).fallback else s.di.store[c]) ∧
       t.fmu = s.fmu.record { code := .dispatchLost, cls := .hold, subject := .none } t.timeBase s.gm.seqState ∧
       t.fmu.mode = s.fmu.mode ∧ s.agesSags t)

/-! ## Channel Manager -/

/-- A start timer that expires in STARTING passes its channel to FAULTED and raises START TIMEOUT, of class HOLD and
with the channel as subject (R62). -/
def Obligations.StartTimeout : Prop :=
  ∀ (s : State) (c : Chan) (m : Nat), s.held = false → s.cm.chan[c] = .starting → s.cm.startTimers[c] = some m →
    ∃ t, exec (.startTimerExpiry c) s = .next t ∧ s.changesOnly t [.clock, .rtc, .cm, .fmu] ∧
      t.cm = { s.cm with chan := s.cm.chan.set c .faulted, startTimers := s.cm.startTimers.set c none
                         parkTimers := s.cm.parkTimers.set c none } ∧
      t.fmu = s.fmu.record { code := .startTimeout, cls := .hold, subject := .channel c } t.timeBase s.gm.seqState ∧
      t.fmu.mode = s.fmu.mode ∧ s.agesSags t

/-- A park timer that expires in PARKED passes its channel to STANDBY and raises PARK LIMIT (R65); ABORT passes a
STARTING channel to STANDBY and is refused with BUSY in any other state (R63). -/
def Obligations.ParkLimitAndAbort : Prop :=
  (∀ (s : State) (c : Chan) (m : Nat), s.held = false → s.cm.chan[c] = .parked → s.cm.parkTimers[c] = some m →
    ∃ t, exec (.parkTimerExpiry c) s = .next t ∧ s.changesOnly t [.clock, .rtc, .cm, .fmu] ∧
      t.cm = { s.cm with chan := s.cm.chan.set c .standby, startTimers := s.cm.startTimers.set c none
                         parkTimers := s.cm.parkTimers.set c none } ∧
      t.fmu = s.fmu.record { code := .parkLimit, cls := .note, subject := .channel c } t.timeBase s.gm.seqState ∧
      t.fmu.mode = s.fmu.mode ∧ s.agesSags t) ∧
  (∀ (s : State) (q : Request), s.serves q .abort .channel →
    ∃ (c : Chan) (t : State), c.val = q.index ∧ exec .abort s = .next t ∧
      (s.cm.chan[c] = .starting →
        State.repliesTo { s with cm := { s.cm with
          chan := s.cm.chan.set c .standby, startTimers := s.cm.startTimers.set c none
          parkTimers := s.cm.parkTimers.set c none } } q (q.answered .done) t) ∧
      (s.cm.chan[c] ≠ .starting → s.repliesTo q (q.answered .busy) t))

/-- A channel write is decided by range, then activity, then the table law, and replaces the whole entry or none of
it; a change of enable moves the channel between OFF and STANDBY, empties its report records, and empties its demand
when it is disabled (R51, R52, R54, R85, R126, R195). -/
def Obligations.ChannelWrite : Prop :=
  ∀ (s : State) (q : Request), s.serves q .write .channel → s.me.accepted < q.count → TableLaw s.cm.table →
    ∃ (c : Chan) (t : State), c.val = q.index + s.me.accepted ∧ exec .channelWrite s = .next t ∧
      (channelEntry? (s.entryData q 18) = none → s.entryRefused q .badValue t) ∧
      ∀ (e old : ChannelEntry), channelEntry? (s.entryData q 18) = some e → old = s.cm.table[c] →
        ((s.cm.chan[c]).isActive = true →
          (e.enable ≠ old.enable ∨ e.station ≠ old.station ∨ e.group ≠ old.group ∨ e.ready ≠ old.ready) →
          s.entryRefused q .busy t) ∧
        (((s.cm.chan[c]).isActive = false ∨
            (e.enable = old.enable ∧ e.station = old.station ∧ e.group = old.group ∧ e.ready = old.ready)) →
          (¬(TableLaw (s.cm.table.set c e) ∧ e.ready ≠ .leader c) → s.entryRefused q .badValue t) ∧
          (TableLaw (s.cm.table.set c e) ∧ e.ready ≠ .leader c →
            ∃ w : State, w.entryTaken q t ∧ s.changesOnly w [.cm, .rr, .di] ∧
              w.cm.table = s.cm.table.set c e ∧ w.cm.groups = s.cm.groups ∧ w.cm.profiles = s.cm.profiles ∧
              w.cm.tStart = s.cm.tStart ∧
              (∀ d : Chan, d ≠ c → w.cm.chan[d] = s.cm.chan[d] ∧ w.cm.startTimers[d] = s.cm.startTimers[d] ∧
                w.cm.parkTimers[d] = s.cm.parkTimers[d] ∧ w.rr.record[d] = s.rr.record[d] ∧
                w.rr.age[d] = s.rr.age[d] ∧ w.rr.mark[d] = s.rr.mark[d]) ∧
              w.rr = { s.rr with record := w.rr.record, age := w.rr.age, mark := w.rr.mark } ∧
              (e.enable = old.enable → w.cm.chan = s.cm.chan ∧ w.cm.startTimers = s.cm.startTimers ∧
                w.cm.parkTimers = s.cm.parkTimers ∧ w.rr = s.rr ∧ w.di = s.di) ∧
              (e.enable ≠ old.enable →
                w.cm.chan[c] = (if e.enable then .standby else .off) ∧ w.rr.record[c] = none ∧ w.rr.age[c] = 0 ∧
                w.rr.mark[c] = false ∧
                w.di = (if e.enable then s.di else { s.di with store := s.di.store.set c 0 }))))

/-- A group capacity of at most 1,000,000 A and a profile whose fields lie in their ranges are written whole in every
part mode; others are refused with BAD_VALUE (R55, R56, R195). -/
def Obligations.GroupAndProfileWrites : Prop :=
  (∀ (s : State) (q : Request), s.serves q .write .group → s.me.accepted < q.count →
    ∃ (g : Fin 4) (t : State), g.val = q.index + s.me.accepted ∧ exec .groupWrite s = .next t ∧
      (1000000 < ofBe (s.entryData q 4) → s.entryRefused q .badValue t) ∧
      (ofBe (s.entryData q 4) ≤ 1000000 →
        State.entryTaken { s with cm := { s.cm with groups := s.cm.groups.set g (ofBe (s.entryData q 4)) } } q t)) ∧
  (∀ (s : State) (q : Request), s.serves q .write .profile → s.me.accepted < q.count →
    ∃ (i : Fin 8) (t : State), i.val = q.index + s.me.accepted ∧ exec .profileWrite s = .next t ∧
      ∀ p : Profile, p = { up := field (s.entryData q 10) 0 2, down := field (s.entryData q 10) 2 2
                           recovery := field (s.entryData q 10) 4 2, park := field (s.entryData q 10) 6 4 } →
        (1 ≤ p.up ∧ p.up ≤ 5000 ∧ 1 ≤ p.down ∧ p.down ≤ 5000 ∧ 1 ≤ p.recovery ∧ p.recovery ≤ 5000 ∧
            p.park ≤ 600000 →
          State.entryTaken { s with cm := { s.cm with profiles := s.cm.profiles.set i p } } q t) ∧
        (¬(1 ≤ p.up ∧ p.up ≤ 5000 ∧ 1 ≤ p.down ∧ p.down ≤ 5000 ∧ 1 ≤ p.recovery ∧ p.recovery ≤ 5000 ∧
            p.park ≤ 600000) → s.entryRefused q .badValue t))

/-! ## Setpoint Engine -/

/-- A whole cycle start: the cycle number, the reload of the timer, the applied tag, the allowance used, the command
sum and the report ages; the tables, the demands and the part mode stay (R84, R91, R92, R105, R110, R124). Here
`nextCycle`, and that the command waits for it, are the model's (log entry 1), and so is which of the two blocks goes
first (log entry 9). -/
def Obligations.CycleStartRecords : Prop :=
  ∀ (s : State) (b : Bool), s.held = false → s.settled →
    ∃ t, exec (.cycleStart (.whole b)) s = .next t ∧
      s.changesOnly t [.clock, .rtc, .di, .cm, .se, .rr, .fmu, .pu] ∧ t.clock = max s.clock s.se.nextCycle ∧
      s.agesSags t ∧ t.di = { s.di with appliedTag := s.di.pendingTag } ∧
      t.se.cycle = s.se.cycle + 1 ∧ t.se.tCyc = s.se.tCyc ∧ t.se.period = s.se.tCyc ∧
      t.se.nextCycle = s.se.nextCycle + 25 * s.se.tCyc ∧ t.se.work = .idle ∧
      t.se.lastAllowance = (if s.fmu.mode = .run then s.rtc.pState t.timeBase * s.gm.factor / 1000 else 0) ∧
      t.se.lastSum = ((List.finRange 16).map fun c : Chan => t.se.last[c]).sum ∧
      t.cm.table = s.cm.table ∧ t.cm.groups = s.cm.groups ∧ t.cm.profiles = s.cm.profiles ∧
      t.cm.tStart = s.cm.tStart ∧ t.fmu.mode = s.fmu.mode ∧ t.fmu.mask = s.fmu.mask ∧
      t.rr.record = s.rr.record ∧ t.rr.unmatched = s.rr.unmatched ∧ t.rr.limit = s.rr.limit ∧
      t.rr.handed = s.rr.handed ∧ t.rr.work = .idle ∧ t.rr.expiryDue = false ∧
      t.rr.testDue = (if b then none else some s.rr.limit) ∧
      (∀ c : Chan, t.rr.age[c] = if (s.cm.table[c]).enable then min 255 (s.rr.age[c] + 1) else s.rr.age[c]) ∧
      t.pu.g = s.pu.g ∧ t.pu.ownStation = s.pu.ownStation ∧ t.pu.typeValue = s.pu.typeValue

/-- THE CENTRAL CLAIM. Whatever the demands, the grid and the tables, after every cycle start each command is 0 or
lies between the channel's minimum and rated current, rises by at most one up-step beyond the command before it or to
the minimum current, is 0 outside RUN and with the controller TRIPPED (R111), and the commands of each feeder group
add up to no more than the group's derated capacity (R95, R98 to R101, R110). The same holds of the closing of an
allocation over the inputs gathered, whatever the owners of those inputs have taken since (R93, R112). -/
def Obligations.CommandsAreSafe : Prop :=
  (∀ (s : State) (b : Bool), s.held = false → s.settled → EntryLaw s.cm.table →
    ∃ t, exec (.cycleStart (.whole b)) s = .next t ∧
      (∀ c : Chan, CommandOk s.cm.table[c] t.se.last[c] ∧
        t.se.last[c] ≤ max (s.se.last[c] + rampStep (upRate s.cm.profiles[(s.cm.table[c]).profile] s.rtc.state)
          s.se.tCyc) (s.cm.table[c]).iMin) ∧
      (∀ g : Fin 4, groupSum s.cm.table g t.se.last ≤ s.cm.groups[g] * min s.gm.vLast 1000 / 1000) ∧
      (s.fmu.mode ≠ .run ∨ s.rtc.state = .tripped → ∀ c : Chan, t.se.last[c] = 0) ∧
      (∀ c : Chan, (s.cm.chan[c]).isOn = false → t.se.last[c] = 0)) ∧
  (∀ (s : State) (i : CycleInputs), s.held = false → s.inputs = some i → EntryLaw i.cm.table →
    ∃ t, exec (.cycleStart .close) s = .next t ∧
      (∀ c : Chan, CommandOk i.cm.table[c] t.se.last[c] ∧
        t.se.last[c] ≤ max (i.prev[c] + rampStep (upRate i.cm.profiles[(i.cm.table[c]).profile] i.rtc) i.period)
          (i.cm.table[c]).iMin) ∧
      (∀ g : Fin 4, groupSum i.cm.table g t.se.last ≤ i.cm.groups[g] * min i.vLast 1000 / 1000) ∧
      (i.mode ≠ .run ∨ i.allowance = 0 → ∀ c : Chan, t.se.last[c] = 0) ∧
      (∀ c : Chan, (i.cm.chan[c]).isOn = false → t.se.last[c] = 0))

/-- The target and the need of a channel that takes part, as the rules form them and case by case (R96, R97, R99):
with no allowance the need is 0, a need lies in 0 or I_min..R and never above the target except for a ramp down, and a
fall with an allowance below 1000 takes effect in one cycle. The orders of stage 5, from the mode, the controller and
the channel states that a cycle gathers (R104, R108). -/
def Obligations.NeedsAndOrders : Prop :=
  (∀ (e : ChannelEntry) (a prev d up down : Nat), e.iMin ≤ e.rated → a ≤ 1000 → 1 ≤ up → 1 ≤ down →
     ∀ t n, t = target e a (clampedDemand e d) → n = rampedNeed e a prev t up down →
       (∀ y, y = min (if d = 0 then 0 else if d < e.iMin then e.iMin else min d e.rated) (e.rated * a / 1000) →
         t = if y < e.iMin then 0 else y) ∧
       (∀ y, (prev < t → prev = 0 → y = max e.iMin (min t up)) → (prev < t → 0 < prev → y = min t (prev + up)) →
         (t < prev → a < 1000 → y = t) → (t < prev → a = 1000 → y = max t (prev - down)) → (t = prev → y = prev) →
         n = if 0 < min y e.rated ∧ min y e.rated < e.iMin then (if e.iMin ≤ t then e.iMin else 0)
             else min y e.rated) ∧
       CommandOk e n ∧ (a = 0 → n = 0) ∧ t ≤ e.rated * a / 1000 ∧ (t = 0 ∨ e.iMin ≤ t) ∧ (d = 0 → t = 0) ∧
       (a = 1000 → e.iMin ≤ d → t = min d e.rated) ∧ (a = 1000 → 0 < d → d < e.iMin → t = e.iMin) ∧
       (t < prev → a < 1000 → n = t) ∧ n ≤ max t prev ∧ n ≤ max (prev + up) e.iMin ∧
       (prev = t → n = t) ∧ (prev = 0 → 0 < t → n = max e.iMin (min t up)) ∧
       (0 < prev → prev < t → e.iMin ≤ prev → n = min t (prev + up)) ∧
       (t < prev → a = 1000 → prev ≤ e.rated → e.iMin ≤ t → n = max t (prev - down)) ∧
       (t = 0 → 0 < prev → a = 1000 → prev ≤ e.rated → n = if prev - down < e.iMin then 0 else prev - down)) ∧
  (∀ (i : CycleInputs) (c : Chan),
     (i.cm.chan[c] = .off → i.order c = .standby) ∧ (i.mode = .load → i.order c = .standby) ∧
     (i.mode = .halt → i.cm.chan[c] ≠ .off → i.order c = if i.rtc = .tripped then .trip else .standby) ∧
     (i.mode = .run → (i.cm.chan[c] = .standby ∨ i.cm.chan[c] = .faulted → i.order c = .standby) ∧
       (i.cm.chan[c] = .starting → i.order c = .start) ∧
       ((i.cm.chan[c]).isOn = true → i.order c = if i.rtc = .sag ∧ i.blocking = true then .block else .run)))

/-- The channels at a cycle start: the start examination (R59) and the results of the allocation (R64), and a channel
found lost by a Report Receiver that goes first is FAULTED and commanded 0 (R124). Work that is still in
progress when a cycle start begins is ended first, which `PartsMakeTheWhole` states. -/
def Obligations.ChannelsAtCycleStart : Prop :=
  ∀ (s : State) (b : Bool), s.held = false → s.settled →
    ∃ t, exec (.cycleStart (.whole b)) s = .next t ∧
      ∀ (c : Chan) (lost : Prop),
        (lost ↔ b = true ∧ (s.cm.table[c]).enable = true ∧ (s.cm.chan[c]).isOn = true ∧
          s.rr.limit < min 255 (s.rr.age[c] + 1) ∧ s.rr.mark[c] = false) →
        (lost → t.cm.chan[c] = .faulted ∧ t.se.last[c] = 0 ∧ t.rr.mark[c] = true) ∧
        (¬lost → t.rr.mark[c] = s.rr.mark[c]) ∧
        (s.cm.chan[c] = .standby →
          (s.fmu.mode = .run ∧ s.rtc.state = .normal ∧ 0 < s.di.store[c] →
            t.cm.chan[c] = .starting ∧ t.cm.startTimers[c] = some (t.ms + s.cm.tStart) ∧ t.se.last[c] = 0) ∧
          (¬(s.fmu.mode = .run ∧ s.rtc.state = .normal ∧ 0 < s.di.store[c]) → t.cm.chan[c] = .standby)) ∧
        (s.cm.chan[c] = .off ∨ s.cm.chan[c] = .starting ∨ s.cm.chan[c] = .faulted → t.cm.chan[c] = s.cm.chan[c]) ∧
        (¬lost → s.fmu.mode = .run → (s.cm.chan[c]).isOn = true →
          (0 < t.se.last[c] → t.cm.chan[c] = .running) ∧ (t.se.last[c] = 0 → t.cm.chan[c] = .parked) ∧
          (s.cm.chan[c] = .running → t.se.last[c] = 0 → t.cm.parkTimers[c] =
            if (s.cm.profiles[(s.cm.table[c]).profile]).park = 0 then none
            else some (t.ms + (s.cm.profiles[(s.cm.table[c]).profile]).park)) ∧
          (s.cm.chan[c] = .parked → 0 < t.se.last[c] → t.cm.parkTimers[c] = none) ∧
          (s.cm.chan[c] = .parked → t.se.last[c] = 0 → t.cm.parkTimers[c] = s.cm.parkTimers[c])) ∧
        (¬lost → s.fmu.mode ≠ .run → t.cm.chan[c] = s.cm.chan[c])

/-- The contention record: at a cycle start a channel that takes part and receives less than its need joins it, no
member leaves it, and the CONTENTION flag is set when it goes from empty to non-empty (R102); its read returns and
empties it (R103). That the flag is set in the step of the update is the model's (log entry 22). -/
def Obligations.ContentionRecord : Prop :=
  (∀ (s u : State) (b : Bool), s.held = false → s.settled → u = s.cycleBegun b →
    ∃ (t : State) (i : CycleInputs), exec (.cycleStart (.whole b)) s = .next t ∧ u.gathered = some i ∧
      (∀ c : Chan, t.se.contention[c] =
        (s.se.contention[c] || (i.takesPart c && decide (t.se.last[c] < i.need c)))) ∧
      (s.fmu.mode ≠ .run → t.se.contention = s.se.contention) ∧
      ((∀ c : Chan, s.se.contention[c] = false) → (∃ c : Chan, t.se.contention[c] = true) →
        t.fmu = { u.fmu with summary := { u.fmu.summary with contention := true } }) ∧
      ((∃ c : Chan, s.se.contention[c] = true) ∨ (∀ c : Chan, t.se.contention[c] = false) → t.fmu = u.fmu)) ∧
  (∀ (s : State) (q : Request), s.serves q .readAndClear .contention →
    ∃ t, exec .contentionRead s = .next t ∧
      State.repliesTo { s with se := { s.se with contention := Vector.replicate 16 false } } q
        (q.done (be 2 (memberBits s.se.contention))) t)

/-- The setpoint frame of a whole cycle start (R106, R107): in RUN and HALT it is handed to port D with an entry for
every channel that is not OFF, and in LOAD nothing is handed to port D. It is handed before the Report Receiver's work
where that comes second, so port D meets it as the cycle start found it. -/
def Obligations.SetpointFrame : Prop :=
  ∀ (s u : State) (b : Bool), s.held = false → s.settled → u = s.cycleBegun b →
    ∃ (t : State) (i : CycleInputs) (f : Frame), exec (.cycleStart (.whole b)) s = .next t ∧ u.gathered = some i ∧
      i.mode = s.fmu.mode ∧ i.rtc = s.rtc.state ∧ i.tag = s.di.pendingTag ∧ i.cm.table = s.cm.table ∧
      f = buildFrame s.pu.ownStation s.pu.typeValue 0x30 0xFF (s.se.cycle + 1)
        (be 2 (s.se.cycle + 1).toNat ++ be 2 s.di.pendingTag.toNat ++ be 2 t.se.lastAllowance ++
          [BitVec.ofNat 8 (16 * s.fmu.mode.code.toNat + s.rtc.state.code.toNat),
           BitVec.ofNat 8 ((List.finRange 16).filter fun c : Chan => decide (i.cm.chan[c] ≠ .off)).length] ++
          ((List.finRange 16).filter fun c : Chan => decide (i.cm.chan[c] ≠ .off)).flatMap fun c =>
            [(s.cm.table[c]).station, (i.order c).code] ++ be 2 t.se.last[c]) ∧
      (s.fmu.mode = .load → t.pu.d = s.pu.d) ∧ (s.fmu.mode ≠ .load → s.pu.d.TakesSetpoint t.clock f t.pu.d)

/-- The status frame of a whole cycle start (R108, R109): it is handed to port U in every part mode, addressed to the
supervisor, with the cycle's own work and the owners' records as its content. Of the layout of R175 only the length of
the payload, 122 bytes, is said here. That the frame shows a CONTENTION flag set in this same cycle is the model's
choice (log entry 22). Sent whole, the command leaves no room for another event between the gathering and the frame;
the frames of a cycle start sent in parts, which R109 and R112 describe, are in `CycleFrames` (log entry 10). -/
def Obligations.StatusFrame : Prop :=
  ∀ (s u : State) (b : Bool), s.held = false → s.settled → u = s.cycleBegun b →
    ∃ (t : State) (i : CycleInputs) (f : Frame) (c : StatusContent),
      exec (.cycleStart (.whole b)) s = .next t ∧ u.gathered = some i ∧
      f = buildFrame s.pu.ownStation s.pu.typeValue 0x50 s.di.supervisor (s.se.cycle + 1) c.payload ∧
      c.payload.length = 122 ∧
      c.cycle = s.se.cycle + 1 ∧ c.tag = s.di.pendingTag ∧ c.mode = s.fmu.mode ∧ c.rtc = s.rtc.state ∧
      c.active = s.rtc.active ∧ c.links = (s.pu.u.up, s.pu.d.up, s.pu.g.up) ∧ c.allowance = t.se.lastAllowance ∧
      c.factor = s.gm.factor ∧ c.vLast = s.gm.vLast ∧ c.fLast = s.gm.fLast ∧ c.summary = t.fmu.summary ∧
      c.mask = s.fmu.mask ∧ c.faultCount = u.fmu.faults.length ∧
      c.head = u.fmu.faults.head?.map (fun e => (e.code, e.subject)) ∧ c.droppedTrip = u.fmu.droppedTrip ∧
      c.fallbackActive = s.di.fallbackActive ∧ c.gridLost = s.gm.gridLost ∧ c.contention = t.se.contention ∧
      (∀ d : Chan, c.blocks[d] = { state := i.cm.chan[d], order := i.order d, command := t.se.last[d]
                                   measured := (match s.rr.record[d] with | none => 0 | some r => r.current) }) ∧
      s.pu.u.TakesStatus t.clock f t.pu.u

/-- A command of CYCLE_START, REPORT_TAKEN or REPORT_LOSS, or of one of the three commands that can trip the
controller, that is sent whole does what its parts do, sent one after another with nothing between them; the readings
of the demands, of the controller and of v_last may come in any order (R93); a part makes the earlier ones that it
needs; a cycle start first ends the work that is still in progress, and where there is none it changes nothing by that
(R92, R120, R124). The division into parts is the model's (log entry 10), and so is that a look at an owner first
hands the setpoint frame (log entry 21). -/
def Obligations.PartsMakeTheWhole : Prop :=
  ∀ s : State, s.held = false →
    (∀ l : List Instr,
      l = [.cycleStart .status, .cycleStart .reports, .reportTaken .finish, .reportLoss .finish, .reportLoss .whole] →
      (∃ t, s.afterAll l = some t ∧ t.settled ∧ (s.settled → t = s)) ∧
      (∀ p, p = .start ∨ (∃ b, p = .whole b) → s.afterAll [.cycleStart p] = s.afterAll (l ++ [.cycleStart p]))) ∧
    s.afterAll [.cycleStart (.whole false)] = s.afterAll
      ([.start, .demands, .standing, .voltage, .request, .close, .setpoint, .look .ports, .look .gridMonitor,
        .look .faultModeUnit, .look .demandIntake, .look .reportReceiver, .status, .reports].map .cycleStart) ∧
    s.afterAll [.cycleStart (.whole true)] = s.afterAll
      [.cycleStart .start, .cycleStart .reports, .reportLoss .whole, .cycleStart .status] ∧
    (∀ l : List CyclePart, l.Perm [.demands, .standing, .voltage] →
      s.afterAll (l.map .cycleStart) = s.afterAll ([.demands, .standing, .voltage].map .cycleStart)) ∧
    s.afterAll [.cycleStart .request] = s.afterAll ([.demands, .standing, .request].map .cycleStart) ∧
    s.afterAll [.cycleStart .close] = s.afterAll ([.request, .voltage, .close].map .cycleStart) ∧
    s.afterAll [.cycleStart .setpoint] = s.afterAll ([.close, .setpoint].map .cycleStart) ∧
    (∀ o, s.afterAll [.cycleStart (.look o)] = s.afterAll ([.setpoint, .look o].map .cycleStart)) ∧
    s.afterAll [.cycleStart .status] = s.afterAll ([.setpoint, .status].map .cycleStart) ∧
    (∀ i : Row, (∀ x ∈ s.fmu.handed, x.code ≠ .envelopeExit) →
      s.afterAll [.envelopeExit i] = s.afterAll [.envelopeExit i .trip, .envelopeExit i .raise]) ∧
    ((∀ x ∈ s.fmu.handed, x.code ≠ .swellExit) →
      s.afterAll [.swellExit] = s.afterAll [.swellExit .trip, .swellExit .raise]) ∧
    (∀ b : Bool, (∀ x ∈ s.fmu.handed, x.code ≠ .repeatedSag) →
      s.afterAll [.gridSampleTaken false] = s.afterAll [.gridSampleTaken b .trip, .gridSampleTaken b .raise]) ∧
    (s.rr.handed ≠ [] → s.afterAll [.reportTaken .whole] =
      s.afterAll [.reportTaken .decide, .reportTaken .hand, .reportTaken .finish]) ∧
    (s.rr.testDue ≠ none → s.afterAll [.reportLoss .whole] =
      s.afterAll [.reportLoss .decide, .reportLoss .hand, .reportLoss .finish])

/-- The parts of a cycle start that gather its inputs, each with what its owner holds when it is read, whatever has
been taken since the other readings: the expiry, the demands and the pending tag, the controller's answer, v_last, and
the request, with the part mode and the start examination at that moment (R42, R43, R59, R84, R92 to R94). The
division into parts is the model's (log entry 10). -/
def Obligations.CycleReadings : Prop :=
  (∀ s : State, s.held = false → s.settled →
    ∃ t, exec (.cycleStart .start) s = .next t ∧ s.changesOnly t [.clock, .rtc, .se, .rr] ∧
      t.clock = max s.clock s.se.nextCycle ∧ s.agesSags t ∧ t.rr = { s.rr with expiryDue := true } ∧
      t.se = { s.se with
        cycle := s.se.cycle + 1, period := s.se.tCyc, nextCycle := s.se.nextCycle + 25 * s.se.tCyc
        work := .gathering { demands := none, standing := none, vLast := none, answer := none } }) ∧
  ∀ (s : State) (g : Gathering), s.held = false → s.se.work = .gathering g →
    (g.demands = none → exec (.cycleStart .demands) s = .next { s with
      di := { s.di with appliedTag := s.di.pendingTag }
      se := { s.se with work := .gathering { g with
        demands := some { store := s.di.store, tag := s.di.pendingTag } } } }) ∧
    (g.standing = none → exec (.cycleStart .standing) s = .next { s with
      se := { s.se with work := .gathering { g with
        standing := some { rtc := s.rtc.state, active := s.rtc.active
                           blocking := s.rtc.active.any fun i => decide ((s.rtc.rows[i]).action = .block)
                           allowance := s.rtc.pState s.timeBase * s.gm.factor / 1000 } } } }) ∧
    (g.vLast = none → exec (.cycleStart .voltage) s = .next { s with
      se := { s.se with work := .gathering { g with vLast := some s.gm.vLast } } }) ∧
    (∀ d st, g.demands = some d → g.standing = some st → g.answer = none →
      ∃ t, exec (.cycleStart .request) s = .next t ∧ s.changesOnly t [.cm, .se] ∧
        t.cm = { s.cm with chan := t.cm.chan, startTimers := t.cm.startTimers } ∧
        t.se = { s.se with work := .gathering { g with
          answer := some (s.fmu.mode, { table := s.cm.table, groups := s.cm.groups, profiles := s.cm.profiles
                                        chan := t.cm.chan }) } } ∧
        ∀ c : Chan,
          (s.cm.chan[c] = .standby ∧ s.fmu.mode = .run ∧ st.rtc = .normal ∧ 0 < d.store[c] →
            t.cm.chan[c] = .starting ∧ t.cm.startTimers[c] = some (s.ms + s.cm.tStart)) ∧
          (¬(s.cm.chan[c] = .standby ∧ s.fmu.mode = .run ∧ st.rtc = .normal ∧ 0 < d.store[c]) →
            t.cm.chan[c] = s.cm.chan[c] ∧ t.cm.startTimers[c] = s.cm.startTimers[c])) ∧
    (∀ (p : CyclePart), (p = .demands ∧ g.demands ≠ none) ∨ (p = .standing ∧ g.standing ≠ none) ∨
        (p = .voltage ∧ g.vLast ≠ none) ∨ (p = .request ∧ g.demands ≠ none ∧ g.standing ≠ none ∧ g.answer ≠ none) →
      exec (.cycleStart p) s = .next s)

/-- The part of a cycle start that closes its allocation. Each group's derated capacity is filled in ascending rank,
then channel number: a channel that takes part gets the lesser of its need and what those before it left, or 0 where
that lies below its I_min, and is noted where less than its need was left; every other channel gets 0 (R95, R98, R100,
R101; the target and the need are spelled out in `NeedsAndOrders`). These become the last commands, with their sum and
the allowance used; the contention record is joined, and its notice handed, as it now stands (R102, R103, R105); and
each result acts on the state and the profile that the Channel Manager now holds, and is ignored where the channel has
left RUNNING and PARKED since the answer (R64, R71, R112). The division into parts is the model's (log entry 10), and so is that the CONTENTION flag is set in the step of the update (log entry 22). -/
def Obligations.CycleCloses : Prop :=
  ∀ (s : State) (d : DemandReading) (st : Standing) (v : Nat) (m : PartMode) (a : ChannelAnswer) (i : CycleInputs),
    s.held = false →
    s.se.work = .gathering { demands := some d, standing := some st, vLast := some v, answer := some (m, a) } →
    i = { mode := m, store := d.store, tag := d.tag, rtc := st.rtc, active := st.active, blocking := st.blocking
          allowance := st.allowance, vLast := v, period := s.se.period, cm := a, prev := s.se.last } →
    ∃ t, exec (.cycleStart .close) s = .next t ∧ s.changesOnly t [.se, .cm, .fmu] ∧
      t.se = { s.se with
        last := t.se.last, contention := t.se.contention, lastSum := t.se.lastSum
        lastAllowance := (if m = .run then st.allowance else 0)
        work := .closed { inputs := i, cmd := t.se.last, contention := t.se.contention } } ∧
      t.se.lastSum = ((List.finRange 16).map fun c : Chan => t.se.last[c]).sum ∧
      (∀ (x : Nat) (on : Chan → Bool) (up n left : Chan → Nat), x = (if m = .run then st.allowance else 0) →
        (∀ c : Chan, on c = true ↔ m = .run ∧ (a.chan[c] = .running ∨ a.chan[c] = .parked)) →
        (∀ c : Chan, up c = if st.rtc = .sag ∨ st.rtc = .recover then (a.profiles[(a.table[c]).profile]).recovery
          else (a.profiles[(a.table[c]).profile]).up) →
        (∀ c : Chan, n c = rampedNeed a.table[c] x s.se.last[c]
          (target a.table[c] x (clampedDemand a.table[c] d.store[c])) (max 1 (up c * s.se.period / 1000))
          (max 1 ((a.profiles[(a.table[c]).profile]).down * s.se.period / 1000))) →
        (∀ c : Chan, left c = capacityLeft a v on t.se.last c) →
        ∀ c : Chan,
          (on c = true →
            t.se.last[c] = (if min (n c) (left c) < (a.table[c]).iMin then 0 else min (n c) (left c)) ∧
            t.se.contention[c] = (s.se.contention[c] || decide (left c < n c))) ∧
          (on c = false → t.se.last[c] = 0 ∧ t.se.contention[c] = s.se.contention[c])) ∧
      ((∀ c : Chan, s.se.contention[c] = false) → (∃ c : Chan, t.se.contention[c] = true) →
        t.fmu = { s.fmu with summary := { s.fmu.summary with contention := true } }) ∧
      ((∃ c : Chan, s.se.contention[c] = true) ∨ (∀ c : Chan, t.se.contention[c] = false) → t.fmu = s.fmu) ∧
      t.cm = { s.cm with chan := t.cm.chan, parkTimers := t.cm.parkTimers } ∧
      ∀ c : Chan,
        (¬(m = .run ∧ (a.chan[c] = .running ∨ a.chan[c] = .parked)) ∨
            ¬(s.cm.chan[c] = .running ∨ s.cm.chan[c] = .parked) →
          t.cm.chan[c] = s.cm.chan[c] ∧ t.cm.parkTimers[c] = s.cm.parkTimers[c]) ∧
        (m = .run → (a.chan[c] = .running ∨ a.chan[c] = .parked) →
          (s.cm.chan[c] = .running → 0 < t.se.last[c] →
            t.cm.chan[c] = .running ∧ t.cm.parkTimers[c] = s.cm.parkTimers[c]) ∧
          (s.cm.chan[c] = .running → t.se.last[c] = 0 → t.cm.chan[c] = .parked ∧ t.cm.parkTimers[c] =
            if (s.cm.profiles[(s.cm.table[c]).profile]).park = 0 then none
            else some (s.ms + (s.cm.profiles[(s.cm.table[c]).profile]).park)) ∧
          (s.cm.chan[c] = .parked → 0 < t.se.last[c] → t.cm.chan[c] = .running ∧ t.cm.parkTimers[c] = none) ∧
          (s.cm.chan[c] = .parked → t.se.last[c] = 0 →
            t.cm.chan[c] = .parked ∧ t.cm.parkTimers[c] = s.cm.parkTimers[c]))

/-- The parts of a cycle start that hand its frames, whatever has been taken since the allocation was closed: the
setpoint frame carries the commands and orders of the inputs gathered (R71, R106, R107, R112), and the status frame
the cycle's own work with each owner's fields as they were read, together, when it was built (R108, R109, R112); an
owner that has been read is not read again. The division into parts is the model's (log entry 10), and so is that the
setpoint frame is handed before any owner is read (log entry 21); that the status frame shows the contention record as
the closing left it is log entry 20. The layout of the status payload (R175) is not spelled out here. -/
def Obligations.CycleFrames : Prop :=
  (∀ (s : State) (w : ClosedCycle) (i : CycleInputs), s.held = false → s.se.work = .closed w → i = w.inputs →
    ∃ (t : State) (f : Frame), exec (.cycleStart .setpoint) s = .next t ∧ s.changesOnly t [.se, .pu] ∧
      t.se = { s.se with work := .building w {
          links := none, grid := none, faults := none, fallback := none, measured := none } } ∧
      t.pu = { s.pu with d := t.pu.d } ∧
      f = buildFrame s.pu.ownStation s.pu.typeValue 0x30 0xFF s.se.cycle
        (be 2 s.se.cycle.toNat ++ be 2 i.tag.toNat ++ be 2 (if i.mode = .run then i.allowance else 0) ++
          [BitVec.ofNat 8 (16 * i.mode.code.toNat + i.rtc.code.toNat),
           BitVec.ofNat 8 ((List.finRange 16).filter fun c : Chan => decide (i.cm.chan[c] ≠ .off)).length] ++
          ((List.finRange 16).filter fun c : Chan => decide (i.cm.chan[c] ≠ .off)).flatMap fun c =>
            [(i.cm.table[c]).station, (i.order c).code] ++ be 2 w.cmd[c]) ∧
      (i.mode = .load → t.pu.d = s.pu.d) ∧ (i.mode ≠ .load → s.pu.d.TakesSetpoint s.clock f t.pu.d)) ∧
  (∀ (s : State) (w : ClosedCycle) (v : StatusReadings) (o : StatusOwner), s.held = false →
    s.se.work = .building w v →
    ∃ x : StatusReadings,
      exec (.cycleStart (.look o)) s = .next { s with se := { s.se with work := .building w x } } ∧
      (o ≠ .ports → x.links = v.links) ∧ (o ≠ .gridMonitor → x.grid = v.grid) ∧
      (o ≠ .faultModeUnit → x.faults = v.faults) ∧ (o ≠ .demandIntake → x.fallback = v.fallback) ∧
      (o ≠ .reportReceiver → x.measured = v.measured) ∧
      (∀ y, v.links = some y → x.links = some y) ∧ (∀ y, v.grid = some y → x.grid = some y) ∧
      (∀ y, v.faults = some y → x.faults = some y) ∧ (∀ y, v.fallback = some y → x.fallback = some y) ∧
      (∀ y, v.measured = some y → x.measured = some y) ∧
      (o = .ports → v.links = none → x.links = some (s.pu.u.up, s.pu.d.up, s.pu.g.up)) ∧
      (o = .gridMonitor → v.grid = none → x.grid = some { factor := s.gm.factor, vLast := s.gm.vLast
                                                          fLast := s.gm.fLast, gridLost := s.gm.gridLost }) ∧
      (o = .faultModeUnit → v.faults = none → x.faults = some {
        summary := s.fmu.summary, mask := s.fmu.mask, count := s.fmu.faults.length
        head := s.fmu.faults.head?.map fun e => (e.code, e.subject), droppedTrip := s.fmu.droppedTrip }) ∧
      (o = .demandIntake → v.fallback = none → x.fallback = some s.di.fallbackActive) ∧
      (o = .reportReceiver → v.measured = none → ∃ l : Vector Nat 16, x.measured = some l ∧
        ∀ c : Chan, l[c] = match s.rr.record[c] with | none => 0 | some r => r.current)) ∧
  (∀ (s : State) (w : ClosedCycle) (v : StatusReadings) (i : CycleInputs), s.held = false →
    s.se.work = .building w v → i = w.inputs →
    ∃ (t : State) (f : Frame) (c : StatusContent), exec (.cycleStart .status) s = .next t ∧ s.changesOnly t [.se, .pu] ∧
      t.se = { s.se with work := .idle } ∧ t.pu = { s.pu with u := t.pu.u } ∧
      f = buildFrame s.pu.ownStation s.pu.typeValue 0x50 s.di.supervisor s.se.cycle c.payload ∧
      c.cycle = s.se.cycle ∧ c.tag = i.tag ∧ c.mode = i.mode ∧ c.rtc = i.rtc ∧ c.active = i.active ∧
      c.allowance = (if i.mode = .run then i.allowance else 0) ∧ c.contention = w.contention ∧
      (∀ x, x = v.links.getD (s.pu.u.up, s.pu.d.up, s.pu.g.up) → c.links = x) ∧
      (∀ x : GridShown, x = v.grid.getD { factor := s.gm.factor, vLast := s.gm.vLast, fLast := s.gm.fLast
                                          gridLost := s.gm.gridLost } →
        c.factor = x.factor ∧ c.vLast = x.vLast ∧ c.fLast = x.fLast ∧ c.gridLost = x.gridLost) ∧
      (∀ x : FaultsShown, x = v.faults.getD {
          summary := s.fmu.summary, mask := s.fmu.mask, count := s.fmu.faults.length
          head := s.fmu.faults.head?.map fun e => (e.code, e.subject), droppedTrip := s.fmu.droppedTrip } →
        c.summary = x.summary ∧ c.mask = x.mask ∧ c.faultCount = x.count ∧ c.head = x.head ∧
        c.droppedTrip = x.droppedTrip) ∧
      c.fallbackActive = v.fallback.getD s.di.fallbackActive ∧
      (∀ d : Chan, c.blocks[d] = { state := i.cm.chan[d], order := i.order d, command := w.cmd[d]
                                   measured := (c.blocks[d]).measured }) ∧
      (∀ l, v.measured = some l → ∀ d : Chan, (c.blocks[d]).measured = l[d]) ∧
      (v.measured = none → ∀ d : Chan,
        (c.blocks[d]).measured = match s.rr.record[d] with | none => 0 | some r => r.current) ∧
      s.pu.u.TakesStatus s.clock f t.pu.u)

/-! ## Report Receiver -/

/-- A report taken whole: its record or the unmatched count, the ages and marks, the events and the faults it gives
each channel it acts on, the HALT of a TRIP-class mismatch, and its way to port U unchanged (R58, R61, R66, R67, R117
to R123). -/
def Obligations.ReportTaken : Prop :=
  ∀ (s : State) (r : Report) (rest : List Report), s.held = false → s.rr.handed = r :: rest →
    s.rr.work = .idle → s.rr.testDue = none → TableLaw s.cm.table →
    ∃ t, exec (.reportTaken .whole) s = .next t ∧ s.changesOnly t [.cm, .rr, .fmu, .cu, .di, .pu] ∧
      t.rr = { s.rr with handed := rest, record := t.rr.record, unmatched := t.rr.unmatched, age := t.rr.age
                         mark := t.rr.mark } ∧
      t.cm.table = s.cm.table ∧ s.ReportRecorded r t.rr ∧
      (∀ c : Chan, ¬ActsOn s.cm.table r.source c → t.fmu.mode = s.fmu.mode → t.cm.chan[c] = s.cm.chan[c]) ∧
      (∀ c : Chan, ActsOn s.cm.table r.source c → ∃ ev, ReportEvent s.cm.chan[c] s.cm.table[c] r ev ∧
        t.cm.chan[c] =
          if t.fmu.mode ≠ s.fmu.mode ∧ (afterEvent s.cm.chan[c] ev).isActive = true then .standby
          else afterEvent s.cm.chan[c] ev) ∧
      (∃ l, s.ReportFaults r l ∧
        t.fmu.SameList (l.foldl (fun (m : FaultModeUnit) x => m.record x s.timeBase s.gm.seqState) s.fmu)) ∧
      (t.fmu.mode ≠ s.fmu.mode ↔ s.fmu.mode = .run ∧ ∃ c : Chan, ActsOn s.cm.table r.source c ∧
        (s.cm.chan[c]).isOn = true ∧ Mismatches s.cm.table[c] r.status ∧ (s.cm.table[c]).cmpClass = .trip) ∧
      (t.fmu.mode ≠ s.fmu.mode → t.fmu.mode = .halt ∧
        ∀ c : Chan, t.cm.chan[c] ≠ .starting ∧ t.cm.chan[c] ≠ .running ∧ t.cm.chan[c] ≠ .parked) ∧
      t.pu = { s.pu with u := t.pu.u } ∧ s.pu.u.TakesForward s.clock r.raw t.pu.u

/-- The loss test of a taken cycle start, made whole: every enabled RUNNING or PARKED channel whose age has passed the
limit L in force at that cycle start, with a clear mark, is marked and FAULTED, and REPORT LOSS is raised for each in
ascending order (R116, R124, R125). The test is made once, by this command or by the Report Receiver's next event
(R120); `testDue` is the model's (log entry 3). -/
def Obligations.ReportLoss : Prop :=
  (∀ s : State, s.held = false → s.rr.testDue = none → exec (.reportLoss .whole) s = .next s) ∧
  (∀ (s : State) (l : Nat), s.held = false → s.rr.testDue = some l → s.rr.work = .idle →
    ∃ t, exec (.reportLoss .whole) s = .next t ∧ s.changesOnly t [.cm, .rr, .fmu] ∧ t.fmu.mode = s.fmu.mode ∧
      t.rr = { s.rr with testDue := none, mark := t.rr.mark } ∧ t.cm.table = s.cm.table ∧
      (s.rr.handed ≠ [] → exec (.reportTaken .whole) s = exec (.reportTaken .whole) t) ∧
      (s.rr.expiryDue = true → exec (.cycleStart .reports) s = exec (.cycleStart .reports) t) ∧
      (s.se.work = .idle → exec (.cycleStart .start) s = exec (.cycleStart .start) t ∧
        ∀ b, exec (.cycleStart (.whole b)) s = exec (.cycleStart (.whole b)) t) ∧
      ∀ lost : Chan → Bool, (∀ c, lost c = true ↔ (s.cm.table[c]).enable = true ∧
          (s.cm.chan[c] = .running ∨ s.cm.chan[c] = .parked) ∧ l < s.rr.age[c] ∧ s.rr.mark[c] = false) →
        (∀ c : Chan, t.cm.chan[c] = (if lost c then .faulted else s.cm.chan[c]) ∧
          t.rr.mark[c] = (lost c || s.rr.mark[c])) ∧
        t.fmu = ((List.finRange 16).filter lost).foldl (fun (m : FaultModeUnit) c =>
          m.record { code := .reportLoss, cls := .hold, subject := .channel c } s.timeBase s.gm.seqState) s.fmu)

/-- The parts of the Report Receiver's work, whatever other blocks have taken between them: the events and faults are
decided from the states read (R118 to R124), the limit L is the one in force when the cycle start is taken (R116,
R127), the Channel Manager applies each event to the state it then holds (R61, R66, R67, R71), and the faults are
raised all the same (R120, R127). The division into parts is the model's (log entry 10). -/
def Obligations.ReportParts : Prop :=
  (∀ (s : State) (r : Report) (rest : List Report), s.held = false → s.rr.handed = r :: rest →
    s.rr.work = .idle → s.rr.testDue = none → TableLaw s.cm.table →
    ∃ (t : State) (events : Vector (Option ChannelEvent) 16) (faults : List Raising),
      exec (.reportTaken .decide) s = .next t ∧ s.changesOnly t [.rr] ∧ s.ReportRecorded r t.rr ∧
      t.rr = { s.rr with handed := rest, record := t.rr.record, unmatched := t.rr.unmatched, age := t.rr.age
                         mark := t.rr.mark, work := .decided events faults (some r.raw) } ∧
      s.ReportFaults r faults ∧ (∀ c : Chan, ¬ActsOn s.cm.table r.source c → events[c] = none) ∧
      ∀ c : Chan, ActsOn s.cm.table r.source c → ReportEvent s.cm.chan[c] s.cm.table[c] r events[c]) ∧
  (∀ s : State, s.held = false → s.rr.expiryDue = true → s.rr.work = .idle → s.rr.testDue = none →
    ∃ t, exec (.cycleStart .reports) s = .next t ∧ s.changesOnly t [.rr] ∧
      t.rr = { s.rr with age := t.rr.age, expiryDue := false, testDue := some s.rr.limit } ∧
      ∀ c : Chan, t.rr.age[c] = if (s.cm.table[c]).enable then min 255 (s.rr.age[c] + 1) else s.rr.age[c]) ∧
  (∀ (s : State) (l : Nat), s.held = false → s.rr.testDue = some l → s.rr.work = .idle →
    ∃ (t : State) (events : Vector (Option ChannelEvent) 16) (lost : Chan → Bool),
      exec (.reportLoss .decide) s = .next t ∧ s.changesOnly t [.rr] ∧
      (∀ c, lost c = true ↔ (s.cm.table[c]).enable = true ∧ (s.cm.chan[c] = .running ∨ s.cm.chan[c] = .parked) ∧
        l < s.rr.age[c] ∧ s.rr.mark[c] = false) ∧
      (∀ c : Chan, t.rr.mark[c] = (lost c || s.rr.mark[c]) ∧ events[c] = if lost c then some .fault else none) ∧
      (∃ l : List Raising, l = ((List.finRange 16).filter lost).map (fun c =>
          { code := .reportLoss, cls := .hold, subject := .channel c }) ∧
        t.rr = { s.rr with testDue := none, mark := t.rr.mark, work := .decided events l none })) ∧
  (∀ (s : State) (c : Instr) (events : Vector (Option ChannelEvent) 16) (faults : List Raising)
      (forward : Option Frame), s.held = false → s.rr.work = .decided events faults forward →
    c = (if forward.isSome then .reportTaken .hand else .reportLoss .hand) →
    ∃ t, exec c s = .next t ∧ s.changesOnly t [.cm, .rr] ∧ t.rr = { s.rr with work := .handed faults forward } ∧
      t.cm = { s.cm with chan := t.cm.chan, startTimers := t.cm.startTimers, parkTimers := t.cm.parkTimers } ∧
      ∀ d : Chan, t.cm.chan[d] = afterEvent s.cm.chan[d] events[d] ∧
        (t.cm.chan[d] = s.cm.chan[d] → t.cm.startTimers[d] = s.cm.startTimers[d] ∧
          t.cm.parkTimers[d] = s.cm.parkTimers[d]) ∧
        (t.cm.chan[d] ≠ s.cm.chan[d] → t.cm.startTimers[d] = none ∧ t.cm.parkTimers[d] = none)) ∧
  (∀ (s : State) (c : Instr) (faults : List Raising) (forward : Option Frame), s.held = false →
    s.rr.work = .handed faults forward →
    c = (if forward.isSome then .reportTaken .finish else .reportLoss .finish) →
    ∃ t, exec c s = .next t ∧ s.changesOnly t [.cm, .rr, .fmu, .cu, .di, .pu] ∧
      t.rr = { s.rr with work := .idle } ∧
      t.fmu.SameList (faults.foldl (fun (m : FaultModeUnit) x => m.record x s.timeBase s.gm.seqState) s.fmu) ∧
      (t.fmu.mode ≠ s.fmu.mode ↔ s.fmu.mode = .run ∧ ∃ x ∈ faults, x.cls = .trip) ∧
      (t.fmu.mode ≠ s.fmu.mode → t.fmu.mode = .halt ∧ t.cu = s.cu.trigger .halt ∧
        ∀ d : Chan, t.cm.chan[d] = (if (s.cm.chan[d]).isActive then .standby else s.cm.chan[d])) ∧
      (t.fmu.mode = s.fmu.mode → t.cm = s.cm ∧ t.cu = s.cu ∧ t.di = s.di) ∧
      t.pu = { s.pu with u := t.pu.u } ∧ (forward = none → t.pu = s.pu) ∧
      ∀ f, forward = some f → s.pu.u.TakesForward s.clock f t.pu.u)

/-! ## Fault and Mode Unit -/

/-- What a raising does to the fault list: a repeat counts on its entry and can only raise its class; a new fault is
appended while there is room, displaces the newest NOTE when it is graver, and is dropped and counted otherwise, with
the dropped-trip flag for a TRIP; a TRIP-class raising in RUN forces HALT whatever becomes of it (R136 to R141). -/
def Obligations.FaultRaising : Prop :=
  ∀ (s : State) (r : Raising) (t : State) (new : FaultEntry), t = s.raise r →
    new = { code := r.code, cls := r.cls, subject := r.subject, time := s.timeBase, gridSeq := s.gm.seqState
            count := 1 } →
    (∀ (l1 l2 : List FaultEntry) (e : FaultEntry), s.fmu.faults = l1 ++ e :: l2 →
      (∀ x ∈ l1 ++ l2, ¬(x.code = r.code ∧ x.subject = r.subject)) → e.code = r.code → e.subject = r.subject →
      ∃ e' : FaultEntry, t.fmu.faults = l1 ++ e' :: l2 ∧ e' = { e with count := min 255 (e.count + 1), cls := e'.cls } ∧
        (e'.cls = .trip ↔ e.cls = .trip ∨ r.cls = .trip) ∧ (e'.cls = .note ↔ e.cls = .note ∧ r.cls = .note) ∧
        t.fmu.summary.fault = s.fmu.summary.fault ∧ t.fmu.dropped = s.fmu.dropped ∧
        t.fmu.droppedTrip = s.fmu.droppedTrip) ∧
    ((∀ x ∈ s.fmu.faults, ¬(x.code = r.code ∧ x.subject = r.subject)) →
      (s.fmu.faults.length < 32 → t.fmu.faults = s.fmu.faults ++ [new] ∧ t.fmu.summary.fault = true ∧
        t.fmu.dropped = s.fmu.dropped ∧ t.fmu.droppedTrip = s.fmu.droppedTrip) ∧
      (32 ≤ s.fmu.faults.length → r.cls ≠ .note →
        (∀ (l1 l2 : List FaultEntry) (e : FaultEntry), s.fmu.faults = l1 ++ e :: l2 → e.cls = .note →
          (∀ x ∈ l2, x.cls ≠ .note) →
          t.fmu.faults = l1 ++ l2 ++ [new] ∧ t.fmu.summary.fault = true ∧ t.fmu.dropped = s.fmu.dropped + 1 ∧
          t.fmu.droppedTrip = s.fmu.droppedTrip) ∧
        ((∀ x ∈ s.fmu.faults, x.cls ≠ .note) →
          t.fmu.faults = s.fmu.faults ∧ t.fmu.summary.fault = s.fmu.summary.fault ∧
          t.fmu.dropped = s.fmu.dropped + 1 ∧
          t.fmu.droppedTrip = (s.fmu.droppedTrip || decide (r.cls = .trip)))) ∧
      (32 ≤ s.fmu.faults.length → r.cls = .note → t.fmu = { s.fmu with dropped := s.fmu.dropped + 1 })) ∧
    (r.cls = .trip ∧ s.fmu.mode = .run → t.fmu.mode = .halt ∧ t.fmu.summary.halt = true ∧ t.di.silence = none ∧
      t.cu = s.cu.trigger .halt) ∧
    (¬(r.cls = .trip ∧ s.fmu.mode = .run) → t.fmu.mode = s.fmu.mode ∧ s.changesOnly t [.fmu])

/-- The RUN request (R131, R132): in LOAD the first of the four checks that fails is named in the refusal, and when all
hold the part enters RUN with the dispatch-silence timer loaded and, with grid-lost set, the controller in GRID_LOST
(R24, R69, R81). -/
def Obligations.ModeRun : Prop :=
  ∀ (s : State) (q : Request), s.serves q .mode .none → byteAt q.data 0 = 0x01 →
    ∃ t, exec .modeRun s = .next t ∧
      ∀ trip : Prop, (trip ↔ (∃ e ∈ s.fmu.faults, e.cls = .trip) ∨ s.fmu.droppedTrip = true) →
        (s.fmu.mode ≠ .load → s.repliesTo q (q.answered .badMode) t) ∧
        (s.fmu.mode = .load → trip →
          s.repliesTo q { q.answered .badValue with object := 0x09, index := 0xFFFF } t) ∧
        (s.fmu.mode = .load → ¬trip → s.rtc.nRows = 0 →
          s.repliesTo q { q.answered .badValue with object := 0x02, index := 0xFFFF } t) ∧
        (∀ i : Row, s.fmu.mode = .load → ¬trip → i.val < s.rtc.nRows → RowsDescend s.rtc.rows s.rtc.vRecover i.val →
          ¬RowsDescend s.rtc.rows s.rtc.vRecover (i.val + 1) →
          s.repliesTo q { q.answered .badValue with object := 0x02, index := i.val } t) ∧
        (s.fmu.mode = .load → ¬trip → EnvelopeOk s.rtc.rows s.rtc.nRows s.rtc.vRecover →
          ((∀ c : Chan, (s.cm.table[c]).enable = false) →
            s.repliesTo q { q.answered .badValue with object := 0x04, index := 0xFFFF } t) ∧
          (∀ c : Chan, (s.cm.table[c]).enable = true → s.cm.groups[(s.cm.table[c]).group] < (s.cm.table[c]).iMin →
            (∀ d : Chan, d < c → (s.cm.table[d]).enable = true →
              (s.cm.table[d]).iMin ≤ s.cm.groups[(s.cm.table[d]).group]) →
            s.repliesTo q { q.answered .badValue with object := 0x04, index := c.val } t) ∧
          ((∃ c : Chan, (s.cm.table[c]).enable = true) →
            (∀ c : Chan, (s.cm.table[c]).enable = true →
              (s.cm.table[c]).iMin ≤ s.cm.groups[(s.cm.table[c]).group]) →
            ∃ w : State, w.repliesTo q (q.answered .done) t ∧ s.changesOnly w [.fmu, .di, .rtc] ∧
              w.fmu = { s.fmu with mode := .run } ∧ w.di = { s.di with silence := some (s.ms + s.di.tDs) } ∧
              (s.gm.gridLost = false → w.rtc = s.rtc) ∧
              (s.gm.gridLost = true → s.rtc.state = .normal →
                w.rtc = { s.rtc with state := .gridLost, prior := some .normal, pLoss := 1000, recovery := none })))

/-- HALT, RESUME and LOAD (R131, R133 to R135): each acts in one mode and is refused in the others; RESUME only with
no TRIP standing, grid data present and the controller NORMAL, or TRIPPED with v_last at V_recover, and it releases
TRIP REQUEST. LOAD first takes the raisings that wait, and first ends the Report Receiver's work where that has a TRIP
to raise, so a trip before it leaves its entry, or the dropped-trip flag, which bars the next RUN (R46, R145; that a
raising or such work can wait is log entry 10). A mode code absent from the table is
answered BAD_VALUE and changes nothing (R199); that each of the four commands then gives that answer is the model's
(log entry 15), and so is index 0 in every RESUME that its owner refuses (log entry 8). -/
def Obligations.ModeHaltResumeLoad : Prop :=
  (∀ (s : State) (q : Request), s.serves q .mode .none → byteAt q.data 0 = 0x02 →
    ∃ t, exec .modeHalt s = .next t ∧
      (s.fmu.mode ≠ .run → s.repliesTo q (q.answered .badMode) t) ∧
      (s.fmu.mode = .run → ∃ w : State, w.repliesTo q (q.answered .done) t ∧ s.changesOnly w [.fmu, .cu, .cm, .di] ∧
        w.fmu = { s.fmu with mode := .halt, summary := { s.fmu.summary with halt := true } } ∧
        w.cu = s.cu.trigger .halt ∧ w.di = { s.di with silence := none } ∧ w.cm.table = s.cm.table ∧
        ∀ c : Chan, w.cm.chan[c] = (if (s.cm.chan[c]).isActive then .standby else s.cm.chan[c]) ∧
          ((s.cm.chan[c]).isActive = true → w.cm.startTimers[c] = none ∧ w.cm.parkTimers[c] = none))) ∧
  (∀ (s : State) (q : Request), s.serves q .mode .none → byteAt q.data 0 = 0x03 →
    ∃ t, exec .modeResume s = .next t ∧
      ∀ ok : Prop, (ok ↔ (∀ e ∈ s.fmu.faults, e.cls ≠ .trip) ∧ s.fmu.droppedTrip = false ∧ s.gm.gridLost = false ∧
          (s.rtc.state = .normal ∨ (s.rtc.state = .tripped ∧ s.rtc.vRecover ≤ s.gm.vLast))) →
        (s.fmu.mode ≠ .halt → s.repliesTo q { q.answered .badMode with index := 0 } t) ∧
        (s.fmu.mode = .halt → ¬ok → s.repliesTo q { q.answered .busy with index := 0 } t) ∧
        (s.fmu.mode = .halt → ok → ∃ w : State, w.repliesTo q (q.answered .done) t ∧
          s.changesOnly w [.fmu, .di, .rtc] ∧ w.fmu = { s.fmu with mode := .run } ∧
          w.di = { s.di with silence := some (s.ms + s.di.tDs) } ∧ w.tripRequestPin = .low ∧
          w.rtc.state = .normal ∧ w.rtc.sags = s.rtc.sags ∧ w.rtc.sagCount = s.rtc.sagCount ∧
          (s.rtc.state = .normal → w.rtc = s.rtc) ∧
          (s.rtc.state = .tripped → w.rtc.pLow = 1000 ∧ w.rtc.recovery = none ∧ w.rtc.swellTimer = none ∧
            w.rtc.active = none ∧ ∀ i : Row, w.rtc.below[i] = false ∧ w.rtc.dwellTimers[i] = none))) ∧
  (∀ (s : State) (q : Request), s.serves q .mode .none → byteAt q.data 0 = 0x04 →
    ∃ t, exec .modeLoad s = .next t ∧
      (s.fmu.mode ≠ .halt → s.repliesTo q (q.answered .badMode) t) ∧
      (s.fmu.mode = .halt → (∃ r ∈ s.rr.work.faults, r.cls = .trip) → ∀ (c : Instr) (v : State),
        c = (if s.rr.work.isReport then .reportTaken .finish else .reportLoss .finish) → exec c s = .next v →
        exec .modeLoad v = .next t ∧ v.fmu.mode = .halt ∧ v.me = s.me ∧ v.rr.work = .idle ∧
        ((∃ e ∈ t.fmu.faults, e.cls = .trip) ∨ t.fmu.droppedTrip = true)) ∧
      (s.fmu.mode = .halt → (∀ r ∈ s.rr.work.faults, r.cls ≠ .trip) →
       ∃ w : State, w.repliesTo q (q.answered .done) t ∧ s.changesOnly w [.fmu, .di, .cm, .rtc] ∧
        w.fmu = { s.fmu.handed.foldl (fun l r => l.record r s.timeBase s.gm.seqState) s.fmu with
          mode := .load, handed := [] } ∧
        ((∃ r ∈ s.fmu.handed, r.cls = .trip) → (∃ e ∈ w.fmu.faults, e.cls = .trip) ∨ w.fmu.droppedTrip = true) ∧
        (s.fmu.handed = [] → w.fmu = { s.fmu with mode := .load }) ∧
        w.di = { s.di with silence := none } ∧ w.tripRequestPin = .low ∧
        w.cm.table = s.cm.table ∧ (∀ c : Chan, w.cm.chan[c] = if (s.cm.table[c]).enable then .standby else .off) ∧
        w.rtc.state = .normal ∧ w.rtc.sags = [] ∧ w.rtc.sagCount = s.rtc.sagCount ∧ w.rtc.pLow = 1000 ∧
        w.rtc.recovery = none ∧ w.rtc.swellTimer = none ∧ w.rtc.swellAbove = false ∧ w.rtc.active = none ∧
        w.rtc.rows = s.rtc.rows ∧ ∀ i : Row, w.rtc.below[i] = false ∧ w.rtc.dwellTimers[i] = none)) ∧
  (∀ (s : State) (q : Request) (c : Instr), s.serves q .mode .none → modeRequest? (byteAt q.data 0) = none →
    c = .modeRun ∨ c = .modeHalt ∨ c = .modeResume ∨ c = .modeLoad →
    ∃ t, exec c s = .next t ∧ s.repliesTo q (q.answered .badValue) t)

/-- Acknowledgement: ACK HEAD removes the oldest entry and releases the channel it held FAULTED when no entry left
holds it; ACK ALL empties the list, clears the dropped-trip flag and releases every channel (R68, R142, R143). -/
def Obligations.Acknowledgement : Prop :=
  (∀ (s : State) (q : Request), s.serves q .ackHead .none →
    ∃ t, exec .ackHead s = .next t ∧ (s.fmu.faults = [] → s.repliesTo q (q.answered .busy) t) ∧
      ∀ (e : FaultEntry) (rest : List FaultEntry), s.fmu.faults = e :: rest →
        ∃ w : State, w.repliesTo q (q.answered .done) t ∧ s.changesOnly w [.fmu, .cm] ∧
          w.fmu = { s.fmu with faults := rest } ∧ w.cm.table = s.cm.table ∧ w.cm.groups = s.cm.groups ∧
          w.cm.profiles = s.cm.profiles ∧
          ∀ c : Chan, w.cm.chan[c] = if s.cm.chan[c] = .faulted ∧ e.cls ≠ .note ∧ e.subject = .channel c ∧
            (∀ x ∈ rest, ¬(x.cls ≠ .note ∧ x.subject = .channel c)) then .standby else s.cm.chan[c]) ∧
  (∀ (s : State) (q : Request), s.serves q .ackAll .none →
    ∃ t, exec .ackAll s = .next t ∧ ∃ w : State, w.repliesTo q (q.answered .done) t ∧ s.changesOnly w [.fmu, .cm] ∧
      w.fmu = { s.fmu with faults := [], droppedTrip := false } ∧ w.cm.table = s.cm.table ∧
      w.cm.groups = s.cm.groups ∧ w.cm.profiles = s.cm.profiles ∧
      ∀ c : Chan, w.cm.chan[c] = if s.cm.chan[c] = .faulted then .standby else s.cm.chan[c])

/-- SUMMARY READ returns and clears the six flags and releases ALERT; MASK sets or clears the selected mask bits; ALERT
is low exactly while a flag is set whose mask bit is set (R148 to R150, R177, R202). -/
def Obligations.SummaryAndMask : Prop :=
  (∀ (s : State) (q : Request), s.serves q .readAndClear .summary →
    ∃ t, exec .summaryRead s = .next t ∧ t.alertPin = .highZ ∧
      State.repliesTo { s with fmu := { s.fmu with summary := .clear } } q (q.done [s.fmu.summary.toByte]) t) ∧
  (∀ (s : State) (q : Request), s.serves q .mask .none →
    ∃ (t : State) (m : EventFlags), exec .mask s = .next t ∧
      State.repliesTo { s with fmu := { s.fmu with mask := m } } q (q.answered .done) t ∧
      ∀ (b : Byte) (set : Bool), b = byteAt q.data 0 → set = b.getLsbD 7 →
        m.sag = (if b.getLsbD 0 then set else s.fmu.mask.sag) ∧
        m.halt = (if b.getLsbD 1 then set else s.fmu.mask.halt) ∧
        m.contention = (if b.getLsbD 2 then set else s.fmu.mask.contention) ∧
        m.fault = (if b.getLsbD 3 then set else s.fmu.mask.fault) ∧
        m.capture = (if b.getLsbD 4 then set else s.fmu.mask.capture) ∧
        m.link = (if b.getLsbD 5 then set else s.fmu.mask.link)) ∧
  (∀ s : State, s.held = false → (s.alertPin = .low ↔ ∃ n : Fin 6,
    s.fmu.summary.toByte.getLsbD n = true ∧ s.fmu.mask.toByte.getLsbD n = true))

/-! ## Capture Unit -/

/-- ARM, in every capture state and part mode: the buffer is empty, source, position and pending are cleared, the
capture is ARMED and nothing else of the Capture Unit changes (R156).
TRIGGER, in every part mode: in ARMED it triggers with source REQUEST and is answered DONE; elsewhere it is refused
with BUSY and counted (R158 to R160). -/
def Obligations.ArmAndTrigger : Prop :=
  (∀ (s : State) (q : Request), s.serves q .arm .none →
     ∃ t, exec .arm s = .next t ∧
       State.repliesTo { s with cu := { s.cu with
         buffer := [], source := .none, trigPos := none, trigPending := false, state := .armed } } q
         (q.answered .done) t) ∧
  (∀ (s : State) (q : Request), s.serves q .trigger .none →
     ∃ t, exec .trigger s = .next t ∧
       (s.cu.state = .armed →
         State.repliesTo { s with cu := { s.cu with state := .triggered, source := .request, trigPending := true } } q
           (q.answered .done) t) ∧
       (s.cu.state ≠ .armed →
         State.repliesTo { s with cu := { s.cu with ignored := s.cu.ignored + 1 } } q (q.answered .busy) t))

/-! ## Management Engine -/

/-- A handed request enters the queue of four, or is dropped with MANAGEMENT OVERRUN and no reply; a request that
fails one of the four checks is answered with that check's result and reaches no owner (R190, R191, R193). That a
refused READ carries count 0 is the model's reading (log entry 8). -/
def Obligations.RequestQueue : Prop :=
  (∀ (s : State) (q : Request) (rest : List Request), s.held = false → s.me.handed = q :: rest →
    ∃ t, exec .mgmtRequestQueued s = .next t ∧
      (s.me.queue.length < 4 → t = { s with me := { s.me with handed := rest, queue := s.me.queue ++ [q] } }) ∧
      (4 ≤ s.me.queue.length → t = { s with
        me := { s.me with handed := rest }
        fmu := s.fmu.record { code := .managementOverrun, cls := .note, subject := .none } s.timeBase
          s.gm.seqState } ∧ t.fmu.mode = s.fmu.mode)) ∧
  (∀ (s : State) (q : Request) (r : Result), s.held = false → s.me.restart = .none → s.me.queue.head? = some q →
    ((∀ op : Operation, op.code ≠ q.op) ∧ r = .badObject) ∨
    (∃ op : Operation, op.code = q.op ∧
      (((∀ o : Object, o.code = q.object → allowsObject op o = false) ∧ r = .badObject) ∨
       ∃ o : Object, o.code = q.object ∧ allowsObject op o = true ∧
        ((itemsExist op o q.index q.count = false ∧ r = .badIndex) ∨
         (itemsExist op o q.index q.count = true ∧ q.data.length ≠ dataLength op o q.count ∧ r = .badLength)))) →
    ∃ t, exec .mgmtRequestRefused s = .next t ∧
      s.repliesTo q { result := r, object := q.object, index := q.index
                      count := (if q.op = 0x01 then 0 else q.count), data := [] } t)

/-- Every READ of a table, of the settings and of the channel states is answered DONE with the records asked for, in
ascending index, and changes nothing (R194, R196).
FAULT READ and CAPTURE READ return the records from the start position on, at most the count, 0 meaning 32, and
refuse a start beyond the end; a capture that is not COMPLETE answers BUSY, and every CAPTURE READ carries the summary;
neither read changes anything (R144, R161, R192). That a refused FAULT
READ or CAPTURE READ carries count 0 is the model's reading (log entry 8). -/
def Obligations.Reads : Prop :=
  (∀ (s : State) (q : Request),
     (s.serves q .read .global → ∃ t, exec .globalRead s = .next t ∧
       s.repliesTo q (q.done ((List.range' q.index q.count).flatMap fun i => be 4 (s.globalValue i))) t) ∧
     (s.serves q .read .envelope → ∃ t, exec .envelopeRead s = .next t ∧
       s.repliesTo q (q.done (tableBytes (fun i : Row => (s.rtc.rows[i]).bytes) q.index q.count)) t) ∧
     (s.serves q .read .swell → ∃ t, exec .swellRead s = .next t ∧
       s.repliesTo q (q.done (be 2 s.rtc.vSwell ++ be 2 s.rtc.tSwell)) t) ∧
     (s.serves q .read .channel → ∃ t, exec .channelRead s = .next t ∧
       s.repliesTo q (q.done (tableBytes (fun c : Chan => (s.cm.table[c]).bytes) q.index q.count)) t) ∧
     (s.serves q .read .group → ∃ t, exec .groupRead s = .next t ∧
       s.repliesTo q (q.done (tableBytes (fun g : Fin 4 => be 4 s.cm.groups[g]) q.index q.count)) t) ∧
     (s.serves q .read .profile → ∃ t, exec .profileRead s = .next t ∧
       s.repliesTo q (q.done (tableBytes (fun i : Fin 8 => (s.cm.profiles[i]).bytes) q.index q.count)) t) ∧
     (s.serves q .read .channelState → ∃ t, exec .channelStateRead s = .next t ∧
       s.repliesTo q (q.done (tableBytes (fun c : Chan =>
         channelStateBytes s.cm.chan[c] s.rr.age[c] s.rr.record[c]) q.index q.count)) t) ∧
     (s.serves q .read .sagList → ∃ t, exec .saglistRead s = .next t ∧
       s.repliesTo q (q.done (be 4 s.rtc.sagCount.toNat ++ [BitVec.ofNat 8 s.rtc.sags.length] ++
         s.rtc.sags.flatMap fun x => be 4 x.toNat)) t)) ∧
  ((∀ (s : State) (q : Request), s.serves q .read .fault →
     ∃ t, exec .faultRead s = .next t ∧
       (s.fmu.faults.length < q.index → s.repliesTo q { q.answered .badIndex with count := 0 } t) ∧
       ∀ l, l = (s.fmu.faults.drop q.index).take (if q.count = 0 then 32 else q.count) →
         (q.index ≤ s.fmu.faults.length →
           s.repliesTo q { q.done (l.flatMap FaultEntry.bytes) with count := l.length } t)) ∧
   (∀ (s : State) (q : Request), s.serves q .read .capture →
     ∃ t, exec .captureRead s = .next t ∧
       (s.cu.state ≠ .complete → s.repliesTo q { q.done s.cu.summaryBytes with result := .busy, count := 0 } t) ∧
       (s.cu.state = .complete → s.cu.buffer.length < q.index →
         s.repliesTo q { q.done s.cu.summaryBytes with result := .badIndex, count := 0 } t) ∧
       ∀ l, l = (s.cu.buffer.drop q.index).take (if q.count = 0 then 32 else q.count) →
         (s.cu.state = .complete → q.index ≤ s.cu.buffer.length →
           s.repliesTo q { q.done (s.cu.summaryBytes ++ l.flatMap CaptureRecord.bytes) with count := l.length } t)))

/-- The COUNTER object: a READ returns the counts of a run, a WRITE replaces one count by its own value, a COUNTER
WRITE replaces every count of the run by one value, and a value too wide for a counter is refused and changes none
(R188, R195, R198). -/
def Obligations.CounterRequests : Prop :=
  (∀ (s : State) (q : Request), s.serves q .read .counter → ∃ t, exec .counterRead s = .next t ∧
    s.repliesTo q (q.done (((List.range' q.index q.count).filterMap counterAt).flatMap
      fun n => be 8 (s.counter n))) t) ∧
  (∀ (s : State) (q : Request), s.serves q .counterWrite .counter → ∃ t, exec .counterWrite s = .next t ∧
    ∀ names, names = (List.range' q.index q.count).filterMap counterAt →
      ((∃ n ∈ names, 2 ^ n.width ≤ ofBe q.data) → s.repliesTo q (q.answered .badValue) t) ∧
      ((∀ n ∈ names, ofBe q.data < 2 ^ n.width) → ∃ w : State, w.repliesTo q (q.answered .done) t ∧
        s.countersOnly w ∧
        (∀ n ∈ names, w.counter n = ofBe q.data) ∧ ∀ n, n ∉ names → w.counter n = s.counter n)) ∧
  (∀ (s : State) (q : Request), s.serves q .write .counter → s.me.accepted < q.count →
    ∃ (n : CounterName) (t : State), counterAt (q.index + s.me.accepted) = some n ∧
      exec .counterObjectWrite s = .next t ∧
      (2 ^ n.width ≤ ofBe (s.entryData q 8) → s.entryRefused q .badValue t) ∧
      (ofBe (s.entryData q 8) < 2 ^ n.width → ∃ w : State, w.entryTaken q t ∧
        s.countersOnly w ∧
        w.counter n = ofBe (s.entryData q 8) ∧ ∀ m, m ≠ n → w.counter m = s.counter m))

/-- Each global setting but V_recover and P_pre: a class A write in RUN is refused with BAD_MODE whatever its value, a
value out of range with BAD_VALUE, and an accepted write gives the setting its value, which reads back, and nothing
else but what its rule names (R3, R4, R21 to R23, R30, R57, R76, R91, R116, R197). -/
def Obligations.GlobalSettings : Prop :=
  ∀ (s : State) (q : Request) (i v : Nat), s.serves q .write .global → s.me.accepted < q.count →
    i = q.index + s.me.accepted → v = ofBe (s.entryData q 4) → i ≠ 0x0B → i ≠ 0x14 →
    ∃ t, exec (settingCommand i) s = .next t ∧
      (i ≤ 0x06 → s.fmu.mode = .run → s.entryRefused q .badMode t) ∧
      (¬(i ≤ 0x06 ∧ s.fmu.mode = .run) → ¬settingRange i v → s.entryRefused q .badValue t) ∧
      (¬(i ≤ 0x06 ∧ s.fmu.mode = .run) → settingRange i v →
        (s.withSetting i v).entryTaken q t ∧ (s.withSetting i v).globalValue i = v ∧
        ∀ j, j ≠ i → (s.withSetting i v).globalValue j = s.globalValue j)

/-- V_recover, the envelope rows, the SWELL settings and P_pre: in RUN the envelope changes only with the controller
NORMAL and only into a valid one, a swell dwell of 0 and a row dwell of 0 stop their timers at once, and P_pre waits
for an idle or a complete capture (R20 to R23, R155, R195). -/
def Obligations.EnvelopeAndCaptureWrites : Prop :=
  (∀ (s : State) (q : Request), s.serves q .write .envelope → s.me.accepted < q.count →
    ∃ (i : Row) (t : State), i.val = q.index + s.me.accepted ∧ exec .envelopeWrite s = .next t ∧
      (s.fmu.mode = .run ∧ s.rtc.state ≠ .normal → s.entryRefused q .busy t) ∧
      (¬(s.fmu.mode = .run ∧ s.rtc.state ≠ .normal) →
        (envelopeRow? (s.entryData q 8) = none → s.entryRefused q .badValue t) ∧
        ∀ row, envelopeRow? (s.entryData q 8) = some row →
          (s.fmu.mode = .run → ¬EnvelopeOk (s.rtc.rows.set i row) s.rtc.nRows s.rtc.vRecover →
            s.entryRefused q .badValue t) ∧
          (s.fmu.mode ≠ .run ∨ EnvelopeOk (s.rtc.rows.set i row) s.rtc.nRows s.rtc.vRecover →
            State.entryTaken { s with rtc := { s.rtc with
              rows := s.rtc.rows.set i row
              dwellTimers := if row.dwell = 0 then s.rtc.dwellTimers.set i none else s.rtc.dwellTimers } } q t))) ∧
  (∀ (s : State) (q : Request) (v : Nat), s.serves q .write .global → s.me.accepted < q.count →
    q.index + s.me.accepted = 0x0B → v = ofBe (s.entryData q 4) →
    ∃ t, exec .vRecoverWrite s = .next t ∧
      (s.fmu.mode = .run ∧ s.rtc.state ≠ .normal → s.entryRefused q .busy t) ∧
      (¬(s.fmu.mode = .run ∧ s.rtc.state ≠ .normal) →
        (¬settingRange 0x0B v → s.entryRefused q .badValue t) ∧
        (s.fmu.mode = .run → ¬EnvelopeOk s.rtc.rows s.rtc.nRows v → s.entryRefused q .badValue t) ∧
        (settingRange 0x0B v →
          s.fmu.mode ≠ .run ∨ EnvelopeOk s.rtc.rows s.rtc.nRows v →
          (s.withSetting 0x0B v).entryTaken q t))) ∧
  (∀ (s : State) (q : Request) (v d : Nat), s.serves q .write .swell → s.me.accepted < q.count →
    v = field (s.entryData q 4) 0 2 → d = field (s.entryData q 4) 2 2 →
    ∃ t, exec .swellWrite s = .next t ∧
      (¬(1000 ≤ v ∧ v ≤ 2000 ∧ d ≤ 60000) → s.entryRefused q .badValue t) ∧
      (1000 ≤ v → v ≤ 2000 → d = 0 → State.entryTaken { s with rtc := { s.rtc with
        vSwell := v, tSwell := 0, swellTimer := none, swellAbove := false } } q t) ∧
      (1000 ≤ v → v ≤ 2000 → 0 < d → d ≤ 60000 →
        State.entryTaken { s with rtc := { s.rtc with vSwell := v, tSwell := d } } q t)) ∧
  (∀ (s : State) (q : Request) (v : Nat), s.serves q .write .global → s.me.accepted < q.count →
    q.index + s.me.accepted = 0x14 → v = ofBe (s.entryData q 4) →
    ∃ t, exec .pPreWrite s = .next t ∧
      (1023 < v → s.entryRefused q .badValue t) ∧
      (v ≤ 1023 → s.cu.state = .armed ∨ s.cu.state = .triggered → s.entryRefused q .busy t) ∧
      (v ≤ 1023 → s.cu.state = .idle ∨ s.cu.state = .complete → (s.withSetting 0x14 v).entryTaken q t))

/-! ## Laws that every command keeps -/

/-- The laws hold of the part right after reset. -/
def Obligations.LawsAtReset : Prop :=
  TableLaw State.reset.cm.table ∧ EntryLaw State.reset.cm.table ∧ ModeLaw State.reset.fmu ∧
  FaultListLaw State.reset.fmu ∧ RaisingLaw State.reset ∧ ChannelLaw State.reset.cm State.reset.fmu.mode ∧
  RideThroughLaw State.reset.rtc State.reset.fmu.mode ∧ AllowanceLaw State.reset.rtc State.reset.gm ∧
  SagListLaw State.reset.rtc State.reset.timeBase ∧ CaptureLaw State.reset.cu ∧ QueueLaw State.reset

/-- HEADLINE. The part mode is RUN only while the fault list holds no TRIP-class entry and the dropped-trip flag is
clear, and the list keeps its form: every step keeps both laws (R136, R138). The raisings that wait are those of a
tripped controller; in LOAD none waits, the Report Receiver has no TRIP-class fault to raise, and no step raises one
(R40, R46, R145). That a raising or a report can wait is the model's (log entries 3 and 10). -/
def Obligations.FaultLawsKept : Prop :=
  ∀ s t : State, step s = .next t →
    (ModeLaw s.fmu → ModeLaw t.fmu) ∧ (FaultListLaw s.fmu → FaultListLaw t.fmu) ∧
    (RideThroughLaw s.rtc s.fmu.mode → ChannelLaw s.cm s.fmu.mode → RaisingLaw s →
      RaisingLaw t ∧
      (s.fmu.mode = .load →
        (∀ e ∈ t.fmu.faults, e.cls = .trip →
          ∃ x ∈ s.fmu.faults, x.code = e.code ∧ x.subject = e.subject ∧ x.cls = .trip) ∧
        (t.fmu.droppedTrip = true → s.fmu.droppedTrip = true)))

/-- HEADLINE. No two enabled channels share a station, every enabled follower's leader is enabled and SELF, and every
field lies in its range: every step keeps the laws of the channel table (R50, R52). -/
def Obligations.TableLawsKept : Prop :=
  ∀ s t : State, step s = .next t →
    (TableLaw s.cm.table → TableLaw t.cm.table) ∧ (EntryLaw s.cm.table → EntryLaw t.cm.table)

/-- A channel is OFF exactly while disabled and active only in RUN, and its timers run only in their states: every step
keeps it (R54, R60, R65, R69). -/
def Obligations.ChannelLawKept : Prop :=
  ∀ s t : State, step s = .next t → ChannelLaw s.cm s.fmu.mode → ChannelLaw t.cm t.fmu.mode

/-- The Ride-Through Controller's timers run only where the manual lets them, its standings and its prior state agree
with its state, and every step keeps it (R24 to R27, R34, R36, R38, R40). With a table that is not valid, that NORMAL
has no row below and that no dwell timer runs in RECOVER is log entry 14. -/
def Obligations.RideThroughLawKept : Prop :=
  ∀ s t : State, step s = .next t → RideThroughLaw s.rtc s.fmu.mode → RideThroughLaw t.rtc t.fmu.mode

/-- The caps and factors an allowance is formed from stay in range, and the recent-sag list keeps its order, its length
and its window, through every step (R3, R10, R19, R21, R30, R42). -/
def Obligations.AllowanceAndSagLawsKept : Prop :=
  ∀ s t : State, step s = .next t →
    (AllowanceLaw s.rtc s.gm → AllowanceLaw t.rtc t.gm) ∧
    (SagListLaw s.rtc s.timeBase → SagListLaw t.rtc t.timeBase)

/-- The capture buffer agrees with the capture state, and the queues keep their bounds, through every step (R124, R155,
R157, R179, R184 to R186, R190). -/
def Obligations.CaptureAndQueueLawsKept : Prop :=
  ∀ s t : State, step s = .next t → (CaptureLaw s.cu → CaptureLaw t.cu) ∧ (QueueLaw s → QueueLaw t)
end

