-- ==== Sys2Proof/Laws/State.lean ====
section
/-! SUPPORT. What each named update of the state leaves as it is: one lemma for each part it does not touch. Updates
written as records reduce by themselves. -/

namespace Sys2Proof.Machine

/-! ### `State.advanceTo` -/

@[simp] theorem State.advanceTo_held (s : State) (t : Nat) : (s.advanceTo t).held = s.held := rfl
@[simp] theorem State.advanceTo_gm (s : State) (t : Nat) : (s.advanceTo t).gm = s.gm := rfl
@[simp] theorem State.advanceTo_di (s : State) (t : Nat) : (s.advanceTo t).di = s.di := rfl
@[simp] theorem State.advanceTo_cm (s : State) (t : Nat) : (s.advanceTo t).cm = s.cm := rfl
@[simp] theorem State.advanceTo_se (s : State) (t : Nat) : (s.advanceTo t).se = s.se := rfl
@[simp] theorem State.advanceTo_rr (s : State) (t : Nat) : (s.advanceTo t).rr = s.rr := rfl
@[simp] theorem State.advanceTo_fmu (s : State) (t : Nat) : (s.advanceTo t).fmu = s.fmu := rfl
@[simp] theorem State.advanceTo_cu (s : State) (t : Nat) : (s.advanceTo t).cu = s.cu := rfl
@[simp] theorem State.advanceTo_me (s : State) (t : Nat) : (s.advanceTo t).me = s.me := rfl
@[simp] theorem State.advanceTo_pu (s : State) (t : Nat) : (s.advanceTo t).pu = s.pu := rfl
@[simp] theorem State.advanceTo_pending (s : State) (t : Nat) : (s.advanceTo t).pending = s.pending := rfl

/-! ### `State.advanceMs` -/

@[simp] theorem State.advanceMs_held (s : State) (m : Nat) : (s.advanceMs m).held = s.held := rfl
@[simp] theorem State.advanceMs_gm (s : State) (m : Nat) : (s.advanceMs m).gm = s.gm := rfl
@[simp] theorem State.advanceMs_di (s : State) (m : Nat) : (s.advanceMs m).di = s.di := rfl
@[simp] theorem State.advanceMs_cm (s : State) (m : Nat) : (s.advanceMs m).cm = s.cm := rfl
@[simp] theorem State.advanceMs_se (s : State) (m : Nat) : (s.advanceMs m).se = s.se := rfl
@[simp] theorem State.advanceMs_rr (s : State) (m : Nat) : (s.advanceMs m).rr = s.rr := rfl
@[simp] theorem State.advanceMs_fmu (s : State) (m : Nat) : (s.advanceMs m).fmu = s.fmu := rfl
@[simp] theorem State.advanceMs_cu (s : State) (m : Nat) : (s.advanceMs m).cu = s.cu := rfl
@[simp] theorem State.advanceMs_me (s : State) (m : Nat) : (s.advanceMs m).me = s.me := rfl
@[simp] theorem State.advanceMs_pu (s : State) (m : Nat) : (s.advanceMs m).pu = s.pu := rfl
@[simp] theorem State.advanceMs_pending (s : State) (m : Nat) : (s.advanceMs m).pending = s.pending := rfl

/-! ### `State.onU` -/

@[simp] theorem State.onU_held (s : State) (f : PortU → PortU) : (s.onU f).held = s.held := rfl
@[simp] theorem State.onU_clock (s : State) (f : PortU → PortU) : (s.onU f).clock = s.clock := rfl
@[simp] theorem State.onU_gm (s : State) (f : PortU → PortU) : (s.onU f).gm = s.gm := rfl
@[simp] theorem State.onU_rtc (s : State) (f : PortU → PortU) : (s.onU f).rtc = s.rtc := rfl
@[simp] theorem State.onU_di (s : State) (f : PortU → PortU) : (s.onU f).di = s.di := rfl
@[simp] theorem State.onU_cm (s : State) (f : PortU → PortU) : (s.onU f).cm = s.cm := rfl
@[simp] theorem State.onU_se (s : State) (f : PortU → PortU) : (s.onU f).se = s.se := rfl
@[simp] theorem State.onU_rr (s : State) (f : PortU → PortU) : (s.onU f).rr = s.rr := rfl
@[simp] theorem State.onU_fmu (s : State) (f : PortU → PortU) : (s.onU f).fmu = s.fmu := rfl
@[simp] theorem State.onU_cu (s : State) (f : PortU → PortU) : (s.onU f).cu = s.cu := rfl
@[simp] theorem State.onU_me (s : State) (f : PortU → PortU) : (s.onU f).me = s.me := rfl
@[simp] theorem State.onU_pending (s : State) (f : PortU → PortU) : (s.onU f).pending = s.pending := rfl

/-! ### `State.onD` -/

@[simp] theorem State.onD_held (s : State) (f : PortD → PortD) : (s.onD f).held = s.held := rfl
@[simp] theorem State.onD_clock (s : State) (f : PortD → PortD) : (s.onD f).clock = s.clock := rfl
@[simp] theorem State.onD_gm (s : State) (f : PortD → PortD) : (s.onD f).gm = s.gm := rfl
@[simp] theorem State.onD_rtc (s : State) (f : PortD → PortD) : (s.onD f).rtc = s.rtc := rfl
@[simp] theorem State.onD_di (s : State) (f : PortD → PortD) : (s.onD f).di = s.di := rfl
@[simp] theorem State.onD_cm (s : State) (f : PortD → PortD) : (s.onD f).cm = s.cm := rfl
@[simp] theorem State.onD_se (s : State) (f : PortD → PortD) : (s.onD f).se = s.se := rfl
@[simp] theorem State.onD_rr (s : State) (f : PortD → PortD) : (s.onD f).rr = s.rr := rfl
@[simp] theorem State.onD_fmu (s : State) (f : PortD → PortD) : (s.onD f).fmu = s.fmu := rfl
@[simp] theorem State.onD_cu (s : State) (f : PortD → PortD) : (s.onD f).cu = s.cu := rfl
@[simp] theorem State.onD_me (s : State) (f : PortD → PortD) : (s.onD f).me = s.me := rfl
@[simp] theorem State.onD_pending (s : State) (f : PortD → PortD) : (s.onD f).pending = s.pending := rfl

/-! ### `State.onG` -/

@[simp] theorem State.onG_held (s : State) (f : PortG → PortG) : (s.onG f).held = s.held := rfl
@[simp] theorem State.onG_clock (s : State) (f : PortG → PortG) : (s.onG f).clock = s.clock := rfl
@[simp] theorem State.onG_gm (s : State) (f : PortG → PortG) : (s.onG f).gm = s.gm := rfl
@[simp] theorem State.onG_rtc (s : State) (f : PortG → PortG) : (s.onG f).rtc = s.rtc := rfl
@[simp] theorem State.onG_di (s : State) (f : PortG → PortG) : (s.onG f).di = s.di := rfl
@[simp] theorem State.onG_cm (s : State) (f : PortG → PortG) : (s.onG f).cm = s.cm := rfl
@[simp] theorem State.onG_se (s : State) (f : PortG → PortG) : (s.onG f).se = s.se := rfl
@[simp] theorem State.onG_rr (s : State) (f : PortG → PortG) : (s.onG f).rr = s.rr := rfl
@[simp] theorem State.onG_fmu (s : State) (f : PortG → PortG) : (s.onG f).fmu = s.fmu := rfl
@[simp] theorem State.onG_cu (s : State) (f : PortG → PortG) : (s.onG f).cu = s.cu := rfl
@[simp] theorem State.onG_me (s : State) (f : PortG → PortG) : (s.onG f).me = s.me := rfl
@[simp] theorem State.onG_pending (s : State) (f : PortG → PortG) : (s.onG f).pending = s.pending := rfl

/-! ### `State.enterHalt` -/

@[simp] theorem State.enterHalt_held (s : State) : (s.enterHalt).held = s.held := rfl
@[simp] theorem State.enterHalt_clock (s : State) : (s.enterHalt).clock = s.clock := rfl
@[simp] theorem State.enterHalt_gm (s : State) : (s.enterHalt).gm = s.gm := rfl
@[simp] theorem State.enterHalt_rtc (s : State) : (s.enterHalt).rtc = s.rtc := rfl
@[simp] theorem State.enterHalt_se (s : State) : (s.enterHalt).se = s.se := rfl
@[simp] theorem State.enterHalt_rr (s : State) : (s.enterHalt).rr = s.rr := rfl
@[simp] theorem State.enterHalt_me (s : State) : (s.enterHalt).me = s.me := rfl
@[simp] theorem State.enterHalt_pu (s : State) : (s.enterHalt).pu = s.pu := rfl
@[simp] theorem State.enterHalt_pending (s : State) : (s.enterHalt).pending = s.pending := rfl

/-! ### `State.takeRecord` -/

@[simp] theorem State.takeRecord_held (s : State) (r : CaptureRecord) (m : Bool) : (s.takeRecord r m).held = s.held := rfl
@[simp] theorem State.takeRecord_clock (s : State) (r : CaptureRecord) (m : Bool) : (s.takeRecord r m).clock = s.clock := rfl
@[simp] theorem State.takeRecord_gm (s : State) (r : CaptureRecord) (m : Bool) : (s.takeRecord r m).gm = s.gm := rfl
@[simp] theorem State.takeRecord_rtc (s : State) (r : CaptureRecord) (m : Bool) : (s.takeRecord r m).rtc = s.rtc := rfl
@[simp] theorem State.takeRecord_di (s : State) (r : CaptureRecord) (m : Bool) : (s.takeRecord r m).di = s.di := rfl
@[simp] theorem State.takeRecord_cm (s : State) (r : CaptureRecord) (m : Bool) : (s.takeRecord r m).cm = s.cm := rfl
@[simp] theorem State.takeRecord_se (s : State) (r : CaptureRecord) (m : Bool) : (s.takeRecord r m).se = s.se := rfl
@[simp] theorem State.takeRecord_rr (s : State) (r : CaptureRecord) (m : Bool) : (s.takeRecord r m).rr = s.rr := rfl
@[simp] theorem State.takeRecord_me (s : State) (r : CaptureRecord) (m : Bool) : (s.takeRecord r m).me = s.me := rfl
@[simp] theorem State.takeRecord_pu (s : State) (r : CaptureRecord) (m : Bool) : (s.takeRecord r m).pu = s.pu := rfl
@[simp] theorem State.takeRecord_pending (s : State) (r : CaptureRecord) (m : Bool) : (s.takeRecord r m).pending = s.pending := rfl

/-! ### `State.raise` -/

@[simp] theorem State.raise_held (s : State) (r : Raising) : (s.raise r).held = s.held := by unfold State.raise; split <;> rfl
@[simp] theorem State.raise_clock (s : State) (r : Raising) : (s.raise r).clock = s.clock := by unfold State.raise; split <;> rfl
@[simp] theorem State.raise_gm (s : State) (r : Raising) : (s.raise r).gm = s.gm := by unfold State.raise; split <;> rfl
@[simp] theorem State.raise_rtc (s : State) (r : Raising) : (s.raise r).rtc = s.rtc := by unfold State.raise; split <;> rfl
@[simp] theorem State.raise_se (s : State) (r : Raising) : (s.raise r).se = s.se := by unfold State.raise; split <;> rfl
@[simp] theorem State.raise_rr (s : State) (r : Raising) : (s.raise r).rr = s.rr := by unfold State.raise; split <;> rfl
@[simp] theorem State.raise_me (s : State) (r : Raising) : (s.raise r).me = s.me := by unfold State.raise; split <;> rfl
@[simp] theorem State.raise_pu (s : State) (r : Raising) : (s.raise r).pu = s.pu := by unfold State.raise; split <;> rfl
@[simp] theorem State.raise_pending (s : State) (r : Raising) : (s.raise r).pending = s.pending := by unfold State.raise; split <;> rfl

/-! ### `State.raiseAll` -/

@[simp] theorem State.raiseAll_held (s : State) (l : List Raising) : (s.raiseAll l).held = s.held := by
  unfold State.raiseAll
  induction l generalizing s with
  | nil => rfl
  | cons r l ih => rw [List.foldl_cons, ih]; simp
@[simp] theorem State.raiseAll_clock (s : State) (l : List Raising) : (s.raiseAll l).clock = s.clock := by
  unfold State.raiseAll
  induction l generalizing s with
  | nil => rfl
  | cons r l ih => rw [List.foldl_cons, ih]; simp
@[simp] theorem State.raiseAll_gm (s : State) (l : List Raising) : (s.raiseAll l).gm = s.gm := by
  unfold State.raiseAll
  induction l generalizing s with
  | nil => rfl
  | cons r l ih => rw [List.foldl_cons, ih]; simp
@[simp] theorem State.raiseAll_rtc (s : State) (l : List Raising) : (s.raiseAll l).rtc = s.rtc := by
  unfold State.raiseAll
  induction l generalizing s with
  | nil => rfl
  | cons r l ih => rw [List.foldl_cons, ih]; simp
@[simp] theorem State.raiseAll_se (s : State) (l : List Raising) : (s.raiseAll l).se = s.se := by
  unfold State.raiseAll
  induction l generalizing s with
  | nil => rfl
  | cons r l ih => rw [List.foldl_cons, ih]; simp
@[simp] theorem State.raiseAll_rr (s : State) (l : List Raising) : (s.raiseAll l).rr = s.rr := by
  unfold State.raiseAll
  induction l generalizing s with
  | nil => rfl
  | cons r l ih => rw [List.foldl_cons, ih]; simp
@[simp] theorem State.raiseAll_me (s : State) (l : List Raising) : (s.raiseAll l).me = s.me := by
  unfold State.raiseAll
  induction l generalizing s with
  | nil => rfl
  | cons r l ih => rw [List.foldl_cons, ih]; simp
@[simp] theorem State.raiseAll_pu (s : State) (l : List Raising) : (s.raiseAll l).pu = s.pu := by
  unfold State.raiseAll
  induction l generalizing s with
  | nil => rfl
  | cons r l ih => rw [List.foldl_cons, ih]; simp
@[simp] theorem State.raiseAll_pending (s : State) (l : List Raising) : (s.raiseAll l).pending = s.pending := by
  unfold State.raiseAll
  induction l generalizing s with
  | nil => rfl
  | cons r l ih => rw [List.foldl_cons, ih]; simp

/-! ### `State.answer` -/

@[simp] theorem State.answer_held (s : State) (q : Request) (c : ReplyContent) : (s.answer q c).held = s.held := rfl
@[simp] theorem State.answer_clock (s : State) (q : Request) (c : ReplyContent) : (s.answer q c).clock = s.clock := rfl
@[simp] theorem State.answer_gm (s : State) (q : Request) (c : ReplyContent) : (s.answer q c).gm = s.gm := rfl
@[simp] theorem State.answer_rtc (s : State) (q : Request) (c : ReplyContent) : (s.answer q c).rtc = s.rtc := rfl
@[simp] theorem State.answer_di (s : State) (q : Request) (c : ReplyContent) : (s.answer q c).di = s.di := rfl
@[simp] theorem State.answer_cm (s : State) (q : Request) (c : ReplyContent) : (s.answer q c).cm = s.cm := rfl
@[simp] theorem State.answer_se (s : State) (q : Request) (c : ReplyContent) : (s.answer q c).se = s.se := rfl
@[simp] theorem State.answer_rr (s : State) (q : Request) (c : ReplyContent) : (s.answer q c).rr = s.rr := rfl
@[simp] theorem State.answer_fmu (s : State) (q : Request) (c : ReplyContent) : (s.answer q c).fmu = s.fmu := rfl
@[simp] theorem State.answer_cu (s : State) (q : Request) (c : ReplyContent) : (s.answer q c).cu = s.cu := rfl
@[simp] theorem State.answer_pending (s : State) (q : Request) (c : ReplyContent) : (s.answer q c).pending = s.pending := rfl

/-! ### `State.enterRun` -/

@[simp] theorem State.enterRun_held (s : State) : (s.enterRun).held = s.held := rfl
@[simp] theorem State.enterRun_clock (s : State) : (s.enterRun).clock = s.clock := rfl
@[simp] theorem State.enterRun_gm (s : State) : (s.enterRun).gm = s.gm := rfl
@[simp] theorem State.enterRun_rtc (s : State) : (s.enterRun).rtc = s.rtc := rfl
@[simp] theorem State.enterRun_cm (s : State) : (s.enterRun).cm = s.cm := rfl
@[simp] theorem State.enterRun_se (s : State) : (s.enterRun).se = s.se := rfl
@[simp] theorem State.enterRun_rr (s : State) : (s.enterRun).rr = s.rr := rfl
@[simp] theorem State.enterRun_cu (s : State) : (s.enterRun).cu = s.cu := rfl
@[simp] theorem State.enterRun_me (s : State) : (s.enterRun).me = s.me := rfl
@[simp] theorem State.enterRun_pu (s : State) : (s.enterRun).pu = s.pu := rfl
@[simp] theorem State.enterRun_pending (s : State) : (s.enterRun).pending = s.pending := rfl

/-! ### `State.enterRunFromLoad` -/

@[simp] theorem State.enterRunFromLoad_held (s : State) : (s.enterRunFromLoad).held = s.held := by unfold State.enterRunFromLoad; simp only []; split <;> rfl
@[simp] theorem State.enterRunFromLoad_clock (s : State) : (s.enterRunFromLoad).clock = s.clock := by unfold State.enterRunFromLoad; simp only []; split <;> rfl
@[simp] theorem State.enterRunFromLoad_gm (s : State) : (s.enterRunFromLoad).gm = s.gm := by unfold State.enterRunFromLoad; simp only []; split <;> rfl
@[simp] theorem State.enterRunFromLoad_cm (s : State) : (s.enterRunFromLoad).cm = s.cm := by unfold State.enterRunFromLoad; simp only []; split <;> rfl
@[simp] theorem State.enterRunFromLoad_se (s : State) : (s.enterRunFromLoad).se = s.se := by unfold State.enterRunFromLoad; simp only []; split <;> rfl
@[simp] theorem State.enterRunFromLoad_rr (s : State) : (s.enterRunFromLoad).rr = s.rr := by unfold State.enterRunFromLoad; simp only []; split <;> rfl
@[simp] theorem State.enterRunFromLoad_cu (s : State) : (s.enterRunFromLoad).cu = s.cu := by unfold State.enterRunFromLoad; simp only []; split <;> rfl
@[simp] theorem State.enterRunFromLoad_me (s : State) : (s.enterRunFromLoad).me = s.me := by unfold State.enterRunFromLoad; simp only []; split <;> rfl
@[simp] theorem State.enterRunFromLoad_pu (s : State) : (s.enterRunFromLoad).pu = s.pu := by unfold State.enterRunFromLoad; simp only []; split <;> rfl
@[simp] theorem State.enterRunFromLoad_pending (s : State) : (s.enterRunFromLoad).pending = s.pending := by unfold State.enterRunFromLoad; simp only []; split <;> rfl

/-! ### `State.enterRunFromHalt` -/

@[simp] theorem State.enterRunFromHalt_held (s : State) : (s.enterRunFromHalt).held = s.held := by unfold State.enterRunFromHalt; simp only []; split <;> rfl
@[simp] theorem State.enterRunFromHalt_clock (s : State) : (s.enterRunFromHalt).clock = s.clock := by unfold State.enterRunFromHalt; simp only []; split <;> rfl
@[simp] theorem State.enterRunFromHalt_gm (s : State) : (s.enterRunFromHalt).gm = s.gm := by unfold State.enterRunFromHalt; simp only []; split <;> rfl
@[simp] theorem State.enterRunFromHalt_cm (s : State) : (s.enterRunFromHalt).cm = s.cm := by unfold State.enterRunFromHalt; simp only []; split <;> rfl
@[simp] theorem State.enterRunFromHalt_se (s : State) : (s.enterRunFromHalt).se = s.se := by unfold State.enterRunFromHalt; simp only []; split <;> rfl
@[simp] theorem State.enterRunFromHalt_rr (s : State) : (s.enterRunFromHalt).rr = s.rr := by unfold State.enterRunFromHalt; simp only []; split <;> rfl
@[simp] theorem State.enterRunFromHalt_cu (s : State) : (s.enterRunFromHalt).cu = s.cu := by unfold State.enterRunFromHalt; simp only []; split <;> rfl
@[simp] theorem State.enterRunFromHalt_me (s : State) : (s.enterRunFromHalt).me = s.me := by unfold State.enterRunFromHalt; simp only []; split <;> rfl
@[simp] theorem State.enterRunFromHalt_pu (s : State) : (s.enterRunFromHalt).pu = s.pu := by unfold State.enterRunFromHalt; simp only []; split <;> rfl
@[simp] theorem State.enterRunFromHalt_pending (s : State) : (s.enterRunFromHalt).pending = s.pending := by unfold State.enterRunFromHalt; simp only []; split <;> rfl

/-! ### `State.enterLoad` -/

@[simp] theorem State.enterLoad_held (s : State) : (s.enterLoad).held = s.held := rfl
@[simp] theorem State.enterLoad_clock (s : State) : (s.enterLoad).clock = s.clock := rfl
@[simp] theorem State.enterLoad_gm (s : State) : (s.enterLoad).gm = s.gm := rfl
@[simp] theorem State.enterLoad_se (s : State) : (s.enterLoad).se = s.se := rfl
@[simp] theorem State.enterLoad_rr (s : State) : (s.enterLoad).rr = s.rr := rfl
@[simp] theorem State.enterLoad_cu (s : State) : (s.enterLoad).cu = s.cu := rfl
@[simp] theorem State.enterLoad_me (s : State) : (s.enterLoad).me = s.me := rfl
@[simp] theorem State.enterLoad_pu (s : State) : (s.enterLoad).pu = s.pu := rfl
@[simp] theorem State.enterLoad_pending (s : State) : (s.enterLoad).pending = s.pending := rfl

/-! ### `State.setLink` -/

@[simp] theorem State.setLink_held (s : State) (p : Port) (a b : Bool) : (s.setLink p a b).held = s.held := by cases p <;> rfl
@[simp] theorem State.setLink_clock (s : State) (p : Port) (a b : Bool) : (s.setLink p a b).clock = s.clock := by cases p <;> rfl
@[simp] theorem State.setLink_gm (s : State) (p : Port) (a b : Bool) : (s.setLink p a b).gm = s.gm := by cases p <;> rfl
@[simp] theorem State.setLink_rtc (s : State) (p : Port) (a b : Bool) : (s.setLink p a b).rtc = s.rtc := by cases p <;> rfl
@[simp] theorem State.setLink_di (s : State) (p : Port) (a b : Bool) : (s.setLink p a b).di = s.di := by cases p <;> rfl
@[simp] theorem State.setLink_cm (s : State) (p : Port) (a b : Bool) : (s.setLink p a b).cm = s.cm := by cases p <;> rfl
@[simp] theorem State.setLink_se (s : State) (p : Port) (a b : Bool) : (s.setLink p a b).se = s.se := by cases p <;> rfl
@[simp] theorem State.setLink_rr (s : State) (p : Port) (a b : Bool) : (s.setLink p a b).rr = s.rr := by cases p <;> rfl
@[simp] theorem State.setLink_fmu (s : State) (p : Port) (a b : Bool) : (s.setLink p a b).fmu = s.fmu := by cases p <;> rfl
@[simp] theorem State.setLink_cu (s : State) (p : Port) (a b : Bool) : (s.setLink p a b).cu = s.cu := by cases p <;> rfl
@[simp] theorem State.setLink_me (s : State) (p : Port) (a b : Bool) : (s.setLink p a b).me = s.me := by cases p <;> rfl
@[simp] theorem State.setLink_pending (s : State) (p : Port) (a b : Bool) : (s.setLink p a b).pending = s.pending := by cases p <;> rfl

/-! ### `State.onRx` -/

@[simp] theorem State.onRx_held (s : State) (p : Port) (g : RxCounters → RxCounters) : (s.onRx p g).held = s.held := by cases p <;> rfl
@[simp] theorem State.onRx_clock (s : State) (p : Port) (g : RxCounters → RxCounters) : (s.onRx p g).clock = s.clock := by cases p <;> rfl
@[simp] theorem State.onRx_gm (s : State) (p : Port) (g : RxCounters → RxCounters) : (s.onRx p g).gm = s.gm := by cases p <;> rfl
@[simp] theorem State.onRx_rtc (s : State) (p : Port) (g : RxCounters → RxCounters) : (s.onRx p g).rtc = s.rtc := by cases p <;> rfl
@[simp] theorem State.onRx_di (s : State) (p : Port) (g : RxCounters → RxCounters) : (s.onRx p g).di = s.di := by cases p <;> rfl
@[simp] theorem State.onRx_cm (s : State) (p : Port) (g : RxCounters → RxCounters) : (s.onRx p g).cm = s.cm := by cases p <;> rfl
@[simp] theorem State.onRx_se (s : State) (p : Port) (g : RxCounters → RxCounters) : (s.onRx p g).se = s.se := by cases p <;> rfl
@[simp] theorem State.onRx_rr (s : State) (p : Port) (g : RxCounters → RxCounters) : (s.onRx p g).rr = s.rr := by cases p <;> rfl
@[simp] theorem State.onRx_fmu (s : State) (p : Port) (g : RxCounters → RxCounters) : (s.onRx p g).fmu = s.fmu := by cases p <;> rfl
@[simp] theorem State.onRx_cu (s : State) (p : Port) (g : RxCounters → RxCounters) : (s.onRx p g).cu = s.cu := by cases p <;> rfl
@[simp] theorem State.onRx_me (s : State) (p : Port) (g : RxCounters → RxCounters) : (s.onRx p g).me = s.me := by cases p <;> rfl
@[simp] theorem State.onRx_pending (s : State) (p : Port) (g : RxCounters → RxCounters) : (s.onRx p g).pending = s.pending := by cases p <;> rfl

/-! ### `State.passOn` -/

@[simp] theorem State.passOn_held (s : State) (p : Port) (f : Frame) : (s.passOn p f).held = s.held := by cases p <;> rfl
@[simp] theorem State.passOn_clock (s : State) (p : Port) (f : Frame) : (s.passOn p f).clock = s.clock := by cases p <;> rfl
@[simp] theorem State.passOn_gm (s : State) (p : Port) (f : Frame) : (s.passOn p f).gm = s.gm := by cases p <;> rfl
@[simp] theorem State.passOn_rtc (s : State) (p : Port) (f : Frame) : (s.passOn p f).rtc = s.rtc := by cases p <;> rfl
@[simp] theorem State.passOn_di (s : State) (p : Port) (f : Frame) : (s.passOn p f).di = s.di := by cases p <;> rfl
@[simp] theorem State.passOn_cm (s : State) (p : Port) (f : Frame) : (s.passOn p f).cm = s.cm := by cases p <;> rfl
@[simp] theorem State.passOn_se (s : State) (p : Port) (f : Frame) : (s.passOn p f).se = s.se := by cases p <;> rfl
@[simp] theorem State.passOn_rr (s : State) (p : Port) (f : Frame) : (s.passOn p f).rr = s.rr := by cases p <;> rfl
@[simp] theorem State.passOn_fmu (s : State) (p : Port) (f : Frame) : (s.passOn p f).fmu = s.fmu := by cases p <;> rfl
@[simp] theorem State.passOn_cu (s : State) (p : Port) (f : Frame) : (s.passOn p f).cu = s.cu := by cases p <;> rfl
@[simp] theorem State.passOn_me (s : State) (p : Port) (f : Frame) : (s.passOn p f).me = s.me := by cases p <;> rfl
@[simp] theorem State.passOn_pending (s : State) (p : Port) (f : Frame) : (s.passOn p f).pending = s.pending := by cases p <;> rfl

/-! ### `State.flushPort` -/

@[simp] theorem State.flushPort_held (s : State) (p : Port) : (s.flushPort p).held = s.held := by cases p <;> rfl
@[simp] theorem State.flushPort_clock (s : State) (p : Port) : (s.flushPort p).clock = s.clock := by cases p <;> rfl
@[simp] theorem State.flushPort_gm (s : State) (p : Port) : (s.flushPort p).gm = s.gm := by cases p <;> rfl
@[simp] theorem State.flushPort_rtc (s : State) (p : Port) : (s.flushPort p).rtc = s.rtc := by cases p <;> rfl
@[simp] theorem State.flushPort_di (s : State) (p : Port) : (s.flushPort p).di = s.di := by cases p <;> rfl
@[simp] theorem State.flushPort_cm (s : State) (p : Port) : (s.flushPort p).cm = s.cm := by cases p <;> rfl
@[simp] theorem State.flushPort_se (s : State) (p : Port) : (s.flushPort p).se = s.se := by cases p <;> rfl
@[simp] theorem State.flushPort_rr (s : State) (p : Port) : (s.flushPort p).rr = s.rr := by cases p <;> rfl
@[simp] theorem State.flushPort_fmu (s : State) (p : Port) : (s.flushPort p).fmu = s.fmu := by cases p <;> rfl
@[simp] theorem State.flushPort_cu (s : State) (p : Port) : (s.flushPort p).cu = s.cu := by cases p <;> rfl
@[simp] theorem State.flushPort_pending (s : State) (p : Port) : (s.flushPort p).pending = s.pending := by cases p <;> rfl

/-! ### `State.deliver` -/

@[simp] theorem State.deliver_held (s : State) (p : Port) (f : Frame) : (s.deliver p f).held = s.held := by cases p <;> first | rfl | (unfold State.deliver; simp only []; split <;> rfl)
@[simp] theorem State.deliver_clock (s : State) (p : Port) (f : Frame) : (s.deliver p f).clock = s.clock := by cases p <;> first | rfl | (unfold State.deliver; simp only []; split <;> rfl)
@[simp] theorem State.deliver_rtc (s : State) (p : Port) (f : Frame) : (s.deliver p f).rtc = s.rtc := by cases p <;> first | rfl | (unfold State.deliver; simp only []; split <;> rfl)
@[simp] theorem State.deliver_cm (s : State) (p : Port) (f : Frame) : (s.deliver p f).cm = s.cm := by cases p <;> first | rfl | (unfold State.deliver; simp only []; split <;> rfl)
@[simp] theorem State.deliver_se (s : State) (p : Port) (f : Frame) : (s.deliver p f).se = s.se := by cases p <;> first | rfl | (unfold State.deliver; simp only []; split <;> rfl)
@[simp] theorem State.deliver_fmu (s : State) (p : Port) (f : Frame) : (s.deliver p f).fmu = s.fmu := by cases p <;> first | rfl | (unfold State.deliver; simp only []; split <;> rfl)
@[simp] theorem State.deliver_cu (s : State) (p : Port) (f : Frame) : (s.deliver p f).cu = s.cu := by cases p <;> first | rfl | (unfold State.deliver; simp only []; split <;> rfl)
@[simp] theorem State.deliver_pu (s : State) (p : Port) (f : Frame) : (s.deliver p f).pu = s.pu := by cases p <;> first | rfl | (unfold State.deliver; simp only []; split <;> rfl)
@[simp] theorem State.deliver_pending (s : State) (p : Port) (f : Frame) : (s.deliver p f).pending = s.pending := by cases p <;> first | rfl | (unfold State.deliver; simp only []; split <;> rfl)

/-! ### `State.countForeignG` -/

@[simp] theorem State.countForeignG_held (s : State) : (s.countForeignG).held = s.held := rfl
@[simp] theorem State.countForeignG_clock (s : State) : (s.countForeignG).clock = s.clock := rfl
@[simp] theorem State.countForeignG_gm (s : State) : (s.countForeignG).gm = s.gm := rfl
@[simp] theorem State.countForeignG_rtc (s : State) : (s.countForeignG).rtc = s.rtc := rfl
@[simp] theorem State.countForeignG_di (s : State) : (s.countForeignG).di = s.di := rfl
@[simp] theorem State.countForeignG_cm (s : State) : (s.countForeignG).cm = s.cm := rfl
@[simp] theorem State.countForeignG_se (s : State) : (s.countForeignG).se = s.se := rfl
@[simp] theorem State.countForeignG_rr (s : State) : (s.countForeignG).rr = s.rr := rfl
@[simp] theorem State.countForeignG_fmu (s : State) : (s.countForeignG).fmu = s.fmu := rfl
@[simp] theorem State.countForeignG_cu (s : State) : (s.countForeignG).cu = s.cu := rfl
@[simp] theorem State.countForeignG_me (s : State) : (s.countForeignG).me = s.me := rfl
@[simp] theorem State.countForeignG_pending (s : State) : (s.countForeignG).pending = s.pending := rfl

/-! ### `State.beginCycle` -/

@[simp] theorem State.beginCycle_held (s : State) : (s.beginCycle).held = s.held := rfl
@[simp] theorem State.beginCycle_gm (s : State) : (s.beginCycle).gm = s.gm := rfl
@[simp] theorem State.beginCycle_di (s : State) : (s.beginCycle).di = s.di := rfl
@[simp] theorem State.beginCycle_cm (s : State) : (s.beginCycle).cm = s.cm := rfl
@[simp] theorem State.beginCycle_fmu (s : State) : (s.beginCycle).fmu = s.fmu := rfl
@[simp] theorem State.beginCycle_cu (s : State) : (s.beginCycle).cu = s.cu := rfl
@[simp] theorem State.beginCycle_me (s : State) : (s.beginCycle).me = s.me := rfl
@[simp] theorem State.beginCycle_pu (s : State) : (s.beginCycle).pu = s.pu := rfl
@[simp] theorem State.beginCycle_pending (s : State) : (s.beginCycle).pending = s.pending := rfl

/-! ### `State.atWork` -/

@[simp] theorem State.atWork_held (s : State) (w : CycleWork) : (s.atWork w).held = s.held := rfl
@[simp] theorem State.atWork_clock (s : State) (w : CycleWork) : (s.atWork w).clock = s.clock := rfl
@[simp] theorem State.atWork_gm (s : State) (w : CycleWork) : (s.atWork w).gm = s.gm := rfl
@[simp] theorem State.atWork_rtc (s : State) (w : CycleWork) : (s.atWork w).rtc = s.rtc := rfl
@[simp] theorem State.atWork_di (s : State) (w : CycleWork) : (s.atWork w).di = s.di := rfl
@[simp] theorem State.atWork_cm (s : State) (w : CycleWork) : (s.atWork w).cm = s.cm := rfl
@[simp] theorem State.atWork_rr (s : State) (w : CycleWork) : (s.atWork w).rr = s.rr := rfl
@[simp] theorem State.atWork_fmu (s : State) (w : CycleWork) : (s.atWork w).fmu = s.fmu := rfl
@[simp] theorem State.atWork_cu (s : State) (w : CycleWork) : (s.atWork w).cu = s.cu := rfl
@[simp] theorem State.atWork_me (s : State) (w : CycleWork) : (s.atWork w).me = s.me := rfl
@[simp] theorem State.atWork_pu (s : State) (w : CycleWork) : (s.atWork w).pu = s.pu := rfl
@[simp] theorem State.atWork_pending (s : State) (w : CycleWork) : (s.atWork w).pending = s.pending := rfl

/-! ### `State.readDemands` -/

@[simp] theorem State.readDemands_held (s : State) : (s.readDemands).held = s.held := by unfold State.readDemands; split <;> rfl
@[simp] theorem State.readDemands_clock (s : State) : (s.readDemands).clock = s.clock := by unfold State.readDemands; split <;> rfl
@[simp] theorem State.readDemands_gm (s : State) : (s.readDemands).gm = s.gm := by unfold State.readDemands; split <;> rfl
@[simp] theorem State.readDemands_rtc (s : State) : (s.readDemands).rtc = s.rtc := by unfold State.readDemands; split <;> rfl
@[simp] theorem State.readDemands_cm (s : State) : (s.readDemands).cm = s.cm := by unfold State.readDemands; split <;> rfl
@[simp] theorem State.readDemands_rr (s : State) : (s.readDemands).rr = s.rr := by unfold State.readDemands; split <;> rfl
@[simp] theorem State.readDemands_fmu (s : State) : (s.readDemands).fmu = s.fmu := by unfold State.readDemands; split <;> rfl
@[simp] theorem State.readDemands_cu (s : State) : (s.readDemands).cu = s.cu := by unfold State.readDemands; split <;> rfl
@[simp] theorem State.readDemands_me (s : State) : (s.readDemands).me = s.me := by unfold State.readDemands; split <;> rfl
@[simp] theorem State.readDemands_pu (s : State) : (s.readDemands).pu = s.pu := by unfold State.readDemands; split <;> rfl
@[simp] theorem State.readDemands_pending (s : State) : (s.readDemands).pending = s.pending := by unfold State.readDemands; split <;> rfl

/-! ### `State.readStanding` -/

@[simp] theorem State.readStanding_held (s : State) : (s.readStanding).held = s.held := by unfold State.readStanding; split <;> rfl
@[simp] theorem State.readStanding_clock (s : State) : (s.readStanding).clock = s.clock := by unfold State.readStanding; split <;> rfl
@[simp] theorem State.readStanding_gm (s : State) : (s.readStanding).gm = s.gm := by unfold State.readStanding; split <;> rfl
@[simp] theorem State.readStanding_rtc (s : State) : (s.readStanding).rtc = s.rtc := by unfold State.readStanding; split <;> rfl
@[simp] theorem State.readStanding_di (s : State) : (s.readStanding).di = s.di := by unfold State.readStanding; split <;> rfl
@[simp] theorem State.readStanding_cm (s : State) : (s.readStanding).cm = s.cm := by unfold State.readStanding; split <;> rfl
@[simp] theorem State.readStanding_rr (s : State) : (s.readStanding).rr = s.rr := by unfold State.readStanding; split <;> rfl
@[simp] theorem State.readStanding_fmu (s : State) : (s.readStanding).fmu = s.fmu := by unfold State.readStanding; split <;> rfl
@[simp] theorem State.readStanding_cu (s : State) : (s.readStanding).cu = s.cu := by unfold State.readStanding; split <;> rfl
@[simp] theorem State.readStanding_me (s : State) : (s.readStanding).me = s.me := by unfold State.readStanding; split <;> rfl
@[simp] theorem State.readStanding_pu (s : State) : (s.readStanding).pu = s.pu := by unfold State.readStanding; split <;> rfl
@[simp] theorem State.readStanding_pending (s : State) : (s.readStanding).pending = s.pending := by unfold State.readStanding; split <;> rfl

/-! ### `State.readVoltage` -/

@[simp] theorem State.readVoltage_held (s : State) : (s.readVoltage).held = s.held := by unfold State.readVoltage; split <;> rfl
@[simp] theorem State.readVoltage_clock (s : State) : (s.readVoltage).clock = s.clock := by unfold State.readVoltage; split <;> rfl
@[simp] theorem State.readVoltage_gm (s : State) : (s.readVoltage).gm = s.gm := by unfold State.readVoltage; split <;> rfl
@[simp] theorem State.readVoltage_rtc (s : State) : (s.readVoltage).rtc = s.rtc := by unfold State.readVoltage; split <;> rfl
@[simp] theorem State.readVoltage_di (s : State) : (s.readVoltage).di = s.di := by unfold State.readVoltage; split <;> rfl
@[simp] theorem State.readVoltage_cm (s : State) : (s.readVoltage).cm = s.cm := by unfold State.readVoltage; split <;> rfl
@[simp] theorem State.readVoltage_rr (s : State) : (s.readVoltage).rr = s.rr := by unfold State.readVoltage; split <;> rfl
@[simp] theorem State.readVoltage_fmu (s : State) : (s.readVoltage).fmu = s.fmu := by unfold State.readVoltage; split <;> rfl
@[simp] theorem State.readVoltage_cu (s : State) : (s.readVoltage).cu = s.cu := by unfold State.readVoltage; split <;> rfl
@[simp] theorem State.readVoltage_me (s : State) : (s.readVoltage).me = s.me := by unfold State.readVoltage; split <;> rfl
@[simp] theorem State.readVoltage_pu (s : State) : (s.readVoltage).pu = s.pu := by unfold State.readVoltage; split <;> rfl
@[simp] theorem State.readVoltage_pending (s : State) : (s.readVoltage).pending = s.pending := by unfold State.readVoltage; split <;> rfl

/-! ### `State.requestChannels` -/

@[simp] theorem State.requestChannels_held (s : State) : (s.requestChannels).held = s.held := by unfold State.requestChannels; simp only []; split <;> simp
@[simp] theorem State.requestChannels_clock (s : State) : (s.requestChannels).clock = s.clock := by unfold State.requestChannels; simp only []; split <;> simp
@[simp] theorem State.requestChannels_gm (s : State) : (s.requestChannels).gm = s.gm := by unfold State.requestChannels; simp only []; split <;> simp
@[simp] theorem State.requestChannels_rtc (s : State) : (s.requestChannels).rtc = s.rtc := by unfold State.requestChannels; simp only []; split <;> simp
@[simp] theorem State.requestChannels_rr (s : State) : (s.requestChannels).rr = s.rr := by unfold State.requestChannels; simp only []; split <;> simp
@[simp] theorem State.requestChannels_fmu (s : State) : (s.requestChannels).fmu = s.fmu := by unfold State.requestChannels; simp only []; split <;> simp
@[simp] theorem State.requestChannels_cu (s : State) : (s.requestChannels).cu = s.cu := by unfold State.requestChannels; simp only []; split <;> simp
@[simp] theorem State.requestChannels_me (s : State) : (s.requestChannels).me = s.me := by unfold State.requestChannels; simp only []; split <;> simp
@[simp] theorem State.requestChannels_pu (s : State) : (s.requestChannels).pu = s.pu := by unfold State.requestChannels; simp only []; split <;> simp
@[simp] theorem State.requestChannels_pending (s : State) : (s.requestChannels).pending = s.pending := by unfold State.requestChannels; simp only []; split <;> simp

/-! ### `State.closeAllocation` -/

@[simp] theorem State.closeAllocation_held (s : State) (i : CycleInputs) : (s.closeAllocation i).held = s.held := rfl
@[simp] theorem State.closeAllocation_clock (s : State) (i : CycleInputs) : (s.closeAllocation i).clock = s.clock := rfl
@[simp] theorem State.closeAllocation_gm (s : State) (i : CycleInputs) : (s.closeAllocation i).gm = s.gm := rfl
@[simp] theorem State.closeAllocation_rtc (s : State) (i : CycleInputs) : (s.closeAllocation i).rtc = s.rtc := rfl
@[simp] theorem State.closeAllocation_di (s : State) (i : CycleInputs) : (s.closeAllocation i).di = s.di := rfl
@[simp] theorem State.closeAllocation_rr (s : State) (i : CycleInputs) : (s.closeAllocation i).rr = s.rr := rfl
@[simp] theorem State.closeAllocation_cu (s : State) (i : CycleInputs) : (s.closeAllocation i).cu = s.cu := rfl
@[simp] theorem State.closeAllocation_me (s : State) (i : CycleInputs) : (s.closeAllocation i).me = s.me := rfl
@[simp] theorem State.closeAllocation_pu (s : State) (i : CycleInputs) : (s.closeAllocation i).pu = s.pu := rfl
@[simp] theorem State.closeAllocation_pending (s : State) (i : CycleInputs) : (s.closeAllocation i).pending = s.pending := rfl

/-! ### `State.closeCycle` -/

@[simp] theorem State.closeCycle_held (s : State) : (s.closeCycle).held = s.held := by unfold State.closeCycle; simp only []; split <;> simp
@[simp] theorem State.closeCycle_clock (s : State) : (s.closeCycle).clock = s.clock := by unfold State.closeCycle; simp only []; split <;> simp
@[simp] theorem State.closeCycle_gm (s : State) : (s.closeCycle).gm = s.gm := by unfold State.closeCycle; simp only []; split <;> simp
@[simp] theorem State.closeCycle_rtc (s : State) : (s.closeCycle).rtc = s.rtc := by unfold State.closeCycle; simp only []; split <;> simp
@[simp] theorem State.closeCycle_rr (s : State) : (s.closeCycle).rr = s.rr := by unfold State.closeCycle; simp only []; split <;> simp
@[simp] theorem State.closeCycle_cu (s : State) : (s.closeCycle).cu = s.cu := by unfold State.closeCycle; simp only []; split <;> simp
@[simp] theorem State.closeCycle_me (s : State) : (s.closeCycle).me = s.me := by unfold State.closeCycle; simp only []; split <;> simp
@[simp] theorem State.closeCycle_pu (s : State) : (s.closeCycle).pu = s.pu := by unfold State.closeCycle; simp only []; split <;> simp
@[simp] theorem State.closeCycle_pending (s : State) : (s.closeCycle).pending = s.pending := by unfold State.closeCycle; simp only []; split <;> simp

/-! ### `State.handSetpointFrame` -/

@[simp] theorem State.handSetpointFrame_held (s : State) : (s.handSetpointFrame).held = s.held := by unfold State.handSetpointFrame; simp only []; split <;> (try split) <;> simp
@[simp] theorem State.handSetpointFrame_clock (s : State) : (s.handSetpointFrame).clock = s.clock := by unfold State.handSetpointFrame; simp only []; split <;> (try split) <;> simp
@[simp] theorem State.handSetpointFrame_gm (s : State) : (s.handSetpointFrame).gm = s.gm := by unfold State.handSetpointFrame; simp only []; split <;> (try split) <;> simp
@[simp] theorem State.handSetpointFrame_rtc (s : State) : (s.handSetpointFrame).rtc = s.rtc := by unfold State.handSetpointFrame; simp only []; split <;> (try split) <;> simp
@[simp] theorem State.handSetpointFrame_rr (s : State) : (s.handSetpointFrame).rr = s.rr := by unfold State.handSetpointFrame; simp only []; split <;> (try split) <;> simp
@[simp] theorem State.handSetpointFrame_cu (s : State) : (s.handSetpointFrame).cu = s.cu := by unfold State.handSetpointFrame; simp only []; split <;> (try split) <;> simp
@[simp] theorem State.handSetpointFrame_me (s : State) : (s.handSetpointFrame).me = s.me := by unfold State.handSetpointFrame; simp only []; split <;> (try split) <;> simp
@[simp] theorem State.handSetpointFrame_pending (s : State) : (s.handSetpointFrame).pending = s.pending := by unfold State.handSetpointFrame; simp only []; split <;> (try split) <;> simp

/-! ### `State.lookAt` -/

@[simp] theorem State.lookAt_held (s : State) (o : StatusOwner) : (s.lookAt o).held = s.held := by unfold State.lookAt; simp only []; split <;> simp
@[simp] theorem State.lookAt_clock (s : State) (o : StatusOwner) : (s.lookAt o).clock = s.clock := by unfold State.lookAt; simp only []; split <;> simp
@[simp] theorem State.lookAt_gm (s : State) (o : StatusOwner) : (s.lookAt o).gm = s.gm := by unfold State.lookAt; simp only []; split <;> simp
@[simp] theorem State.lookAt_rtc (s : State) (o : StatusOwner) : (s.lookAt o).rtc = s.rtc := by unfold State.lookAt; simp only []; split <;> simp
@[simp] theorem State.lookAt_rr (s : State) (o : StatusOwner) : (s.lookAt o).rr = s.rr := by unfold State.lookAt; simp only []; split <;> simp
@[simp] theorem State.lookAt_cu (s : State) (o : StatusOwner) : (s.lookAt o).cu = s.cu := by unfold State.lookAt; simp only []; split <;> simp
@[simp] theorem State.lookAt_me (s : State) (o : StatusOwner) : (s.lookAt o).me = s.me := by unfold State.lookAt; simp only []; split <;> simp
@[simp] theorem State.lookAt_pending (s : State) (o : StatusOwner) : (s.lookAt o).pending = s.pending := by unfold State.lookAt; simp only []; split <;> simp

/-! ### `State.handStatusFrame` -/

@[simp] theorem State.handStatusFrame_held (s : State) : (s.handStatusFrame).held = s.held := by unfold State.handStatusFrame; simp only []; split <;> simp
@[simp] theorem State.handStatusFrame_clock (s : State) : (s.handStatusFrame).clock = s.clock := by unfold State.handStatusFrame; simp only []; split <;> simp
@[simp] theorem State.handStatusFrame_gm (s : State) : (s.handStatusFrame).gm = s.gm := by unfold State.handStatusFrame; simp only []; split <;> simp
@[simp] theorem State.handStatusFrame_rtc (s : State) : (s.handStatusFrame).rtc = s.rtc := by unfold State.handStatusFrame; simp only []; split <;> simp
@[simp] theorem State.handStatusFrame_rr (s : State) : (s.handStatusFrame).rr = s.rr := by unfold State.handStatusFrame; simp only []; split <;> simp
@[simp] theorem State.handStatusFrame_cu (s : State) : (s.handStatusFrame).cu = s.cu := by unfold State.handStatusFrame; simp only []; split <;> simp
@[simp] theorem State.handStatusFrame_me (s : State) : (s.handStatusFrame).me = s.me := by unfold State.handStatusFrame; simp only []; split <;> simp
@[simp] theorem State.handStatusFrame_pending (s : State) : (s.handStatusFrame).pending = s.pending := by unfold State.handStatusFrame; simp only []; split <;> simp

/-! ### `State.decideReport` -/

@[simp] theorem State.decideReport_held (s : State) (r : Report) : (s.decideReport r).held = s.held := rfl
@[simp] theorem State.decideReport_clock (s : State) (r : Report) : (s.decideReport r).clock = s.clock := rfl
@[simp] theorem State.decideReport_gm (s : State) (r : Report) : (s.decideReport r).gm = s.gm := rfl
@[simp] theorem State.decideReport_rtc (s : State) (r : Report) : (s.decideReport r).rtc = s.rtc := rfl
@[simp] theorem State.decideReport_di (s : State) (r : Report) : (s.decideReport r).di = s.di := rfl
@[simp] theorem State.decideReport_cm (s : State) (r : Report) : (s.decideReport r).cm = s.cm := rfl
@[simp] theorem State.decideReport_se (s : State) (r : Report) : (s.decideReport r).se = s.se := rfl
@[simp] theorem State.decideReport_fmu (s : State) (r : Report) : (s.decideReport r).fmu = s.fmu := rfl
@[simp] theorem State.decideReport_cu (s : State) (r : Report) : (s.decideReport r).cu = s.cu := rfl
@[simp] theorem State.decideReport_me (s : State) (r : Report) : (s.decideReport r).me = s.me := rfl
@[simp] theorem State.decideReport_pu (s : State) (r : Report) : (s.decideReport r).pu = s.pu := rfl
@[simp] theorem State.decideReport_pending (s : State) (r : Report) : (s.decideReport r).pending = s.pending := rfl

/-! ### `State.handEvents` -/

@[simp] theorem State.handEvents_held (s : State) : (s.handEvents).held = s.held := by unfold State.handEvents; split <;> rfl
@[simp] theorem State.handEvents_clock (s : State) : (s.handEvents).clock = s.clock := by unfold State.handEvents; split <;> rfl
@[simp] theorem State.handEvents_gm (s : State) : (s.handEvents).gm = s.gm := by unfold State.handEvents; split <;> rfl
@[simp] theorem State.handEvents_rtc (s : State) : (s.handEvents).rtc = s.rtc := by unfold State.handEvents; split <;> rfl
@[simp] theorem State.handEvents_di (s : State) : (s.handEvents).di = s.di := by unfold State.handEvents; split <;> rfl
@[simp] theorem State.handEvents_se (s : State) : (s.handEvents).se = s.se := by unfold State.handEvents; split <;> rfl
@[simp] theorem State.handEvents_fmu (s : State) : (s.handEvents).fmu = s.fmu := by unfold State.handEvents; split <;> rfl
@[simp] theorem State.handEvents_cu (s : State) : (s.handEvents).cu = s.cu := by unfold State.handEvents; split <;> rfl
@[simp] theorem State.handEvents_me (s : State) : (s.handEvents).me = s.me := by unfold State.handEvents; split <;> rfl
@[simp] theorem State.handEvents_pu (s : State) : (s.handEvents).pu = s.pu := by unfold State.handEvents; split <;> rfl
@[simp] theorem State.handEvents_pending (s : State) : (s.handEvents).pending = s.pending := by unfold State.handEvents; split <;> rfl

/-! ### `State.decideLoss` -/

@[simp] theorem State.decideLoss_held (s : State) : (s.decideLoss).held = s.held := by unfold State.decideLoss; split <;> rfl
@[simp] theorem State.decideLoss_clock (s : State) : (s.decideLoss).clock = s.clock := by unfold State.decideLoss; split <;> rfl
@[simp] theorem State.decideLoss_gm (s : State) : (s.decideLoss).gm = s.gm := by unfold State.decideLoss; split <;> rfl
@[simp] theorem State.decideLoss_rtc (s : State) : (s.decideLoss).rtc = s.rtc := by unfold State.decideLoss; split <;> rfl
@[simp] theorem State.decideLoss_di (s : State) : (s.decideLoss).di = s.di := by unfold State.decideLoss; split <;> rfl
@[simp] theorem State.decideLoss_cm (s : State) : (s.decideLoss).cm = s.cm := by unfold State.decideLoss; split <;> rfl
@[simp] theorem State.decideLoss_se (s : State) : (s.decideLoss).se = s.se := by unfold State.decideLoss; split <;> rfl
@[simp] theorem State.decideLoss_fmu (s : State) : (s.decideLoss).fmu = s.fmu := by unfold State.decideLoss; split <;> rfl
@[simp] theorem State.decideLoss_cu (s : State) : (s.decideLoss).cu = s.cu := by unfold State.decideLoss; split <;> rfl
@[simp] theorem State.decideLoss_me (s : State) : (s.decideLoss).me = s.me := by unfold State.decideLoss; split <;> rfl
@[simp] theorem State.decideLoss_pu (s : State) : (s.decideLoss).pu = s.pu := by unfold State.decideLoss; split <;> rfl
@[simp] theorem State.decideLoss_pending (s : State) : (s.decideLoss).pending = s.pending := by unfold State.decideLoss; split <;> rfl

/-! ### `State.acceptDispatch` -/

@[simp] theorem State.acceptDispatch_held (s : State) (f : Dispatch) : (s.acceptDispatch f).held = s.held := rfl
@[simp] theorem State.acceptDispatch_clock (s : State) (f : Dispatch) : (s.acceptDispatch f).clock = s.clock := rfl
@[simp] theorem State.acceptDispatch_gm (s : State) (f : Dispatch) : (s.acceptDispatch f).gm = s.gm := rfl
@[simp] theorem State.acceptDispatch_rtc (s : State) (f : Dispatch) : (s.acceptDispatch f).rtc = s.rtc := rfl
@[simp] theorem State.acceptDispatch_cm (s : State) (f : Dispatch) : (s.acceptDispatch f).cm = s.cm := rfl
@[simp] theorem State.acceptDispatch_se (s : State) (f : Dispatch) : (s.acceptDispatch f).se = s.se := rfl
@[simp] theorem State.acceptDispatch_rr (s : State) (f : Dispatch) : (s.acceptDispatch f).rr = s.rr := rfl
@[simp] theorem State.acceptDispatch_fmu (s : State) (f : Dispatch) : (s.acceptDispatch f).fmu = s.fmu := rfl
@[simp] theorem State.acceptDispatch_cu (s : State) (f : Dispatch) : (s.acceptDispatch f).cu = s.cu := rfl
@[simp] theorem State.acceptDispatch_me (s : State) (f : Dispatch) : (s.acceptDispatch f).me = s.me := rfl
@[simp] theorem State.acceptDispatch_pu (s : State) (f : Dispatch) : (s.acceptDispatch f).pu = s.pu := rfl
@[simp] theorem State.acceptDispatch_pending (s : State) (f : Dispatch) : (s.acceptDispatch f).pending = s.pending := rfl

/-! ### `State.acceptRestart` -/

@[simp] theorem State.acceptRestart_held (s : State) (q : Request) : (s.acceptRestart q).held = s.held := rfl
@[simp] theorem State.acceptRestart_clock (s : State) (q : Request) : (s.acceptRestart q).clock = s.clock := rfl
@[simp] theorem State.acceptRestart_gm (s : State) (q : Request) : (s.acceptRestart q).gm = s.gm := rfl
@[simp] theorem State.acceptRestart_rtc (s : State) (q : Request) : (s.acceptRestart q).rtc = s.rtc := rfl
@[simp] theorem State.acceptRestart_di (s : State) (q : Request) : (s.acceptRestart q).di = s.di := rfl
@[simp] theorem State.acceptRestart_cm (s : State) (q : Request) : (s.acceptRestart q).cm = s.cm := rfl
@[simp] theorem State.acceptRestart_se (s : State) (q : Request) : (s.acceptRestart q).se = s.se := rfl
@[simp] theorem State.acceptRestart_rr (s : State) (q : Request) : (s.acceptRestart q).rr = s.rr := rfl
@[simp] theorem State.acceptRestart_fmu (s : State) (q : Request) : (s.acceptRestart q).fmu = s.fmu := rfl
@[simp] theorem State.acceptRestart_cu (s : State) (q : Request) : (s.acceptRestart q).cu = s.cu := rfl
@[simp] theorem State.acceptRestart_pending (s : State) (q : Request) : (s.acceptRestart q).pending = s.pending := rfl

/-! ### `State.handRaising` -/

@[simp] theorem State.handRaising_held (s : State) (r : Raising) : (s.handRaising r).held = s.held := rfl
@[simp] theorem State.handRaising_clock (s : State) (r : Raising) : (s.handRaising r).clock = s.clock := rfl
@[simp] theorem State.handRaising_gm (s : State) (r : Raising) : (s.handRaising r).gm = s.gm := rfl
@[simp] theorem State.handRaising_rtc (s : State) (r : Raising) : (s.handRaising r).rtc = s.rtc := rfl
@[simp] theorem State.handRaising_di (s : State) (r : Raising) : (s.handRaising r).di = s.di := rfl
@[simp] theorem State.handRaising_cm (s : State) (r : Raising) : (s.handRaising r).cm = s.cm := rfl
@[simp] theorem State.handRaising_se (s : State) (r : Raising) : (s.handRaising r).se = s.se := rfl
@[simp] theorem State.handRaising_rr (s : State) (r : Raising) : (s.handRaising r).rr = s.rr := rfl
@[simp] theorem State.handRaising_cu (s : State) (r : Raising) : (s.handRaising r).cu = s.cu := rfl
@[simp] theorem State.handRaising_me (s : State) (r : Raising) : (s.handRaising r).me = s.me := rfl
@[simp] theorem State.handRaising_pu (s : State) (r : Raising) : (s.handRaising r).pu = s.pu := rfl
@[simp] theorem State.handRaising_pending (s : State) (r : Raising) : (s.handRaising r).pending = s.pending := rfl

/-! ### `State.takeRaising` -/

@[simp] theorem State.takeRaising_held (s : State) (c : FaultCode) : (s.takeRaising c).held = s.held := by unfold State.takeRaising; split <;> simp
@[simp] theorem State.takeRaising_clock (s : State) (c : FaultCode) : (s.takeRaising c).clock = s.clock := by unfold State.takeRaising; split <;> simp
@[simp] theorem State.takeRaising_gm (s : State) (c : FaultCode) : (s.takeRaising c).gm = s.gm := by unfold State.takeRaising; split <;> simp
@[simp] theorem State.takeRaising_rtc (s : State) (c : FaultCode) : (s.takeRaising c).rtc = s.rtc := by unfold State.takeRaising; split <;> simp
@[simp] theorem State.takeRaising_se (s : State) (c : FaultCode) : (s.takeRaising c).se = s.se := by unfold State.takeRaising; split <;> simp
@[simp] theorem State.takeRaising_rr (s : State) (c : FaultCode) : (s.takeRaising c).rr = s.rr := by unfold State.takeRaising; split <;> simp
@[simp] theorem State.takeRaising_me (s : State) (c : FaultCode) : (s.takeRaising c).me = s.me := by unfold State.takeRaising; split <;> simp
@[simp] theorem State.takeRaising_pu (s : State) (c : FaultCode) : (s.takeRaising c).pu = s.pu := by unfold State.takeRaising; split <;> simp
@[simp] theorem State.takeRaising_pending (s : State) (c : FaultCode) : (s.takeRaising c).pending = s.pending := by unfold State.takeRaising; split <;> simp

/-! ### `State.tripOn` -/

@[simp] theorem State.tripOn_held (s : State) (c : FaultCode) (t : Timer) (p : TripPart) : (s.tripOn c t p).held = s.held := by unfold State.tripOn State.onExpiry; split <;> (try split) <;> simp
@[simp] theorem State.tripOn_gm (s : State) (c : FaultCode) (t : Timer) (p : TripPart) : (s.tripOn c t p).gm = s.gm := by unfold State.tripOn State.onExpiry; split <;> (try split) <;> simp
@[simp] theorem State.tripOn_se (s : State) (c : FaultCode) (t : Timer) (p : TripPart) : (s.tripOn c t p).se = s.se := by unfold State.tripOn State.onExpiry; split <;> (try split) <;> simp
@[simp] theorem State.tripOn_rr (s : State) (c : FaultCode) (t : Timer) (p : TripPart) : (s.tripOn c t p).rr = s.rr := by unfold State.tripOn State.onExpiry; split <;> (try split) <;> simp
@[simp] theorem State.tripOn_me (s : State) (c : FaultCode) (t : Timer) (p : TripPart) : (s.tripOn c t p).me = s.me := by unfold State.tripOn State.onExpiry; split <;> (try split) <;> simp
@[simp] theorem State.tripOn_pu (s : State) (c : FaultCode) (t : Timer) (p : TripPart) : (s.tripOn c t p).pu = s.pu := by unfold State.tripOn State.onExpiry; split <;> (try split) <;> simp
@[simp] theorem State.tripOn_pending (s : State) (c : FaultCode) (t : Timer) (p : TripPart) : (s.tripOn c t p).pending = s.pending := by unfold State.tripOn State.onExpiry; split <;> (try split) <;> simp

/-! ### `State.queueRequest` -/

@[simp] theorem State.queueRequest_held (s : State) (q : Request) : (s.queueRequest q).held = s.held := by unfold State.queueRequest; split <;> simp
@[simp] theorem State.queueRequest_clock (s : State) (q : Request) : (s.queueRequest q).clock = s.clock := by unfold State.queueRequest; split <;> simp
@[simp] theorem State.queueRequest_gm (s : State) (q : Request) : (s.queueRequest q).gm = s.gm := by unfold State.queueRequest; split <;> simp
@[simp] theorem State.queueRequest_rtc (s : State) (q : Request) : (s.queueRequest q).rtc = s.rtc := by unfold State.queueRequest; split <;> simp
@[simp] theorem State.queueRequest_se (s : State) (q : Request) : (s.queueRequest q).se = s.se := by unfold State.queueRequest; split <;> simp
@[simp] theorem State.queueRequest_rr (s : State) (q : Request) : (s.queueRequest q).rr = s.rr := by unfold State.queueRequest; split <;> simp
@[simp] theorem State.queueRequest_pu (s : State) (q : Request) : (s.queueRequest q).pu = s.pu := by unfold State.queueRequest; split <;> simp
@[simp] theorem State.queueRequest_pending (s : State) (q : Request) : (s.queueRequest q).pending = s.pending := by unfold State.queueRequest; split <;> simp

/-! ### `State.putRx` -/

@[simp] theorem State.putRx_held (s : State) (p : Port) (r : RxCounters) : (s.putRx p r).held = s.held := by cases p <;> rfl
@[simp] theorem State.putRx_clock (s : State) (p : Port) (r : RxCounters) : (s.putRx p r).clock = s.clock := by cases p <;> rfl
@[simp] theorem State.putRx_gm (s : State) (p : Port) (r : RxCounters) : (s.putRx p r).gm = s.gm := by cases p <;> rfl
@[simp] theorem State.putRx_rtc (s : State) (p : Port) (r : RxCounters) : (s.putRx p r).rtc = s.rtc := by cases p <;> rfl
@[simp] theorem State.putRx_di (s : State) (p : Port) (r : RxCounters) : (s.putRx p r).di = s.di := by cases p <;> rfl
@[simp] theorem State.putRx_cm (s : State) (p : Port) (r : RxCounters) : (s.putRx p r).cm = s.cm := by cases p <;> rfl
@[simp] theorem State.putRx_se (s : State) (p : Port) (r : RxCounters) : (s.putRx p r).se = s.se := by cases p <;> rfl
@[simp] theorem State.putRx_rr (s : State) (p : Port) (r : RxCounters) : (s.putRx p r).rr = s.rr := by cases p <;> rfl
@[simp] theorem State.putRx_fmu (s : State) (p : Port) (r : RxCounters) : (s.putRx p r).fmu = s.fmu := by cases p <;> rfl
@[simp] theorem State.putRx_cu (s : State) (p : Port) (r : RxCounters) : (s.putRx p r).cu = s.cu := by cases p <;> rfl
@[simp] theorem State.putRx_me (s : State) (p : Port) (r : RxCounters) : (s.putRx p r).me = s.me := by cases p <;> rfl
@[simp] theorem State.putRx_pending (s : State) (p : Port) (r : RxCounters) : (s.putRx p r).pending = s.pending := by cases p <;> rfl

/-! ### `State.putCounter` -/

@[simp] theorem State.putCounter_held (s : State) (n : CounterName) (v : Nat) : (s.putCounter n v).held = s.held := by cases n <;> first | rfl | simp [State.putCounter]
@[simp] theorem State.putCounter_clock (s : State) (n : CounterName) (v : Nat) : (s.putCounter n v).clock = s.clock := by cases n <;> first | rfl | simp [State.putCounter]
@[simp] theorem State.putCounter_rtc (s : State) (n : CounterName) (v : Nat) : (s.putCounter n v).rtc = s.rtc := by cases n <;> first | rfl | simp [State.putCounter]
@[simp] theorem State.putCounter_cm (s : State) (n : CounterName) (v : Nat) : (s.putCounter n v).cm = s.cm := by cases n <;> first | rfl | simp [State.putCounter]
@[simp] theorem State.putCounter_se (s : State) (n : CounterName) (v : Nat) : (s.putCounter n v).se = s.se := by cases n <;> first | rfl | simp [State.putCounter]
@[simp] theorem State.putCounter_me (s : State) (n : CounterName) (v : Nat) : (s.putCounter n v).me = s.me := by cases n <;> first | rfl | simp [State.putCounter]
@[simp] theorem State.putCounter_pending (s : State) (n : CounterName) (v : Nat) : (s.putCounter n v).pending = s.pending := by cases n <;> first | rfl | simp [State.putCounter]

/-! ### `State.putChannel` -/

@[simp] theorem State.putChannel_held (s : State) (c : Chan) (e : ChannelEntry) : (s.putChannel c e).held = s.held := by unfold State.putChannel; simp only []; split <;> (try split) <;> rfl
@[simp] theorem State.putChannel_clock (s : State) (c : Chan) (e : ChannelEntry) : (s.putChannel c e).clock = s.clock := by unfold State.putChannel; simp only []; split <;> (try split) <;> rfl
@[simp] theorem State.putChannel_gm (s : State) (c : Chan) (e : ChannelEntry) : (s.putChannel c e).gm = s.gm := by unfold State.putChannel; simp only []; split <;> (try split) <;> rfl
@[simp] theorem State.putChannel_rtc (s : State) (c : Chan) (e : ChannelEntry) : (s.putChannel c e).rtc = s.rtc := by unfold State.putChannel; simp only []; split <;> (try split) <;> rfl
@[simp] theorem State.putChannel_se (s : State) (c : Chan) (e : ChannelEntry) : (s.putChannel c e).se = s.se := by unfold State.putChannel; simp only []; split <;> (try split) <;> rfl
@[simp] theorem State.putChannel_fmu (s : State) (c : Chan) (e : ChannelEntry) : (s.putChannel c e).fmu = s.fmu := by unfold State.putChannel; simp only []; split <;> (try split) <;> rfl
@[simp] theorem State.putChannel_cu (s : State) (c : Chan) (e : ChannelEntry) : (s.putChannel c e).cu = s.cu := by unfold State.putChannel; simp only []; split <;> (try split) <;> rfl
@[simp] theorem State.putChannel_me (s : State) (c : Chan) (e : ChannelEntry) : (s.putChannel c e).me = s.me := by unfold State.putChannel; simp only []; split <;> (try split) <;> rfl
@[simp] theorem State.putChannel_pu (s : State) (c : Chan) (e : ChannelEntry) : (s.putChannel c e).pu = s.pu := by unfold State.putChannel; simp only []; split <;> (try split) <;> rfl
@[simp] theorem State.putChannel_pending (s : State) (c : Chan) (e : ChannelEntry) : (s.putChannel c e).pending = s.pending := by unfold State.putChannel; simp only []; split <;> (try split) <;> rfl

/-! ### `State.storeEntry` -/

@[simp] theorem State.storeEntry_held (s : State) (e : DispatchEntry) : (s.storeEntry e).held = s.held := by unfold State.storeEntry; split <;> (try split) <;> (try split) <;> simp
@[simp] theorem State.storeEntry_clock (s : State) (e : DispatchEntry) : (s.storeEntry e).clock = s.clock := by unfold State.storeEntry; split <;> (try split) <;> (try split) <;> simp
@[simp] theorem State.storeEntry_gm (s : State) (e : DispatchEntry) : (s.storeEntry e).gm = s.gm := by unfold State.storeEntry; split <;> (try split) <;> (try split) <;> simp
@[simp] theorem State.storeEntry_rtc (s : State) (e : DispatchEntry) : (s.storeEntry e).rtc = s.rtc := by unfold State.storeEntry; split <;> (try split) <;> (try split) <;> simp
@[simp] theorem State.storeEntry_se (s : State) (e : DispatchEntry) : (s.storeEntry e).se = s.se := by unfold State.storeEntry; split <;> (try split) <;> (try split) <;> simp
@[simp] theorem State.storeEntry_rr (s : State) (e : DispatchEntry) : (s.storeEntry e).rr = s.rr := by unfold State.storeEntry; split <;> (try split) <;> (try split) <;> simp
@[simp] theorem State.storeEntry_me (s : State) (e : DispatchEntry) : (s.storeEntry e).me = s.me := by unfold State.storeEntry; split <;> (try split) <;> (try split) <;> simp
@[simp] theorem State.storeEntry_pu (s : State) (e : DispatchEntry) : (s.storeEntry e).pu = s.pu := by unfold State.storeEntry; split <;> (try split) <;> (try split) <;> simp
@[simp] theorem State.storeEntry_pending (s : State) (e : DispatchEntry) : (s.storeEntry e).pending = s.pending := by unfold State.storeEntry; split <;> (try split) <;> (try split) <;> simp

/-! ### `State.restartNow` -/

@[simp] theorem State.restartNow_held (s : State) : (s.restartNow).held = s.held := rfl
@[simp] theorem State.restartNow_clock (s : State) : (s.restartNow).clock = s.clock := rfl
@[simp] theorem State.restartNow_pending (s : State) : (s.restartNow).pending = s.pending := rfl

/-! ### `State.powerOn` -/

@[simp] theorem State.powerOn_pending (s : State) : (s.powerOn).pending = s.pending := rfl

/-! ### `State.takeRaisings` -/

@[simp] theorem State.takeRaisings_held (s : State) : (s.takeRaisings).held = s.held := by unfold State.takeRaisings; simp
@[simp] theorem State.takeRaisings_clock (s : State) : (s.takeRaisings).clock = s.clock := by unfold State.takeRaisings; simp
@[simp] theorem State.takeRaisings_gm (s : State) : (s.takeRaisings).gm = s.gm := by unfold State.takeRaisings; simp
@[simp] theorem State.takeRaisings_rtc (s : State) : (s.takeRaisings).rtc = s.rtc := by unfold State.takeRaisings; simp
@[simp] theorem State.takeRaisings_se (s : State) : (s.takeRaisings).se = s.se := by unfold State.takeRaisings; simp
@[simp] theorem State.takeRaisings_rr (s : State) : (s.takeRaisings).rr = s.rr := by unfold State.takeRaisings; simp
@[simp] theorem State.takeRaisings_me (s : State) : (s.takeRaisings).me = s.me := by unfold State.takeRaisings; simp
@[simp] theorem State.takeRaisings_pu (s : State) : (s.takeRaisings).pu = s.pu := by unfold State.takeRaisings; simp
@[simp] theorem State.takeRaisings_pending (s : State) : (s.takeRaisings).pending = s.pending := by unfold State.takeRaisings; simp

/-! ### `State.finishReport` -/

@[simp] theorem State.finishReport_held (s : State) : (s.finishReport).held = s.held := by unfold State.finishReport; simp only []; split <;> (try split) <;> simp
@[simp] theorem State.finishReport_clock (s : State) : (s.finishReport).clock = s.clock := by unfold State.finishReport; simp only []; split <;> (try split) <;> simp
@[simp] theorem State.finishReport_gm (s : State) : (s.finishReport).gm = s.gm := by unfold State.finishReport; simp only []; split <;> (try split) <;> simp
@[simp] theorem State.finishReport_rtc (s : State) : (s.finishReport).rtc = s.rtc := by unfold State.finishReport; simp only []; split <;> (try split) <;> simp
@[simp] theorem State.finishReport_se (s : State) : (s.finishReport).se = s.se := by unfold State.finishReport; simp only []; split <;> (try split) <;> simp
@[simp] theorem State.finishReport_me (s : State) : (s.finishReport).me = s.me := by unfold State.finishReport; simp only []; split <;> (try split) <;> simp
@[simp] theorem State.finishReport_pending (s : State) : (s.finishReport).pending = s.pending := by unfold State.finishReport; simp only []; split <;> (try split) <;> simp

/-! ### `State.settleReports` -/

@[simp] theorem State.settleReports_held (s : State) : (s.settleReports).held = s.held := by unfold State.settleReports; simp
@[simp] theorem State.settleReports_clock (s : State) : (s.settleReports).clock = s.clock := by unfold State.settleReports; simp
@[simp] theorem State.settleReports_gm (s : State) : (s.settleReports).gm = s.gm := by unfold State.settleReports; simp
@[simp] theorem State.settleReports_rtc (s : State) : (s.settleReports).rtc = s.rtc := by unfold State.settleReports; simp
@[simp] theorem State.settleReports_se (s : State) : (s.settleReports).se = s.se := by unfold State.settleReports; simp
@[simp] theorem State.settleReports_me (s : State) : (s.settleReports).me = s.me := by unfold State.settleReports; simp
@[simp] theorem State.settleReports_pending (s : State) : (s.settleReports).pending = s.pending := by unfold State.settleReports; simp

/-! ### `State.takeExpiry` -/

@[simp] theorem State.takeExpiry_held (s : State) : (s.takeExpiry).held = s.held := by unfold State.takeExpiry; split <;> simp
@[simp] theorem State.takeExpiry_clock (s : State) : (s.takeExpiry).clock = s.clock := by unfold State.takeExpiry; split <;> simp
@[simp] theorem State.takeExpiry_gm (s : State) : (s.takeExpiry).gm = s.gm := by unfold State.takeExpiry; split <;> simp
@[simp] theorem State.takeExpiry_rtc (s : State) : (s.takeExpiry).rtc = s.rtc := by unfold State.takeExpiry; split <;> simp
@[simp] theorem State.takeExpiry_se (s : State) : (s.takeExpiry).se = s.se := by unfold State.takeExpiry; split <;> simp
@[simp] theorem State.takeExpiry_me (s : State) : (s.takeExpiry).me = s.me := by unfold State.takeExpiry; split <;> simp
@[simp] theorem State.takeExpiry_pending (s : State) : (s.takeExpiry).pending = s.pending := by unfold State.takeExpiry; split <;> simp

/-! ### `State.takeReport` -/

@[simp] theorem State.takeReport_held (s : State) : (s.takeReport).held = s.held := by unfold State.takeReport; split <;> simp
@[simp] theorem State.takeReport_clock (s : State) : (s.takeReport).clock = s.clock := by unfold State.takeReport; split <;> simp
@[simp] theorem State.takeReport_gm (s : State) : (s.takeReport).gm = s.gm := by unfold State.takeReport; split <;> simp
@[simp] theorem State.takeReport_rtc (s : State) : (s.takeReport).rtc = s.rtc := by unfold State.takeReport; split <;> simp
@[simp] theorem State.takeReport_se (s : State) : (s.takeReport).se = s.se := by unfold State.takeReport; split <;> simp
@[simp] theorem State.takeReport_me (s : State) : (s.takeReport).me = s.me := by unfold State.takeReport; split <;> simp
@[simp] theorem State.takeReport_pending (s : State) : (s.takeReport).pending = s.pending := by unfold State.takeReport; split <;> simp

/-! ### `State.endTrippingReport` -/

@[simp] theorem State.endTrippingReport_held (s : State) : (s.endTrippingReport).held = s.held := by unfold State.endTrippingReport; split <;> simp
@[simp] theorem State.endTrippingReport_clock (s : State) : (s.endTrippingReport).clock = s.clock := by unfold State.endTrippingReport; split <;> simp
@[simp] theorem State.endTrippingReport_gm (s : State) : (s.endTrippingReport).gm = s.gm := by unfold State.endTrippingReport; split <;> simp
@[simp] theorem State.endTrippingReport_rtc (s : State) : (s.endTrippingReport).rtc = s.rtc := by unfold State.endTrippingReport; split <;> simp
@[simp] theorem State.endTrippingReport_se (s : State) : (s.endTrippingReport).se = s.se := by unfold State.endTrippingReport; split <;> simp
@[simp] theorem State.endTrippingReport_me (s : State) : (s.endTrippingReport).me = s.me := by unfold State.endTrippingReport; split <;> simp
@[simp] theorem State.endTrippingReport_pending (s : State) : (s.endTrippingReport).pending = s.pending := by unfold State.endTrippingReport; split <;> simp

/-! ### `State.settle` -/

@[simp] theorem State.settle_held (s : State) : (s.settle).held = s.held := by unfold State.settle; simp
@[simp] theorem State.settle_clock (s : State) : (s.settle).clock = s.clock := by unfold State.settle; simp
@[simp] theorem State.settle_gm (s : State) : (s.settle).gm = s.gm := by unfold State.settle; simp
@[simp] theorem State.settle_rtc (s : State) : (s.settle).rtc = s.rtc := by unfold State.settle; simp
@[simp] theorem State.settle_me (s : State) : (s.settle).me = s.me := by unfold State.settle; simp
@[simp] theorem State.settle_pending (s : State) : (s.settle).pending = s.pending := by unfold State.settle; simp

end Sys2Proof.Machine
end

