-- ==== Sys2Proof/Laws/Control.lean ====
section
/-! SUPPORT. The control forms that commands share: a held part, an expiry, a request served, an entry of a WRITE. One
lemma each says everything the form can do, and one says when it acts. -/

namespace Sys2Proof.Machine

theorem State.live_of_held {f : State → State} {s : State} (h : s.held = true) : s.live f = s := by
  simp [State.live, h]

theorem State.live_of_not_held {f : State → State} {s : State} (h : s.held = false) : s.live f = f s := by
  simp [State.live, h]

theorem State.live_ind {P : State → Prop} {f : State → State} {s : State} (h0 : P s)
    (h : s.held = false → P (f s)) : P (s.live f) := by
  cases hs : s.held with
  | true => rw [State.live_of_held hs]; exact h0
  | false => rw [State.live_of_not_held hs]; exact h hs

@[simp] theorem State.onExpiry_none (f : State → State) (s : State) : s.onExpiry none f = s := rfl

@[simp] theorem State.onExpiry_some (m : Nat) (f : State → State) (s : State) :
    s.onExpiry (some m) f = f (s.advanceMs m) := rfl

theorem State.onExpiry_ind {P : State → Prop} {t : Timer} {f : State → State} {s : State} (h0 : P s)
    (h : ∀ m, t = some m → P (f (s.advanceMs m))) : P (s.onExpiry t f) := by
  cases t with
  | none => exact h0
  | some m => exact h m rfl

theorem State.serve_of_serves {op : Operation} {o : Object} {accepts : Request → Bool} {f : Service} {s : State}
    {q : Request} (h : s.serves q op o) (ha : accepts q = true) :
    s.serve op o accepts f = (f q s).1.answer q (f q s).2 := by
  obtain ⟨_, hr, hq, hi⟩ := h
  unfold State.serve
  cases hl : s.me.queue with
  | nil => simp [hl] at hq
  | cons x l => simp [hl] at hq; subst hq; simp [hr, hi, ha]

theorem State.serve_ind {P : State → Prop} {op : Operation} {o : Object} {accepts : Request → Bool} {f : Service}
    {s : State} (h0 : P s)
    (h : ∀ q, s.me.queue.head? = some q → q.isFor op o = true → accepts q = true →
      P ((f q s).1.answer q (f q s).2)) :
    P (s.serve op o accepts f) := by
  unfold State.serve
  split
  · exact h0
  · rename_i q l hq
    split
    · rename_i hc; exact h q (by simp [hq]) hc.2.1 hc.2.2
    · exact h0

/-- What the command does when the entry that is decided next is its own. -/
theorem State.serveEntry_of_serves {o : Object} {owns : Nat → Bool} {d : EntryDecision} {s : State} {q : Request}
    (h : s.serves q .write o) (ho : owns (s.entryIndex q) = true) :
    s.serveEntry o owns d =
      match d (s.entryIndex q) (s.entryData q (recordSize o)) s with
      | .error r => s.answer q { q.answered r with index := s.entryIndex q, count := s.me.accepted }
      | .ok s' =>
        if q.count ≤ s.me.accepted + 1 then s'.answer q (q.done [])
        else { s' with me := { s'.me with accepted := s.me.accepted + 1 } } := by
  obtain ⟨_, hr, hq, hi⟩ := h
  unfold State.serveEntry
  cases hl : s.me.queue with
  | nil => simp [hl] at hq
  | cons x l =>
    simp [hl] at hq
    subst hq
    exact if_pos ⟨hr, hi, ho⟩

theorem State.serveEntry_ind {P : State → Prop} {o : Object} {owns : Nat → Bool} {d : EntryDecision} {s : State}
    (h0 : P s)
    (herr : ∀ q r, s.me.queue.head? = some q → P (s.answer q r))
    (hok : ∀ q s', s.me.queue.head? = some q → q.isFor .write o = true → owns (s.entryIndex q) = true →
      d (s.entryIndex q) (s.entryData q (recordSize o)) s = .ok s' →
      P (s'.answer q (q.done [])) ∧ P { s' with me := { s'.me with accepted := s.me.accepted + 1 } }) :
    P (s.serveEntry o owns d) := by
  unfold State.serveEntry
  split
  · exact h0
  · rename_i q l hq
    split
    · rename_i hc
      split
      · exact herr q _ (by simp [hq])
      · rename_i s' hd
        have := hok q s' (by simp [hq]) hc.2.1 hc.2.2 hd
        split
        · exact this.1
        · exact this.2
    · exact h0

end Sys2Proof.Machine
end

