-- ==== Sys2Proof/Laws/Faults.lean ====
section
/-! SUPPORT. Raising a fault: what the list does with a raising, and what a raising does to the rest of the part. -/

namespace Sys2Proof.Machine

/-- The graver of two classes is TRIP exactly when one of them is. -/
theorem FaultClass.graver_eq_trip_iff (a b : FaultClass) : a.graver b = .trip ↔ a = .trip ∨ b = .trip := by
  cases a <;> cases b <;> decide

/-- The graver of two classes is NOTE exactly when both are. -/
theorem FaultClass.graver_eq_note_iff (a b : FaultClass) : a.graver b = .note ↔ a = .note ∧ b = .note := by
  cases a <;> cases b <;> decide

/-- A class is grave exactly when it is not NOTE. -/
theorem FaultClass.grave_iff (a : FaultClass) : a.grave = true ↔ a ≠ .note := by cases a <;> decide

theorem dropNewestNote_eq_none_iff (l : List FaultEntry) : dropNewestNote l = none ↔ ∀ e ∈ l, e.cls ≠ .note := by
  induction l with
  | nil => simp [dropNewestNote]
  | cons e l ih =>
    unfold dropNewestNote
    cases h : dropNewestNote l with
    | some l' =>
      have h' : ¬∀ e ∈ l, e.cls ≠ .note := by rw [← ih, h]; simp
      simp only [reduceCtorEq, List.mem_cons, forall_eq_or_imp, false_iff, not_and]
      exact fun _ => h'
    | none =>
      have h' := ih.mp h
      by_cases he : e.cls = .note
      · simp [he]
      · simp only [he, if_false, List.mem_cons, forall_eq_or_imp, ne_eq, not_false_eq_true, true_and, true_iff]
        exact h'

/-- The newest NOTE entry is the one that leaves. -/
theorem dropNewestNote_of_last (l1 l2 : List FaultEntry) (e : FaultEntry) (he : e.cls = .note)
    (h : ∀ x ∈ l2, x.cls ≠ .note) : dropNewestNote (l1 ++ e :: l2) = some (l1 ++ l2) := by
  induction l1 with
  | nil => simp [dropNewestNote, (dropNewestNote_eq_none_iff l2).mpr h, he]
  | cons x l ih => simp [dropNewestNote, ih]

theorem dropNewestNote_sublist {l l' : List FaultEntry} (h : dropNewestNote l = some l') :
    l'.Sublist l ∧ l'.length + 1 = l.length := by
  induction l generalizing l' with
  | nil => simp [dropNewestNote] at h
  | cons e l ih =>
    unfold dropNewestNote at h
    split at h
    · rename_i l2 h2; cases h; exact ⟨(ih h2).1.cons_cons e, by simp [(ih h2).2]⟩
    · split at h
      · cases h; exact ⟨List.sublist_cons_self _ _, rfl⟩
      · cases h

/-- Everything that taking a raising into the list can do. -/
theorem FaultModeUnit.record_cases (f : FaultModeUnit) (r : Raising) (now : BitVec 32) (g : Option (BitVec 16))
    {P : FaultModeUnit → Prop}
    (hrep : f.faults.any (fun e => e.matches r) = true →
      P { f with faults := f.faults.map fun e => if e.matches r then e.repeated r else e })
    (hnew : f.faults.any (fun e => e.matches r) = false → f.faults.length < 32 →
      P { f with faults := f.faults ++ [{ code := r.code, cls := r.cls, subject := r.subject, time := now,
                                          gridSeq := g, count := 1 }],
                 summary := { f.summary with fault := true } })
    (hdis : f.faults.any (fun e => e.matches r) = false → 32 ≤ f.faults.length → r.cls ≠ .note →
      ∀ l, dropNewestNote f.faults = some l →
      P { f with faults := l ++ [{ code := r.code, cls := r.cls, subject := r.subject, time := now, gridSeq := g,
                                   count := 1 }],
                 summary := { f.summary with fault := true }, dropped := f.dropped + 1 })
    (hlost : f.faults.any (fun e => e.matches r) = false → 32 ≤ f.faults.length → r.cls ≠ .note →
      dropNewestNote f.faults = none →
      P { f with dropped := f.dropped + 1, droppedTrip := f.droppedTrip || decide (r.cls = .trip) })
    (hnote : f.faults.any (fun e => e.matches r) = false → 32 ≤ f.faults.length → r.cls = .note →
      P { f with dropped := f.dropped + 1 }) :
    P (f.record r now g) := by
  unfold FaultModeUnit.record
  cases ha : f.faults.any (fun e => e.matches r) with
  | true => simpa using hrep ha
  | false =>
    simp only [Bool.false_eq_true, if_false]
    split
    · rename_i hl; exact hnew ha (by simpa [Config.faultDepth] using hl)
    · rename_i hl
      have hl : 32 ≤ f.faults.length := by simpa [Config.faultDepth] using hl
      split
      · rename_i hg
        have hn := (FaultClass.grave_iff _).mp hg
        split
        · exact hdis ha hl hn _ ‹_›
        · exact hlost ha hl hn ‹_›
      · rename_i hg
        exact hnote ha hl (by cases h : r.cls <;> simp_all [FaultClass.grave])

@[simp] theorem FaultModeUnit.record_mode (f : FaultModeUnit) (r : Raising) (n : BitVec 32)
    (g : Option (BitVec 16)) : (f.record r n g).mode = f.mode := by
  apply FaultModeUnit.record_cases f r n g (P := fun x => x.mode = f.mode) <;> intros <;> rfl

@[simp] theorem FaultModeUnit.record_mask (f : FaultModeUnit) (r : Raising) (n : BitVec 32)
    (g : Option (BitVec 16)) : (f.record r n g).mask = f.mask := by
  apply FaultModeUnit.record_cases f r n g (P := fun x => x.mask = f.mask) <;> intros <;> rfl

/-- A raising that is not TRIP-class in RUN only records. -/
theorem State.raise_eq_record {s : State} {r : Raising} (h : ¬(r.cls = .trip ∧ s.fmu.mode = .run)) :
    s.raise r = { s with fmu := s.fmu.record r s.timeBase s.gm.seqState } := by
  unfold State.raise; simp only []; rw [if_neg h]

/-- A TRIP-class raising in RUN records and enters HALT. -/
theorem State.raise_eq_halt {s : State} {r : Raising} (h1 : r.cls = .trip) (h2 : s.fmu.mode = .run) :
    s.raise r = State.enterHalt { s with fmu := s.fmu.record r s.timeBase s.gm.seqState } := by
  unfold State.raise; simp only []; rw [if_pos ⟨h1, h2⟩]

/-- Raisings none of which is TRIP-class only record. -/
theorem State.raiseAll_eq_record {s : State} {l : List Raising} (h : ∀ r ∈ l, r.cls ≠ .trip) :
    s.raiseAll l = { s with fmu := l.foldl (fun f r => f.record r s.timeBase s.gm.seqState) s.fmu } := by
  unfold State.raiseAll
  induction l generalizing s with
  | nil => rfl
  | cons r l ih =>
    rw [List.foldl_cons, ih (fun x hx => h x (List.mem_cons_of_mem _ hx)),
      State.raise_eq_record (fun hc => h r List.mem_cons_self hc.1)]
    rfl

/-- Outside RUN raisings only record, whatever their class. -/
theorem State.raiseAll_eq_record_of_not_run {s : State} {l : List Raising} (h : s.fmu.mode ≠ .run) :
    s.raiseAll l = { s with fmu := l.foldl (fun f r => f.record r s.timeBase s.gm.seqState) s.fmu } := by
  unfold State.raiseAll
  induction l generalizing s with
  | nil => rfl
  | cons r l ih =>
    rw [List.foldl_cons, State.raise_eq_record (fun hc => h hc.2), ih (by simpa using h)]
    rfl

/-- Everything that the taking of the waiting raisings does outside RUN. -/
theorem State.takeRaisings_of_not_run {s : State} (h : s.fmu.mode ≠ .run) :
    s.takeRaisings = { s with
      fmu := s.fmu.handed.foldl (fun f r => f.record r s.timeBase s.gm.seqState) { s.fmu with handed := [] } } := by
  unfold State.takeRaisings
  rw [State.raiseAll_eq_record_of_not_run (by simpa using h)]
  rfl

/-- With no raising waiting nothing is taken. -/
theorem State.takeRaisings_of_nil {s : State} (h : s.fmu.handed = []) : s.takeRaisings = s := by
  obtain ⟨held, clock, gm, rtc, di, cm, se, rr, ⟨_, _, _, _, _, _, _⟩, cu, me, pu, pending⟩ := s
  cases h
  rfl

end Sys2Proof.Machine
end

