-- ==== Sys2Proof/Laws/Cycle.lean ====
section
/-! SUPPORT. The work of a cycle start and of a report, part by part: what each part leaves when its turn has come, and
that it is the identity when it has not, or when its turn has passed. -/

namespace Sys2Proof.Machine

/-! ### The Setpoint Engine's work -/

/-- Nothing is read while no gathering is in progress. -/
theorem State.readDemands_of_not_gathering {s : State} (h : ∀ g, s.se.work ≠ .gathering g) : s.readDemands = s := by
  unfold State.readDemands; split
  · exact absurd ‹_› (h _)
  · rfl

theorem State.readStanding_of_not_gathering {s : State} (h : ∀ g, s.se.work ≠ .gathering g) : s.readStanding = s := by
  unfold State.readStanding; split
  · exact absurd ‹_› (h _)
  · rfl

theorem State.readVoltage_of_not_gathering {s : State} (h : ∀ g, s.se.work ≠ .gathering g) : s.readVoltage = s := by
  unfold State.readVoltage; split
  · exact absurd ‹_› (h _)
  · rfl

theorem State.requestChannels_of_not_gathering {s : State} (h : ∀ g, s.se.work ≠ .gathering g) :
    s.requestChannels = s := by
  unfold State.requestChannels
  rw [State.readDemands_of_not_gathering h, State.readStanding_of_not_gathering h]
  simp only
  split
  · exact absurd ‹_› (h _)
  · rfl

theorem State.closeCycle_of_not_gathering {s : State} (h : ∀ g, s.se.work ≠ .gathering g) : s.closeCycle = s := by
  unfold State.closeCycle
  rw [State.readVoltage_of_not_gathering h, State.requestChannels_of_not_gathering h]
  have hi : s.inputs = none := by
    unfold State.inputs; split
    · exact absurd ‹_› (h _)
    · rfl
  simp only [hi]

/-- The demands are read once (R84, R93). -/
theorem State.readDemands_eq {s : State} {g : Gathering} (h : s.se.work = .gathering g) (hd : g.demands = none) :
    s.readDemands = State.atWork (.gathering { g with demands := some { store := s.di.store, tag := s.di.pendingTag } })
      { s with di := { s.di with appliedTag := s.di.pendingTag } } := by
  obtain ⟨d, st, v, a⟩ := g
  cases hd
  unfold State.readDemands; rw [h]

/-- The controller answers once (R42, R93). -/
theorem State.readStanding_eq {s : State} {g : Gathering} (h : s.se.work = .gathering g) (hd : g.standing = none) :
    s.readStanding = s.atWork (.gathering { g with standing := some {
      rtc := s.rtc.state, active := s.rtc.active, blocking := s.rtc.blocking, allowance := s.allowanceNow } }) := by
  obtain ⟨d, st, v, a⟩ := g
  cases hd
  unfold State.readStanding; rw [h]

/-- v_last is read once (R93). -/
theorem State.readVoltage_eq {s : State} {g : Gathering} (h : s.se.work = .gathering g) (hd : g.vLast = none) :
    s.readVoltage = s.atWork (.gathering { g with vLast := some s.gm.vLast }) := by
  obtain ⟨d, st, v, a⟩ := g
  cases hd
  unfold State.readVoltage; rw [h]

/-- A reading that has been made stands. -/
theorem State.readDemands_of_read {s : State} {g : Gathering} (h : s.se.work = .gathering g) (hd : g.demands ≠ none) :
    s.readDemands = s := by
  unfold State.readDemands; split
  · rename_i hw; rw [h] at hw; cases hw; exact absurd rfl hd
  · rfl

theorem State.readStanding_of_read {s : State} {g : Gathering} (h : s.se.work = .gathering g)
    (hd : g.standing ≠ none) : s.readStanding = s := by
  unfold State.readStanding; split
  · rename_i hw; rw [h] at hw; cases hw; exact absurd rfl hd
  · rfl

theorem State.readVoltage_of_read {s : State} {g : Gathering} (h : s.se.work = .gathering g) (hd : g.vLast ≠ none) :
    s.readVoltage = s := by
  unfold State.readVoltage; split
  · rename_i hw; rw [h] at hw; cases hw; exact absurd rfl hd
  · rfl

/-- The request after the readings it carries: the start examination with the part mode that stands then (R59, R94). -/
theorem State.requestChannels_eq {s : State} {g : Gathering} {d : DemandReading} {st : Standing}
    (h : s.se.work = .gathering g) (hd : g.demands = some d) (hs : g.standing = some st) (ha : g.answer = none) :
    s.requestChannels = State.atWork (.gathering { g with
        answer := some (s.fmu.mode, (s.cm.examine s.fmu.mode st.rtc d.store s.ms).answer) })
      { s with cm := s.cm.examine s.fmu.mode st.rtc d.store s.ms } := by
  obtain ⟨gd, gst, gv, ga⟩ := g
  cases hd; cases hs; cases ha
  unfold State.requestChannels
  rw [State.readDemands_of_read h (by simp), State.readStanding_of_read h (by simp)]
  simp only [h]

/-- An allocation whose inputs are all gathered is closed over them (R101, R102, R105). -/
theorem State.closeCycle_eq {s : State} {i : CycleInputs} (h : s.inputs = some i) :
    s.closeCycle = s.closeAllocation i := by
  have hw : ∃ d st v a, s.se.work =
      .gathering { demands := some d, standing := some st, vLast := some v, answer := some a } := by
    unfold State.inputs at h; split at h
    · exact ⟨_, _, _, _, ‹_›⟩
    · cases h
  obtain ⟨d, st, v, a, hw⟩ := hw
  have hr : s.requestChannels = s := by
    unfold State.requestChannels
    rw [State.readDemands_of_read hw (by simp), State.readStanding_of_read hw (by simp)]
    simp only [hw]
  unfold State.closeCycle
  rw [State.readVoltage_of_read hw (by simp), hr]
  simp only [h]

/-- Closing always leaves a closed allocation, once every input is gathered. -/
@[simp] theorem State.closeAllocation_work (s : State) (i : CycleInputs) : (s.closeAllocation i).se.work =
    .closed { inputs := i, cmd := i.allocate.cmd, contention := joinContention s.se.contention i.allocate.noted } := rfl

/-- The setpoint frame of a closed allocation (R107, R110). -/
theorem State.handSetpointFrame_eq {s : State} {w : ClosedCycle} (h : s.se.work = .closed w) :
    s.handSetpointFrame =
      if w.inputs.mode = .load then s.atWork (.building w .none)
      else (s.atWork (.building w .none)).onD (PortD.handSetpoint s.clock (s.setpointFrame w)) := by
  unfold State.handSetpointFrame
  rw [State.closeCycle_of_not_gathering (by simp [h])]
  simp only [h]
  rfl

/-- The setpoint frame is handed once. -/
theorem State.handSetpointFrame_of_building {s : State} {w : ClosedCycle} {v : StatusReadings}
    (h : s.se.work = .building w v) : s.handSetpointFrame = s := by
  unfold State.handSetpointFrame
  rw [State.closeCycle_of_not_gathering (by simp [h])]
  simp only [h]

/-- One owner's fields are read while the status frame is built (R109). -/
theorem State.lookAt_eq {s : State} {w : ClosedCycle} {v : StatusReadings} (o : StatusOwner)
    (h : s.se.work = .building w v) : s.lookAt o = s.atWork (.building w (s.readOwner o v)) := by
  unfold State.lookAt
  rw [State.handSetpointFrame_of_building h]
  simp only [h]

/-- The status frame ends the work (R108). -/
theorem State.handStatusFrame_eq {s : State} {w : ClosedCycle} {v : StatusReadings} (h : s.se.work = .building w v) :
    s.handStatusFrame = (s.atWork .idle).onU (PortU.handStatus s.clock (s.statusFrame w v)) := by
  unfold State.handStatusFrame
  rw [State.handSetpointFrame_of_building h]
  simp only [h]

/-- With no work in progress there is no frame to hand. -/
theorem State.handStatusFrame_of_idle {s : State} (h : s.se.work = .idle) : s.handStatusFrame = s := by
  have hs : s.handSetpointFrame = s := by
    unfold State.handSetpointFrame
    rw [State.closeCycle_of_not_gathering (by simp [h])]
    simp only [h]
  unfold State.handStatusFrame
  rw [hs]
  simp only [h]

/-! ### The Report Receiver's work -/

theorem State.finishReport_of_idle {s : State} (h : s.rr.work = .idle) : s.finishReport = s := by
  have hh : s.handEvents = s := by unfold State.handEvents; simp only [h]
  unfold State.finishReport
  rw [hh]
  simp only [h]

theorem State.decideLoss_of_none {s : State} (h : s.rr.testDue = none) : s.decideLoss = s := by
  unfold State.decideLoss; simp only [h]

/-- With no work in progress and no test due there is nothing to end. -/
theorem State.settleReports_of_idle {s : State} (h : s.rr.work = .idle) (ht : s.rr.testDue = none) :
    s.settleReports = s := by
  unfold State.settleReports
  rw [State.finishReport_of_idle h, State.decideLoss_of_none ht, State.finishReport_of_idle h]

/-- The events decided are applied to the states the Channel Manager now holds (R120). -/
theorem State.handEvents_eq {s : State} {events : Vector (Option ChannelEvent) 16} {faults : List Raising}
    {forward : Option Frame} (h : s.rr.work = .decided events faults forward) :
    s.handEvents = { s with
      cm := s.cm.takeEvents (fun c => events[c]), rr := { s.rr with work := .handed faults forward } } := by
  unfold State.handEvents; simp only [h]

/-- After the events the faults are raised and a report goes on (R117, R120). -/
theorem State.finishReport_of_handed {s : State} {faults : List Raising} {forward : Option Frame}
    (h : s.rr.work = .handed faults forward) :
    s.finishReport = match forward with
      | none => State.raiseAll faults { s with rr := { s.rr with work := .idle } }
      | some f =>
        let t := State.raiseAll faults { s with rr := { s.rr with work := .idle } }
        t.onU (PortU.handForward t.clock f) := by
  have hh : s.handEvents = s := by unfold State.handEvents; simp only [h]
  unfold State.finishReport
  rw [hh]
  simp only [h]
  cases forward <;> rfl

/-- Work with no TRIP-class fault to raise goes on. -/
theorem State.endTrippingReport_of_no_trip {s : State} (h : ∀ r ∈ s.rr.work.faults, r.cls ≠ .trip) :
    s.endTrippingReport = s := by
  unfold State.endTrippingReport; simpa using fun r hr hc => absurd hc (h r hr)

/-- Work with a TRIP-class fault to raise is ended. -/
theorem State.endTrippingReport_of_trip {s : State} (h : ∃ r ∈ s.rr.work.faults, r.cls = .trip) :
    s.endTrippingReport = s.finishReport := by
  unfold State.endTrippingReport; simp [h]

/-- An expiry that is not due leaves the Report Receiver as it is. -/
theorem State.takeExpiry_of_not_due {s : State} (h : s.rr.expiryDue = false) : s.takeExpiry = s := by
  unfold State.takeExpiry; simp [h]

/-- Of a settled part nothing is left to end. -/
theorem State.settle_of_settled {s : State} (h : s.settled) : s.settle = s := by
  obtain ⟨hw, hr, ht, he⟩ := h
  unfold State.settle
  rw [State.handStatusFrame_of_idle hw, State.takeExpiry_of_not_due he, State.settleReports_of_idle hr ht]

end Sys2Proof.Machine
end

