-- ==== Sys2Proof/Laws/Transmit.lean ====
section
/-! SUPPORT. The transmitters of ports U and D: what each hand-over does, and what a free transmitter takes. -/

namespace Sys2Proof.Machine

/-- What a transmission of a frame holds the link for, in periods of the reference clock (R185). -/
theorem holdClocks_eq (f : Frame) : holdClocks f = 2 * (f.length + 20) := by
  unfold holdClocks Config.clocksPerUs; omega

/-! ### Port U -/

/-- A transmitter that is sending takes nothing. -/
theorem PortU.serve_of_sending {p : PortU} (c : Nat) (h : p.sending.isSome = true) : p.serve c = p := by
  cases hs : p.sending with
  | none => simp [hs] at h
  | some x => unfold PortU.serve; simp [hs]

theorem PortU.serve_of_slot {p : PortU} (c : Nat) {f : Frame} (h : p.sending = none) (hs : p.slot = some f) :
    p.serve c = { p with slot := none, sending := some (beginSending c (plainOut f)) } := by
  unfold PortU.serve; simp [h, hs]

theorem PortU.serve_of_reply {p : PortU} (c : Nat) {o : OutFrame} {q : List OutFrame} (h : p.sending = none)
    (hs : p.slot = none) (hr : p.replies = o :: q) :
    p.serve c = { p with replies := q, sending := some (beginSending c o) } := by
  unfold PortU.serve; simp [h, hs, hr]

theorem PortU.serve_of_forwarding {p : PortU} (c : Nat) {f : Frame} {q : List Frame} (h : p.sending = none)
    (hs : p.slot = none) (hr : p.replies = []) (hf : p.forwarding = f :: q) :
    p.serve c = { p with forwarding := q, sending := some (beginSending c (plainOut f)) } := by
  unfold PortU.serve; simp [h, hs, hr, hf]

theorem PortU.serve_of_empty {p : PortU} (c : Nat) (hs : p.slot = none) (hr : p.replies = [])
    (hf : p.forwarding = []) : p.serve c = p := by
  unfold PortU.serve; simp only [hs, hr, hf]; split <;> simp_all

/-- Everything a transmitter can take: it changes only what waits and what is being sent. -/
theorem PortU.serve_ind {P : PortU → Prop} {p : PortU} {c : Nat} (h0 : P p)
    (h1 : ∀ f, p.sending = none → p.slot = some f →
      P { p with slot := none, sending := some (beginSending c (plainOut f)) })
    (h2 : ∀ o q, p.sending = none → p.slot = none → p.replies = o :: q →
      P { p with replies := q, sending := some (beginSending c o) })
    (h3 : ∀ f q, p.sending = none → p.slot = none → p.replies = [] → p.forwarding = f :: q →
      P { p with forwarding := q, sending := some (beginSending c (plainOut f)) }) : P (p.serve c) := by
  unfold PortU.serve
  split
  · exact h0
  · exact h1 _ ‹_› ‹_›
  · exact h2 _ _ ‹_› ‹_› ‹_›
  · exact h3 _ _ ‹_› ‹_› ‹_› ‹_›
  · exact h0

theorem PortU.handReply_down {p : PortU} (c : Nat) (o : OutFrame) (h : p.up = false) :
    p.handReply c o = { p with tx := { p.tx with discards := p.tx.discards + 1 } } := by
  simp [PortU.handReply, h, TxCounters.discard]

theorem PortU.handReply_full {p : PortU} (c : Nat) (o : OutFrame) (h : p.up = true) (hl : 4 ≤ p.replies.length) :
    p.handReply c o = { p with replyDrops := p.replyDrops + 1 } := by
  simp [PortU.handReply, h, Config.replyDepth, hl]

theorem PortU.handReply_room {p : PortU} (c : Nat) (o : OutFrame) (h : p.up = true) (hl : p.replies.length < 4) :
    p.handReply c o = PortU.serve c { p with replies := p.replies ++ [o] } := by
  have hl' : ¬(4 ≤ p.replies.length) := by omega
  simp [PortU.handReply, h, Config.replyDepth, hl']

theorem PortU.handStatus_down {p : PortU} (c : Nat) (f : Frame) (h : p.up = false) :
    p.handStatus c f = { p with tx := { p.tx with discards := p.tx.discards + 1 } } := by
  simp [PortU.handStatus, h, TxCounters.discard]

theorem PortU.handStatus_up {p : PortU} (c : Nat) (f : Frame) (h : p.up = true) :
    p.handStatus c f = PortU.serve c { p with
      slot := some f, tx := { p.tx with overruns := p.tx.overruns + (if p.slot.isSome then 1 else 0) } } := by
  simp only [PortU.handStatus, h]
  cases p.slot.isSome <;> simp

theorem PortU.handForward_down {p : PortU} (c : Nat) (f : Frame) (h : p.up = false) :
    p.handForward c f = { p with tx := { p.tx with discards := p.tx.discards + 1 } } := by
  simp [PortU.handForward, h, TxCounters.discard]

theorem PortU.handForward_full {p : PortU} (c : Nat) (f : Frame) (h : p.up = true)
    (hl : 32 ≤ p.forwarding.length) :
    p.handForward c f = { p with tx := { p.tx with drops := p.tx.drops + 1 } } := by
  simp [PortU.handForward, h, Config.forwardDepth, hl]

theorem PortU.handForward_room {p : PortU} (c : Nat) (f : Frame) (h : p.up = true)
    (hl : p.forwarding.length < 32) :
    p.handForward c f = PortU.serve c { p with forwarding := p.forwarding ++ [f] } := by
  have hl' : ¬(32 ≤ p.forwarding.length) := by omega
  simp [PortU.handForward, h, Config.forwardDepth, hl']

/-! ### Port D -/

/-- A transmitter that is sending takes nothing. -/
theorem PortD.serve_of_sending {p : PortD} (c : Nat) (h : p.sending.isSome = true) : p.serve c = p := by
  cases hs : p.sending with
  | none => simp [hs] at h
  | some x => unfold PortD.serve; simp [hs]

theorem PortD.serve_of_slot {p : PortD} (c : Nat) {f : Frame} (h : p.sending = none) (hs : p.slot = some f) :
    p.serve c = { p with slot := none, sending := some (beginSending c (plainOut f)) } := by
  unfold PortD.serve; simp [h, hs]

theorem PortD.serve_of_passThrough {p : PortD} (c : Nat) {f : Frame} {q : List Frame} (h : p.sending = none)
    (hs : p.slot = none) (hf : p.passThrough = f :: q) :
    p.serve c = { p with passThrough := q, sending := some (beginSending c (plainOut f)) } := by
  unfold PortD.serve; simp [h, hs, hf]

theorem PortD.serve_of_empty {p : PortD} (c : Nat) (hs : p.slot = none) (hf : p.passThrough = []) :
    p.serve c = p := by
  unfold PortD.serve; simp only [hs, hf]; split <;> simp_all

/-- Everything a transmitter can take: it changes only what waits and what is being sent. -/
theorem PortD.serve_ind {P : PortD → Prop} {p : PortD} {c : Nat} (h0 : P p)
    (h1 : ∀ f, p.sending = none → p.slot = some f →
      P { p with slot := none, sending := some (beginSending c (plainOut f)) })
    (h2 : ∀ f q, p.sending = none → p.slot = none → p.passThrough = f :: q →
      P { p with passThrough := q, sending := some (beginSending c (plainOut f)) }) : P (p.serve c) := by
  unfold PortD.serve
  split
  · exact h0
  · exact h1 _ ‹_› ‹_›
  · exact h2 _ _ ‹_› ‹_› ‹_›
  · exact h0

theorem PortD.handSetpoint_down {p : PortD} (c : Nat) (f : Frame) (h : p.up = false) :
    p.handSetpoint c f = { p with tx := { p.tx with discards := p.tx.discards + 1 } } := by
  simp [PortD.handSetpoint, h, TxCounters.discard]

theorem PortD.handSetpoint_up {p : PortD} (c : Nat) (f : Frame) (h : p.up = true) :
    p.handSetpoint c f = PortD.serve c { p with
      slot := some f, tx := { p.tx with overruns := p.tx.overruns + (if p.slot.isSome then 1 else 0) } } := by
  simp only [PortD.handSetpoint, h]
  cases p.slot.isSome <;> simp

theorem PortD.handPassThrough_down {p : PortD} (c : Nat) (f : Frame) (h : p.up = false) :
    p.handPassThrough c f = { p with tx := { p.tx with discards := p.tx.discards + 1 } } := by
  simp [PortD.handPassThrough, h, TxCounters.discard]

theorem PortD.handPassThrough_full {p : PortD} (c : Nat) (f : Frame) (h : p.up = true)
    (hl : 32 ≤ p.passThrough.length) :
    p.handPassThrough c f = { p with tx := { p.tx with drops := p.tx.drops + 1 } } := by
  simp [PortD.handPassThrough, h, Config.forwardDepth, hl]

theorem PortD.handPassThrough_room {p : PortD} (c : Nat) (f : Frame) (h : p.up = true)
    (hl : p.passThrough.length < 32) :
    p.handPassThrough c f = PortD.serve c { p with passThrough := p.passThrough ++ [f] } := by
  have hl' : ¬(32 ≤ p.passThrough.length) := by omega
  simp [PortD.handPassThrough, h, Config.forwardDepth, hl']

/-! ### Everything a port can do with what it is handed -/

theorem PortU.handStatus_takes (p : PortU) (c : Nat) (f : Frame) : p.TakesStatus c f (p.handStatus c f) := by
  refine ⟨PortU.handStatus_down c f, fun h hs => ?_, fun h hs => ?_⟩
  · exact (PortU.handStatus_up c f h).trans (PortU.serve_of_sending _ hs)
  · refine (PortU.handStatus_up c f h).trans ?_
    simp only [PortU.serve, hs, beginSending, holdClocks_eq]
    rfl

theorem PortU.handForward_takes (p : PortU) (c : Nat) (f : Frame) : p.TakesForward c f (p.handForward c f) := by
  refine ⟨PortU.handForward_down c f, PortU.handForward_full c f, fun h hl hs => ?_, fun h hs hsl hr hf => ?_⟩
  · exact (PortU.handForward_room c f h hl).trans (PortU.serve_of_sending _ hs)
  · have hq : p.forwarding ++ [f] = f :: p.forwarding := by simp [hf]
    refine (PortU.handForward_room c f h (by simp [hf])).trans ?_
    rw [hq]
    simp only [PortU.serve, hs, hsl, hr, beginSending, holdClocks_eq]
    rfl

theorem PortD.handSetpoint_takes (p : PortD) (c : Nat) (f : Frame) : p.TakesSetpoint c f (p.handSetpoint c f) := by
  refine ⟨PortD.handSetpoint_down c f, fun h hs => ?_, fun h hs => ?_⟩
  · exact (PortD.handSetpoint_up c f h).trans (PortD.serve_of_sending _ hs)
  · refine (PortD.handSetpoint_up c f h).trans ?_
    simp only [PortD.serve, hs, beginSending, holdClocks_eq]
    rfl

theorem PortD.handPassThrough_takes (p : PortD) (c : Nat) (f : Frame) :
    p.TakesPassThrough c f (p.handPassThrough c f) := by
  refine ⟨PortD.handPassThrough_down c f, PortD.handPassThrough_full c f, fun h hl hs => ?_, fun h hs hsl hf => ?_⟩
  · exact (PortD.handPassThrough_room c f h hl).trans (PortD.serve_of_sending _ hs)
  · have hq : p.passThrough ++ [f] = f :: p.passThrough := by simp [hf]
    refine (PortD.handPassThrough_room c f h (by simp [hf])).trans ?_
    rw [hq]
    simp only [PortD.serve, hs, hsl, beginSending, holdClocks_eq]
    rfl

end Sys2Proof.Machine
end

