-- ==== Sys2Proof/Laws/Replies.lean ====
section
/-! SUPPORT. Answering the request in service. -/

namespace Sys2Proof.Machine

/-- Everything that port U can do with a reply it is handed. -/
theorem PortU.handReply_takes (p : PortU) (clock : Nat) (o : OutFrame) :
    p.TakesReply clock o (p.handReply clock o) := by
  refine ⟨?_, ?_, ?_, ?_⟩
  · intro h
    exact PortU.handReply_down _ _ h
  · intro h hl
    exact PortU.handReply_full _ _ h hl
  · intro h hl hs
    exact (PortU.handReply_room _ _ h hl).trans (PortU.serve_of_sending _ hs)
  · intro h hs hsl hr
    have hq : p.replies ++ [o] = o :: p.replies := by simp [hr]
    refine (PortU.handReply_room _ _ h (by simp [hr])).trans ?_
    rw [hq]
    simp only [PortU.serve, hs, hsl, beginSending, holdClocks_eq]
    rfl

/-- Everything that answering the request in service does. -/
theorem State.answer_repliesTo (q : Request) (c : ReplyContent) (w : State) : w.repliesTo q c (w.answer q c) := by
  unfold State.repliesTo
  refine ⟨?_, rfl, rfl, PortU.handReply_takes _ _ _⟩
  intro p hp; cases p <;> first | rfl | simp at hp

/-- A served request is answered from the state its owner leaves. -/
theorem State.serve_repliesTo {op : Operation} {o : Object} {accepts : Request → Bool} {f : Service} {s : State}
    {q : Request} (h : s.serves q op o) (ha : accepts q = true) :
    (f q s).1.repliesTo q (f q s).2 (s.live (State.serve op o accepts f)) := by
  rw [State.live_of_not_held h.1, State.serve_of_serves h ha]
  exact State.answer_repliesTo _ _ _

/-- The entry that a WRITE in service decides next, and what becomes of it. -/
theorem State.serveEntry_entry {o : Object} {owns : Nat → Bool} {d : EntryDecision} {s : State} {q : Request}
    (h : s.serves q .write o) (ho : owns (s.entryIndex q) = true) :
    (∀ r, d (s.entryIndex q) (s.entryData q (recordSize o)) s = .error r →
      s.entryRefused q r (s.live (State.serveEntry o owns d))) ∧
    (∀ w, d (s.entryIndex q) (s.entryData q (recordSize o)) s = .ok w → w.me.accepted = s.me.accepted →
      w.entryTaken q (s.live (State.serveEntry o owns d))) := by
  rw [State.live_of_not_held h.1, State.serveEntry_of_serves h ho]
  constructor
  · intro r hr
    rw [hr]
    exact State.answer_repliesTo _ _ _
  · intro w hw hacc
    rw [hw]
    unfold State.entryTaken
    constructor
    · intro hc
      simp only [hacc] at hc ⊢
      rw [if_neg (by omega)]
    · intro hc
      simp only [hacc] at hc
      simp only [hc, if_true]
      exact State.answer_repliesTo _ _ _

end Sys2Proof.Machine
end

