-- ==== Sys2Proof/Laws/Requests.lean ====
section
/-! SUPPORT. What the checks of R193 say of a request. -/

namespace Sys2Proof.Machine

/-- Every operation's code names it. -/
@[simp] theorem operation?_code (op : Operation) : operation? op.code = some op := by cases op <;> decide

/-- Every object's code names it. -/
@[simp] theorem object?_code (o : Object) : object? o.code = some o := by cases o <;> decide

theorem operation?_eq_some_iff (b : Byte) (op : Operation) : operation? b = some op ↔ op.code = b := by
  constructor
  · intro h
    have := List.find?_some h
    simpa using this
  · rintro rfl; simp

theorem object?_eq_some_iff (b : Byte) (o : Object) : object? b = some o ↔ o.code = b := by
  constructor
  · intro h
    have := List.find?_some h
    simpa using this
  · rintro rfl; simp

theorem operation?_eq_none_iff (b : Byte) : operation? b = none ↔ ∀ op : Operation, op.code ≠ b := by
  constructor
  · rintro h op rfl; simp at h
  · intro h
    cases hb : operation? b with
    | none => rfl
    | some op => exact absurd ((operation?_eq_some_iff b op).mp hb) (h op)

theorem object?_eq_none_iff (b : Byte) : object? b = none ↔ ∀ o : Object, o.code ≠ b := by
  constructor
  · rintro h o rfl; simp at h
  · intro h
    cases hb : object? b with
    | none => rfl
    | some o => exact absurd ((object?_eq_some_iff b o).mp hb) (h o)

/-- A request for `op` of `o` that passes the checks: its codes, its items and its data length. -/
theorem Request.isFor_iff (q : Request) (op : Operation) (o : Object) :
    q.isFor op o = true ↔ q.op = op.code ∧ q.object = o.code ∧ allowsObject op o = true ∧
      itemsExist op o q.index q.count = true ∧ q.data.length = dataLength op o q.count := by
  unfold Request.isFor Request.refusal
  by_cases h1 : q.op = op.code
  · by_cases h2 : q.object = o.code
    · simp only [h1, h2, decide_true, operation?_code, object?_code, Bool.true_and, true_and]
      cases allowsObject op o <;> cases itemsExist op o q.index q.count <;> simp
    · simp [h1, h2]
  · simp [h1]

end Sys2Proof.Machine
end

