-- ==== Sys2Proof/WellFormed.lean ====
section
/-! DEFINITION. Which commands are well formed. Rows, channels and ports are bounded by their types; the one bound
left to check is that a received frame holds at least its frame check sequence (R165). A command that is not well
formed is still taken: a fragment without room for an FCS cannot match one and counts as an FCS error (R167). -/

namespace Sys2Proof

/-- A command the outside can send: a received frame ends in a frame check sequence of 4 bytes (R165). -/
def Instr.WellFormed : Instr → Bool
  | .frameReceived _ f => 4 ≤ f.length
  | .supplyStart | .resetAsserted _ | .resetReleased | .linkLoss _ _ | .linkUp _ | .gridSampleTaken _ _
  | .gridSilenceExpiry | .envelopeExit _ _ | .swellExit _ | .recoveryHoldExpiry | .recoveryRampExpiry
  | .sagListEntryAged | .dispatchFrameTaken | .dispatchSilenceExpiry | .startTimerExpiry _ | .parkTimerExpiry _
  | .reportTaken _ | .cycleStart _ | .reportLoss _ | .transmissionEndD | .transmissionEndU | .mgmtRequestQueued
  | .modeRun | .modeHalt | .modeResume | .modeLoad | .ackHead | .ackAll | .arm | .trigger | .abort | .mask
  | .counterWrite | .restart | .restartTakesEffect | .faultRead | .captureRead | .summaryRead | .contentionRead
  | .channelStateRead | .saglistRead | .globalRead | .envelopeRead | .swellRead | .channelRead | .groupRead
  | .profileRead | .counterRead | .channelWrite | .envelopeWrite | .swellWrite | .groupWrite | .profileWrite
  | .counterObjectWrite | .globalWrite | .measurementStationWrite | .nRowsWrite | .vRecoverWrite | .wWrite
  | .tCycWrite | .lWrite | .pPreWrite | .triggerOnSagWrite | .mgmtRequestRefused => true

end Sys2Proof
end

