-- ==== Sys2Proof/Tests/Slice0.lean ====
section
/-! SUPPORT. The model's own tests: the well-formedness check, worked values of the manual, and, for every statement of
Sys2Proof/Certificates/Slice0/Obligations.lean that has hypotheses, a concrete state that meets them, clause by clause.
Each expected value is taken from the rule or the worked example its comment names. -/

namespace Sys2Proof.Tests

set_option Elab.async false

open Sys2Proof.Machine

/-! ## Helpers -/

/-- The part right after reset. -/
def s0 : State := State.reset

/-- The part held in reset. -/
def heldState : State := { s0 with held := true }

/-- The state in another part mode. -/
def inMode (m : PartMode) (s : State) : State := { s with fmu := { s.fmu with mode := m } }

/-- The state with another controller. -/
def withRtc (f : RideThrough → RideThrough) (s : State) : State := { s with rtc := f s.rtc }

/-- The state with a list of faults. -/
def withFaults (l : List FaultEntry) (s : State) : State := { s with fmu := { s.fmu with faults := l } }

/-- A fault entry. -/
def entry (code : FaultCode) (cls : FaultClass) (subject : Subject) : FaultEntry :=
  { code := code, cls := cls, subject := subject, time := 0, gridSeq := none, count := 1 }

/-- The raising of a trip. -/
def raising (code : FaultCode) : Raising := { code := code, cls := .trip, subject := .none }

/-- The state with raisings that the Fault and Mode Unit has been handed. -/
def withHanded (l : List Raising) (s : State) : State := { s with fmu := { s.fmu with handed := l } }

/-- A management request. -/
def req (op : Operation) (o : Object) (index count : Nat) (data : List Byte) : Request :=
  { source := 0xF1, seq := 7, id := 101, op := op.code, object := o.code, index := index, count := count, data := data }

/-- The state with `q` the request in service. -/
def serving (q : Request) (s : State) : State := { s with me := { s.me with queue := [q] } }

/-- The state after a command. -/
def after (c : Instr) (s : State) : State :=
  match exec c s with
  | .next t => t
  | .fault _ => s
  | .refused _ => s

/-- An enabled entry of channel `c`, with R 1000 A and I_min 100 A. -/
def onEntry (c : Chan) : ChannelEntry := { ChannelEntry.default c with enable := true, iMin := 100 }

/-- The state with channel `c` enabled and in state `st`. -/
def withChan (c : Chan) (st : ChannelState) (s : State) : State :=
  { s with cm := { s.cm with table := s.cm.table.set c (onEntry c), chan := s.cm.chan.set c st } }

/-- The state with one envelope row in use: threshold 850 per-mille, dwell 3000 ms, cap 800 per-mille. -/
def withRow (s : State) : State :=
  withRtc (fun r => { r with
    nRows := 1
    rows := r.rows.set 0 { threshold := 850, dwell := 3000, cap := 800, action := .curtail } }) s

/-- A part in RUN: channel 0 RUNNING, channel 1 PARKED with its park timer running, channel 2 STARTING with its start
timer running, one envelope row, 5000 A in group 0, every port UP, and a supervisor that has 500 ms left. -/
def plant : State :=
  let s := withRow (withChan 2 .starting (withChan 1 .parked (withChan 0 .running (inMode .run s0))))
  { s with
    cm := { s.cm with groups := s.cm.groups.set 0 5000, startTimers := s.cm.startTimers.set 2 (some 3000)
                      parkTimers := s.cm.parkTimers.set 1 (some 10000) }
    di := { s.di with store := (s.di.store.set 0 900).set 1 900, silence := some 500 }
    gm := { s.gm with silence := some 20, seqState := some 4 }
    pu := { s.pu with
      u := { s.pu.u with up := true, signal := true }
      d := { s.pu.d with up := true, signal := true }
      g := { s.pu.g with up := true, signal := true } } }

/-- A part in LOAD that passes every check of the RUN request. -/
def ready : State :=
  let s := withRow (withChan 0 .standby s0)
  { s with cm := { s.cm with groups := s.cm.groups.set 0 5000 } }

/-- A grid frame of the measurement station. -/
def sample (seq : BitVec 16) (v : Nat) : GridSample :=
  { source := 0xF2, seq := seq, quality := 1, vab := v, vbc := v + 20, vca := v + 35, freq := 49850 }

/-- The state with one grid frame handed over. -/
def handGrid (f : GridSample) (s : State) : State := { s with gm := { s.gm with handed := [f] } }

/-- The state with one dispatch frame handed over. -/
def handDispatch (f : Dispatch) (s : State) : State := { s with di := { s.di with handed := [f] } }

/-- A frame of the supervisor for the part. -/
def fromSupervisor (kind : Byte) (payload : List Byte) : Frame := buildFrame 0xF1 0x88B5 kind 0xF0 3 payload

/-- A gathering in which nothing has been read. -/
def fresh : Gathering := { demands := none, standing := none, vLast := none, answer := none }

/-- The plant with a cycle's gathering as far as `g`. -/
def gathering (g : Gathering) : State := { plant with se := { plant.se with work := .gathering g } }

/-- Readings of the plant's demands and controller, and an answer of its Channel Manager in RUN. -/
def readings : DemandReading × Standing × PartMode × ChannelAnswer :=
  ({ store := plant.di.store, tag := 9 }, { rtc := .sag, active := some 0, blocking := false, allowance := 800 }, .run,
    plant.cm.answer)

/-- The inputs of a cycle that has read those. -/
def inputs : CycleInputs :=
  { mode := .run, store := readings.1.store, tag := 9, rtc := .sag, active := some 0, blocking := false
    allowance := 800, vLast := 849, period := 1000, cm := plant.cm.answer, prev := plant.se.last }

/-- A closed allocation over them. -/
def closed : ClosedCycle := { inputs := inputs, cmd := plant.se.last, contention := plant.se.contention }

/-- No owner's fields read. -/
def unread : StatusReadings := { links := none, grid := none, faults := none, fallback := none, measured := none }

/-! ## Well-formedness -/

theorem test_short_frame_is_ill_formed : (Instr.frameReceived .u [1, 2, 3]).WellFormed = false := by decide

theorem test_four_byte_frame_is_well_formed : (Instr.frameReceived .u [1, 2, 3, 4]).WellFormed = true := by decide

/-! ## Worked values of the manual -/

/-- The check value of the CRC-32 of IEEE 802.3 over "123456789". -/
theorem test_crc_check_value :
    crc32 [0x31, 0x32, 0x33, 0x34, 0x35, 0x36, 0x37, 0x38, 0x39] = 0xCBF43926 := by decide +kernel

/-- The table of R10, and the two frequencies below it. -/
theorem test_factor_table :
    [50300, 49900, 49899, 49850, 49800, 49700, 49000, 49675, 49650].map
      (fun f => ({ GridMonitor.reset with db := 100, k := 200 }).factorFor f) =
      [1000, 1000, 998, 900, 800, 600, 500, 550, 500] := by decide

/-- The table of R7, with s_last 65530. -/
theorem test_newness_table :
    [65531, 3, 65530, 65500, 32762, 32761].map (fun n => isNewer (some 65530) (BitVec.ofNat 16 n)) =
      [true, true, false, false, false, true] ∧
    [65531, 3, 32761].map (fun n => missedBy (some 65530) (BitVec.ofNat 16 n)) = [0, 8, 32766] := by decide

/-- R34: S = 5 and P_low = 300 give 140 ms, S = 7 gives 100 ms. -/
theorem test_ramp_durations : rampDuration 300 5 = 140 ∧ rampDuration 300 7 = 100 := by decide

/-- R43: P_state 600 and F 900 give A 540; 300 and 800 give 240. -/
theorem test_allowances : allowance 600 900 = 540 ∧ allowance 300 800 = 240 := by decide

/-- R98: the default steps, and a step that rounds to 0. -/
theorem test_ramp_steps : rampStep 50 1000 = 50 ∧ rampStep 200 1000 = 200 ∧ rampStep 3 250 = 1 := by decide

/-- The worked cases a to i of section 5.7, as (D, A, prev, R, need). -/
theorem test_need_cases :
    [(5000, 1000, 0, 8000, 1600), (5000, 1000, 1600, 8000, 1650), (0, 1000, 1620, 8000, 0),
      (1600, 1000, 1700, 8000, 1650), (6000, 1000, 6000, 4000, 4000), (900, 1000, 0, 8000, 1600),
      (7000, 800, 7000, 8000, 6400), (7000, 500, 7000, 8000, 4000), (7000, 150, 7000, 8000, 0)].all
      (fun x =>
        let e := { onEntry 0 with rated := x.2.2.2.1, iMin := 1600 }
        rampedNeed e x.2.1 x.2.2.1 (target e x.2.1 (clampedDemand e x.1)) 50 50 == x.2.2.2.2) = true := by decide

/-- The worked fill of section 5.8: what each channel of group 1 receives, in the fill order. -/
theorem test_worked_fill :
    effCapacity 20000 750 = 15000 ∧
    fillCommand { onEntry 7 with iMin := 2000 } 7000 15000 = 7000 ∧
    fillCommand { onEntry 8 with iMin := 3000 } 6000 8000 = 6000 ∧
    fillCommand { onEntry 9 with iMin := 2500 } 6000 2000 = 0 ∧
    fillCommand { onEntry 10 with iMin := 1000 } 4000 2000 = 2000 := by decide

/-- The status words of R123, with reference 0x0010 and mask 0x0030. -/
theorem test_compare_words :
    [0x0013, 0x0033, 0x0003].map (fun w => mismatch { onEntry 6 with cmpRef := 0x0010, cmpMask := 0x0030 } w) =
      [false, true, true] := by decide

/-- R185: 9.44 µs for 98 bytes, 123.04 µs for 1518 and 6.72 µs for 64, in periods of 40 ns. -/
theorem test_link_times :
    holdClocks (List.replicate 98 0) = 236 ∧ holdClocks (List.replicate 1518 0) = 3076 ∧
      holdClocks (List.replicate 64 0) = 168 := by decide +kernel

/-- Section 9.2, frames a to c: the header checks at port G on a 64-byte frame, a tagged 68-byte frame and a tagged
64-byte frame (payload of 12 bytes). -/
theorem test_header_checks :
    (let h : List Byte := [1, 0x10, 0, 12, 0xF2, 0xF0, 0, 9]
     let addresses : List Byte := List.replicate 12 0
     let a : Frame := addresses ++ [0x88, 0xB5] ++ h ++ List.replicate 42 0
     let b : Frame := addresses ++ [0x81, 0x00, 0, 1, 0x88, 0xB5] ++ h ++ List.replicate 42 0
     let c : Frame := addresses ++ [0x81, 0x00, 0, 1, 0x88, 0xB5] ++ h ++ List.replicate 38 0
     [a, b, c].map (fun f => (f.length, headerVerdict .g f))) =
      [(64, .deliver), (68, .error), (64, .deliver)] := by decide +kernel

/-- Section 9.7: the payload of the setpoint frame of cycle 812, and the frame's 64 bytes. -/
theorem test_setpoint_payload :
    (let p := ({ cycle := 812, tag := 9, allowance := 540, mode := .run, rtc := .sag
                 entries := [⟨0x01, .run, 6480⟩, ⟨0x03, .run, 0⟩, ⟨0x06, .start, 0⟩] } : SetpointContent).payload
     (p, (buildFrame 0xF0 0x88B5 kindSetpoint 0xFF 812 p).length)) =
      ([0x03, 0x2C, 0x00, 0x09, 0x02, 0x1C, 0x11, 0x03, 0x01, 0x03, 0x19, 0x50, 0x03, 0x03, 0x00, 0x00,
        0x06, 0x02, 0x00, 0x00], 64) := by decide +kernel

/-- R198: the counter indices absent from the table. -/
theorem test_absent_counters :
    [0x0C, 0x0F, 0x15, 0x1C, 0x1F, 0x27, 0x2F, 0x36].all (fun i => counterAt i == none && !counterExists i) = true := by
  decide

/-- R198: the first and the last counter of each run. -/
theorem test_counter_places :
    [0x00, 0x0B, 0x10, 0x1B, 0x20, 0x26, 0x30, 0x35].map counterAt =
      [some (.rx .u .good), some .replyDrops, some (.rx .d .good), some .unmatched, some (.rx .g .good),
        some .missedGrid, some .invalidGrid, some .ignoredTriggers] := by decide

/-- Section 2.14, the notice of 5000: rows 0 and 1 below, P_low 600, timers to 8000 and 6200. -/
theorem test_sag_entry :
    (let r : RideThrough := { RideThrough.reset with
       nRows := 4, nRep := 3, sagCount := 41
       rows := (((RideThrough.reset.rows.set 0 ⟨850, 3000, 800, .curtail⟩).set 1 ⟨700, 1200, 600, .curtail⟩).set 2
         ⟨500, 600, 300, .curtail⟩).set 3 ⟨200, 150, 0, .block⟩ }
     let n := r.notice 5000 620 640
     (n.rtc.state, n.rtc.active, n.rtc.pLow, n.rtc.dwellTimers.toList.take 3, n.rtc.sags, n.rtc.sagCount,
       n.sagBegan)) =
      (.sag, some 1, 600, [some 8000, some 6200, none], [5000], 42, true) := by
  dsimp only; simp only [Prod.mk.injEq]; refine ⟨?_, ?_, ?_, ?_, ?_, ?_, ?_⟩ <;> decide +kernel

/-! ## States that meet the hypotheses of the statements -/

theorem test_StepTakesFront_met : ({ s0 with pending := [.arm, .trigger] } : State).pending = .arm :: [.trigger] := rfl

theorem test_TimePasses_met :
    (s0.pending = [] ∧ s0.held = false) ∧ (heldState.pending = [] ∧ heldState.held = true) ∧
    (Instr.cycleStart .start ≠ .supplyStart ∧ Instr.cycleStart .start ≠ .resetReleased ∧
      exec (.cycleStart .start) s0 = .next (after (.cycleStart .start) s0)) :=
  ⟨⟨rfl, rfl⟩, ⟨rfl, rfl⟩, by decide, by decide, rfl⟩

theorem test_ResetHoldsPart_met :
    (heldState.held = true ∧ (Instr.arm ≠ .supplyStart) ∧ (Instr.arm ≠ .resetReleased) ∧
      (∀ n, Instr.arm ≠ .resetAsserted n) ∧ (∀ p cut, Instr.arm ≠ .linkLoss p cut) ∧ ∀ p, Instr.arm ≠ .linkUp p) ∧
    (after (.resetAsserted 9999) plant).held = false ∧ (after (.resetAsserted 10000) plant).held = true ∧
    (after .supplyStart heldState).held = true ∧ (after .resetReleased (after .supplyStart heldState)).held = false ∧
    (after .supplyStart plant).held = false :=
  ⟨⟨rfl, by decide, by decide, by simp, by simp, by simp⟩, by decide +kernel, by decide +kernel, by decide +kernel,
    by decide +kernel, by decide +kernel⟩

/-- Each change of part mode that the statement names happens. -/
theorem test_ModeTransitions_met :
    (after .modeRun (serving (req .mode .none 0 0 [1]) ready)).fmu.mode = .run ∧
    (after .modeResume (serving (req .mode .none 0 0 [3]) (inMode .halt s0))).fmu.mode = .run ∧
    (after .modeLoad (serving (req .mode .none 0 0 [4]) (inMode .halt s0))).fmu.mode = .load ∧
    (after .supplyStart (inMode .run s0)).fmu.mode = .load ∧
    (after .modeHalt (serving (req .mode .none 0 0 [2]) plant)).fmu.mode = .halt ∧
    (after .swellExit (withRtc (fun r => { r with swellTimer := some 5 }) plant)).fmu.mode = .halt := by
  decide +kernel

theorem test_PowerOnReset_met :
    (Instr.supplyStart = .supplyStart) ∧ (Instr.resetReleased = .resetReleased ∧ heldState.held = true) :=
  ⟨rfl, rfl, rfl⟩

theorem test_RestartTakesEffect_met :
    ({ plant with me := { plant.me with restart := .due } } : State).held = false ∧
      ({ plant with me := { plant.me with restart := .due } } : State).me.restart = .due := ⟨rfl, rfl⟩

/-- A reply as it waits at port U. -/
def aReply : OutFrame := { frame := [], isRestart := false }

/-- The RESTART request in service at a DOWN port U, with three and with four replies waiting. -/
theorem test_RestartAnswered_met :
    (serving (req .restart .none 0 0 []) s0).serves (req .restart .none 0 0 []) .restart .none ∧
    (serving (req .restart .none 0 0 []) plant).serves (req .restart .none 0 0 []) .restart .none ∧
    (serving (req .restart .none 0 0 []) (plant.onU fun u => { u with replies := List.replicate 3 aReply })).serves
      (req .restart .none 0 0 []) .restart .none ∧
    (serving (req .restart .none 0 0 []) (plant.onU fun u => { u with replies := List.replicate 4 aReply })).serves
      (req .restart .none 0 0 []) .restart .none := by
  unfold State.serves; decide +kernel

/-- The RESTART reply in transmission at port U. -/
def restartSending : State :=
  plant.onU fun u => { u with sending := some { out := { frame := [], isRestart := true }, endsAt := 100 } }

/-- Ports in UP, with and without the RESTART reply; a DOWN port, and the part held in reset. -/
theorem test_LinkChanges_met :
    plant.held = false ∧ plant.linkUp .u = true ∧ plant.linkUp .d = true ∧ plant.linkUp .g = true ∧
      plant.pu.u.holdsRestart = false ∧ restartSending.linkUp .u = true ∧ restartSending.pu.u.holdsRestart = true ∧
      s0.linkUp .u = false ∧ heldState.held = true := by
  decide

/-- The bytes of a frame with their frame check sequence. -/
def sealed (l : List Byte) : Frame := l ++ fcs l

/-- A frame that passes every header check, one for each kind the part takes. -/
theorem test_passing_headers_met :
    PassesHeaderChecks .g (fromSupervisor 0x10 (List.replicate 12 0)) ∧
    PassesHeaderChecks .u (fromSupervisor 0x20 (List.replicate 8 0)) ∧
    PassesHeaderChecks .u (fromSupervisor 0x60 (List.replicate 8 0)) ∧
    PassesHeaderChecks .d (fromSupervisor 0x40 (List.replicate 6 0)) := by
  refine ⟨⟨38, ?_, ?_, ?_, ?_, ?_, .inl ?_⟩, ⟨38, ?_, ?_, .inl ?_, ?_, ?_, .inr (.inl ⟨?_, 1, ?_, ?_, ?_⟩)⟩,
    ⟨38, ?_, ?_, .inr ?_, ?_, ?_, .inr (.inr (.inr ?_))⟩, ⟨38, ?_, ?_, ?_, ?_, ?_, .inr (.inr (.inl ?_))⟩⟩
  all_goals first | decide +kernel | (unfold KindAtPort; decide +kernel)

/-- A frame at a DOWN port; a wrong frame check sequence; 63 bytes; a good frame of each kind the part takes; a kind
that port U does not know; and a frame of another type at port G. -/
theorem test_FrameReceived_met :
    s0.linkUp .u = false ∧ plant.linkUp .u = true ∧
    fcsMatches (List.replicate 64 0) = false ∧
    (fcsMatches (sealed (List.replicate 59 0)) = true ∧ (sealed (List.replicate 59 0)).length < 64) ∧
    ([fromSupervisor 0x20 (List.replicate 8 0), fromSupervisor 0x60 (List.replicate 8 0),
        fromSupervisor 0x40 (List.replicate 6 0), fromSupervisor 0x10 (List.replicate 12 0)].all fun f =>
      fcsMatches f && f.length == 64 && typeField f == plant.pu.typeValue &&
        (headerOf f).dest == plant.pu.ownStation) = true ∧
    (¬PassesHeaderChecks .u (fromSupervisor 0x40 (List.replicate 6 0)) ∧
      ¬SentOnAtD .u (fromSupervisor 0x40 (List.replicate 6 0))) ∧
    (let f := buildFrame 0xF1 0x0800 0x20 0xF0 3 []
     fcsMatches f = true ∧ f.length = 64 ∧ typeField f ≠ plant.pu.typeValue) := by
  refine ⟨by decide, by decide, by decide +kernel, by decide +kernel, by decide +kernel, ⟨?_, ?_⟩, by decide +kernel⟩
  · rintro ⟨_, _, _, h, _⟩
    revert h; unfold KindAtPort; decide +kernel
  · rintro ⟨h, _⟩; cases h

/-- A frame with two VLAN tags, one with one and one with none. -/
theorem test_HeadersAndPayloadsRead_met :
    (∀ o, field (fromSupervisor 0x20 []) o 2 = 0x8100 ∨ field (fromSupervisor 0x20 []) o 2 = 0x88A8 ↔
      field (fromSupervisor 0x20 []) o 2 = 0x8100 ∨ field (fromSupervisor 0x20 []) o 2 = 0x88A8) ∧
    [[], [0x81, 0, 0, 1], [0x88, 0xA8, 0, 1, 0x81, 0, 0, 1], [0x81, 0, 0, 1, 0x81, 0, 0, 1, 0x81, 0, 0, 1]].map
      (fun t => vlanTags (List.replicate 12 0 ++ t ++ [0x88, 0xB5])) = [0, 1, 2, 2] ∧
    byteAt (fromSupervisor 0x20 (List.replicate 8 0)) 15 = 0x20 ∧
    byteAt (fromSupervisor 0x60 (List.replicate 8 0)) 15 = 0x60 := by
  refine ⟨fun _ => Iff.rfl, ?_, ?_, ?_⟩ <;> decide +kernel

/-- Foreign traffic of the three sorts, and the eight states of the other port's transmitter. -/
theorem test_ForeignTrafficPasses_met :
    (let f := buildFrame 0xF1 0x0800 0x20 0xF0 3 []
     fcsMatches f = true ∧ lengthOk f = true ∧ typeField f ≠ plant.pu.typeValue) ∧
    (let f := buildFrame 0xF1 0x88B5 0x20 0xFF 3 []
     fcsMatches f = true ∧ lengthOk f = true ∧ (headerOf f).dest ≠ plant.pu.ownStation) ∧
    (let f := fromSupervisor 0x30 []
     fcsMatches f = true ∧ lengthOk f = true ∧ SentOnAtD .d f) ∧
    (plant.linkUp .u = true ∧ plant.linkUp .d = true ∧ plant.pu.d.sending = none ∧ plant.pu.d.slot = none ∧
      plant.pu.d.passThrough = [] ∧ plant.pu.u.sending = none ∧ plant.pu.u.slot = none ∧ plant.pu.u.replies = [] ∧
      plant.pu.u.forwarding = []) ∧
    ([31, 32].map fun n => (plant.onD fun d => { d with passThrough := List.replicate n [] }).pu.d.passThrough.length) =
      [31, 32] ∧
    ([31, 32].map fun n => (plant.onU fun u => { u with forwarding := List.replicate n [] }).pu.u.forwarding.length) =
      [31, 32] ∧
    restartSending.pu.u.sending.isSome = true ∧
    ((plant.onD fun d => { d with up := false }).linkUp .u = true ∧ (plant.onD fun d => { d with up := false }).pu.d.up =
      false) := by
  unfold SentOnAtD KindAtPort; decide +kernel

/-- Transmissions that end at either port, with each place a next frame can come from. -/
theorem test_TransmissionEnds_met :
    (let d := (plant.onD fun p => { p with sending := some { out := aReply, endsAt := 9 } })
     d.held = false ∧ d.pu.d.sending = some { out := aReply, endsAt := 9 } ∧ d.pu.d.slot = none ∧
       d.pu.d.passThrough = []) ∧
    (let d := (plant.onD fun p => { p with sending := some { out := aReply, endsAt := 9 }, slot := some [1] })
     d.pu.d.slot = some [1]) ∧
    (let d := (plant.onD fun p => { p with sending := some { out := aReply, endsAt := 9 }, passThrough := [[1], [2]] })
     d.pu.d.slot = none ∧ d.pu.d.passThrough = [1] :: [[2]]) ∧
    (restartSending.pu.u.sending.isSome = true ∧ restartSending.pu.u.slot = none ∧
      restartSending.pu.u.replies = [] ∧ restartSending.pu.u.forwarding = []) := by decide

theorem test_FramesAndRecordsReadBack_met :
    (List.replicate 1492 (0 : Byte)).length ≤ 1492 ∧ ([] : List Byte).length ≤ 1492 ∧
      isVlanTag (0x88B5 : BitVec 16).toNat = false ∧
    (onEntry 15).inRange = true ∧ channelEntry? (onEntry 15).bytes = some (onEntry 15) ∧
      EnvelopeRow.default.inRange = true ∧ envelopeRow? EnvelopeRow.default.bytes = some EnvelopeRow.default ∧
      Profile.default.inRange = true ∧ 65535 < 256 ^ 2 := by decide +kernel

/-- A dispatch frame of the supervisor with `n` entries, for channels 0 to n - 1. -/
def dispatch (n demand : Nat) : Dispatch :=
  { source := 0xF1, length := 4 + 4 * n, tag := 7, count := n
    entries := (List.range n).map fun c => { channel := c, demand := demand } }

/-- The least newer sequence number after 4. -/
theorem newer_5 : IsNewer plant.gm.seqState 5 := .inr ⟨4, rfl, by decide, by decide⟩

/-- A frame of another station; one whose sequence is the last one's and one that lies 32768 ahead; an implausible
newer one at the least implausible voltage; and dispatch frames from elsewhere and with 0 and 17 entries. -/
theorem test_FramesTurnedAway_met :
    ({ sample 5 900 with source := 0xF3 }).source ≠ plant.gm.station ∧
    ¬IsNewer plant.gm.seqState 4 ∧ ¬IsNewer plant.gm.seqState 32772 ∧
    ((sample 5 2001).source = plant.gm.station ∧ IsNewer plant.gm.seqState (sample 5 2001).seq ∧
      ¬IsPlausible (sample 5 2001) ∧ MissedBetween plant.gm.seqState (sample 5 2001).seq 0) ∧
    (handGrid (sample 4 900) plant).gm.handed = [sample 4 900] ∧
    ({ dispatch 1 5 with source := 0xF3 }).source ≠ plant.di.supervisor ∧
    ((dispatch 0 5).source = plant.di.supervisor ∧ ¬IsAcceptable (dispatch 0 5) ∧ ¬IsAcceptable (dispatch 17 5)) ∧
    (handDispatch (dispatch 0 5) plant).di.handed = [dispatch 0 5] := by
  have h4 : ∀ n, (n - 4#16).toNat < 1 ∨ 32767 < (n - 4#16).toNat → ¬IsNewer plant.gm.seqState n := by
    rintro n h (hc | ⟨l, hl, h1, h2⟩)
    · cases hc
    · obtain rfl : 4#16 = l := Option.some.inj hl
      omega
  refine ⟨by decide, h4 _ (by decide), h4 _ (by decide), ⟨by decide, newer_5, ?_, ?_⟩, by decide, by decide,
    ⟨by decide, ?_, ?_⟩, by decide⟩
  · unfold IsPlausible; decide
  · exact ⟨(fun h => by cases h), (fun l h => by obtain rfl : 4#16 = l := Option.some.inj h; decide)⟩
  · unfold IsAcceptable; decide
  · unfold IsAcceptable; decide

/-- The greatest plausible voltage and the least newer sequence, in RUN; and the least voltage on a first frame, in
LOAD. -/
theorem test_ValidGridFrame_met :
    (handGrid (sample 5 1965) plant).held = false ∧ (handGrid (sample 5 1965) plant).gm.handed = [sample 5 1965] ∧
      plant.takesAsValid (sample 5 1965) ∧ plant.fmu.mode = .run ∧ MissedBetween plant.gm.seqState 5 0 ∧
    (s0.takesAsValid (sample 5 0) ∧ s0.fmu.mode = .load ∧ MissedBetween s0.gm.seqState 5 0) := by
  refine ⟨by decide, by decide, ⟨by decide, newer_5, ?_⟩, by decide, ?_, ⟨by decide, .inl rfl, ?_⟩, by decide, ?_⟩
  · unfold IsPlausible; decide
  · exact ⟨(fun h => by cases h), (fun l h => by obtain rfl : 4#16 = l := Option.some.inj h; decide)⟩
  · unfold IsPlausible; decide
  · exact ⟨fun _ => rfl, fun l h => nomatch h⟩

/-- A frame one per-mille below row 0, in the three states from which a sag begins, with the repeat limit off, and
with a list that passes it. -/
theorem test_SagBegins_met :
    (handGrid (sample 5 849) plant).held = false ∧ (handGrid (sample 5 849) plant).gm.handed = [sample 5 849] ∧
    plant.takesAsValid (sample 5 849) ∧ plant.sagStarts (sample 5 849) ∧ ¬(0 < plant.rtc.nRep) ∧
    (withRtc (fun r => { r with state := .recover }) plant).sagStarts (sample 5 849) ∧
    (withRtc (fun r => { r with state := .gridLost, prior := some .normal }) plant).sagStarts (sample 5 849) ∧
    (let s := withRtc (fun r => { r with nRep := 1, sags := [0xFFFFFFFF] }) (handGrid (sample 5 849) plant)
     0 < s.rtc.nRep ∧ s.rtc.nRep < (addSag s.timeBase s.rtc.window s.rtc.sags).length) := by
  refine ⟨by decide, by decide, ⟨by decide, newer_5, ?_⟩, ?_, by decide, ?_, ?_, by decide +kernel⟩
  · unfold IsPlausible; decide
  all_goals unfold State.sagStarts RideThrough.BelowRow0; decide

/-- The plant's controller in another state, with another prior state and another hold. -/
def inState (st : RtcState) (prior : Option PriorState) (hold : Nat) : State :=
  withRtc (fun r => { r with state := st, prior := prior, hold := hold }) plant

/-- Valid frames that begin no sag: at row 0's threshold in NORMAL and RECOVER; below V_recover and at it in SAG and
in GRID_LOST with prior state SAG; in GRID_LOST with prior state NORMAL; and in TRIPPED; and a RECOVER with a table
that is not valid, in which a later row is below and row 0 is not (R25). -/
theorem test_GridNotices_met :
    (∀ v, v = 849 ∨ v = 850 ∨ v = 899 ∨ v = 900 → plant.takesAsValid (sample 5 v)) ∧ plant.fmu.mode ≠ .load ∧
    (handGrid (sample 5 849) plant).held = false ∧ (handGrid (sample 5 849) plant).gm.handed = [sample 5 849] ∧
    ¬plant.sagStarts (sample 5 850) ∧ ¬(inState .recover none 100).sagStarts (sample 5 850) ∧
    ¬(inState .sag none 100).sagStarts (sample 5 849) ∧ ¬(inState .sag none 0).sagStarts (sample 5 900) ∧
    ¬(inState .gridLost (some .sag) 100).sagStarts (sample 5 849) ∧
    ¬(inState .gridLost (some .recover) 0).sagStarts (sample 5 900) ∧
    ¬(inState .gridLost (some .normal) 100).sagStarts (sample 5 850) ∧
    ¬(inState .tripped none 100).sagStarts (sample 5 849) ∧
    leastVoltage (sample 5 899) < plant.rtc.vRecover ∧ plant.rtc.vRecover ≤ leastVoltage (sample 5 900) ∧
    (let s := withRtc (fun r => { r with
       state := .recover, nRows := 2, rows := r.rows.set 1 { EnvelopeRow.default with threshold := 1000 } }) plant
     ¬s.sagStarts (sample 5 850) ∧ 850 < (s.rtc.rows[(1 : Row)]).threshold) := by
  refine ⟨?_, by decide, by decide, by decide, ?_⟩
  · rintro v (rfl | rfl | rfl | rfl) <;> refine ⟨by decide, newer_5, ?_⟩ <;> unfold IsPlausible <;> decide
  · unfold State.sagStarts RideThrough.BelowRow0
    dsimp only
    repeat' apply And.intro
    all_goals decide +kernel

/-- A swell one per-mille above V_swell and one at it, from each standing; and a notice that trips. -/
theorem test_SwellCheck_met :
    (let s := withRtc (fun r => { r with tSwell := 50, vSwell := 1200 }) plant
     s.takesAsValid (sample 5 1166) ∧ s.fmu.mode ≠ .load ∧ s.rtc.state ≠ .tripped ∧ 0 < s.rtc.tSwell ∧
       s.rtc.vSwell < greatestVoltage (sample 5 1166) ∧ ¬(s.rtc.vSwell < greatestVoltage (sample 5 1165)) ∧
       s.rtc.swellAbove = false ∧
       (withRtc (fun r => { r with swellAbove := true, swellTimer := some 70 }) s).rtc.swellAbove = true ∧
       (after (.gridSampleTaken true) (handGrid (sample 5 1166) s)).rtc.state ≠ .tripped) ∧
    (after (.gridSampleTaken true) (withRtc (fun r => { r with nRep := 1, sags := [0xFFFFFFFF] })
      (handGrid (sample 5 849) plant))).rtc.state = .tripped := by
  refine ⟨⟨⟨by decide, newer_5, ?_⟩, ?_⟩, by decide +kernel⟩
  · unfold IsPlausible; decide
  · decide +kernel

/-- Grid silence in each part mode and in each controller state. -/
theorem test_GridSilence_met :
    plant.held = false ∧ plant.gm.silence = some 20 ∧ plant.fmu.mode ≠ .load ∧ plant.rtc.state = .normal ∧
      (inMode .load plant).fmu.mode = .load ∧
      ([RtcState.sag, .recover, .gridLost, .tripped].all fun x =>
        (withRtc (fun r => { r with state := x }) plant).rtc.state == x) = true := by decide

/-- Timers that run, in RUN and in HALT; a sag past the repeat limit; and raisings that wait: none, and one with
another before it. -/
theorem test_TripByExpiry_met :
    (let s := withRtc (fun r => { r with state := .sag, dwellTimers := r.dwellTimers.set 0 (some 30)
                                         swellTimer := some 40 }) plant
     s.held = false ∧ s.rtc.dwellTimers[(0 : Row)] = some 30 ∧ s.rtc.swellTimer = some 40 ∧ s.fmu.mode = .run ∧
       (inMode .halt s).fmu.mode ≠ .run) ∧
    (let s := withRtc (fun r => { r with nRep := 1, sags := [0xFFFFFFFF] }) (handGrid (sample 5 849) plant)
     s.held = false ∧ s.gm.handed = sample 5 849 :: [] ∧ s.takesAsValid (sample 5 849) ∧ s.sagStarts (sample 5 849) ∧
       0 < s.rtc.nRep ∧ s.rtc.nRep < (addSag s.timeBase s.rtc.window s.rtc.sags).length) ∧
    plant.fmu.handed = [] ∧
    (let s := withHanded [raising .swellExit, raising .envelopeExit] plant
     s.fmu.handed = [raising .swellExit] ++ raising .envelopeExit :: [] ∧
       (∀ x ∈ [raising .swellExit], x.code ≠ .envelopeExit)) := by
  refine ⟨by decide +kernel, ⟨by decide, by decide, ⟨by decide, newer_5, ?_⟩, ?_, by decide +kernel⟩, by decide,
    by decide⟩
  · unfold IsPlausible; decide
  · unfold State.sagStarts RideThrough.BelowRow0; decide

/-- A hold with P_low 1000, with P_low 999 and with P_low 0; a ramp; and a list whose oldest entry is exactly W old. -/
theorem test_RecoveryAndSagListExpiries_met :
    ([1000, 999, 0].all fun p =>
      let s := withRtc (fun r => { r with state := .recover, recovery := some 100, pLow := p, slope := 1 }) plant
      s.held == false && s.rtc.recovery == some 100 && s.rtc.phase == .hold && s.rtc.pLow == p &&
        decide (1 ≤ s.rtc.slope) && s.rtc.state == .recover) = true ∧
    (let s := withRtc (fun r => { r with state := .recover, recovery := some 100, phase := .ramp }) plant
     s.rtc.recovery = some 100 ∧ s.rtc.phase = .ramp) ∧
    (let s : State := withRtc (fun r => { r with window := 1000, sags := [0, 1000] }) { plant with clock := 25000000 }
     s.held = false ∧ SagListLaw s.rtc s.timeBase ∧ s.rtc.sags = 0 :: [1000] ∧ sagAge s.timeBase 0 = 1000) := by
  refine ⟨by decide +kernel, by decide +kernel, rfl,
    ⟨?_, ?_, List.forall_mem_cons.mpr ⟨?_, List.forall_mem_singleton.mpr ?_⟩, ?_⟩, rfl, ?_⟩ <;> decide +kernel

/-- Each controller state, a SAG with and without an active row and with no row in use, and both phases of RECOVER. -/
theorem test_AllowanceBounds_met :
    (let r := { plant.rtc with state := RtcState.tripped, pLow := 0, slope := 1 }
     AllowanceLaw r plant.gm ∧ r.state = .tripped) ∧ AllowanceLaw plant.rtc plant.gm ∧ plant.rtc.state = .normal ∧
    (let r := { plant.rtc with state := RtcState.sag, active := some 0 }
     r.active = some 0 ∧ ({ r with active := none }).active = none ∧ 1 ≤ r.nRows ∧ ({ r with nRows := 0 }).nRows = 0) ∧
    (let r := { plant.rtc with state := RtcState.recover, phase := .hold }
     r.phase = .hold ∧ ({ r with phase := RecoveryPhase.ramp }).phase = .ramp) := by
  unfold AllowanceLaw; decide +kernel

/-- A capture record. -/
def aRecord : CaptureRecord :=
  { time := 0, seq := 0, valid := true, vMin := 0, vMax := 0, freq := 0, rtc := .normal, active := none, allowance := 0
    factor := 0, sum := 0, trigger := false }

/-- A valid, a sag-marked and an invalid frame, in each capture state, at the bounds of the window and of the capture;
and a sag that trips a part in RUN. -/
theorem test_CaptureOfGridFrame_met :
    (handGrid (sample 5 2001) plant).held = false ∧ (handGrid (sample 5 2001) plant).gm.handed = [sample 5 2001] ∧
    (sample 5 2001).source = plant.gm.station ∧ IsNewer plant.gm.seqState (sample 5 2001).seq ∧
    (plant.rtc.state = .gridLost → plant.rtc.prior ≠ none) ∧ plant.cu.pPre ≤ 1023 ∧
    (IsPlausible (sample 5 849) ∧ plant.sagStarts (sample 5 849) ∧ ¬plant.sagStarts (sample 5 850)) ∧
    plant.cu.state = .idle ∧ plant.cu.onSag = true ∧
    (let c := { plant.cu with state := CaptureState.armed, pPre := 1 }
     c.buffer.length < c.pPre ∧ ({ c with buffer := [aRecord] }).buffer.length = c.pPre) ∧
    (let c := { plant.cu with state := CaptureState.triggered, trigPending := true, pPre := 1023 }
     c.trigPending = true ∧ c.pPre ≤ 1023 ∧ ({ c with pPre := 1022 }).pPre < 1023) ∧
    (let c := { plant.cu with state := CaptureState.triggered, trigPos := some 0, pPre := 1022, buffer := [aRecord] }
     c.trigPending = false ∧ c.trigPos = some 0 ∧ 0 ≤ c.buffer.length ∧ 1024 ≤ c.buffer.length + 1 - 0 + c.pPre ∧
       c.buffer.length + 1 - 0 + 1021 < 1024) ∧
    ([true, false].all fun haltFirst =>
      let s := withRtc (fun r => { r with nRep := 1, sags := [0xFFFFFFFF] }) (handGrid (sample 5 849) plant)
      let s : State := { s with cu := { s.cu with state := .armed } }
      let t := after (.gridSampleTaken haltFirst) s
      t.fmu.mode != s.fmu.mode && t.cu.source == if haltFirst then .halt else .sag) = true := by
  refine ⟨by decide, by decide, by decide, newer_5, by decide, by decide, ⟨?_, ?_, ?_⟩, ?_⟩
  · unfold IsPlausible; decide
  · unfold State.sagStarts RideThrough.BelowRow0; decide
  · unfold State.sagStarts RideThrough.BelowRow0; decide
  · decide +kernel

/-- One entry and sixteen entries, with enabled channels named and not named, at R and above it; and a silence timer.
-/
theorem test_DispatchFramesAndSilence_met :
    (∀ f, f = dispatch 1 1000 ∨ f = dispatch 16 1001 →
      (handDispatch f plant).held = false ∧ (handDispatch f plant).di.handed = [f] ∧ f.source = plant.di.supervisor ∧
        IsAcceptable f) ∧
    plant.held = false ∧ plant.di.silence = some 500 := by
  refine ⟨?_, rfl, rfl⟩
  rintro f (rfl | rfl) <;> refine ⟨by decide, rfl, by decide, ?_⟩ <;> unfold IsAcceptable <;> decide +kernel

theorem test_StartTimeout_met :
    plant.held = false ∧ plant.cm.chan[(2 : Chan)] = .starting ∧ plant.cm.startTimers[(2 : Chan)] = some 3000 := by
  decide +kernel

/-- A park timer that runs; ABORT of a STARTING channel and of one that is OFF, at both ends of the table. -/
theorem test_ParkLimitAndAbort_met :
    (plant.cm.chan[(1 : Chan)] = .parked ∧ plant.cm.parkTimers[(1 : Chan)] = some 10000) ∧
    (serving (req .abort .channel 2 0 []) plant).serves (req .abort .channel 2 0 []) .abort .channel ∧
    (serving (req .abort .channel 15 0 []) plant).serves (req .abort .channel 15 0 []) .abort .channel ∧
    plant.cm.chan[(2 : Chan)] = .starting ∧ plant.cm.chan[(15 : Chan)] ≠ .starting := by
  unfold State.serves; decide +kernel

/-- A WRITE of one record. -/
def write (o : Object) (index : Nat) (data : List Byte) : Request := req .write o index 1 data

/-- Entries of channel 0 that the write refuses by range, by activity and by the table law, and entries it takes, with
enable changed and unchanged. -/
theorem test_ChannelWrite_met :
    (let data := (onEntry 0).bytes
     (serving (write .channel 0 data) plant).serves (write .channel 0 data) .write .channel ∧
     plant.me.accepted < (write .channel 0 data).count ∧
     (serving (write .channel 0 data) plant).entryData (write .channel 0 data) 18 = data) ∧
    TableLaw plant.cm.table ∧
    channelEntry? (List.replicate 18 0) = none ∧
    channelEntry? ({ onEntry 0 with station := 0x02 }).bytes = some { onEntry 0 with station := 0x02 } ∧
    channelEntry? ({ onEntry 0 with rank := 15 }).bytes = some { onEntry 0 with rank := 15 } ∧
    channelEntry? (onEntry 15).bytes = some (onEntry 15) ∧
    (plant.cm.chan[(0 : Chan)]).isActive = true ∧ (plant.cm.chan[(15 : Chan)]).isActive = false ∧
    (plant.cm.table[(15 : Chan)]).enable = false ∧
    TableLaw (plant.cm.table.set 15 (onEntry 15)) ∧
    ¬TableLaw (plant.cm.table.set 15 { onEntry 15 with station := 0x01 }) := by
  unfold State.serves TableLaw; dsimp only; repeat' apply And.intro
  all_goals decide +kernel

theorem test_GroupAndProfileWrites_met :
    (serving (write .group 3 (be 4 1000000)) plant).serves (write .group 3 (be 4 1000000)) .write .group ∧
    ofBe ((serving (write .group 3 (be 4 1000000)) plant).entryData (write .group 3 (be 4 1000000)) 4) = 1000000 ∧
    ofBe ((serving (write .group 3 (be 4 1000001)) plant).entryData (write .group 3 (be 4 1000001)) 4) = 1000001 ∧
    (let p : Profile := { up := 5000, down := 1, recovery := 5000, park := 600000 }
     (serving (write .profile 7 p.bytes) plant).serves (write .profile 7 p.bytes) .write .profile ∧
     profile? p.bytes = some p ∧ profile? ({ p with up := 5001 }).bytes = none) := by
  unfold State.serves; decide +kernel

/-- The settled plant, for CycleStartRecords and CommandsAreSafe: RUN with the controller NORMAL, and HALT; each kind
of channel state; and inputs that have all been gathered. -/
theorem test_CommandsAreSafe_met :
    plant.held = false ∧ plant.settled ∧ EntryLaw plant.cm.table ∧ plant.fmu.mode = .run ∧
      (inMode .halt plant).fmu.mode ≠ .run ∧ (plant.cm.chan[(0 : Chan)]).isOn = true ∧
      (plant.cm.chan[(2 : Chan)]).isOn = false ∧ plant.rtc.state = .normal ∧
    (let s := gathering { demands := some readings.1, standing := some readings.2.1, vLast := some 849
                          answer := some readings.2.2 }
     s.held = false ∧ s.inputs = some inputs ∧ EntryLaw inputs.cm.table ∧
       (gathering { demands := some readings.1, standing := some { readings.2.1 with allowance := 0 }, vLast := some 849
                    answer := some readings.2.2 }).inputs = some { inputs with allowance := 0 }) ∧
    (withRtc (fun r => { r with state := .tripped }) plant).rtc.state = .tripped ∧
      (withRtc (fun r => { r with state := .tripped }) plant).settled := by
  unfold EntryLaw State.settled; decide +kernel

/-- The channels of a cycle start: one found lost, one that starts, one that waits, one that goes on and one that parks
(channel 1 has demand, channel 0 loses it here). -/
theorem test_ChannelsAtCycleStart_met :
    (let s : State := { plant with rr := { plant.rr with age := plant.rr.age.set 0 4 } }
     s.rr.limit < min 255 (s.rr.age[(0 : Chan)] + 1) ∧ s.rr.mark[(0 : Chan)] = false ∧
       ¬(s.rr.limit < min 255 (s.rr.age[(1 : Chan)] + 1))) ∧
    (let s : State := withChan 3 .standby { plant with di := { plant.di with store := plant.di.store.set 3 1 } }
     s.cm.chan[(3 : Chan)] = .standby ∧ 0 < s.di.store[(3 : Chan)] ∧ s.di.store[(4 : Chan)] = 0) ∧
    (let s : State := { plant with di := { plant.di with store := plant.di.store.set 0 0 } }
     let t := after (.cycleStart (.whole false)) s
     t.se.last[(0 : Chan)] = 0 ∧ 0 < t.se.last[(1 : Chan)]) := by
  decide +kernel

/-- Numbers that meet each clause: a start from zero, a rise, a fast curtail, a ramp down, a ramp to zero and a steady
command (I_min 1600, R 8000; the cases of section 5.7); and inputs of a cycle in each part mode, with channels OFF,
STARTING and RUNNING, and on a BLOCK row. -/
theorem test_NeedsAndOrders_met :
    (let e := { onEntry 0 with rated := 8000, iMin := 1600 }
     e.iMin ≤ e.rated ∧ target e 1000 (clampedDemand e 5000) = 5000 ∧ (0 < 1600 ∧ 1600 < 5000 ∧ e.iMin ≤ 1600) ∧
     (target e 800 (clampedDemand e 7000) = 6400 ∧ 6400 < 7000 ∧ 800 < 1000) ∧
     (target e 1000 (clampedDemand e 1600) = 1600 ∧ 1600 < 1700 ∧ 1700 ≤ e.rated ∧ e.iMin ≤ 1600) ∧
     (target e 1000 (clampedDemand e 0) = 0 ∧ 0 < 1620 ∧ 1620 ≤ e.rated) ∧
     (0 < 900 ∧ 900 < e.iMin ∧ target e 1000 (clampedDemand e 900) = 1600)) ∧
    inputs.mode = .run ∧ ({ inputs with mode := .halt }).mode = .halt ∧ ({ inputs with mode := .load }).mode = .load ∧
      inputs.cm.chan[(0 : Chan)] = .running ∧ inputs.cm.chan[(2 : Chan)] = .starting ∧
      inputs.cm.chan[(5 : Chan)] = .off ∧ inputs.rtc = .sag ∧ ({ inputs with blocking := true }).blocking = true := by
  decide +kernel

/-- A group without capacity: channels that fall short join an empty record; and a read of the record. -/
theorem test_ContentionRecord_met :
    (let s : State := { plant with cm := { plant.cm with groups := plant.cm.groups.set 0 50 } }
     s.held = false ∧ s.settled ∧ (∀ c : Chan, s.se.contention[c] = false) ∧
       ([true, false].all fun b => (after (.cycleStart (.whole b)) s).se.contention[(0 : Chan)]) = true) ∧
    (serving (req .readAndClear .contention 0 1 []) plant).serves (req .readAndClear .contention 0 1 []) .readAndClear
      .contention := by
  unfold State.serves State.settled; decide +kernel

/-- The ports that the frames of a cycle can find, for SetpointFrame, StatusFrame and CycleFrames. -/
theorem test_cycle_frames_met :
    plant.pu.d.up = true ∧ plant.pu.d.sending = none ∧ s0.pu.d.up = false ∧ s0.pu.u.up = false ∧
      (inMode .halt s0).fmu.mode ≠ .load ∧ plant.pu.u.up = true ∧ plant.pu.u.sending = none ∧
      plant.pu.u.slot = none ∧ restartSending.pu.u.sending.isSome = true ∧
      (plant.onD fun d => { d with sending := some { out := aReply, endsAt := 9 } }).pu.d.sending.isSome = true := by
  decide

/-- Work that is in progress in either block, and none; a raising that waits, and none. -/
theorem test_PartsMakeTheWhole_met :
    plant.held = false ∧ plant.settled ∧ plant.fmu.handed = [] ∧
    (∀ x ∈ (withHanded [raising .swellExit] plant).fmu.handed, x.code ≠ .envelopeExit ∧ x.code ≠ .repeatedSag) ∧
    ¬(gathering fresh).settled ∧ (gathering fresh).held = false ∧
    ([CyclePart.voltage, .demands, .standing]).Perm [.demands, .standing, .voltage] ∧
    ({ plant with rr := { plant.rr with testDue := some 4 } } : State).rr.testDue ≠ none := by
  unfold State.settled; decide +kernel

/-- A gathering that has read nothing, one that lacks only the answer, and one that lacks nothing; a channel that
starts in the first examination and not in the second. -/
theorem test_CycleReadings_met :
    plant.settled ∧ (gathering fresh).held = false ∧ (gathering fresh).se.work = .gathering fresh ∧
    fresh.demands = none ∧ fresh.standing = none ∧ fresh.vLast = none ∧
    (let g := { fresh with demands := some readings.1, standing := some readings.2.1 }
     g.demands = some readings.1 ∧ g.standing = some readings.2.1 ∧ g.answer = none ∧
       ({ g with answer := some readings.2.2 }).answer ≠ none ∧ ({ g with vLast := some 0 }).vLast ≠ none) ∧
    (let s := withChan 3 .standby (gathering fresh)
     s.cm.chan[(3 : Chan)] = .standby ∧ s.fmu.mode = .run ∧ s.di.store[(3 : Chan)] = 0 ∧
       0 < (s.di.store.set 3 1)[(3 : Chan)]) := by
  unfold State.settled; decide +kernel

/-- An allocation that closes after channel 0 has been FAULTED, and channel 1 still PARKED. -/
theorem test_CycleCloses_met :
    (let s := gathering { demands := some readings.1, standing := some readings.2.1, vLast := some 849
                          answer := some readings.2.2 }
     let s : State := { s with cm := { s.cm with chan := s.cm.chan.set 0 .faulted } }
     s.held = false ∧ s.cm.chan[(0 : Chan)] = .faulted ∧ readings.2.2.2.chan[(0 : Chan)] = .running ∧
       s.cm.chan[(1 : Chan)] = .parked ∧
       inputs = { mode := readings.2.2.1, store := readings.1.store, tag := readings.1.tag, rtc := readings.2.1.rtc
                  active := readings.2.1.active, blocking := readings.2.1.blocking, allowance := readings.2.1.allowance
                  vLast := 849, period := s.se.period, cm := readings.2.2.2, prev := s.se.last } ∧
       (∀ c : Chan, s.se.contention[c] = false)) := by decide +kernel

/-- The fill of that allocation: two channels that take part, the first filled first at a lower rank and at an equal
one, and what 640 A for it leaves of 5000 A at 849 per-mille (R100, R101). -/
theorem test_CycleCloses_fill_met :
    (let a := readings.2.2.2
     let on (c : Chan) := decide (a.chan[c] = .running ∨ a.chan[c] = .parked)
     on 0 = true ∧ on 1 = true ∧ on 2 = false ∧ filledBefore a.table 0 1 = true ∧ filledBefore a.table 1 0 = false ∧
       filledBefore (a.table.set 1 { onEntry 1 with rank := 0 }) 0 1 = true ∧
       capacityLeft a 849 on ((Vector.replicate 16 0).set 0 640) 0 = 4245 ∧
       capacityLeft a 849 on ((Vector.replicate 16 0).set 0 640) 1 = 3605) := by decide +kernel

/-- A closed allocation, and a status frame of which nothing and everything has been read. -/
theorem test_CycleFrames_met :
    (let s : State := { plant with se := { plant.se with work := .closed closed } }
     s.held = false ∧ s.se.work = .closed closed ∧ closed.inputs.mode ≠ .load) ∧
    (let s : State := { plant with se := { plant.se with work := .building closed unread } }
     s.held = false ∧ s.se.work = .building closed unread ∧ unread.links = none ∧ unread.grid = none ∧
       unread.faults = none ∧ unread.fallback = none ∧ unread.measured = none) ∧
    ({ unread with measured := some plant.se.last }).measured = some plant.se.last ∧
    ({ unread with fallback := some true }).fallback = some true := by decide +kernel

/-- A report of a rectifier. -/
def report (st : Station) (state : Byte) (status : BitVec 16) : Report :=
  { raw := [], source := st, state := state, reserved := 0, status := status, current := 900 }

/-- The state with one report handed over. -/
def handReport (r : Report) (s : State) : State := { s with rr := { s.rr with handed := [r] } }

/-- The plant with a compare of class TRIP on channel 0. -/
def comparing : State :=
  { plant with cm := { plant.cm with
      table := plant.cm.table.set 0 { onEntry 0 with cmpRef := 0x10, cmpMask := 0x30, cmpClass := .trip } } }

/-- Reports from a matched and from an unmatched station, on channels that are RUNNING and STARTING, with and without a
mismatch; the modes that follow. -/
theorem test_ReportTaken_met :
    (handReport (report 1 3 0) plant).held = false ∧ (handReport (report 1 3 0) plant).rr.handed = [report 1 3 0] ∧
    plant.rr.testDue = none ∧ plant.rr.work = .idle ∧ TableLaw plant.cm.table ∧ TableLaw comparing.cm.table ∧
    ActsOn plant.cm.table 0x01 0 ∧ ActsOn plant.cm.table 0x03 2 ∧ ¬ActsOn plant.cm.table 0x09 8 ∧
    Mismatches comparing.cm.table[(0 : Chan)] 0x33 ∧ ¬Mismatches comparing.cm.table[(0 : Chan)] 0x13 ∧
    (after (.reportTaken .whole) (handReport (report 1 3 0x33) comparing)).fmu.mode = .halt ∧
    (after (.reportTaken .whole) (handReport (report 1 5 0) plant)).fmu.mode = .run := by
  unfold TableLaw ActsOn Mismatches; repeat' apply And.intro
  all_goals decide +kernel

/-- A channel whose age has just passed the limit, with the test due, and no test due. -/
theorem test_ReportLoss_met :
    (let s : State := { handReport (report 1 3 0) plant with rr := { (handReport (report 1 3 0) plant).rr with
       testDue := some 4, expiryDue := true, age := plant.rr.age.set 0 5 } }
     s.held = false ∧ s.rr.testDue = some 4 ∧ s.rr.work = .idle ∧ s.se.work = .idle ∧ s.rr.expiryDue = true ∧
       s.rr.handed ≠ [] ∧ (s.cm.table[(0 : Chan)]).enable = true ∧
       s.cm.chan[(0 : Chan)] = .running ∧ 4 < s.rr.age[(0 : Chan)] ∧ s.rr.mark[(0 : Chan)] = false) ∧
    plant.rr.testDue = none := by decide +kernel

/-- Events decided for a channel that has since passed to STANDBY, for a report and for a loss test; faults of class
HOLD and of class TRIP to raise in RUN; and an expiry that is due. -/
theorem test_ReportParts_met :
    (let raising : Raising := { code := .rectifierFault, cls := .hold, subject := .channel 0 }
     let trip : Raising := { code := .compareMismatch, cls := .trip, subject := .channel 0 }
     let events : Vector (Option ChannelEvent) 16 := (Vector.replicate 16 none).set 0 (some .fault)
     ([some [], none].all fun (f : Option Frame) =>
       let s : State := withChan 0 .standby { plant with rr := { plant.rr with work := .decided events [raising] f } }
       s.held == false && s.rr.work == .decided events [raising] f && s.cm.chan[(0 : Chan)] == .standby &&
         ({ plant.rr with work := .handed [trip] f }).work == .handed [trip] f) = true) ∧
    plant.fmu.mode = .run ∧ plant.rr.work = .idle ∧ plant.rr.testDue = none ∧ TableLaw plant.cm.table ∧
    ({ plant.rr with expiryDue := true }).expiryDue = true := by
  unfold TableLaw; repeat' apply And.intro
  all_goals decide +kernel

/-- A full list of HOLD entries with distinct codes and subjects. -/
def fullList : List FaultEntry :=
  ((List.finRange 16).map fun c => entry .reportLoss .hold (.channel c)) ++
    ((List.finRange 16).map fun c => entry .rectifierFault .hold (.channel c))

/-- A raising that repeats an entry; a new one with 31 entries; a grave one and a NOTE on 32 entries, with and without
a NOTE among them; and one of class TRIP in RUN. -/
theorem test_FaultRaising_met :
    ((withFaults [entry .parkLimit .note (.channel 5)] plant).fmu.faults =
      [] ++ entry .parkLimit .note (.channel 5) :: []) ∧
    (fullList.drop 1).length < 32 ∧ 32 ≤ fullList.length ∧
    (∀ x ∈ fullList, ¬(x.code = .envelopeExit ∧ x.subject = .none)) ∧ (∀ x ∈ fullList, x.cls ≠ .note) ∧
    (let l := (fullList.drop 1) ++ [entry .parkLimit .note (.channel 5)]
     32 ≤ l.length ∧ l = (fullList.drop 1) ++ entry .parkLimit .note (.channel 5) :: []) ∧
    plant.fmu.mode = .run := by decide +kernel

/-- A part in LOAD for each outcome of the RUN request, and one in RUN. -/
theorem test_ModeRun_met :
    (serving (req .mode .none 0 0 [1]) ready).serves (req .mode .none 0 0 [1]) .mode .none ∧
    byteAt (req .mode .none 0 0 [1]).data 0 = 0x01 ∧
    plant.fmu.mode ≠ .load ∧ ready.fmu.mode = .load ∧
    (∃ e ∈ (withFaults [entry .swellExit .trip .none] ready).fmu.faults, e.cls = .trip) ∧
    (¬∃ e ∈ ready.fmu.faults, e.cls = .trip) ∧ ready.fmu.droppedTrip = false ∧ s0.rtc.nRows = 0 ∧
    (let r := { ready.rtc with vRecover := 850 }
     (0 : Row).val < r.nRows ∧ RowsDescend r.rows r.vRecover 0 ∧ ¬RowsDescend r.rows r.vRecover 1) ∧
    EnvelopeOk ready.rtc.rows ready.rtc.nRows ready.rtc.vRecover ∧
    (∀ c : Chan, (s0.cm.table[c]).enable = false) ∧
    (let m := { ready.cm with groups := ready.cm.groups.set 0 99 }
     (m.table[(0 : Chan)]).enable = true ∧ m.groups[(m.table[(0 : Chan)]).group] < (m.table[(0 : Chan)]).iMin) ∧
    (ready.cm.table[(0 : Chan)]).enable = true ∧
    (∀ c : Chan, (ready.cm.table[c]).enable = true →
      (ready.cm.table[c]).iMin ≤ ready.cm.groups[(ready.cm.table[c]).group]) := by
  unfold State.serves EnvelopeOk RowsDescend; decide +kernel

/-- The three other mode requests and a code that is absent from the table, in HALT and in RUN; RESUME with the
controller NORMAL, and TRIPPED with v_last exactly at V_recover. -/
theorem test_ModeHaltResumeLoad_met :
    ([2, 3, 4, 5].all fun b =>
      (req .mode .none 0 0 [b]).isFor .mode .none && decide (byteAt (req .mode .none 0 0 [b]).data 0 = b)) = true ∧
    modeRequest? 5 = none ∧ plant.fmu.mode = .run ∧ (inMode .halt plant).fmu.mode = .halt ∧
    (∀ e ∈ plant.fmu.faults, e.cls ≠ .trip) ∧ plant.fmu.droppedTrip = false ∧ plant.gm.gridLost = false ∧
    plant.rtc.state = .normal ∧
    (let r := { plant.rtc with state := RtcState.tripped, vRecover := 1000 }
     r.state = .tripped ∧ r.vRecover ≤ plant.gm.vLast) := by decide +kernel

/-- A trip whose raising waits when LOAD is taken in HALT: its entry stays and bars the next RUN (R46). -/
theorem test_load_after_waiting_trip :
    (let s := serving (req .mode .none 0 0 [4]) (inMode .halt (withHanded [raising .swellExit] plant))
     s.serves (req .mode .none 0 0 [4]) .mode .none ∧ s.fmu.mode = .halt ∧
       (∃ r ∈ s.fmu.handed, r.cls = .trip) ∧ (after .modeLoad s).fmu.mode = .load ∧
       (after .modeLoad s).fmu.handed = [] ∧ (after .modeLoad s).fmu.barred = true) := by
  unfold State.serves; decide +kernel

/-- A report decided in RUN with a TRIP-class mismatch still to raise when LOAD is taken in HALT: the fault is listed
first and bars the next RUN (R145); and work with a HOLD to raise, which LOAD leaves. -/
theorem test_load_after_waiting_report :
    (let work (cls : FaultClass) : ReportWork :=
       .handed [{ code := .compareMismatch, cls := cls, subject := .channel 0 }] (some [])
     let s (cls : FaultClass) : State :=
       let p := serving (req .mode .none 0 0 [4]) (inMode .halt plant)
       { p with rr := { p.rr with work := work cls } }
     (s .trip).serves (req .mode .none 0 0 [4]) .mode .none ∧ (s .trip).fmu.mode = .halt ∧
       (∃ r ∈ (s .trip).rr.work.faults, r.cls = .trip) ∧ (s .trip).rr.work.isReport = true ∧
       (after .modeLoad (s .trip)).fmu.mode = .load ∧ (after .modeLoad (s .trip)).fmu.barred = true ∧
       (∀ r ∈ (s .hold).rr.work.faults, r.cls ≠ .trip) ∧
       (after .modeLoad (s .hold)).rr.work = work .hold) := by
  unfold State.serves; decide +kernel

/-- ACK HEAD on an empty list, and on a head that holds a FAULTED channel alone; ACK ALL. -/
theorem test_Acknowledgement_met :
    (serving (req .ackHead .none 0 0 []) plant).serves (req .ackHead .none 0 0 []) .ackHead .none ∧
    (serving (req .ackAll .none 0 0 []) plant).serves (req .ackAll .none 0 0 []) .ackAll .none ∧
    plant.fmu.faults = [] ∧
    (let s := withChan 3 .faulted (withFaults [entry .startTimeout .hold (.channel 3)] plant)
     s.fmu.faults = entry .startTimeout .hold (.channel 3) :: [] ∧ s.cm.chan[(3 : Chan)] = .faulted) := by
  unfold State.serves; decide +kernel

theorem test_SummaryAndMask_met :
    (serving (req .readAndClear .summary 0 1 []) plant).serves (req .readAndClear .summary 0 1 []) .readAndClear
      .summary ∧
    (serving (req .mask .none 0 0 [0xBF]) plant).serves (req .mask .none 0 0 [0xBF]) .mask .none ∧
    plant.held = false := by
  unfold State.serves; decide +kernel

/-- ARM and TRIGGER, the latter in ARMED and elsewhere. -/
theorem test_ArmAndTrigger_met :
    (serving (req .arm .none 0 0 []) plant).serves (req .arm .none 0 0 []) .arm .none ∧
    (serving (req .trigger .none 0 0 []) plant).serves (req .trigger .none 0 0 []) .trigger .none ∧
    (after .arm (serving (req .arm .none 0 0 []) plant)).cu.state = .armed ∧ plant.cu.state ≠ .armed := by
  unfold State.serves; decide +kernel

/-- FAULT READ at the end of an empty list and beyond it; CAPTURE READ before and after completion; and a read of the
last item of each object that a table read serves. -/
theorem test_Reads_met :
    (serving (req .read .fault 0 0 []) plant).serves (req .read .fault 0 0 []) .read .fault ∧
    (serving (req .read .fault 1 32 []) plant).serves (req .read .fault 1 32 []) .read .fault ∧
    plant.fmu.faults.length = 0 ∧
    (serving (req .read .capture 1 0 []) plant).serves (req .read .capture 1 0 []) .read .capture ∧
    plant.cu.state ≠ .complete ∧
    (let c := { plant.cu with state := CaptureState.complete, buffer := [aRecord] }
     c.state = .complete ∧ 1 ≤ c.buffer.length ∧ c.buffer.length < 2) ∧
    ([(Object.global, 0x15), (.envelope, 7), (.swell, 0), (.channel, 15), (.group, 3), (.profile, 7),
        (.channelState, 15), (.sagList, 0)].all fun x => (req .read x.1 x.2 1 []).isFor .read x.1) = true ∧
    plant.held = false ∧ plant.me.restart = .none := by
  unfold State.serves; decide +kernel

/-- A request handed to a queue of three and of four; and a request refused by each of the four checks. -/
theorem test_RequestQueue_met :
    (let q := req .ackAll .none 0 0 []
     let s (n : Nat) : State := { plant with me := { plant.me with handed := [q], queue := List.replicate n q } }
     (s 3).held = false ∧ (s 3).me.handed = q :: [] ∧ (s 3).me.queue.length < 4 ∧ 4 ≤ (s 4).me.queue.length) ∧
    plant.me.restart = .none ∧
    operation? 0x04 = none ∧ (object? 0x0E = none ∧ allowsObject .read .summary = false) ∧
    itemsExist .write .group 3 2 = false ∧
    (itemsExist .write .group 3 1 = true ∧ (req .write .group 3 1 []).data.length ≠ dataLength .write .group 1) := by
  decide +kernel

/-- A run of port U's counters, a 32-bit counter with the greatest value it takes and one more, and one write. -/
theorem test_CounterRequests_met :
    (serving (req .read .counter 0 12 []) plant).serves (req .read .counter 0 12 []) .read .counter ∧
    (serving (req .counterWrite .counter 0 12 (be 8 0)) plant).serves (req .counterWrite .counter 0 12 (be 8 0))
      .counterWrite .counter ∧
    (serving (write .counter 0x35 (be 8 (2 ^ 32))) plant).serves (write .counter 0x35 (be 8 (2 ^ 32))) .write .counter ∧
    counterAt 0x35 = some .ignoredTriggers ∧ CounterName.ignoredTriggers.width = 32 ∧
    ofBe (be 8 (2 ^ 32 - 1)) < 2 ^ 32 ∧ 2 ^ 32 ≤ ofBe (be 8 (2 ^ 32)) := by
  unfold State.serves; decide +kernel

/-- A write of every global setting at its default passes the checks, in LOAD and in RUN. -/
theorem test_GlobalSettings_met :
    ((List.range 0x16).all fun i =>
      (write .global i (be 4 (s0.globalValue i))).isFor .write .global &&
        decide ((serving (write .global i (be 4 (s0.globalValue i))) s0).me.accepted < 1)) = true ∧
    (∃ v, v = 250 ∧ settingRange 0x05 v) ∧ ¬settingRange 0x05 251 ∧ settingRange 0x05 4000 ∧
    s0.fmu.mode = .load ∧ plant.fmu.mode = .run := by
  refine ⟨by decide +kernel, ⟨250, rfl, ?_⟩, ?_, ?_, by decide +kernel, by decide +kernel⟩ <;> simp [settingRange]

/-- Envelope, V_recover, SWELL and P_pre: values the write takes and values at the edge of those it refuses. -/
theorem test_EnvelopeAndCaptureWrites_met :
    ([(Object.envelope, 7, EnvelopeRow.default.bytes), (.global, 0x0B, be 4 500), (.swell, 0, [4, 0xB0, 0, 0]),
        (.global, 0x14, be 4 1023)].all fun x => (write x.1 x.2.1 x.2.2).isFor .write x.1) = true ∧
    plant.fmu.mode = .run ∧ plant.rtc.state = .normal ∧
    (withRtc (fun r => { r with state := .sag }) plant).rtc.state ≠ .normal ∧
    envelopeRow? EnvelopeRow.default.bytes = some EnvelopeRow.default ∧ envelopeRow? (List.replicate 8 0) = none ∧
    EnvelopeOk plant.rtc.rows plant.rtc.nRows 851 ∧ ¬EnvelopeOk plant.rtc.rows plant.rtc.nRows 850 ∧
    field [4, 0xB0, 0, 0] 0 2 = 1200 ∧ field [4, 0xB0, 0, 0] 2 2 = 0 ∧ plant.cu.state = .idle := by
  unfold EnvelopeOk RowsDescend; decide +kernel

/-- The plant meets the laws that the invariants are about, and takes a step. -/
theorem test_laws_met :
    step plant = .next plant.tick ∧ TableLaw plant.cm.table ∧ EntryLaw plant.cm.table ∧ ModeLaw plant.fmu ∧
      RaisingLaw plant ∧ RaisingLaw (withHanded [raising .swellExit] plant) ∧ RaisingLaw s0 ∧
      FaultListLaw (withFaults fullList plant).fmu ∧ ChannelLaw plant.cm plant.fmu.mode ∧
      RideThroughLaw plant.rtc plant.fmu.mode ∧ AllowanceLaw plant.rtc plant.gm ∧ SagListLaw plant.rtc plant.timeBase := by
  refine ⟨rfl, ?_⟩
  have h : plant.rtc.sags = [] := rfl
  unfold TableLaw EntryLaw ModeLaw RaisingLaw FaultListLaw ChannelLaw RideThroughLaw AllowanceLaw SagListLaw
  simp only [h, List.not_mem_nil, false_imp_iff, implies_true]
  repeat' apply And.intro
  all_goals decide +kernel

/-- The plant's capture and queues meet their laws. -/
theorem test_queue_laws_met : CaptureLaw plant.cu ∧ QueueLaw plant := by
  refine ⟨⟨by decide, rfl, rfl, rfl⟩, ?_⟩
  unfold QueueLaw PortULaw PortDLaw
  decide +kernel

end Sys2Proof.Tests
end

