-- ==== Sys2Proof/Proofs/Time.lean ====
section
/-! PROOFS. How time passes: what the passage of time does to the clock, that no command but a power-on reset turns the
clock back, and what a step does while no command waits (O2). -/

namespace Sys2Proof.Machine

/-! ### The passage of time -/

@[simp] theorem State.advanceTo_clock (s : State) (t : Nat) : (s.advanceTo t).clock = max s.clock t := rfl

@[simp] theorem State.advanceMs_clock (s : State) (m : Nat) :
    (s.advanceMs m).clock = max s.clock (m * Config.clocksPerMs) := rfl

/-- The millisecond count never falls and reaches the boundary waited for. -/
@[simp] theorem State.advanceMs_ms (s : State) (m : Nat) : (s.advanceMs m).ms = max s.ms m := by
  simp only [State.ms, State.advanceMs_clock, Config.clocksPerMs]
  omega

theorem State.advanceMs_rtc (s : State) (m : Nat) :
    (s.advanceMs m).rtc = s.rtc.ageSags s.timeBase (max s.ms m - s.ms) := by
  rw [← State.advanceMs_ms]
  rfl

theorem State.timeBase_eq_add_one {s t : State} (h : t.ms = s.ms + 1) : t.timeBase = s.timeBase + 1 := by
  simp [State.timeBase, timeBaseAt, h, BitVec.ofNat_add]

/-! ### The tick -/

theorem State.tick_of_held {s : State} (h : s.held = true) : s.tick = s := if_pos h

theorem State.tick_of_not_held {s : State} (h : s.held = false) : s.tick = s.advanceMs (s.ms + 1) := by
  simp [State.tick, h]

theorem State.changesOnly_advanceMs (s : State) (m : Nat) : s.changesOnly (s.advanceMs m) [.clock, .rtc] := by
  intro p hp
  cases p with
  | clock | rtc => simp at hp
  | held | gm | di | cm | se | rr | fmu | cu | me | pu | pending => rfl

theorem State.changesOnly_tick (s : State) : s.changesOnly s.tick [.clock, .rtc] := by
  cases h : s.held with
  | true => rw [State.tick_of_held h]; intro p _; cases p <;> rfl
  | false => rw [State.tick_of_not_held h]; exact s.changesOnly_advanceMs _

/-- One millisecond passes, and the entries that grow older than W leave the recent-sag list (R2, R30). -/
theorem State.tick_passes_one_ms {s : State} (h : s.held = false) :
    s.tick.ms = s.ms + 1 ∧ s.tick.timeBase = s.timeBase + 1 ∧ s.tick.rtc = s.rtc.ageSags s.timeBase 1 := by
  have hms : s.tick.ms = s.ms + 1 := by rw [State.tick_of_not_held h, State.advanceMs_ms]; omega
  have hrtc : s.tick.rtc = s.rtc.ageSags s.timeBase 1 := by
    rw [State.tick_of_not_held h, State.advanceMs_rtc, show max s.ms (s.ms + 1) - s.ms = 1 by omega]
  exact ⟨hms, State.timeBase_eq_add_one hms, hrtc⟩

/-! ### The clock through the owners' work -/

@[simp] theorem State.takeValidFrame_clock (s : State) (f : GridSample) (b held : Bool) :
    (s.takeValidFrame f b held).clock = s.clock := by
  unfold State.takeValidFrame
  simp only []
  split
  · split
    · simp
    · split <;> simp
  · simp

@[simp] theorem State.takeGridFrame_clock (s : State) (f : GridSample) (b held : Bool) :
    (s.takeGridFrame f b held).clock = s.clock := by
  unfold State.takeGridFrame State.takeInvalidFrame
  split <;> simp

@[simp] theorem State.takeSample_clock (s : State) (b held : Bool) : (s.takeSample b held).clock = s.clock := by
  unfold State.takeSample
  split <;> simp

theorem State.foldl_storeEntry_clock (l : List DispatchEntry) (s : State) :
    (l.foldl State.storeEntry s).clock = s.clock := by
  induction l generalizing s with
  | nil => rfl
  | cons e l ih => rw [List.foldl_cons, ih, State.storeEntry_clock]

@[simp] theorem State.takeDispatch_clock (s : State) (f : Dispatch) : (s.takeDispatch f).clock = s.clock := by
  unfold State.takeDispatch
  split
  · simp
  · split <;> simp [State.foldl_storeEntry_clock]

@[simp] theorem State.receive_clock (s : State) (p : Port) (f : Frame) : (s.receive p f).clock = s.clock := by
  unfold State.receive
  split <;> simp

@[simp] theorem State.loseSignal_clock (s : State) (p : Port) (cut : Bool) : (s.loseSignal p cut).clock = s.clock := by
  unfold State.loseSignal
  simp only []
  split <;> simp

theorem State.foldl_putCounter_clock (l : List CounterName) (v : Nat) (s : State) :
    (l.foldl (fun s n => s.putCounter n v) s).clock = s.clock := by
  induction l generalizing s with
  | nil => rfl
  | cons n l ih => rw [List.foldl_cons, ih, State.putCounter_clock]

/-! ### Owners that decide a request leave the clock as it is -/

/-- Serving a request takes no time. -/
def Service.KeepsClock (f : Service) : Prop := ∀ q s, (f q s).1.clock = s.clock

theorem decideFaultRead_keepsClock : Service.KeepsClock decideFaultRead := by
  intro q s; unfold decideFaultRead; split <;> rfl

theorem decideAckAll_keepsClock : Service.KeepsClock decideAckAll := by
  intro q s; simp only [decideAckAll]

theorem decideAckHead_keepsClock : Service.KeepsClock decideAckHead := by
  intro q s; unfold decideAckHead; split <;> rfl

theorem decideAbort_keepsClock : Service.KeepsClock decideAbort := by
  intro q s
  unfold decideAbort
  split
  · rfl
  · split <;> rfl

theorem decideCounterWrite_keepsClock : Service.KeepsClock decideCounterWrite := by
  intro q s
  unfold decideCounterWrite
  simp only []
  split
  · exact State.foldl_putCounter_clock _ _ _
  · rfl

theorem decideRun_keepsClock : Service.KeepsClock decideRun := by
  intro q s
  unfold decideRun
  split
  · rfl
  · split
    · rfl
    · split <;> simp

theorem decideHalt_keepsClock : Service.KeepsClock decideHalt := by
  intro q s
  unfold decideHalt
  split
  · rfl
  · split <;> simp

theorem decideResume_keepsClock : Service.KeepsClock decideResume := by
  intro q s
  unfold decideResume
  split
  · rfl
  · split
    · rfl
    · split <;> simp

theorem decideLoad_keepsClock : Service.KeepsClock decideLoad := by
  intro q s
  unfold decideLoad
  split
  · rfl
  · split <;> simp

/-! ### An accepted write is the state written -/

theorem inRange_eq_ok {ok : Bool} {w t : State} (h : inRange ok w = .ok t) : t = w := by
  cases ok with
  | true => cases h; rfl
  | false => cases h

theorem State.classA_eq_ok {s w t : State} {ok : Bool} (h : s.classA ok w = .ok t) : t = w := by
  unfold State.classA at h
  split at h
  · cases h
  · exact inRange_eq_ok h

theorem State.decideEnvelope_eq_ok {s w t : State} {fits valid : Bool} (h : s.decideEnvelope fits valid w = .ok t) :
    t = w := by
  unfold State.decideEnvelope at h
  split at h
  · cases h
  · split at h
    · cases h
    · split at h
      · cases h
      · cases h; rfl

/-! ### Owners that decide an entry of a WRITE leave the clock as it is -/

/-- Accepting an entry takes no time. -/
def EntryDecision.KeepsClock (d : EntryDecision) : Prop := ∀ i data s t, d i data s = .ok t → t.clock = s.clock

theorem writeCounter_keepsClock : EntryDecision.KeepsClock writeCounter := by
  intro i data s t h
  unfold writeCounter at h
  split at h
  · cases h
  · split at h
    · cases h; simp
    · cases h

theorem State.writeChannel_clock {s t : State} {c : Chan} {data : List Byte} (h : s.writeChannel c data = .ok t) :
    t.clock = s.clock := by
  unfold State.writeChannel at h
  split at h
  · cases h
  · split at h
    · cases h
    · split at h
      · cases h
      · cases h; simp

theorem writeChannelEntry_keepsClock : EntryDecision.KeepsClock writeChannelEntry := by
  intro i data s t h
  unfold writeChannelEntry at h
  split at h
  · cases h
  · exact State.writeChannel_clock h

theorem writeGroup_keepsClock : EntryDecision.KeepsClock writeGroup := by
  intro i data s t h
  unfold writeGroup at h
  split at h
  · cases h
  · split at h <;> cases h
    rfl

theorem writeProfile_keepsClock : EntryDecision.KeepsClock writeProfile := by
  intro i data s t h
  unfold writeProfile at h
  split at h <;> cases h
  rfl

theorem writeEnvelopeRow_keepsClock : EntryDecision.KeepsClock writeEnvelopeRow := by
  intro i data s t h
  unfold writeEnvelopeRow at h
  split at h
  · cases h
  · split at h <;> rw [State.decideEnvelope_eq_ok h]

theorem writeSwell_keepsClock : EntryDecision.KeepsClock writeSwell := by
  intro i data s t h
  unfold writeSwell at h
  simp only [] at h
  split at h <;> cases h
  rfl

theorem State.writeSetting_clock {s t : State} {i v : Nat} (h : s.writeSetting i v = .ok t) : t.clock = s.clock := by
  unfold State.writeSetting at h
  split at h
  case h_1 | h_2 | h_3 | h_4 => rw [State.classA_eq_ok h]
  case h_15 => cases h
  all_goals rw [inRange_eq_ok h]

theorem writeGlobal_keepsClock : EntryDecision.KeepsClock writeGlobal := fun _ _ _ _ h => State.writeSetting_clock h

theorem writeMeasurementStation_keepsClock : EntryDecision.KeepsClock writeMeasurementStation :=
  fun _ _ _ _ h => by rw [State.classA_eq_ok h]

theorem writeTCyc_keepsClock : EntryDecision.KeepsClock writeTCyc := fun _ _ _ _ h => by rw [State.classA_eq_ok h]

theorem writeNRows_keepsClock : EntryDecision.KeepsClock writeNRows := fun _ _ _ _ h => by rw [State.classA_eq_ok h]

theorem writeVRecover_keepsClock : EntryDecision.KeepsClock writeVRecover :=
  fun _ _ _ _ h => by rw [State.decideEnvelope_eq_ok h]

theorem writeW_keepsClock : EntryDecision.KeepsClock writeW := fun _ _ _ _ h => by rw [inRange_eq_ok h]

theorem writeL_keepsClock : EntryDecision.KeepsClock writeL := fun _ _ _ _ h => by rw [inRange_eq_ok h]

theorem writeTriggerOnSag_keepsClock : EntryDecision.KeepsClock writeTriggerOnSag :=
  fun _ _ _ _ h => by rw [inRange_eq_ok h]

theorem writePPre_keepsClock : EntryDecision.KeepsClock writePPre := by
  intro i data s t h
  unfold writePPre at h
  split at h
  · cases h
  · split at h <;> cases h
    rfl

/-! ### The control forms never turn the clock back -/

/-- A next state that the outcome gives lies no earlier than `s` on the clock. -/
def ClockRunsOn (s : State) (o : Host.Outcome State Fault Refusal) : Prop := ∀ t, o = .next t → s.clock ≤ t.clock

theorem clockRunsOn_next_iff {s t : State} : ClockRunsOn s (.next t) ↔ s.clock ≤ t.clock := by
  constructor
  · intro h; exact h t rfl
  · intro h u hu; cases hu; exact h

/-- A command that a held part ignores. -/
theorem clockRunsOn_live {s : State} {f : State → State} (h : s.clock ≤ (f s).clock) :
    ClockRunsOn s (.next (s.live f)) :=
  clockRunsOn_next_iff.mpr (State.live_ind (P := fun t => s.clock ≤ t.clock) le_rfl fun _ => h)

theorem State.serve_clock {op : Operation} {o : Object} {accepts : Request → Bool} {f : Service}
    (hf : f.KeepsClock) (s : State) : (s.serve op o accepts f).clock = s.clock :=
  State.serve_ind (P := fun t => t.clock = s.clock) rfl fun q _ _ _ => by rw [State.answer_clock, hf]

theorem State.serveEntry_clock {o : Object} {owns : Nat → Bool} {d : EntryDecision} (hd : d.KeepsClock) (s : State) :
    (s.serveEntry o owns d).clock = s.clock :=
  State.serveEntry_ind (P := fun t => t.clock = s.clock) rfl (fun _ _ _ => rfl)
    fun _ t _ _ _ ht => have h : t.clock = s.clock := hd _ _ _ _ ht; ⟨h, h⟩

theorem clockRunsOn_serve {s : State} {op : Operation} {o : Object} {accepts : Request → Bool} {f : Service}
    (hf : f.KeepsClock) : ClockRunsOn s (.next (s.live (State.serve op o accepts f))) :=
  clockRunsOn_live (State.serve_clock hf s).ge

theorem clockRunsOn_serveEntry {s : State} {o : Object} {owns : Nat → Bool} {d : EntryDecision}
    (hd : d.KeepsClock) : ClockRunsOn s (.next (s.live (State.serveEntry o owns d))) :=
  clockRunsOn_live (State.serveEntry_clock hd s).ge

/-- An expiry whose effect takes no time of its own only lets time pass. -/
theorem State.clock_le_onExpiry {s : State} {t : Timer} {f : State → State} (h : ∀ w, (f w).clock = w.clock) :
    s.clock ≤ (s.onExpiry t f).clock :=
  State.onExpiry_ind (P := fun w => s.clock ≤ w.clock) le_rfl fun m _ => by
    rw [h, State.advanceMs_clock]; exact le_max_left _ _

theorem State.clock_le_tripOn (s : State) (code : FaultCode) (t : Timer) (part : TripPart) :
    s.clock ≤ (s.tripOn code t part).clock := by
  cases part with
  | whole => exact State.clock_le_onExpiry fun w => by simp
  | trip => exact State.clock_le_onExpiry fun w => by simp
  | raise => simp [State.tripOn]

/-! ### The commands that have a form of their own -/

theorem execLinkLoss_clockRunsOn (p : Port) (cut : Bool) (s : State) : ClockRunsOn s (execLinkLoss p cut s) := by
  refine clockRunsOn_next_iff.mpr ?_
  split
  · simp
  · split <;> simp

theorem execLinkUp_clockRunsOn (p : Port) (s : State) : ClockRunsOn s (execLinkUp p s) := by
  refine clockRunsOn_next_iff.mpr ?_
  split <;> simp

theorem execResetAsserted_clockRunsOn (n : Nat) (s : State) : ClockRunsOn s (execResetAsserted n s) := by
  refine clockRunsOn_next_iff.mpr ?_
  split <;> exact le_rfl

theorem execGridSampleTaken_clockRunsOn (b : Bool) (s : State) (part : TripPart) :
    ClockRunsOn s (execGridSampleTaken b s part) := by
  refine clockRunsOn_live ?_
  cases part <;> simp

theorem execRecoveryHoldExpiry_clockRunsOn (s : State) : ClockRunsOn s (execRecoveryHoldExpiry s) := by
  refine clockRunsOn_live ?_
  split
  · exact State.clock_le_onExpiry fun _ => rfl
  · exact le_rfl

theorem execRecoveryRampExpiry_clockRunsOn (s : State) : ClockRunsOn s (execRecoveryRampExpiry s) := by
  refine clockRunsOn_live ?_
  split
  · exact State.clock_le_onExpiry fun _ => rfl
  · exact le_rfl

theorem execSagListEntryAged_clockRunsOn (s : State) : ClockRunsOn s (execSagListEntryAged s) := by
  refine clockRunsOn_live ?_
  split <;> simp

theorem execDispatchFrameTaken_clockRunsOn (s : State) : ClockRunsOn s (execDispatchFrameTaken s) := by
  refine clockRunsOn_live ?_
  split <;> simp

theorem execStartTimerExpiry_clockRunsOn (c : Chan) (s : State) : ClockRunsOn s (execStartTimerExpiry c s) := by
  refine clockRunsOn_live ?_
  split
  · exact State.clock_le_onExpiry fun w => by simp
  · exact le_rfl

theorem execParkTimerExpiry_clockRunsOn (c : Chan) (s : State) : ClockRunsOn s (execParkTimerExpiry c s) := by
  refine clockRunsOn_live ?_
  split
  · exact State.clock_le_onExpiry fun w => by simp
  · exact le_rfl

theorem execReportTaken_clockRunsOn (s : State) (part : ReportPart) : ClockRunsOn s (execReportTaken s part) := by
  refine clockRunsOn_live ?_
  cases part with
  | decide => simp
  | whole | hand | finish => dsimp only; split <;> simp

theorem execReportLoss_clockRunsOn (s : State) (part : ReportPart) : ClockRunsOn s (execReportLoss s part) := by
  refine clockRunsOn_live ?_
  cases part with
  | whole | decide | hand | finish => dsimp only; split <;> simp

@[simp] theorem State.beginCycle_clock (s : State) : s.beginCycle.clock = max s.clock s.se.nextCycle := rfl

theorem execCycleStart_clockRunsOn (part : CyclePart) (s : State) : ClockRunsOn s (execCycleStart part s) := by
  refine clockRunsOn_live ?_
  cases part with
  | whole reportsFirst => cases reportsFirst <;> simp
  | start | demands | standing | voltage | request | close | setpoint | look | status | reports => simp

theorem execTransmissionEndD_clockRunsOn (s : State) : ClockRunsOn s (execTransmissionEndD s) := by
  refine clockRunsOn_live ?_
  split <;> simp

theorem execTransmissionEndU_clockRunsOn (s : State) : ClockRunsOn s (execTransmissionEndU s) := by
  refine clockRunsOn_live ?_
  split <;> simp

theorem execMgmtRequestQueued_clockRunsOn (s : State) : ClockRunsOn s (execMgmtRequestQueued s) := by
  refine clockRunsOn_live ?_
  split <;> simp

theorem execMgmtRequestRefused_clockRunsOn (s : State) : ClockRunsOn s (execMgmtRequestRefused s) := by
  refine clockRunsOn_live ?_
  split
  · exact le_rfl
  · split
    · exact le_rfl
    · split <;> simp

theorem execRestart_clockRunsOn (s : State) : ClockRunsOn s (execRestart s) := by
  refine clockRunsOn_live ?_
  split
  · exact le_rfl
  · split <;> simp

/-- A RESTART keeps the time base (R200). -/
theorem execRestartTakesEffect_clockRunsOn (s : State) : ClockRunsOn s (execRestartTakesEffect s) := by
  refine clockRunsOn_live ?_
  split <;> simp

/-! ### Every command -/

/-- The two commands that can put the part through a power-on reset are the only ones left out (R203). -/
theorem exec_clockRunsOn {c : Instr} (hsupply : c ≠ .supplyStart) (hreset : c ≠ .resetReleased) (s : State) :
    ClockRunsOn s (exec c s) := by
  cases c with
  | supplyStart => exact absurd rfl hsupply
  | resetReleased => exact absurd rfl hreset
  | resetAsserted n => exact execResetAsserted_clockRunsOn n s
  | linkLoss p cut => exact execLinkLoss_clockRunsOn p cut s
  | linkUp p => exact execLinkUp_clockRunsOn p s
  | frameReceived p f => exact clockRunsOn_live (State.receive_clock s p f).ge
  | gridSampleTaken b part => exact execGridSampleTaken_clockRunsOn b s part
  | gridSilenceExpiry => exact clockRunsOn_live (State.clock_le_onExpiry fun w => by simp)
  | envelopeExit row part => exact clockRunsOn_live (State.clock_le_tripOn ..)
  | swellExit part => exact clockRunsOn_live (State.clock_le_tripOn ..)
  | recoveryHoldExpiry => exact execRecoveryHoldExpiry_clockRunsOn s
  | recoveryRampExpiry => exact execRecoveryRampExpiry_clockRunsOn s
  | sagListEntryAged => exact execSagListEntryAged_clockRunsOn s
  | dispatchFrameTaken => exact execDispatchFrameTaken_clockRunsOn s
  | dispatchSilenceExpiry => exact clockRunsOn_live (State.clock_le_onExpiry fun w => by simp)
  | startTimerExpiry ch => exact execStartTimerExpiry_clockRunsOn ch s
  | parkTimerExpiry ch => exact execParkTimerExpiry_clockRunsOn ch s
  | reportTaken part => exact execReportTaken_clockRunsOn s part
  | cycleStart part => exact execCycleStart_clockRunsOn part s
  | reportLoss part => exact execReportLoss_clockRunsOn s part
  | transmissionEndD => exact execTransmissionEndD_clockRunsOn s
  | transmissionEndU => exact execTransmissionEndU_clockRunsOn s
  | mgmtRequestQueued => exact execMgmtRequestQueued_clockRunsOn s
  | mgmtRequestRefused => exact execMgmtRequestRefused_clockRunsOn s
  | restart => exact execRestart_clockRunsOn s
  | restartTakesEffect => exact execRestartTakesEffect_clockRunsOn s
  | modeRun => exact clockRunsOn_serve decideRun_keepsClock
  | modeHalt => exact clockRunsOn_serve decideHalt_keepsClock
  | modeResume => exact clockRunsOn_serve decideResume_keepsClock
  | modeLoad => exact clockRunsOn_serve decideLoad_keepsClock
  | ackHead => exact clockRunsOn_serve decideAckHead_keepsClock
  | ackAll => exact clockRunsOn_serve decideAckAll_keepsClock
  | abort => exact clockRunsOn_serve decideAbort_keepsClock
  | counterWrite => exact clockRunsOn_serve decideCounterWrite_keepsClock
  | faultRead => exact clockRunsOn_serve decideFaultRead_keepsClock
  | arm | trigger | mask | captureRead | summaryRead | contentionRead | channelStateRead | saglistRead | globalRead
  | envelopeRead | swellRead | channelRead | groupRead | profileRead | counterRead =>
    exact clockRunsOn_serve fun _ _ => rfl
  | channelWrite => exact clockRunsOn_serveEntry writeChannelEntry_keepsClock
  | envelopeWrite => exact clockRunsOn_serveEntry writeEnvelopeRow_keepsClock
  | swellWrite => exact clockRunsOn_serveEntry writeSwell_keepsClock
  | groupWrite => exact clockRunsOn_serveEntry writeGroup_keepsClock
  | profileWrite => exact clockRunsOn_serveEntry writeProfile_keepsClock
  | counterObjectWrite => exact clockRunsOn_serveEntry writeCounter_keepsClock
  | globalWrite => exact clockRunsOn_serveEntry writeGlobal_keepsClock
  | measurementStationWrite => exact clockRunsOn_serveEntry writeMeasurementStation_keepsClock
  | nRowsWrite => exact clockRunsOn_serveEntry writeNRows_keepsClock
  | vRecoverWrite => exact clockRunsOn_serveEntry writeVRecover_keepsClock
  | wWrite => exact clockRunsOn_serveEntry writeW_keepsClock
  | tCycWrite => exact clockRunsOn_serveEntry writeTCyc_keepsClock
  | lWrite => exact clockRunsOn_serveEntry writeL_keepsClock
  | pPreWrite => exact clockRunsOn_serveEntry writePPre_keepsClock
  | triggerOnSagWrite => exact clockRunsOn_serveEntry writeTriggerOnSag_keepsClock

/-! ### The step with no command waiting -/

theorem step_of_idle {s : State} (h : s.pending = []) : step s = .next s.tick := by
  unfold step
  rw [h]

/-- Settles O2: the tick of an idle part, and a case split over the commands for the clock. -/
theorem timePasses : Obligations.TimePasses := by
  unfold Obligations.TimePasses
  refine ⟨?idle, fun c s t hsupply hreset ht => exec_clockRunsOn hsupply hreset s t ht⟩
  case idle =>
    intro s hs
    exact ⟨s.tick, step_of_idle hs, s.changesOnly_tick, State.tick_of_held, State.tick_passes_one_ms⟩

end Sys2Proof.Machine
end

