-- ==== Sys2Proof/Proofs/Sources.lean ====
section
/-! PROOFS. The two laws of the allowance's sources through the operations of their owners: the caps of the Ride-Through
Controller, the factors of the Grid Monitor, and the recent-sag list as entries join it, leave it and grow older. -/

namespace Sys2Proof.Machine

/-! ### The two owners of the allowance's sources -/

/-- The part of `AllowanceLaw` that speaks of the Ride-Through Controller (R19, R21, R42). -/
def RideThrough.CapsInRange (r : RideThrough) : Prop :=
  (∀ i : Row, (r.rows[i]).cap ≤ 1000) ∧ r.pLow ≤ 1000 ∧ r.pLoss ≤ 1000 ∧ r.aFb ≤ 1000 ∧ 1 ≤ r.slope

/-- The part of `AllowanceLaw` that speaks of the Grid Monitor (R3, R10). -/
def GridMonitor.FactorsInRange (g : GridMonitor) : Prop := g.fFloor ≤ 1000 ∧ g.factor ≤ 1000

theorem allowanceLaw_iff {r : RideThrough} {g : GridMonitor} :
    AllowanceLaw r g ↔ r.CapsInRange ∧ g.FactorsInRange := by
  simp only [AllowanceLaw, RideThrough.CapsInRange, GridMonitor.FactorsInRange, and_assoc]

theorem GridMonitor.factorFor_le {g : GridMonitor} (h : g.fFloor ≤ 1000) (f : Nat) : g.factorFor f ≤ 1000 := by
  unfold GridMonitor.factorFor
  split <;> omega

theorem GridMonitor.FactorsInRange.takeValid {g : GridMonitor} (h : g.FactorsInRange) (f : GridSample) (ms : Nat) :
    (g.takeValid f ms).FactorsInRange :=
  ⟨h.1, GridMonitor.factorFor_le h.1 f.freq⟩

/-! ### P_state never exceeds 1000 (R42) -/

theorem EnvelopeRow.effCap_le_cap (row : EnvelopeRow) : row.effCap ≤ row.cap := by
  unfold EnvelopeRow.effCap
  split <;> omega

theorem RideThrough.CapsInRange.effCap_le {r : RideThrough} (h : r.CapsInRange) (i : Row) :
    (r.rows[i]).effCap ≤ 1000 :=
  (EnvelopeRow.effCap_le_cap _).trans (h.1 i)

theorem RideThrough.CapsInRange.sagPState_le {r : RideThrough} (h : r.CapsInRange) : r.sagPState ≤ 1000 := by
  obtain ⟨-, hLow, -⟩ := id h
  unfold RideThrough.sagPState
  split
  · exact h.effCap_le _
  · split
    · exact h.effCap_le 0
    · exact hLow

theorem RideThrough.CapsInRange.pState_le {r : RideThrough} (h : r.CapsInRange) (now : BitVec 32) :
    r.pState now ≤ 1000 := by
  obtain ⟨-, hLow, hLoss, -, -⟩ := id h
  unfold RideThrough.pState
  split
  case h_1 => exact le_rfl
  case h_2 => exact h.sagPState_le
  case h_3 =>
    unfold RideThrough.recoverPState
    split
    · exact hLow
    · exact min_le_left _ _
  case h_4 => exact (min_le_left _ _).trans hLoss
  case h_5 => exact Nat.zero_le _

/-! ### The caps through the controller's changes of state

A change that leaves the caps, P_low, P_loss, A_fb and S as they are keeps `CapsInRange` by definition. -/

theorem RideThrough.CapsInRange.withPLow {r : RideThrough} (h : r.CapsInRange) {p : Nat} (hp : p ≤ 1000) :
    ({ r with pLow := p } : RideThrough).CapsInRange := by
  obtain ⟨hrows, -, hrest⟩ := h
  exact ⟨hrows, hp, hrest⟩

theorem RideThrough.CapsInRange.endHold {r : RideThrough} (h : r.CapsInRange) (ms : Nat) :
    (r.endHold ms).CapsInRange := by
  unfold RideThrough.endHold
  split <;> exact h

theorem RideThrough.CapsInRange.enterRecover {r : RideThrough} (h : r.CapsInRange) (ms : Nat) :
    (r.enterRecover ms).CapsInRange := by
  unfold RideThrough.enterRecover
  simp only []
  split
  · exact RideThrough.CapsInRange.endHold (r := { r.clearRows with
      state := .recover, prior := none, phase := .hold, recovery := none }) h ms
  · exact h

theorem RideThrough.CapsInRange.beginSag {r : RideThrough} (h : r.CapsInRange) (ms vMin : Nat) :
    (r.beginSag ms vMin).rtc.CapsInRange := by
  unfold RideThrough.beginSag
  simp only []
  split
  · exact h
  · refine RideThrough.CapsInRange.withPLow h (RideThrough.CapsInRange.sagPState_le ?_)
    exact h

theorem RideThrough.CapsInRange.continueSag {r : RideThrough} (h : r.CapsInRange) (ms vMin : Nat) :
    (r.continueSag ms vMin).CapsInRange := by
  unfold RideThrough.continueSag
  simp only []
  obtain ⟨hrows, hLow, hrest⟩ := h
  have hsag : ∀ p, p ≤ r.pLow →
      ({ r.classify ms vMin with state := .sag, prior := none, pLow := p } : RideThrough).CapsInRange :=
    fun p hp => ⟨hrows, hp.trans hLow, hrest⟩
  split
  · exact (hsag _ (min_le_left _ _)).enterRecover ms
  · exact hsag _ (min_le_left _ _)

theorem RideThrough.CapsInRange.leaveGridLost {r : RideThrough} (h : r.CapsInRange) (ms vMin : Nat) :
    (r.leaveGridLost ms vMin).rtc.CapsInRange := by
  have hsag : (quiet (if r.vRecover ≤ vMin then r.enterRecover ms else r.continueSag ms vMin)).rtc.CapsInRange := by
    unfold quiet
    split
    · exact h.enterRecover ms
    · exact h.continueSag ms vMin
  have hnormal :
      (if r.belowRow0 vMin then r.beginSag ms vMin else quiet r.enterNormal : NoticeResult).rtc.CapsInRange := by
    split
    · exact h.beginSag ms vMin
    · exact h
  unfold RideThrough.leaveGridLost
  split
  · exact hsag
  · exact hsag
  · exact hnormal
  · exact hnormal

theorem RideThrough.CapsInRange.handleNotice {r : RideThrough} (h : r.CapsInRange) (ms vMin : Nat) :
    (r.handleNotice ms vMin).rtc.CapsInRange := by
  unfold RideThrough.handleNotice
  split
  case h_1 | h_3 =>
    split
    · exact h.beginSag ms vMin
    · exact h
  case h_2 => exact h.continueSag ms vMin
  case h_4 => exact h.leaveGridLost ms vMin
  case h_5 => exact h

theorem RideThrough.CapsInRange.swellCheck {r : RideThrough} (h : r.CapsInRange) (ms vMax : Nat) :
    (r.swellCheck ms vMax).CapsInRange := by
  unfold RideThrough.swellCheck
  split
  · exact h
  · split
    · split <;> exact h
    · exact h

theorem RideThrough.CapsInRange.notice {r : RideThrough} (h : r.CapsInRange) (ms vMin vMax : Nat) :
    (r.notice ms vMin vMax).rtc.CapsInRange :=
  (h.handleNotice ms vMin).swellCheck ms vMax

theorem RideThrough.CapsInRange.loseGrid {r : RideThrough} (h : r.CapsInRange) (p : PriorState) (now : BitVec 32) :
    (r.loseGrid p now).CapsInRange := by
  have hLoss := h.pState_le now
  obtain ⟨hrows, hLow, -, hrest⟩ := h
  exact ⟨hrows, hLow, hLoss, hrest⟩

theorem RideThrough.CapsInRange.gridLostNotice {r : RideThrough} (h : r.CapsInRange) (now : BitVec 32) :
    (r.gridLostNotice now).CapsInRange := by
  unfold RideThrough.gridLostNotice
  split
  case h_1 | h_2 | h_3 => exact h.loseGrid _ now
  case h_4 | h_5 => exact h

theorem RideThrough.CapsInRange.putRow {r : RideThrough} (h : r.CapsInRange) (i : Row) {row : EnvelopeRow}
    (hcap : row.cap ≤ 1000) : (r.putRow i row).CapsInRange := by
  refine ⟨fun j => ?_, h.2⟩
  simp only [RideThrough.putRow, Fin.getElem_fin, Vector.getElem_set]
  split
  · exact hcap
  · exact h.1 j

theorem RideThrough.CapsInRange.putSwell {r : RideThrough} (h : r.CapsInRange) (v t : Nat) :
    (r.putSwell v t).CapsInRange := by
  unfold RideThrough.putSwell
  split <;> exact h

theorem envelopeRow?_cap_le {l : List Byte} {row : EnvelopeRow} (h : envelopeRow? l = some row) : row.cap ≤ 1000 := by
  unfold envelopeRow? at h
  split at h
  · obtain ⟨hr, he⟩ := Option.ite_none_right_eq_some.mp h
    cases he
    simp only [EnvelopeRow.inRange, Bool.and_eq_true, decide_eq_true_eq] at hr
    exact hr.2
  · cases h

/-! ### The recent-sag list

`SagListLaw` speaks of W and of the list alone, so that a change of any other record keeps it by definition. -/

/-- Entries may leave the list. -/
theorem SagListLaw.of_sublist {r t : RideThrough} {now : BitVec 32} (h : SagListLaw r now) (hw : t.window = r.window)
    (hs : t.sags.Sublist r.sags) : SagListLaw t now := by
  obtain ⟨hwindow, hlength, hages, horder⟩ := h
  refine ⟨hw ▸ hwindow, hs.length_le.trans hlength, fun x hx => hw ▸ hages x (hs.subset hx), horder.sublist hs⟩

theorem SagListLaw.of_eq {r t : RideThrough} {now : BitVec 32} (h : SagListLaw r now) (hw : t.window = r.window)
    (hs : t.sags = r.sags) : SagListLaw t now :=
  h.of_sublist hw (hs ▸ List.Sublist.refl _)

/-- A list that has been emptied meets the law at every moment. -/
theorem sagListLaw_of_nil {r : RideThrough} {now : BitVec 32} (hw : r.window ≤ 600000) (hs : r.sags = []) :
    SagListLaw r now := by
  simp [SagListLaw, hw, hs]

/-- An accepted write of W: the entries older than the new W leave (R30). -/
theorem SagListLaw.prune {r : RideThrough} {now : BitVec 32} (h : SagListLaw r now) {w : Nat} (hw : w ≤ 600000) :
    SagListLaw (RideThrough.prune now { r with window := w }) now := by
  obtain ⟨-, hlength, -, horder⟩ := h
  refine ⟨hw, (List.length_filter_le _ _).trans hlength, fun x hx => ?_, horder.filter _⟩
  exact of_decide_eq_true (List.mem_filter.mp hx).2

@[simp] theorem sagAge_self (now : BitVec 32) : sagAge now now = 0 := by simp [sagAge]

theorem sagAge_eq_zero_iff {now t : BitVec 32} : sagAge now t = 0 ↔ t = now := by
  constructor
  · intro h
    unfold sagAge at h
    bv_omega
  · rintro rfl
    exact sagAge_self _

/-- In a list in order whose newest entry does not bear this moment, every entry is older than this moment. -/
theorem sagAge_pos_of_getLast_ne {now : BitVec 32} {l : List (BitVec 32)}
    (horder : l.Pairwise fun a b => sagAge now b < sagAge now a) (hlast : l.getLast? ≠ some now) :
    ∀ t ∈ l, 0 < sagAge now t := by
  intro t ht
  rcases List.eq_nil_or_concat l with rfl | ⟨l', x, rfl⟩
  · cases ht
  · have hx : 0 < sagAge now x := by
      refine Nat.pos_of_ne_zero fun h0 => hlast ?_
      simp [sagAge_eq_zero_iff.mp h0]
    rw [List.concat_eq_append, List.pairwise_append] at horder
    rw [List.concat_eq_append, List.mem_append, List.mem_singleton] at ht
    rcases ht with ht | rfl
    · exact hx.trans (horder.2.2 t ht x (List.mem_singleton_self x))
    · exact hx

/-- A sag that begins now joins the list as its newest entry, and the oldest leaves a full list (R30). -/
theorem SagListLaw.addSag {r t : RideThrough} {now : BitVec 32} (h : SagListLaw r now) (hw : t.window = r.window)
    (hs : t.sags = addSag now r.window r.sags) : SagListLaw t now := by
  have hp : SagListLaw (RideThrough.prune now { r with window := r.window }) now := h.prune h.1
  obtain ⟨hwindow, hlength, hages, horder⟩ := hp
  simp only [RideThrough.prune] at hwindow hlength hages horder
  simp only [SagListLaw, hw, hs, Machine.addSag]
  split
  · exact ⟨hwindow, hlength, hages, horder⟩
  · rename_i hlast
    set l := pruneSags now r.window r.sags
    have hsub : (if Config.sagDepth ≤ l.length then l.tail else l).Sublist l := by
      split
      · exact List.tail_sublist l
      · exact List.Sublist.refl l
    have hroom : (if Config.sagDepth ≤ l.length then l.tail else l).length + 1 ≤ Config.sagDepth := by
      split
      · rw [List.length_tail]
        simp only [Config.sagDepth] at *
        omega
      · omega
    refine ⟨hwindow, by simpa using hroom, fun x hx => ?_, ?_⟩
    · rcases List.mem_append.mp hx with hx | hx
      · exact hages x (hsub.subset hx)
      · rw [List.mem_singleton.mp hx, sagAge_self]
        exact Nat.zero_le _
    · refine List.pairwise_append.mpr ⟨horder.sublist hsub, List.pairwise_singleton _ _, fun a ha b hb => ?_⟩
      rw [List.mem_singleton.mp hb, sagAge_self]
      exact sagAge_pos_of_getLast_ne horder hlast a (hsub.subset ha)

/-- An entry that does not outgrow W on the way grows older by exactly the milliseconds that pass: the 32-bit time base
does not wrap past it. -/
theorem sagAge_add {ms passed : Nat} {t : BitVec 32} (h : sagAge (timeBaseAt ms) t + passed < 2 ^ 32) :
    sagAge (timeBaseAt (ms + passed)) t = sagAge (timeBaseAt ms) t + passed := by
  unfold sagAge timeBaseAt at *
  rw [BitVec.ofNat_add]
  bv_omega

/-- Time passes: the entries that grow older than W leave, and the others keep their order (R30). -/
theorem SagListLaw.ageSags {r : RideThrough} {ms : Nat} (h : SagListLaw r (timeBaseAt ms)) (passed : Nat) :
    SagListLaw (r.ageSags (timeBaseAt ms) passed) (timeBaseAt (ms + passed)) := by
  obtain ⟨hwindow, hlength, -, horder⟩ := h
  have hage : ∀ t ∈ (r.ageSags (timeBaseAt ms) passed).sags,
      sagAge (timeBaseAt ms) t + passed ≤ r.window ∧
        sagAge (timeBaseAt (ms + passed)) t = sagAge (timeBaseAt ms) t + passed := by
    intro t ht
    have hle := of_decide_eq_true (List.mem_filter.mp ht).2
    exact ⟨hle, sagAge_add (by omega)⟩
  refine ⟨hwindow, (List.length_filter_le _ _).trans hlength, fun t ht => ?_, ?_⟩
  · rw [(hage t ht).2]
    exact (hage t ht).1
  · refine (horder.filter _).imp_of_mem fun ha hb hab => ?_
    rw [(hage _ ha).2, (hage _ hb).2]
    omega

/-! ### The recent-sag list through the controller's changes of state -/

@[simp] theorem RideThrough.endHold_window (r : RideThrough) (ms : Nat) : (r.endHold ms).window = r.window := by
  unfold RideThrough.endHold; split <;> rfl

@[simp] theorem RideThrough.endHold_sags (r : RideThrough) (ms : Nat) : (r.endHold ms).sags = r.sags := by
  unfold RideThrough.endHold; split <;> rfl

@[simp] theorem RideThrough.enterRecover_window (r : RideThrough) (ms : Nat) :
    (r.enterRecover ms).window = r.window := by
  unfold RideThrough.enterRecover
  simp only []
  split
  · exact RideThrough.endHold_window _ ms
  · rfl

@[simp] theorem RideThrough.enterRecover_sags (r : RideThrough) (ms : Nat) : (r.enterRecover ms).sags = r.sags := by
  unfold RideThrough.enterRecover
  simp only []
  split
  · exact RideThrough.endHold_sags _ ms
  · rfl

@[simp] theorem RideThrough.continueSag_window (r : RideThrough) (ms vMin : Nat) :
    (r.continueSag ms vMin).window = r.window := by
  unfold RideThrough.continueSag
  simp only []
  split
  · exact RideThrough.enterRecover_window _ ms
  · rfl

@[simp] theorem RideThrough.continueSag_sags (r : RideThrough) (ms vMin : Nat) :
    (r.continueSag ms vMin).sags = r.sags := by
  unfold RideThrough.continueSag
  simp only []
  split
  · exact RideThrough.enterRecover_sags _ ms
  · rfl

theorem SagListLaw.beginSag {r : RideThrough} {ms : Nat} (h : SagListLaw r (timeBaseAt ms)) (vMin : Nat) :
    SagListLaw (r.beginSag ms vMin).rtc (timeBaseAt ms) := by
  have hadd : SagListLaw { r with
      sagCount := countSag r.sagCount, sags := Machine.addSag (timeBaseAt ms) r.window r.sags } (timeBaseAt ms) :=
    h.addSag rfl rfl
  unfold RideThrough.beginSag
  simp only []
  split <;> exact hadd

theorem SagListLaw.leaveGridLost {r : RideThrough} {ms : Nat} (h : SagListLaw r (timeBaseAt ms)) (vMin : Nat) :
    SagListLaw (r.leaveGridLost ms vMin).rtc (timeBaseAt ms) := by
  have hsag : SagListLaw (quiet (if r.vRecover ≤ vMin then r.enterRecover ms else r.continueSag ms vMin)).rtc
      (timeBaseAt ms) := by
    unfold quiet
    split <;> exact h.of_eq (by simp) (by simp)
  have hnormal : SagListLaw
      (if r.belowRow0 vMin then r.beginSag ms vMin else quiet r.enterNormal : NoticeResult).rtc (timeBaseAt ms) := by
    split
    · exact h.beginSag vMin
    · exact h
  unfold RideThrough.leaveGridLost
  split
  · exact hsag
  · exact hsag
  · exact hnormal
  · exact hnormal

theorem SagListLaw.handleNotice {r : RideThrough} {ms : Nat} (h : SagListLaw r (timeBaseAt ms)) (vMin : Nat) :
    SagListLaw (r.handleNotice ms vMin).rtc (timeBaseAt ms) := by
  unfold RideThrough.handleNotice
  split
  case h_1 | h_3 =>
    split
    · exact h.beginSag vMin
    · exact h
  case h_2 => exact h.of_eq (r.continueSag_window ms vMin) (r.continueSag_sags ms vMin)
  case h_4 => exact h.leaveGridLost vMin
  case h_5 => exact h

theorem SagListLaw.swellCheck {r : RideThrough} {now : BitVec 32} (h : SagListLaw r now) (ms vMax : Nat) :
    SagListLaw (r.swellCheck ms vMax) now := by
  unfold RideThrough.swellCheck
  split
  · exact h
  · split
    · split <;> exact h
    · exact h

theorem SagListLaw.notice {r : RideThrough} {ms : Nat} (h : SagListLaw r (timeBaseAt ms)) (vMin vMax : Nat) :
    SagListLaw (r.notice ms vMin vMax).rtc (timeBaseAt ms) :=
  (h.handleNotice vMin).swellCheck ms vMax

theorem SagListLaw.gridLostNotice {r : RideThrough} {now : BitVec 32} (h : SagListLaw r now) (n : BitVec 32) :
    SagListLaw (r.gridLostNotice n) now := by
  unfold RideThrough.gridLostNotice
  split <;> exact h

theorem SagListLaw.putSwell {r : RideThrough} {now : BitVec 32} (h : SagListLaw r now) (v t : Nat) :
    SagListLaw (r.putSwell v t) now := by
  unfold RideThrough.putSwell
  split <;> exact h

end Sys2Proof.Machine
end

