-- ==== Sys2Proof/Proofs/GridFrames.lean ====
section
/-! PROOFS. What the Grid Monitor does with a frame it takes: the outcomes of R5 in the manual's words, and what a valid
frame changes. The frames that are turned away (O14), the values of a valid frame (O15) and grid silence (O19). -/

namespace Sys2Proof.Machine

/-! ### The outcome of a frame (R5) -/

theorem isNewer_eq_true_iff {st : Option (BitVec 16)} {n : BitVec 16} : isNewer st n = true ↔ IsNewer st n := by
  cases st with
  | none => simp [isNewer, IsNewer]
  | some last =>
    simp only [isNewer, IsNewer, Bool.and_eq_true, decide_eq_true_eq, reduceCtorEq, Option.some.injEq,
      exists_eq_left', false_or]
    rfl

theorem missedBy_of_missedBetween {st : Option (BitVec 16)} {n : BitVec 16} {k : Nat} (h : MissedBetween st n k) :
    missedBy st n = k := by
  obtain ⟨hnone, hsome⟩ := h
  cases st with
  | none => exact (hnone rfl).symm
  | some last => exact (hsome last rfl).symm

theorem GridSample.plausible_eq_true_iff {f : GridSample} : f.plausible = true ↔ IsPlausible f := by
  simp [GridSample.plausible, IsPlausible, and_assoc]

theorem GridSample.plausible_eq_false_iff {f : GridSample} : f.plausible = false ↔ ¬IsPlausible f := by
  rw [← GridSample.plausible_eq_true_iff, Bool.not_eq_true]

/-- A foreign or stale frame is only counted (R6, R7). -/
theorem State.takeGridFrame_of_turnedAway {s : State} {f : GridSample} (b held : Bool)
    (h : f.source ≠ s.gm.station ∨ ¬IsNewer s.gm.seqState f.seq) : s.takeGridFrame f b held = s.countForeignG := by
  rw [← isNewer_eq_true_iff, Bool.not_eq_true] at h
  unfold State.takeGridFrame GridMonitor.outcome
  by_cases hsrc : f.source = s.gm.station
  · simp [hsrc, h.resolve_left (not_not_intro hsrc)]
  · simp [hsrc]

theorem State.takeGridFrame_of_invalid {s : State} {f : GridSample} (b held : Bool) (hsrc : f.source = s.gm.station)
    (hnew : IsNewer s.gm.seqState f.seq) (hp : ¬IsPlausible f) : s.takeGridFrame f b held = s.takeInvalidFrame f := by
  rw [← isNewer_eq_true_iff] at hnew
  rw [← GridSample.plausible_eq_false_iff] at hp
  unfold State.takeGridFrame GridMonitor.outcome
  simp [hsrc, hnew, hp]

theorem State.takeGridFrame_of_valid {s : State} {f : GridSample} (b held : Bool) (h : s.takesAsValid f) :
    s.takeGridFrame f b held = s.takeValidFrame f b held := by
  obtain ⟨hsrc, hnew, hp⟩ := h
  rw [← isNewer_eq_true_iff] at hnew
  rw [← GridSample.plausible_eq_true_iff] at hp
  unfold State.takeGridFrame GridMonitor.outcome
  simp [hsrc, hnew, hp]

/-- The part with the frames `rest` left to take. -/
def State.leftToTake (s : State) (rest : List GridSample) : State := { s with gm := { s.gm with handed := rest } }

/-- The whole command takes the oldest frame that port G has handed over. -/
theorem exec_gridSampleTaken_whole {s : State} {f : GridSample} {rest : List GridSample} (b : Bool)
    (hheld : s.held = false) (hf : s.gm.handed = f :: rest) :
    exec (.gridSampleTaken b) s = .next ((s.leftToTake rest).takeGridFrame f b false) := by
  have htake : s.takeSample b false = (s.leftToTake rest).takeGridFrame f b false := by
    unfold State.takeSample
    rw [hf]
    rfl
  rw [← htake]
  exact congrArg Host.Outcome.next (State.live_of_not_held hheld)

/-! ### What a valid frame changes -/

/-- The part after the Grid Monitor has taken the valid frame `f` and the Ride-Through Controller its notice, the SAG
flag with it (R11, R29). -/
def State.afterNotice (s : State) (f : GridSample) : State :=
  { s with
    gm := s.gm.takeValid f s.ms
    rtc := (s.noticeResult f).rtc
    fmu := { s.fmu with summary := { s.fmu.summary with sag := s.fmu.summary.sag || (s.noticeResult f).sagBegan } } }

/-- The record that a valid frame leaves (R154). -/
def State.validRecord (s : State) (f : GridSample) : CaptureRecord := (s.afterNotice f).recordOf f true

/-- The notice's answer depends on no value of the Grid Monitor, so it may be read before the frame is taken. -/
theorem State.takeValidFrame_eq (s : State) (f : GridSample) (b held : Bool) :
    s.takeValidFrame f b held =
      if (s.noticeResult f).repeated then
        if held then ((s.afterNotice f).takeRecord (s.validRecord f) (s.noticeResult f).sagBegan).handRaising
          (tripFault .repeatedSag)
        else if b then ((s.afterNotice f).raise (tripFault .repeatedSag)).takeRecord (s.validRecord f)
          (s.noticeResult f).sagBegan
        else ((s.afterNotice f).takeRecord (s.validRecord f) (s.noticeResult f).sagBegan).raise (tripFault .repeatedSag)
      else (s.afterNotice f).takeRecord (s.validRecord f) (s.noticeResult f).sagBegan := rfl

/-- A valid frame that trips nothing: the record, and no more. -/
theorem State.takeValidFrame_of_not_repeated {s : State} {f : GridSample} (b held : Bool)
    (h : (s.noticeResult f).repeated = false) :
    s.takeValidFrame f b held =
      (s.afterNotice f).takeRecord (s.validRecord f) (s.noticeResult f).sagBegan := by
  rw [State.takeValidFrame_eq, h]
  rfl

/-- What a record, a raising and a handed raising all keep, a valid frame leaves as the notice left it. -/
theorem State.takeValidFrame_keeps {α : Type} {g : State → α}
    (hrecord : ∀ w r m, g (State.takeRecord r m w) = g w)
    (hraise : ∀ w r, g (State.raise r w) = g w) (hhand : ∀ w r, g (State.handRaising r w) = g w) (s : State)
    (f : GridSample) (b held : Bool) : g (s.takeValidFrame f b held) = g (s.afterNotice f) := by
  rw [State.takeValidFrame_eq]
  split
  · split
    · rw [hhand, hrecord]
    · split
      · rw [hrecord, hraise]
      · rw [hraise, hrecord]
  · rw [hrecord]

@[simp] theorem State.takeValidFrame_gm (s : State) (f : GridSample) (b held : Bool) :
    (s.takeValidFrame f b held).gm = s.gm.takeValid f s.ms :=
  State.takeValidFrame_keeps (g := State.gm) (by simp) (by simp) (by simp) s f b held

@[simp] theorem State.takeValidFrame_rtc (s : State) (f : GridSample) (b held : Bool) :
    (s.takeValidFrame f b held).rtc = (s.noticeResult f).rtc :=
  State.takeValidFrame_keeps (g := State.rtc) (by simp) (by simp) (by simp) s f b held

@[simp] theorem State.takeValidFrame_se (s : State) (f : GridSample) (b held : Bool) :
    (s.takeValidFrame f b held).se = s.se :=
  State.takeValidFrame_keeps (g := State.se) (by simp) (by simp) (by simp) s f b held

@[simp] theorem State.takeValidFrame_rr (s : State) (f : GridSample) (b held : Bool) :
    (s.takeValidFrame f b held).rr = s.rr :=
  State.takeValidFrame_keeps (g := State.rr) (by simp) (by simp) (by simp) s f b held

@[simp] theorem State.takeValidFrame_me (s : State) (f : GridSample) (b held : Bool) :
    (s.takeValidFrame f b held).me = s.me :=
  State.takeValidFrame_keeps (g := State.me) (by simp) (by simp) (by simp) s f b held

@[simp] theorem State.takeValidFrame_pu (s : State) (f : GridSample) (b held : Bool) :
    (s.takeValidFrame f b held).pu = s.pu :=
  State.takeValidFrame_keeps (g := State.pu) (by simp) (by simp) (by simp) s f b held

/-- In LOAD the Ride-Through Controller ignores the notice (R24). -/
theorem State.noticeResult_of_load {s : State} (h : s.fmu.mode = .load) (f : GridSample) :
    s.noticeResult f = quiet s.rtc := if_pos h

theorem State.noticeResult_of_not_load {s : State} (h : s.fmu.mode ≠ .load) (f : GridSample) :
    s.noticeResult f = s.rtc.notice s.ms f.vMin f.vMax := if_neg h

/-! ### Dispatch frames that are turned away (R77, R78) -/

theorem Dispatch.acceptable_eq_false_iff {f : Dispatch} : f.acceptable = false ↔ ¬IsAcceptable f := by
  rw [← Bool.not_eq_true]
  simp [Dispatch.acceptable, IsAcceptable, and_assoc]

theorem State.takeDispatch_of_foreign {s : State} {f : Dispatch} (h : f.source ≠ s.di.supervisor) :
    s.takeDispatch f = s.onU (fun p => { p with foreign := p.foreign + 1 }) := if_pos h

/-- A refused frame is counted and recorded as a NOTE, which never enters HALT (R78, R136). -/
theorem State.takeDispatch_of_refused {s : State} {f : Dispatch} (hsrc : f.source = s.di.supervisor)
    (h : ¬IsAcceptable f) :
    s.takeDispatch f = { s with
      di := { s.di with refused := s.di.refused + 1 }
      fmu := s.fmu.record { code := .dispatchRefused, cls := .note, subject := .none } s.timeBase s.gm.seqState } := by
  unfold State.takeDispatch
  rw [if_neg (not_not_intro hsrc), if_pos (Dispatch.acceptable_eq_false_iff.mpr h), State.raise_eq_record (by simp)]
  rfl

/-- The part with the dispatch frames `rest` left to take. -/
def State.leftToDispatch (s : State) (rest : List Dispatch) : State := { s with di := { s.di with handed := rest } }

theorem exec_dispatchFrameTaken {s : State} {f : Dispatch} {rest : List Dispatch} (hheld : s.held = false)
    (hf : s.di.handed = f :: rest) :
    exec .dispatchFrameTaken s = .next ((s.leftToDispatch rest).takeDispatch f) := by
  refine congrArg Host.Outcome.next ((State.live_of_not_held hheld).trans ?_)
  simp only [hf, State.leftToDispatch]

/-! ### The statements -/

/-- Settles O14: a frame turned away is counted alone, an invalid one is counted and recorded, and a dispatch frame
turned away stores nothing. -/
theorem framesTurnedAway : Obligations.FramesTurnedAway := by
  unfold Obligations.FramesTurnedAway
  refine ⟨?grid, ?dispatch⟩
  case grid =>
    intro s b f rest hheld hf
    refine ⟨_, exec_gridSampleTaken_whole b hheld hf, fun haway => ?away, fun hsrc hnew hp => ?invalid⟩
    case away =>
      rw [State.takeGridFrame_of_turnedAway (s := s.leftToTake rest) b false haway]
      refine ⟨rfl, rfl, fun p hp => ?_⟩
      cases p with
      | gm | pu => simp at hp
      | held | clock | rtc | di | cm | se | rr | fmu | cu | me | pending => rfl
    case invalid =>
      rw [State.takeGridFrame_of_invalid (s := s.leftToTake rest) b false hsrc hnew hp]
      refine ⟨fun k hk => ?_, fun p hp => ?_, rfl, rfl, rfl, rfl⟩
      · rw [← missedBy_of_missedBetween hk]
        rfl
      · cases p with
        | gm | cu | fmu => simp at hp
        | held | clock | rtc | di | cm | se | rr | me | pu | pending => rfl
  case dispatch =>
    intro s f rest hheld hf
    refine ⟨_, exec_dispatchFrameTaken hheld hf, fun hsrc => ?foreign, fun hsrc hbad => ?refused⟩
    case foreign =>
      rw [State.takeDispatch_of_foreign (s := s.leftToDispatch rest) hsrc]
      refine ⟨rfl, rfl, fun p hp => ?_⟩
      cases p with
      | di | pu => simp at hp
      | held | clock | gm | rtc | cm | se | rr | fmu | cu | me | pending => rfl
    case refused =>
      rw [State.takeDispatch_of_refused (s := s.leftToDispatch rest) hsrc hbad]
      refine ⟨rfl, rfl, fun p hp => ?_⟩
      cases p with
      | di | fmu => simp at hp
      | held | clock | gm | rtc | cm | se | rr | cu | me | pu | pending => rfl

/-- Settles O15: the Grid Monitor's part of a valid frame comes before the notice, whatever the notice does; in LOAD
the notice is ignored. -/
theorem validGridFrame : Obligations.ValidGridFrame := by
  unfold Obligations.ValidGridFrame
  intro s b f rest hheld hf hvalid
  have htaken : (s.leftToTake rest).takeGridFrame f b false = (s.leftToTake rest).takeValidFrame f b false :=
    State.takeGridFrame_of_valid b false hvalid
  refine ⟨_, exec_gridSampleTaken_whole b hheld hf, ?_⟩
  rw [htaken]
  refine ⟨fun k hk => ?values, State.takeValidFrame_clock .., State.takeValidFrame_pu ..,
    State.takeValidFrame_se .., State.takeValidFrame_rr .., State.takeValidFrame_me .., fun hload => ?load⟩
  case values =>
    rw [State.takeValidFrame_gm, ← missedBy_of_missedBetween hk]
    rfl
  case load =>
    have hn : (s.leftToTake rest).noticeResult f = quiet s.rtc :=
      State.noticeResult_of_load hload f
    rw [State.takeValidFrame_of_not_repeated b false (by rw [hn]; rfl)]
    exact ⟨congrArg NoticeResult.rtc hn, rfl, rfl, hload, rfl⟩

/-! ### Grid silence (R13, R38) -/

/-- A controller in GRID_LOST or TRIPPED keeps its state at a loss of the grid (R38, R40). -/
theorem RideThrough.gridLostNotice_of_lost {r : RideThrough} (now : BitVec 32)
    (h : r.state = .gridLost ∨ r.state = .tripped) : r.gridLostNotice now = r := by
  unfold RideThrough.gridLostNotice
  rcases h with h | h <;> rw [h]

/-- The prior state that a controller records as it enters GRID_LOST (R38). -/
def RtcState.asPrior : RtcState → PriorState
  | .sag => .sag
  | .recover => .recover
  | .normal | .gridLost | .tripped => .normal

theorem RideThrough.gridLostNotice_of_running {r : RideThrough} (now : BitVec 32)
    (h : r.state = .normal ∨ r.state = .sag ∨ r.state = .recover) :
    r.gridLostNotice now = r.loseGrid r.state.asPrior now := by
  unfold RideThrough.gridLostNotice
  rcases h with h | h | h <;> rw [h] <;> rfl

/-- What the expiry does once its boundary has come: a HOLD-class raising only records. -/
theorem exec_gridSilenceExpiry {s : State} {m : Nat} (hheld : s.held = false) (hm : s.gm.silence = some m) :
    exec .gridSilenceExpiry s = .next { s.advanceMs m with
      gm := { s.gm with gridLost := true, silence := none }
      rtc := if s.fmu.mode = .load then (s.advanceMs m).rtc
        else (s.advanceMs m).rtc.gridLostNotice (s.advanceMs m).timeBase
      fmu := s.fmu.record { code := .gridDataLost, cls := .hold, subject := .none } (s.advanceMs m).timeBase
        s.gm.seqState } := by
  refine congrArg Host.Outcome.next ((State.live_of_not_held hheld).trans ?_)
  rw [hm, State.onExpiry_some]
  exact State.raise_eq_record (by simp)

/-- Settles O19: the boundary is waited for, and the controller's state decides whether the loss moves it. -/
theorem gridSilence : Obligations.GridSilence := by
  unfold Obligations.GridSilence
  intro s m hheld hm
  refine ⟨_, exec_gridSilenceExpiry hheld hm, rfl, rfl, rfl, FaultModeUnit.record_mode .., fun p hp => ?_,
    fun hstays => ?stays, fun hmode hmoves => ?moves⟩
  · cases p with
    | clock | rtc | gm | fmu => simp at hp
    | held | di | cm | se | rr | cu | me | pu | pending => rfl
  case stays =>
    rcases hstays with hload | hlost
    · exact if_pos hload
    · have hkeep : (s.advanceMs m).rtc.gridLostNotice (s.advanceMs m).timeBase = (s.advanceMs m).rtc :=
        RideThrough.gridLostNotice_of_lost _ hlost
      simp only [hkeep, ite_self]
  case moves =>
    have hmoved := RideThrough.gridLostNotice_of_running (r := (s.advanceMs m).rtc) (s.advanceMs m).timeBase hmoves
    simp only [if_neg hmode, hmoved]
    refine ⟨rfl, rfl, rfl, rfl, rfl, rfl, rfl, rfl, ?_⟩
    have hprior : (s.advanceMs m).rtc.state.asPrior = s.rtc.state.asPrior := rfl
    rcases hmoves with h | h | h <;> rw [h] at hprior ⊢ <;> exact congrArg some hprior

end Sys2Proof.Machine
end

