-- ==== Sys2Proof/Proofs/SourcesKept.lean ====
section
/-! PROOFS. The laws of the allowance's sources and of the recent-sag list through every command (O59). -/

namespace Sys2Proof.Machine

/-! ### What keeps the two laws -/

/-- Going from `s` to `t` keeps each of the two laws. -/
def State.KeepsSources (s t : State) : Prop :=
  (AllowanceLaw s.rtc s.gm → AllowanceLaw t.rtc t.gm) ∧
  (SagListLaw s.rtc s.timeBase → SagListLaw t.rtc t.timeBase)

/-- Going from `s` to `t` leaves everything that the two laws speak of. -/
def State.SameSources (s t : State) : Prop :=
  t.rtc = s.rtc ∧ t.gm.fFloor = s.gm.fFloor ∧ t.gm.factor = s.gm.factor ∧ t.clock = s.clock

theorem State.KeepsSources.refl (s : State) : s.KeepsSources s := ⟨id, id⟩

theorem State.KeepsSources.trans {s t u : State} (h : s.KeepsSources t) (h' : t.KeepsSources u) : s.KeepsSources u :=
  ⟨h'.1 ∘ h.1, h'.2 ∘ h.2⟩

theorem State.timeBase_congr {s t : State} (h : t.clock = s.clock) : t.timeBase = s.timeBase := by
  simp only [State.timeBase, State.ms, h]

theorem State.SameSources.keeps {s t : State} (h : s.SameSources t) : s.KeepsSources t := by
  obtain ⟨hrtc, hfloor, hfactor, hclock⟩ := h
  constructor
  · simp only [AllowanceLaw, hrtc, hfloor, hfactor]
    exact id
  · rw [hrtc, State.timeBase_congr hclock]
    exact id

/-- A change of the Ride-Through Controller alone, among what the laws speak of. -/
theorem State.keepsSources_of_rtc {s t : State} (hgm : t.gm = s.gm) (hclock : t.clock = s.clock)
    (hcaps : s.rtc.CapsInRange → t.rtc.CapsInRange)
    (hsags : SagListLaw s.rtc s.timeBase → SagListLaw t.rtc s.timeBase) : s.KeepsSources t := by
  constructor
  · rw [allowanceLaw_iff, allowanceLaw_iff, hgm]
    exact And.imp_left hcaps
  · rw [State.timeBase_congr hclock]
    exact hsags

/-- A change of the Grid Monitor alone, among what the laws speak of. -/
theorem State.keepsSources_of_gm {s t : State} (hrtc : t.rtc = s.rtc) (hclock : t.clock = s.clock)
    (hfactors : s.gm.FactorsInRange → t.gm.FactorsInRange) : s.KeepsSources t := by
  constructor
  · rw [allowanceLaw_iff, allowanceLaw_iff, hrtc]
    exact And.imp_right hfactors
  · rw [State.timeBase_congr hclock, hrtc]
    exact id

/-- The passage of time ages the list and moves the time base on by the same milliseconds (R2, R30). -/
theorem State.advanceTo_keepsSources (s : State) (t : Nat) : s.KeepsSources (s.advanceTo t) := by
  refine ⟨fun h => h, fun h => ?_⟩
  have hms : (s.advanceTo t).ms = s.ms + ((s.advanceTo t).ms - s.ms) := by
    have hle : s.ms ≤ (s.advanceTo t).ms := Nat.div_le_div_right (le_max_left _ _)
    omega
  have haged := SagListLaw.ageSags (ms := s.ms) h ((s.advanceTo t).ms - s.ms)
  rw [← hms] at haged
  exact haged

theorem State.advanceMs_keepsSources (s : State) (m : Nat) : s.KeepsSources (s.advanceMs m) :=
  s.advanceTo_keepsSources _

theorem State.beginCycle_keepsSources (s : State) : s.KeepsSources s.beginCycle :=
  s.advanceTo_keepsSources s.se.nextCycle

theorem State.tick_keepsSources (s : State) : s.KeepsSources s.tick := by
  unfold State.tick
  split
  · exact .refl s
  · exact s.advanceMs_keepsSources _

/-! ### The owners' work -/

theorem State.takeValidFrame_keepsSources (s : State) (f : GridSample) (b held : Bool) :
    s.KeepsSources (s.takeValidFrame f b held) := by
  constructor
  · rw [allowanceLaw_iff, allowanceLaw_iff, State.takeValidFrame_rtc, State.takeValidFrame_gm]
    rintro ⟨hcaps, hfactors⟩
    refine ⟨?_, hfactors.takeValid f s.ms⟩
    unfold State.noticeResult
    split
    · exact hcaps
    · exact hcaps.notice _ _ _
  · rw [State.takeValidFrame_rtc, State.timeBase_congr (s.takeValidFrame_clock f b held)]
    intro hsags
    unfold State.noticeResult
    split
    · exact hsags
    · exact SagListLaw.notice hsags _ _

theorem State.takeGridFrame_keepsSources (s : State) (f : GridSample) (b held : Bool) :
    s.KeepsSources (s.takeGridFrame f b held) := by
  unfold State.takeGridFrame
  split
  case h_1 | h_2 => exact State.SameSources.keeps ⟨rfl, rfl, rfl, rfl⟩
  case h_3 => exact State.SameSources.keeps ⟨rfl, rfl, rfl, rfl⟩
  case h_4 => exact s.takeValidFrame_keepsSources f b held

theorem State.takeSample_keepsSources (s : State) (b held : Bool) : s.KeepsSources (s.takeSample b held) := by
  unfold State.takeSample
  split
  · exact .refl s
  · rename_i f rest _
    exact .trans (State.SameSources.keeps ⟨rfl, rfl, rfl, rfl⟩)
      (State.takeGridFrame_keepsSources { s with gm := { s.gm with handed := rest } } f b held)

theorem State.takeRaising_sameSources (s : State) (code : FaultCode) : s.SameSources (s.takeRaising code) := by
  simp [State.SameSources]

theorem State.foldl_storeEntry_sameSources (l : List DispatchEntry) (s : State) :
    s.SameSources (l.foldl State.storeEntry s) := by
  induction l generalizing s with
  | nil => exact ⟨rfl, rfl, rfl, rfl⟩
  | cons e l ih => simpa [State.SameSources] using ih (s.storeEntry e)

theorem State.takeDispatch_sameSources (s : State) (f : Dispatch) : s.SameSources (s.takeDispatch f) := by
  unfold State.takeDispatch
  split
  · exact ⟨rfl, rfl, rfl, rfl⟩
  · split
    · simp [State.SameSources]
    · simpa [State.SameSources] using State.foldl_storeEntry_sameSources f.entries s

theorem State.deliver_sameSources (s : State) (p : Port) (f : Frame) : s.SameSources (s.deliver p f) := by
  cases p with
  | u => unfold State.deliver; simp only []; split <;> exact ⟨rfl, rfl, rfl, rfl⟩
  | d | g => exact ⟨rfl, rfl, rfl, rfl⟩

theorem State.receive_sameSources (s : State) (p : Port) (f : Frame) : s.SameSources (s.receive p f) := by
  unfold State.receive
  split
  case h_6 => simpa [State.SameSources] using State.deliver_sameSources (s.onRx p (RxCounters.countGood f)) p f
  all_goals simp [State.SameSources]

theorem State.loseSignal_sameSources (s : State) (p : Port) (cut : Bool) : s.SameSources (s.loseSignal p cut) := by
  unfold State.loseSignal
  simp only []
  split <;> simp [State.SameSources]

theorem State.putCounter_sameSources (s : State) (n : CounterName) (v : Nat) : s.SameSources (s.putCounter n v) := by
  refine ⟨State.putCounter_rtc s n v, ?_, ?_, State.putCounter_clock s n v⟩
  all_goals cases n <;> first | rfl | simp [State.putCounter]

theorem State.foldl_putCounter_sameSources (l : List CounterName) (v : Nat) (s : State) :
    s.SameSources (l.foldl (fun s n => s.putCounter n v) s) := by
  induction l generalizing s with
  | nil => exact ⟨rfl, rfl, rfl, rfl⟩
  | cons n l ih =>
    obtain ⟨hrtc, hfloor, hfactor, hclock⟩ := s.putCounter_sameSources n v
    obtain ⟨hrtc', hfloor', hfactor', hclock'⟩ := ih (s.putCounter n v)
    exact ⟨hrtc'.trans hrtc, hfloor'.trans hfloor, hfactor'.trans hfactor, hclock'.trans hclock⟩

theorem State.restartNow_keepsSources (s : State) : s.KeepsSources s.restartNow := by
  constructor
  · rw [allowanceLaw_iff, allowanceLaw_iff]
    rintro ⟨⟨hrows, -, -, hFb, hSlope⟩, hfloor, -⟩
    exact ⟨⟨hrows, le_rfl, le_rfl, hFb, hSlope⟩, hfloor, le_rfl⟩
  · exact fun h => sagListLaw_of_nil h.1 rfl

theorem allowanceLaw_reset : AllowanceLaw RideThrough.reset GridMonitor.reset :=
  ⟨fun i => by simp [RideThrough.reset, EnvelopeRow.default], by decide⟩

theorem sagListLaw_reset (now : BitVec 32) : SagListLaw RideThrough.reset now := sagListLaw_of_nil (by decide) rfl

/-- A power-on reset meets both laws, whatever the state before it (R17, R48). -/
theorem State.powerOn_keepsSources (s : State) : s.KeepsSources s.powerOn :=
  ⟨fun _ => allowanceLaw_reset, fun _ => sagListLaw_reset _⟩

/-! ### Owners that decide a request -/

/-- Serving a request keeps the two laws. -/
def Service.KeepsSources (f : Service) : Prop := ∀ (q : Request) (s : State), s.KeepsSources (f q s).1

theorem decideFaultRead_keepsSources : Service.KeepsSources decideFaultRead := by
  intro q s; unfold decideFaultRead; split <;> exact .refl s

theorem decideAckAll_keepsSources : Service.KeepsSources decideAckAll :=
  fun _ _ => State.SameSources.keeps (by simp [State.SameSources, decideAckAll])

theorem decideAckHead_keepsSources : Service.KeepsSources decideAckHead := by
  intro q s; unfold decideAckHead; split <;> exact State.SameSources.keeps ⟨rfl, rfl, rfl, rfl⟩

theorem decideAbort_keepsSources : Service.KeepsSources decideAbort := by
  intro q s
  unfold decideAbort
  split
  · exact .refl s
  · split <;> exact State.SameSources.keeps ⟨rfl, rfl, rfl, rfl⟩

theorem decideCounterWrite_keepsSources : Service.KeepsSources decideCounterWrite := by
  intro q s
  unfold decideCounterWrite
  simp only []
  split
  · exact (State.foldl_putCounter_sameSources _ _ s).keeps
  · exact .refl s

theorem decideHalt_keepsSources : Service.KeepsSources decideHalt := by
  intro q s
  unfold decideHalt
  split
  · exact .refl s
  · split
    · exact .refl s
    · exact State.SameSources.keeps ⟨rfl, rfl, rfl, rfl⟩

/-- Entry to RUN with grid-lost set: P_loss is the P_state of that moment (R24, R38). -/
theorem State.enterRunFromLoad_keepsSources (s : State) : s.KeepsSources s.enterRunFromLoad := by
  refine State.keepsSources_of_rtc (by simp) (by simp) (fun h => ?_) (fun h => ?_)
  all_goals unfold State.enterRunFromLoad; simp only []; split
  · exact RideThrough.CapsInRange.loseGrid (r := s.rtc) h .normal _
  · exact h
  · exact h
  · exact h

theorem decideRun_keepsSources : Service.KeepsSources decideRun := by
  intro q s
  unfold decideRun
  split
  · exact .refl s
  · split
    · exact .refl s
    · split
      · exact .refl s
      · exact s.enterRunFromLoad_keepsSources

theorem State.enterRunFromHalt_keepsSources (s : State) : s.KeepsSources s.enterRunFromHalt := by
  refine State.keepsSources_of_rtc (by simp) (by simp) (fun h => ?_) (fun h => ?_)
  all_goals unfold State.enterRunFromHalt; simp only []; split
  · exact RideThrough.CapsInRange.withPLow (r := s.rtc) h le_rfl
  · exact h
  · exact h
  · exact h

theorem decideResume_keepsSources : Service.KeepsSources decideResume := by
  intro q s
  unfold decideResume
  split
  · exact .refl s
  · split
    · exact .refl s
    · split
      · exact s.enterRunFromHalt_keepsSources
      · exact .refl s

/-- Entry to LOAD empties the recent-sag list (R24). -/
theorem State.enterLoad_keepsSources (s : State) : s.KeepsSources s.enterLoad :=
  State.keepsSources_of_rtc rfl rfl (fun h => RideThrough.CapsInRange.withPLow (r := s.rtc) h le_rfl)
    fun h => sagListLaw_of_nil h.1 rfl

theorem decideLoad_keepsSources : Service.KeepsSources decideLoad := by
  intro q s
  unfold decideLoad
  split
  · exact .refl s
  · split
    · exact .refl s
    · exact .trans (State.SameSources.keeps (by simp [State.SameSources])) (State.enterLoad_keepsSources _)

/-! ### Owners that decide an entry of a WRITE -/

/-- Accepting an entry keeps the two laws. -/
def EntryDecision.KeepsSources (d : EntryDecision) : Prop :=
  ∀ (i : Nat) (data : List Byte) (s t : State), d i data s = .ok t → s.KeepsSources t

theorem inRange_eq_ok_iff {ok : Bool} {w t : State} : inRange ok w = .ok t ↔ ok = true ∧ t = w := by
  cases ok with
  | true => simp [inRange, eq_comm]
  | false => simp [inRange]

theorem between_eq_true_iff {lo hi v : Nat} : between lo hi v = true ↔ lo ≤ v ∧ v ≤ hi := by
  simp [between]

theorem writeCounter_keepsSources : EntryDecision.KeepsSources writeCounter := by
  intro i data s t h
  unfold writeCounter at h
  split at h
  · cases h
  · split at h <;> cases h
    exact (s.putCounter_sameSources _ _).keeps

theorem writeChannelEntry_keepsSources : EntryDecision.KeepsSources writeChannelEntry := by
  intro i data s t h
  unfold writeChannelEntry at h
  split at h
  · cases h
  · unfold State.writeChannel at h
    split at h
    · cases h
    · split at h
      · cases h
      · split at h <;> cases h
        exact State.SameSources.keeps (by simp [State.SameSources])

theorem writeGroup_keepsSources : EntryDecision.KeepsSources writeGroup := by
  intro i data s t h
  unfold writeGroup at h
  split at h
  · cases h
  · split at h <;> cases h
    exact State.SameSources.keeps ⟨rfl, rfl, rfl, rfl⟩

theorem writeProfile_keepsSources : EntryDecision.KeepsSources writeProfile := by
  intro i data s t h
  unfold writeProfile at h
  split at h <;> cases h
  exact State.SameSources.keeps ⟨rfl, rfl, rfl, rfl⟩

/-- A row that the bytes spell has its cap in range (R19). -/
theorem writeEnvelopeRow_keepsSources : EntryDecision.KeepsSources writeEnvelopeRow := by
  intro i data s t h
  unfold writeEnvelopeRow at h
  split at h
  · cases h
  · split at h
    · rw [State.decideEnvelope_eq_ok h]
      exact .refl s
    · rename_i row hrow
      rw [State.decideEnvelope_eq_ok h]
      exact State.keepsSources_of_rtc rfl rfl (fun hc => hc.putRow _ (envelopeRow?_cap_le hrow)) fun hs => hs

theorem writeSwell_keepsSources : EntryDecision.KeepsSources writeSwell := by
  intro i data s t h
  unfold writeSwell at h
  simp only [] at h
  split at h <;> cases h
  exact State.keepsSources_of_rtc rfl rfl (fun hc => hc.putSwell _ _) fun hs => hs.putSwell _ _

/-- Of the settings of GLOBAL_WRITE the laws speak of F_floor, S and A_fb, each accepted in its range alone (R3, R21).
-/
theorem State.writeSetting_keepsSources {s t : State} {i v : Nat} (h : s.writeSetting i v = .ok t) :
    s.KeepsSources t := by
  unfold State.writeSetting at h
  split at h
  case h_1 | h_2 | h_3 | h_4 =>
    rw [State.classA_eq_ok h]
    exact State.SameSources.keeps ⟨rfl, rfl, rfl, rfl⟩
  case h_15 => cases h
  all_goals
    obtain ⟨hv, rfl⟩ := inRange_eq_ok_iff.mp h
    obtain ⟨hlo, hhi⟩ := between_eq_true_iff.mp hv
  case h_5 | h_6 | h_8 | h_13 | h_14 => exact State.SameSources.keeps ⟨rfl, rfl, rfl, rfl⟩
  case h_7 => exact State.keepsSources_of_gm rfl rfl fun hf => ⟨hhi, hf.2⟩
  case h_9 | h_12 => exact State.keepsSources_of_rtc rfl rfl (fun hc => hc) fun hs => hs
  case h_10 =>
    exact State.keepsSources_of_rtc rfl rfl
      (fun ⟨hrows, hLow, hLoss, hFb, _⟩ => ⟨hrows, hLow, hLoss, hFb, hlo⟩) fun hs => hs
  case h_11 =>
    exact State.keepsSources_of_rtc rfl rfl
      (fun ⟨hrows, hLow, hLoss, _, hSlope⟩ => ⟨hrows, hLow, hLoss, hhi, hSlope⟩) fun hs => hs

theorem writeGlobal_keepsSources : EntryDecision.KeepsSources writeGlobal :=
  fun _ _ _ _ h => State.writeSetting_keepsSources h

theorem writeMeasurementStation_keepsSources : EntryDecision.KeepsSources writeMeasurementStation := by
  intro i data s t h
  rw [State.classA_eq_ok h]
  exact State.SameSources.keeps ⟨rfl, rfl, rfl, rfl⟩

theorem writeTCyc_keepsSources : EntryDecision.KeepsSources writeTCyc := by
  intro i data s t h
  rw [State.classA_eq_ok h]
  exact State.SameSources.keeps ⟨rfl, rfl, rfl, rfl⟩

theorem writeNRows_keepsSources : EntryDecision.KeepsSources writeNRows := by
  intro i data s t h
  rw [State.classA_eq_ok h]
  exact State.keepsSources_of_rtc rfl rfl (fun hc => hc) fun hs => hs

theorem writeVRecover_keepsSources : EntryDecision.KeepsSources writeVRecover := by
  intro i data s t h
  rw [State.decideEnvelope_eq_ok h]
  exact State.keepsSources_of_rtc rfl rfl (fun hc => hc) fun hs => hs

/-- A write of W prunes the list by the new W (R30). -/
theorem writeW_keepsSources : EntryDecision.KeepsSources writeW := by
  intro i data s t h
  obtain ⟨hv, rfl⟩ := inRange_eq_ok_iff.mp h
  exact State.keepsSources_of_rtc rfl rfl (fun hc => hc) fun hs => hs.prune (between_eq_true_iff.mp hv).2

theorem writeL_keepsSources : EntryDecision.KeepsSources writeL := by
  intro i data s t h
  rw [inRange_eq_ok h]
  exact State.SameSources.keeps ⟨rfl, rfl, rfl, rfl⟩

theorem writeTriggerOnSag_keepsSources : EntryDecision.KeepsSources writeTriggerOnSag := by
  intro i data s t h
  rw [inRange_eq_ok h]
  exact State.SameSources.keeps ⟨rfl, rfl, rfl, rfl⟩

theorem writePPre_keepsSources : EntryDecision.KeepsSources writePPre := by
  intro i data s t h
  unfold writePPre at h
  split at h
  · cases h
  · split at h <;> cases h
    exact State.SameSources.keeps ⟨rfl, rfl, rfl, rfl⟩

/-! ### The control forms -/

theorem State.live_keepsSources {s : State} {f : State → State} (h : s.KeepsSources (f s)) :
    s.KeepsSources (s.live f) :=
  State.live_ind (P := s.KeepsSources) (.refl s) fun _ => h

theorem State.serve_keepsSources {op : Operation} {o : Object} {accepts : Request → Bool} {f : Service}
    (hf : f.KeepsSources) (s : State) : s.KeepsSources (s.live (State.serve op o accepts f)) :=
  State.live_keepsSources <| State.serve_ind (P := s.KeepsSources) (.refl s) fun q _ _ _ =>
    (hf q s).trans (State.SameSources.keeps ⟨rfl, rfl, rfl, rfl⟩)

theorem State.serveEntry_keepsSources {o : Object} {owns : Nat → Bool} {d : EntryDecision} (hd : d.KeepsSources)
    (s : State) : s.KeepsSources (s.live (State.serveEntry o owns d)) :=
  State.live_keepsSources <| State.serveEntry_ind (P := s.KeepsSources) (.refl s)
    (fun _ _ _ => State.SameSources.keeps ⟨rfl, rfl, rfl, rfl⟩)
    fun _ t _ _ _ ht =>
      have h : s.KeepsSources t := hd _ _ _ _ ht
      ⟨h.trans (State.SameSources.keeps ⟨rfl, rfl, rfl, rfl⟩),
        h.trans (State.SameSources.keeps ⟨rfl, rfl, rfl, rfl⟩)⟩

theorem State.onExpiry_keepsSources {s : State} {t : Timer} {f : State → State}
    (h : ∀ w : State, w.KeepsSources (f w)) : s.KeepsSources (s.onExpiry t f) :=
  State.onExpiry_ind (P := s.KeepsSources) (.refl s) fun m _ => (s.advanceMs_keepsSources m).trans (h _)

theorem State.tripOn_keepsSources (s : State) (code : FaultCode) (t : Timer) (part : TripPart) :
    s.KeepsSources (s.tripOn code t part) := by
  have htrip : ∀ w : State, w.KeepsSources { w with rtc := w.rtc.enterTripped } := fun w =>
    State.keepsSources_of_rtc rfl rfl (fun h => h) fun h => h
  cases part with
  | whole =>
    exact State.onExpiry_keepsSources fun w =>
      (htrip w).trans (State.SameSources.keeps (by simp [State.SameSources]))
  | trip =>
    exact State.onExpiry_keepsSources fun w =>
      (htrip w).trans (State.SameSources.keeps (by simp [State.SameSources]))
  | raise => exact (s.takeRaising_sameSources code).keeps

/-! ### The commands that have a form of their own -/

/-- Whatever next state the outcome gives, reaching it from `s` keeps the two laws. -/
def SourcesKept (s : State) (o : Host.Outcome State Fault Refusal) : Prop := ∀ t, o = .next t → s.KeepsSources t

theorem sourcesKept_next {s t : State} (h : s.KeepsSources t) : SourcesKept s (.next t) := by
  intro u hu; cases hu; exact h

theorem execLinkLoss_sourcesKept (p : Port) (cut : Bool) (s : State) : SourcesKept s (execLinkLoss p cut s) := by
  refine sourcesKept_next ?_
  split
  · exact State.SameSources.keeps (by simp [State.SameSources])
  · split
    · exact (s.loseSignal_sameSources p cut).keeps
    · exact State.SameSources.keeps (by simp [State.SameSources])

theorem execLinkUp_sourcesKept (p : Port) (s : State) : SourcesKept s (execLinkUp p s) := by
  refine sourcesKept_next ?_
  split <;> exact State.SameSources.keeps (by simp [State.SameSources])

theorem execResetAsserted_sourcesKept (n : Nat) (s : State) : SourcesKept s (execResetAsserted n s) := by
  refine sourcesKept_next ?_
  split
  · exact State.SameSources.keeps ⟨rfl, rfl, rfl, rfl⟩
  · exact .refl s

theorem execResetReleased_sourcesKept (s : State) : SourcesKept s (execResetReleased s) := by
  refine sourcesKept_next ?_
  split
  · exact s.powerOn_keepsSources
  · exact .refl s

theorem execGridSampleTaken_sourcesKept (b : Bool) (s : State) (part : TripPart) :
    SourcesKept s (execGridSampleTaken b s part) := by
  refine sourcesKept_next (State.live_keepsSources ?_)
  cases part with
  | whole => exact s.takeSample_keepsSources b false
  | trip => exact s.takeSample_keepsSources b true
  | raise => exact (s.takeRaising_sameSources _).keeps

theorem execGridSilenceExpiry_sourcesKept (s : State) : SourcesKept s (execGridSilenceExpiry s) := by
  refine sourcesKept_next (State.live_keepsSources (State.onExpiry_keepsSources fun w => ?_))
  refine .trans (t := { w with
    gm := { w.gm with gridLost := true, silence := none }
    rtc := if w.fmu.mode = .load then w.rtc else w.rtc.gridLostNotice w.timeBase }) ⟨fun h => ?_, fun h => ?_⟩
    (State.SameSources.keeps (by simp [State.SameSources]))
  · rw [allowanceLaw_iff] at h ⊢
    refine ⟨?_, h.2⟩
    simp only []
    split
    · exact h.1
    · exact h.1.gridLostNotice _
  · simp only []
    split
    · exact h
    · exact SagListLaw.gridLostNotice h _

theorem execRecoveryHoldExpiry_sourcesKept (s : State) : SourcesKept s (execRecoveryHoldExpiry s) := by
  refine sourcesKept_next (State.live_keepsSources ?_)
  split
  · refine State.onExpiry_keepsSources fun w => State.keepsSources_of_rtc rfl rfl (fun h => ?_) fun h => ?_
    · exact RideThrough.CapsInRange.endHold (r := { w.rtc with recovery := none }) h w.ms
    · exact h.of_eq (by simp) (by simp)
  · exact .refl s

theorem execRecoveryRampExpiry_sourcesKept (s : State) : SourcesKept s (execRecoveryRampExpiry s) := by
  refine sourcesKept_next (State.live_keepsSources ?_)
  split
  · exact State.onExpiry_keepsSources fun w =>
      State.keepsSources_of_rtc rfl rfl (fun h => RideThrough.CapsInRange.withPLow (r := w.rtc) h le_rfl) fun h => h
  · exact .refl s

theorem execSagListEntryAged_sourcesKept (s : State) : SourcesKept s (execSagListEntryAged s) := by
  refine sourcesKept_next (State.live_keepsSources ?_)
  split
  · exact .refl s
  · exact s.advanceMs_keepsSources _

theorem execDispatchFrameTaken_sourcesKept (s : State) : SourcesKept s (execDispatchFrameTaken s) := by
  refine sourcesKept_next (State.live_keepsSources ?_)
  split
  · exact .refl s
  · rename_i f rest _
    exact .trans (State.SameSources.keeps ⟨rfl, rfl, rfl, rfl⟩)
      (State.takeDispatch_sameSources { s with di := { s.di with handed := rest } } f).keeps

theorem execDispatchSilenceExpiry_sourcesKept (s : State) : SourcesKept s (execDispatchSilenceExpiry s) :=
  sourcesKept_next <| State.live_keepsSources <| State.onExpiry_keepsSources fun _ =>
    State.SameSources.keeps (by simp [State.SameSources])

theorem execStartTimerExpiry_sourcesKept (c : Chan) (s : State) : SourcesKept s (execStartTimerExpiry c s) := by
  refine sourcesKept_next (State.live_keepsSources ?_)
  split
  · exact State.onExpiry_keepsSources fun _ => State.SameSources.keeps (by simp [State.SameSources])
  · exact .refl s

theorem execParkTimerExpiry_sourcesKept (c : Chan) (s : State) : SourcesKept s (execParkTimerExpiry c s) := by
  refine sourcesKept_next (State.live_keepsSources ?_)
  split
  · exact State.onExpiry_keepsSources fun _ => State.SameSources.keeps (by simp [State.SameSources])
  · exact .refl s

theorem execReportTaken_sourcesKept (s : State) (part : ReportPart) : SourcesKept s (execReportTaken s part) := by
  refine sourcesKept_next (State.live_keepsSources (State.SameSources.keeps ?_))
  cases part with
  | decide => simp [State.SameSources]
  | whole | hand | finish => dsimp only; split <;> simp [State.SameSources]

theorem execReportLoss_sourcesKept (s : State) (part : ReportPart) : SourcesKept s (execReportLoss s part) := by
  refine sourcesKept_next (State.live_keepsSources (State.SameSources.keeps ?_))
  cases part with
  | whole | decide | hand | finish => dsimp only; split <;> simp [State.SameSources]

/-- Of a cycle start's parts only the expiry of the link cycle timer lets time pass (R91, R92). -/
theorem execCycleStart_sourcesKept (part : CyclePart) (s : State) : SourcesKept s (execCycleStart part s) := by
  have hsettle : s.KeepsSources s.settle.beginCycle :=
    .trans (State.SameSources.keeps (by simp [State.SameSources])) s.settle.beginCycle_keepsSources
  refine sourcesKept_next (State.live_keepsSources ?_)
  cases part with
  | whole reportsFirst =>
    cases reportsFirst <;> exact hsettle.trans (State.SameSources.keeps (by simp [State.SameSources]))
  | start => exact hsettle
  | demands | standing | voltage | request | close | setpoint | look | status | reports =>
    exact State.SameSources.keeps (by simp [State.SameSources])

theorem execTransmissionEndD_sourcesKept (s : State) : SourcesKept s (execTransmissionEndD s) := by
  refine sourcesKept_next (State.live_keepsSources ?_)
  split
  · exact .refl s
  · exact (s.advanceTo_keepsSources _).trans (State.SameSources.keeps ⟨rfl, rfl, rfl, rfl⟩)

theorem execTransmissionEndU_sourcesKept (s : State) : SourcesKept s (execTransmissionEndU s) := by
  refine sourcesKept_next (State.live_keepsSources ?_)
  split
  · exact .refl s
  · exact (s.advanceTo_keepsSources _).trans (State.SameSources.keeps ⟨rfl, rfl, rfl, rfl⟩)

theorem execMgmtRequestQueued_sourcesKept (s : State) : SourcesKept s (execMgmtRequestQueued s) := by
  refine sourcesKept_next (State.live_keepsSources ?_)
  split
  · exact .refl s
  · exact State.SameSources.keeps (by simp [State.SameSources])

theorem execMgmtRequestRefused_sourcesKept (s : State) : SourcesKept s (execMgmtRequestRefused s) := by
  refine sourcesKept_next (State.live_keepsSources ?_)
  split
  · exact .refl s
  · split
    · exact .refl s
    · split
      · exact State.SameSources.keeps ⟨rfl, rfl, rfl, rfl⟩
      · exact .refl s

theorem execRestart_sourcesKept (s : State) : SourcesKept s (execRestart s) := by
  refine sourcesKept_next (State.live_keepsSources ?_)
  split
  · exact .refl s
  · split
    · exact State.SameSources.keeps ⟨rfl, rfl, rfl, rfl⟩
    · exact .refl s

theorem execRestartTakesEffect_sourcesKept (s : State) : SourcesKept s (execRestartTakesEffect s) := by
  refine sourcesKept_next (State.live_keepsSources ?_)
  split
  · exact s.restartNow_keepsSources
  · exact .refl s

/-! ### Every command -/

theorem sourcesKept_serve {s : State} {op : Operation} {o : Object} {accepts : Request → Bool} {f : Service}
    (hf : f.KeepsSources) : SourcesKept s (.next (s.live (State.serve op o accepts f))) :=
  sourcesKept_next (State.serve_keepsSources hf s)

theorem sourcesKept_serveEntry {s : State} {o : Object} {owns : Nat → Bool} {d : EntryDecision}
    (hd : d.KeepsSources) : SourcesKept s (.next (s.live (State.serveEntry o owns d))) :=
  sourcesKept_next (State.serveEntry_keepsSources hd s)

theorem exec_sourcesKept (c : Instr) (s : State) : SourcesKept s (exec c s) := by
  cases c with
  | supplyStart => exact sourcesKept_next s.powerOn_keepsSources
  | resetReleased => exact execResetReleased_sourcesKept s
  | resetAsserted n => exact execResetAsserted_sourcesKept n s
  | linkLoss p cut => exact execLinkLoss_sourcesKept p cut s
  | linkUp p => exact execLinkUp_sourcesKept p s
  | frameReceived p f => exact sourcesKept_next (State.live_keepsSources (s.receive_sameSources p f).keeps)
  | gridSampleTaken b part => exact execGridSampleTaken_sourcesKept b s part
  | gridSilenceExpiry => exact execGridSilenceExpiry_sourcesKept s
  | envelopeExit row part => exact sourcesKept_next (State.live_keepsSources (State.tripOn_keepsSources ..))
  | swellExit part => exact sourcesKept_next (State.live_keepsSources (State.tripOn_keepsSources ..))
  | recoveryHoldExpiry => exact execRecoveryHoldExpiry_sourcesKept s
  | recoveryRampExpiry => exact execRecoveryRampExpiry_sourcesKept s
  | sagListEntryAged => exact execSagListEntryAged_sourcesKept s
  | dispatchFrameTaken => exact execDispatchFrameTaken_sourcesKept s
  | dispatchSilenceExpiry => exact execDispatchSilenceExpiry_sourcesKept s
  | startTimerExpiry ch => exact execStartTimerExpiry_sourcesKept ch s
  | parkTimerExpiry ch => exact execParkTimerExpiry_sourcesKept ch s
  | reportTaken part => exact execReportTaken_sourcesKept s part
  | cycleStart part => exact execCycleStart_sourcesKept part s
  | reportLoss part => exact execReportLoss_sourcesKept s part
  | transmissionEndD => exact execTransmissionEndD_sourcesKept s
  | transmissionEndU => exact execTransmissionEndU_sourcesKept s
  | mgmtRequestQueued => exact execMgmtRequestQueued_sourcesKept s
  | mgmtRequestRefused => exact execMgmtRequestRefused_sourcesKept s
  | restart => exact execRestart_sourcesKept s
  | restartTakesEffect => exact execRestartTakesEffect_sourcesKept s
  | modeRun => exact sourcesKept_serve decideRun_keepsSources
  | modeHalt => exact sourcesKept_serve decideHalt_keepsSources
  | modeResume => exact sourcesKept_serve decideResume_keepsSources
  | modeLoad => exact sourcesKept_serve decideLoad_keepsSources
  | ackHead => exact sourcesKept_serve decideAckHead_keepsSources
  | ackAll => exact sourcesKept_serve decideAckAll_keepsSources
  | abort => exact sourcesKept_serve decideAbort_keepsSources
  | counterWrite => exact sourcesKept_serve decideCounterWrite_keepsSources
  | faultRead => exact sourcesKept_serve decideFaultRead_keepsSources
  | arm | trigger | mask | captureRead | summaryRead | contentionRead | channelStateRead | saglistRead | globalRead
  | envelopeRead | swellRead | channelRead | groupRead | profileRead | counterRead =>
    exact sourcesKept_serve fun _ _ => State.SameSources.keeps ⟨rfl, rfl, rfl, rfl⟩
  | channelWrite => exact sourcesKept_serveEntry writeChannelEntry_keepsSources
  | envelopeWrite => exact sourcesKept_serveEntry writeEnvelopeRow_keepsSources
  | swellWrite => exact sourcesKept_serveEntry writeSwell_keepsSources
  | groupWrite => exact sourcesKept_serveEntry writeGroup_keepsSources
  | profileWrite => exact sourcesKept_serveEntry writeProfile_keepsSources
  | counterObjectWrite => exact sourcesKept_serveEntry writeCounter_keepsSources
  | globalWrite => exact sourcesKept_serveEntry writeGlobal_keepsSources
  | measurementStationWrite => exact sourcesKept_serveEntry writeMeasurementStation_keepsSources
  | nRowsWrite => exact sourcesKept_serveEntry writeNRows_keepsSources
  | vRecoverWrite => exact sourcesKept_serveEntry writeVRecover_keepsSources
  | wWrite => exact sourcesKept_serveEntry writeW_keepsSources
  | tCycWrite => exact sourcesKept_serveEntry writeTCyc_keepsSources
  | lWrite => exact sourcesKept_serveEntry writeL_keepsSources
  | pPreWrite => exact sourcesKept_serveEntry writePPre_keepsSources
  | triggerOnSagWrite => exact sourcesKept_serveEntry writeTriggerOnSag_keepsSources

/-- Settles O59: the tick ages the list, and a case split over the commands for the rest. -/
theorem allowanceAndSagLawsKept : Obligations.AllowanceAndSagLawsKept := by
  unfold Obligations.AllowanceAndSagLawsKept
  intro s t h
  unfold step at h
  split at h
  case h_1 =>
    cases h
    exact s.tick_keepsSources
  case h_2 c rest _ => exact exec_sourcesKept c { s with pending := rest } t h

end Sys2Proof.Machine
end

