-- ==== Sys2Proof/Proofs/GridCapture.lean ====
section
/-! PROOFS. The capture record of a grid frame (O23): what the Capture Unit does with a record in each of its states,
when a valid frame begins a sag, and the three ways in which a frame's record and the HALT notice of a trip can fall. -/

namespace Sys2Proof.Machine

/-! ### A record in each capture state (R157 to R159) -/

/-- What a sag trigger outside ARMED adds to the ignored triggers (R159). -/
def sagTriggerCount (sagTrigger : Bool) : BitVec 32 := if sagTrigger then 1 else 0

theorem CaptureUnit.countTrigger_eq (c : CaptureUnit) (b : Bool) :
    (if b then c.ignoreTrigger else c) = { c with ignored := c.ignored + sagTriggerCount b } := by
  cases b with
  | true => rfl
  | false => simp [sagTriggerCount]

/-- A record taken in TRIGGERED either leaves it awaiting more or completes the capture (R157). -/
theorem CaptureUnit.settle_eq (c : CaptureUnit) :
    c.settle = { c with state := if Config.captureDepth - c.pPre ≤ c.fromTrigger then .complete else c.state } := by
  unfold CaptureUnit.settle
  split <;> rfl

/-- The trigger record alone completes a capture exactly when P_pre is 1023 (R157). -/
theorem CaptureUnit.appendTrigger_eq (r : CaptureRecord) (c : CaptureUnit) :
    c.appendTrigger r = { c with
      buffer := c.buffer ++ [{ r with trigger := true }], trigPos := some c.buffer.length, trigPending := false
      state := if c.pPre < 1023 then .triggered else .complete } := by
  have hone : (Config.captureDepth - c.pPre ≤ c.buffer.length + 1 - c.buffer.length) ↔ ¬c.pPre < 1023 := by
    simp only [Config.captureDepth]
    omega
  unfold CaptureUnit.appendTrigger
  simp only [CaptureUnit.settle_eq, CaptureUnit.fromTrigger, List.length_append, List.length_singleton, hone, ite_not]

/-- In IDLE and COMPLETE a record is discarded. -/
theorem CaptureUnit.takeRecord_of_discarding {c : CaptureUnit} (r : CaptureRecord) (mark : Bool)
    (h : c.state = .idle ∨ c.state = .complete) :
    c.takeRecord r mark = { c with ignored := c.ignored + sagTriggerCount (mark && c.onSag) } := by
  unfold CaptureUnit.takeRecord
  rcases h with h | h <;> simp only [h, CaptureUnit.countTrigger_eq]

/-- In ARMED a record without a sag trigger joins the window of P_pre records. -/
theorem CaptureUnit.takeRecord_of_window {c : CaptureUnit} (r : CaptureRecord) {mark : Bool} (h : c.state = .armed)
    (hs : (mark && c.onSag) = false) :
    c.takeRecord r mark = { c with
      buffer := if c.buffer.length < c.pPre then c.buffer ++ [r] else (c.buffer ++ [r]).tail } := by
  have hfull : c.pPre < (c.buffer ++ [r]).length ↔ ¬c.buffer.length < c.pPre := by
    simp only [List.length_append, List.length_singleton]
    omega
  unfold CaptureUnit.takeRecord
  simp only [h, hs, Bool.false_eq_true, if_false, CaptureUnit.appendWindow, hfull, ite_not]

/-- In ARMED a record with a sag trigger is the trigger record. -/
theorem CaptureUnit.takeRecord_of_sagTrigger {c : CaptureUnit} (r : CaptureRecord) {mark : Bool}
    (h : c.state = .armed) (hs : (mark && c.onSag) = true) :
    c.takeRecord r mark = { c with
      buffer := c.buffer ++ [{ r with trigger := true }], trigPos := some c.buffer.length, trigPending := false
      source := .sag, state := if c.pPre < 1023 then .triggered else .complete } := by
  unfold CaptureUnit.takeRecord
  simp only [h, hs, if_true, CaptureUnit.appendTrigger_eq]

/-- In TRIGGERED with a trigger pending a record is the trigger record. -/
theorem CaptureUnit.takeRecord_of_pending {c : CaptureUnit} (r : CaptureRecord) (mark : Bool)
    (h : c.state = .triggered) (hp : c.trigPending = true) :
    c.takeRecord r mark = { c with
      buffer := c.buffer ++ [{ r with trigger := true }], trigPos := some c.buffer.length, trigPending := false
      ignored := c.ignored + sagTriggerCount (mark && c.onSag)
      state := if c.pPre < 1023 then .triggered else .complete } := by
  unfold CaptureUnit.takeRecord
  simp only [h, hp, if_true, CaptureUnit.countTrigger_eq, CaptureUnit.appendTrigger_eq]

/-- In TRIGGERED after the trigger record a record is appended. -/
theorem CaptureUnit.takeRecord_of_following {c : CaptureUnit} (r : CaptureRecord) (mark : Bool)
    (h : c.state = .triggered) (hp : c.trigPending = false) :
    c.takeRecord r mark = CaptureUnit.settle { c with
      buffer := c.buffer ++ [r], ignored := c.ignored + sagTriggerCount (mark && c.onSag) } := by
  unfold CaptureUnit.takeRecord
  simp only [h, hp, Bool.false_eq_true, if_false, CaptureUnit.countTrigger_eq]

/-- The records from the trigger record onward, the new one with them, decide whether the capture is complete. -/
theorem CaptureUnit.takeRecord_of_following_pos {c : CaptureUnit} (r : CaptureRecord) (mark : Bool) {p : Nat}
    (h : c.state = .triggered) (hp : c.trigPending = false) (hpos : c.trigPos = some p) :
    c.takeRecord r mark = { c with
      buffer := c.buffer ++ [r], ignored := c.ignored + sagTriggerCount (mark && c.onSag)
      state := if c.buffer.length + 1 - p + c.pPre < 1024 then .triggered else .complete } := by
  have hmany : (Config.captureDepth - c.pPre ≤ c.buffer.length + 1 - p) ↔
      ¬c.buffer.length + 1 - p + c.pPre < 1024 := by
    simp only [Config.captureDepth]
    omega
  rw [CaptureUnit.takeRecord_of_following r mark h hp]
  simp only [CaptureUnit.settle_eq, CaptureUnit.fromTrigger, hpos, List.length_append, List.length_singleton, hmany,
    ite_not, h]

/-- What any record does in TRIGGERED, whether it is the trigger record or not. -/
theorem CaptureUnit.takeRecord_of_triggered {c : CaptureUnit} {r : CaptureRecord} (mark : Bool)
    (h : c.state = .triggered) (hr : r.trigger = false) :
    (c.takeRecord r mark).buffer = c.buffer ++ [{ r with trigger := c.trigPending }] ∧
      (c.takeRecord r mark).ignored = c.ignored + sagTriggerCount (mark && c.onSag) ∧
      (c.takeRecord r mark).source = c.source ∧ (c.takeRecord r mark).state ≠ .armed := by
  cases hp : c.trigPending with
  | true =>
    rw [CaptureUnit.takeRecord_of_pending r mark h hp]
    refine ⟨rfl, rfl, rfl, ?_⟩
    simp only []
    split <;> simp
  | false =>
    have hsame : { r with trigger := false } = r := by rw [← hr]
    rw [CaptureUnit.takeRecord_of_following r mark h hp, CaptureUnit.settle_eq, hsame]
    refine ⟨rfl, rfl, rfl, ?_⟩
    simp only [h]
    split <;> simp

/-- A record changes neither of the Capture Unit's two settings (R155). -/
theorem CaptureUnit.takeRecord_settings (c : CaptureUnit) (r : CaptureRecord) (mark : Bool) :
    (c.takeRecord r mark).pPre = c.pPre ∧ (c.takeRecord r mark).onSag = c.onSag := by
  cases h : c.state with
  | idle => rw [CaptureUnit.takeRecord_of_discarding r mark (.inl h)]; exact ⟨rfl, rfl⟩
  | complete => rw [CaptureUnit.takeRecord_of_discarding r mark (.inr h)]; exact ⟨rfl, rfl⟩
  | armed =>
    cases hs : mark && c.onSag with
    | false => rw [CaptureUnit.takeRecord_of_window r h hs]; exact ⟨rfl, rfl⟩
    | true => rw [CaptureUnit.takeRecord_of_sagTrigger r h hs]; exact ⟨rfl, rfl⟩
  | triggered =>
    cases hp : c.trigPending with
    | true => rw [CaptureUnit.takeRecord_of_pending r mark h hp]; exact ⟨rfl, rfl⟩
    | false => rw [CaptureUnit.takeRecord_of_following r mark h hp, CaptureUnit.settle_eq]; exact ⟨rfl, rfl⟩

theorem CaptureUnit.trigger_of_armed {c : CaptureUnit} (src : TriggerSource) (h : c.state = .armed) :
    c.trigger src = { c with state := .triggered, source := src, trigPending := true } := if_pos h

/-- Outside ARMED a trigger is only counted (R159). -/
theorem CaptureUnit.trigger_of_not_armed {c : CaptureUnit} (src : TriggerSource) (h : c.state ≠ .armed) :
    c.trigger src = { c with ignored := c.ignored + 1 } := if_neg h

theorem CaptureUnit.trigger_settings (c : CaptureUnit) (src : TriggerSource) :
    (c.trigger src).pPre = c.pPre ∧ (c.trigger src).onSag = c.onSag := by
  unfold CaptureUnit.trigger CaptureUnit.ignoreTrigger
  split <;> exact ⟨rfl, rfl⟩

/-! ### When a notice begins a sag, and when it trips (R28, R31, R33, R39) -/

theorem RideThrough.belowRow0_eq_true_iff {r : RideThrough} {v : Nat} : r.belowRow0 v = true ↔ r.BelowRow0 v := by
  simp [RideThrough.belowRow0, RideThrough.BelowRow0]

@[simp] theorem RideThrough.swellCheck_state (r : RideThrough) (ms vMax : Nat) :
    (r.swellCheck ms vMax).state = r.state := by
  unfold RideThrough.swellCheck
  split
  · rfl
  · split
    · split <;> rfl
    · rfl

@[simp] theorem RideThrough.beginSag_sagBegan (r : RideThrough) (ms vMin : Nat) :
    (r.beginSag ms vMin).sagBegan = true := by
  unfold RideThrough.beginSag
  simp only []
  split <;> rfl

/-- A sag that begins and exceeds the repeat limit trips (R31). -/
theorem RideThrough.beginSag_tripped_of_repeated {r : RideThrough} {ms vMin : Nat}
    (h : (r.beginSag ms vMin).repeated = true) : (r.beginSag ms vMin).rtc.state = .tripped := by
  unfold RideThrough.beginSag at *
  simp only [] at *
  split at h
  · rw [if_pos ‹_›]
    rfl
  · cases h

/-- A notice either begins a sag, exactly where R28, R33 and R39 say so, or sends nothing. -/
theorem RideThrough.handleNotice_cases (r : RideThrough) (ms vMin : Nat)
    (hprior : r.state = .gridLost → r.prior ≠ none) :
    (r.BelowRow0 vMin ∧
        (r.state = .normal ∨ r.state = .recover ∨ (r.state = .gridLost ∧ r.prior = some .normal)) ∧
        r.handleNotice ms vMin = r.beginSag ms vMin) ∨
      (¬(r.BelowRow0 vMin ∧
          (r.state = .normal ∨ r.state = .recover ∨ (r.state = .gridLost ∧ r.prior = some .normal))) ∧
        ∃ t, r.handleNotice ms vMin = quiet t) := by
  have hsplit : ∀ q : NoticeResult, (∃ t, q = quiet t) →
      (r.BelowRow0 vMin ∧ (if r.belowRow0 vMin then r.beginSag ms vMin else q) = r.beginSag ms vMin) ∨
        (¬r.BelowRow0 vMin ∧ ∃ t, (if r.belowRow0 vMin then r.beginSag ms vMin else q) = quiet t) := by
    intro q hq
    by_cases hb : r.BelowRow0 vMin
    · exact .inl ⟨hb, if_pos (RideThrough.belowRow0_eq_true_iff.mpr hb)⟩
    · rw [if_neg (mt RideThrough.belowRow0_eq_true_iff.mp hb)]
      exact .inr ⟨hb, hq⟩
  unfold RideThrough.handleNotice
  cases hst : r.state with
  | normal => simpa using hsplit _ ⟨r, rfl⟩
  | recover => simpa using hsplit _ ⟨r.stayInRecover vMin, rfl⟩
  | sag => exact .inr ⟨by simp, _, rfl⟩
  | tripped => exact .inr ⟨by simp, _, rfl⟩
  | gridLost =>
    unfold RideThrough.leaveGridLost
    cases hp : r.prior with
    | none => exact absurd hp (hprior hst)
    | some p =>
      cases p with
      | normal => simpa using hsplit _ ⟨r.enterNormal, rfl⟩
      | sag => exact .inr ⟨by simp, _, rfl⟩
      | recover => exact .inr ⟨by simp, _, rfl⟩

/-- "Sag began" is sent exactly for the frames that begin a sag (R24, R29). -/
theorem State.noticeResult_sagBegan_iff {s : State} {f : GridSample}
    (hprior : s.rtc.state = .gridLost → s.rtc.prior ≠ none) :
    (s.noticeResult f).sagBegan = true ↔ s.sagStarts f := by
  by_cases hmode : s.fmu.mode = .load
  · rw [State.noticeResult_of_load hmode]
    simp [quiet, State.sagStarts, hmode]
  · rw [State.noticeResult_of_not_load hmode]
    have hstarts : s.sagStarts f ↔ s.rtc.BelowRow0 f.vMin ∧ (s.rtc.state = .normal ∨ s.rtc.state = .recover ∨
        (s.rtc.state = .gridLost ∧ s.rtc.prior = some .normal)) := and_iff_right hmode
    rw [hstarts]
    rcases s.rtc.handleNotice_cases s.ms f.vMin hprior with ⟨hb, hst, heq⟩ | ⟨hno, t, heq⟩
    · simp only [RideThrough.notice, heq, RideThrough.beginSag_sagBegan, true_iff]
      exact ⟨hb, hst⟩
    · simp only [RideThrough.notice, heq, quiet, Bool.false_eq_true, false_iff]
      exact hno

/-- A notice that trips for repeated sags has begun a sag (R31). -/
theorem State.noticeResult_of_repeated {s : State} {f : GridSample}
    (hprior : s.rtc.state = .gridLost → s.rtc.prior ≠ none) (h : (s.noticeResult f).repeated = true) :
    (s.noticeResult f).sagBegan = true ∧ (s.noticeResult f).rtc.state = .tripped := by
  by_cases hmode : s.fmu.mode = .load
  · rw [State.noticeResult_of_load hmode] at h
    cases h
  · rw [State.noticeResult_of_not_load hmode] at h ⊢
    simp only [RideThrough.notice] at h
    rcases s.rtc.handleNotice_cases s.ms f.vMin hprior with ⟨hb, hst, heq⟩ | ⟨hno, t, heq⟩
    · rw [heq] at h
      simp only [RideThrough.notice, heq, RideThrough.beginSag_sagBegan, RideThrough.swellCheck_state, true_and]
      exact RideThrough.beginSag_tripped_of_repeated h
    · rw [heq] at h
      cases h

/-! ### The record and the HALT notice of a trip -/

theorem FaultModeUnit.record_capture (f : FaultModeUnit) (r : Raising) (n : BitVec 32) (g : Option (BitVec 16)) :
    (f.record r n g).summary.capture = f.summary.capture := by
  apply FaultModeUnit.record_cases f r n g (P := fun x => x.summary.capture = f.summary.capture) <;> intros <;> rfl

/-- The CAPTURE flag after the Capture Unit has gone from `c` to `c'` (R147). -/
def captureFlag (flag : Bool) (c c' : CaptureUnit) : Bool :=
  flag || (decide (c'.state = .complete) && decide (c.state ≠ .complete))

theorem State.takeRecord_capture (s : State) (r : CaptureRecord) (mark : Bool) :
    (s.takeRecord r mark).fmu.summary.capture =
      captureFlag s.fmu.summary.capture s.cu (s.cu.takeRecord r mark) := rfl

/-- The ways in which the Capture Unit takes the record `r` of a frame, going from `s` to `t`: alone, or, when the sag
trips a part in RUN, after or before the HALT notice (R162). -/
inductive RecordTaken (s t : State) (haltFirst : Bool) (r : CaptureRecord) (mark : Bool) : Prop where
  | alone (hmode : t.fmu.mode = s.fmu.mode) (hcu : t.cu = s.cu.takeRecord r mark)
      (hflag : t.fmu.summary.capture = captureFlag s.fmu.summary.capture s.cu t.cu)
  | afterHalt (hmode : t.fmu.mode ≠ s.fmu.mode) (hmark : mark = true) (htrip : t.rtc.state = .tripped)
      (hfirst : haltFirst = true) (hcu : t.cu = (s.cu.trigger .halt).takeRecord r mark)
  | beforeHalt (hmode : t.fmu.mode ≠ s.fmu.mode) (hmark : mark = true) (htrip : t.rtc.state = .tripped)
      (hfirst : haltFirst = false) (hcu : t.cu = (s.cu.takeRecord r mark).trigger .halt)

/-- A raising outside RUN only records, so that the record falls alone. -/
theorem State.takeValidFrame_recordTaken {s : State} {f : GridSample} (b : Bool)
    (hprior : s.rtc.state = .gridLost → s.rtc.prior ≠ none) :
    RecordTaken s (s.takeValidFrame f b false) b (s.validRecord f) (s.noticeResult f).sagBegan := by
  cases hrep : (s.noticeResult f).repeated with
  | false =>
    rw [State.takeValidFrame_of_not_repeated b false hrep]
    exact .alone rfl rfl rfl
  | true =>
    obtain ⟨hmark, htrip⟩ := State.noticeResult_of_repeated hprior hrep
    rw [State.takeValidFrame_eq, if_pos hrep, if_neg Bool.false_ne_true]
    by_cases hrun : s.fmu.mode = .run
    · have hhalt : PartMode.halt ≠ s.fmu.mode := by simp [hrun]
      cases b with
      | true =>
        have hraise := State.raise_eq_halt (s := s.afterNotice f) (r := tripFault .repeatedSag) rfl hrun
        rw [if_pos rfl, hraise]
        exact .afterHalt hhalt hmark htrip rfl rfl
      | false =>
        have hraise := State.raise_eq_halt (r := tripFault .repeatedSag)
          (s := (s.afterNotice f).takeRecord (s.validRecord f) (s.noticeResult f).sagBegan) rfl hrun
        rw [if_neg Bool.false_ne_true, hraise]
        exact .beforeHalt hhalt hmark htrip rfl rfl
    · cases b with
      | true =>
        have hraise := State.raise_eq_record (s := s.afterNotice f) (r := tripFault .repeatedSag) fun h => hrun h.2
        rw [if_pos rfl, hraise]
        refine .alone (FaultModeUnit.record_mode ..) rfl ?_
        rw [State.takeRecord_capture]
        exact congrArg (captureFlag · _ _) (FaultModeUnit.record_capture ..)
      | false =>
        have hraise := State.raise_eq_record (r := tripFault .repeatedSag)
          (s := (s.afterNotice f).takeRecord (s.validRecord f) (s.noticeResult f).sagBegan) fun h => hrun h.2
        rw [if_neg Bool.false_ne_true, hraise]
        exact .alone (FaultModeUnit.record_mode ..) rfl (FaultModeUnit.record_capture ..)

/-- The record that a frame of the own station with a newer sequence leaves, and how it is taken (R8, R154). -/
theorem State.takeGridFrame_recorded {s : State} {f : GridSample} (b : Bool) (hsrc : f.source = s.gm.station)
    (hnew : IsNewer s.gm.seqState f.seq) (hprior : s.rtc.state = .gridLost → s.rtc.prior ≠ none) :
    ∃ (t : State) (valid mark : Bool) (r : CaptureRecord), s.takeGridFrame f b false = t ∧
      (valid = true ↔ IsPlausible f) ∧ (mark = true ↔ IsPlausible f ∧ s.sagStarts f) ∧
      r = { time := s.timeBase, seq := f.seq, valid := valid, vMin := leastVoltage f, vMax := greatestVoltage f
            freq := f.freq, rtc := (if valid = true ∧ s.fmu.mode = .load then .normal else t.rtc.state)
            active := r.active, allowance := s.se.lastAllowance, factor := t.gm.factor
            sum := s.se.lastSum, trigger := false } ∧
      r.active = (if r.rtc = .sag then t.rtc.active else none) ∧ RecordTaken s t b r mark := by
  by_cases hp : IsPlausible f
  · refine ⟨_, true, (s.noticeResult f).sagBegan, s.validRecord f,
      State.takeGridFrame_of_valid b false ⟨hsrc, hnew, hp⟩, by simp [hp], ?_, ?_, ?_,
      State.takeValidFrame_recordTaken b hprior⟩
    · rw [State.noticeResult_sagBegan_iff hprior, and_iff_right hp]
    · rw [State.takeValidFrame_rtc, State.takeValidFrame_gm]
      rfl
    · rw [State.takeValidFrame_rtc]
      rfl
  · refine ⟨_, false, false, _, State.takeGridFrame_of_invalid b false hsrc hnew hp, by simp [hp], by simp [hp],
      rfl, rfl, .alone rfl rfl rfl⟩

theorem captureFlag_of_completing {flag : Bool} {c c' : CaptureUnit} (h : c.state ≠ .complete)
    (h' : c'.state = .complete) : captureFlag flag c c' = true := by
  simp [captureFlag, h, h']

theorem captureFlag_of_not_completing {flag : Bool} {c c' : CaptureUnit}
    (h : c'.state = .complete → c.state = .complete) : captureFlag flag c c' = flag := by
  unfold captureFlag
  by_cases hc : c'.state = .complete
  · simp [hc, h hc]
  · simp [hc]

theorem RecordTaken.settings {s t : State} {b mark : Bool} {r : CaptureRecord} (h : RecordTaken s t b r mark) :
    t.cu.pPre = s.cu.pPre ∧ t.cu.onSag = s.cu.onSag := by
  cases h with
  | alone _ hcu _ => rw [hcu]; exact s.cu.takeRecord_settings r mark
  | afterHalt _ _ _ _ hcu =>
    obtain ⟨hpre, hon⟩ := (s.cu.trigger .halt).takeRecord_settings r mark
    obtain ⟨hpre', hon'⟩ := s.cu.trigger_settings .halt
    rw [hcu]
    exact ⟨hpre.trans hpre', hon.trans hon'⟩
  | beforeHalt _ _ _ _ hcu =>
    obtain ⟨hpre, hon⟩ := (s.cu.takeRecord r mark).trigger_settings .halt
    obtain ⟨hpre', hon'⟩ := s.cu.takeRecord_settings r mark
    rw [hcu]
    exact ⟨hpre.trans hpre', hon.trans hon'⟩

/-- A record that falls alone is the only thing the Capture Unit takes. -/
theorem RecordTaken.alone_of_mode {s t : State} {b mark : Bool} {r : CaptureRecord} (h : RecordTaken s t b r mark)
    (hmode : t.fmu.mode = s.fmu.mode) :
    t.cu = s.cu.takeRecord r mark ∧ t.fmu.summary.capture = captureFlag s.fmu.summary.capture s.cu t.cu := by
  cases h with
  | alone _ hcu hflag => exact ⟨hcu, hflag⟩
  | afterHalt hmode' => exact absurd hmode hmode'
  | beforeHalt hmode' => exact absurd hmode hmode'

/-! ### The record that falls alone -/

theorem RecordTaken.discarded_alone {s t : State} {b mark : Bool} {r : CaptureRecord}
    (h : RecordTaken s t b r mark) (hmode : t.fmu.mode = s.fmu.mode)
    (hst : s.cu.state = .idle ∨ s.cu.state = .complete) :
    t.cu = { s.cu with ignored := s.cu.ignored + sagTriggerCount (mark && s.cu.onSag) } ∧
      t.fmu.summary.capture = s.fmu.summary.capture := by
  obtain ⟨hcu, hflag⟩ := h.alone_of_mode hmode
  rw [CaptureUnit.takeRecord_of_discarding r mark hst] at hcu
  exact ⟨hcu, hflag.trans (captureFlag_of_not_completing (by rw [hcu]; exact id))⟩

theorem RecordTaken.window_alone {s t : State} {b mark : Bool} {r : CaptureRecord}
    (h : RecordTaken s t b r mark) (hmode : t.fmu.mode = s.fmu.mode) (hst : s.cu.state = .armed)
    (hs : (mark && s.cu.onSag) = false) :
    t.cu = { s.cu with
        buffer := if s.cu.buffer.length < s.cu.pPre then s.cu.buffer ++ [r] else (s.cu.buffer ++ [r]).tail } ∧
      t.fmu.summary.capture = s.fmu.summary.capture := by
  obtain ⟨hcu, hflag⟩ := h.alone_of_mode hmode
  rw [CaptureUnit.takeRecord_of_window r hst hs] at hcu
  exact ⟨hcu, hflag.trans (captureFlag_of_not_completing (by rw [hcu]; exact id))⟩

/-- The trigger record, whether of the sag itself or of a trigger that was pending. -/
theorem RecordTaken.triggers_alone {s t : State} {b mark : Bool} {r : CaptureRecord}
    (h : RecordTaken s t b r mark) (hmode : t.fmu.mode = s.fmu.mode)
    (hst : s.cu.state = .armed ∧ (mark && s.cu.onSag) = true ∨
      s.cu.state = .triggered ∧ s.cu.trigPending = true) :
    t.cu.buffer = s.cu.buffer ++ [{ r with trigger := true }] ∧ t.cu.trigPos = some s.cu.buffer.length ∧
      t.cu.trigPending = false ∧ t.cu.source = (if s.cu.state = .armed then .sag else s.cu.source) ∧
      t.cu.ignored = (if s.cu.state = .armed then s.cu.ignored
        else s.cu.ignored + sagTriggerCount (mark && s.cu.onSag)) ∧
      (s.cu.pPre = 1023 → t.cu.state = .complete ∧ t.fmu.summary.capture = true) ∧
      (s.cu.pPre < 1023 → t.cu.state = .triggered ∧ t.fmu.summary.capture = s.fmu.summary.capture) := by
  obtain ⟨hcu, hflag⟩ := h.alone_of_mode hmode
  have hnc : s.cu.state ≠ .complete := by rcases hst with ⟨h, -⟩ | ⟨h, -⟩ <;> simp [h]
  have hstate : t.cu.state = if s.cu.pPre < 1023 then .triggered else .complete := by
    rcases hst with ⟨ha, hs⟩ | ⟨ht, hp⟩
    · rw [hcu, CaptureUnit.takeRecord_of_sagTrigger r ha hs]
    · rw [hcu, CaptureUnit.takeRecord_of_pending r mark ht hp]
  have hdone : s.cu.pPre = 1023 → t.cu.state = .complete ∧ t.fmu.summary.capture = true := fun hfull => by
    have hc : t.cu.state = .complete := by rw [hstate, if_neg (by omega)]
    exact ⟨hc, hflag.trans (captureFlag_of_completing hnc hc)⟩
  have hgoes : s.cu.pPre < 1023 → t.cu.state = .triggered ∧ t.fmu.summary.capture = s.fmu.summary.capture :=
    fun hroom => by
      have hc : t.cu.state = .triggered := by rw [hstate, if_pos hroom]
      exact ⟨hc, hflag.trans (captureFlag_of_not_completing (by simp [hc]))⟩
  rcases hst with ⟨ha, hs⟩ | ⟨ht, hp⟩
  · rw [hcu, CaptureUnit.takeRecord_of_sagTrigger r ha hs] at hdone hgoes ⊢
    exact ⟨rfl, rfl, rfl, (if_pos ha).symm, (if_pos ha).symm, hdone, hgoes⟩
  · have hna : s.cu.state ≠ .armed := by simp [ht]
    rw [hcu, CaptureUnit.takeRecord_of_pending r mark ht hp] at hdone hgoes ⊢
    exact ⟨rfl, rfl, rfl, (if_neg hna).symm, (if_neg hna).symm, hdone, hgoes⟩

/-- A record after the trigger record. -/
theorem RecordTaken.follows_alone {s t : State} {b mark : Bool} {r : CaptureRecord} {p : Nat}
    (h : RecordTaken s t b r mark) (hmode : t.fmu.mode = s.fmu.mode) (hst : s.cu.state = .triggered)
    (hp : s.cu.trigPending = false) (hpos : s.cu.trigPos = some p) :
    t.cu.buffer = s.cu.buffer ++ [r] ∧ t.cu.trigPos = some p ∧ t.cu.trigPending = false ∧
      t.cu.source = s.cu.source ∧ t.cu.ignored = s.cu.ignored + sagTriggerCount (mark && s.cu.onSag) ∧
      (1024 ≤ s.cu.buffer.length + 1 - p + s.cu.pPre → t.cu.state = .complete ∧ t.fmu.summary.capture = true) ∧
      (s.cu.buffer.length + 1 - p + s.cu.pPre < 1024 →
        t.cu.state = .triggered ∧ t.fmu.summary.capture = s.fmu.summary.capture) := by
  obtain ⟨hcu, hflag⟩ := h.alone_of_mode hmode
  rw [CaptureUnit.takeRecord_of_following_pos r mark hst hp hpos] at hcu
  have hstate : t.cu.state = if s.cu.buffer.length + 1 - p + s.cu.pPre < 1024 then .triggered else .complete := by
    rw [hcu]
  refine ⟨by rw [hcu], by rw [hcu]; exact hpos, by rw [hcu]; exact hp, by rw [hcu], by rw [hcu], fun hfull => ?_,
    fun hroom => ?_⟩
  · have hc : t.cu.state = .complete := by rw [hstate, if_neg (by omega)]
    exact ⟨hc, hflag.trans (captureFlag_of_completing (by simp [hst]) hc)⟩
  · have hc : t.cu.state = .triggered := by rw [hstate, if_pos hroom]
    exact ⟨hc, hflag.trans (captureFlag_of_not_completing (by simp [hc]))⟩

/-! ### The record and the HALT notice in either order (R162) -/

theorem RecordTaken.trips_at_halt {s t : State} {b mark : Bool} {r : CaptureRecord} (h : RecordTaken s t b r mark)
    (hmode : t.fmu.mode ≠ s.fmu.mode) : mark = true ∧ t.rtc.state = .tripped := by
  cases h with
  | alone hmode' => exact absurd hmode' hmode
  | afterHalt _ hmark htrip => exact ⟨hmark, htrip⟩
  | beforeHalt _ hmark htrip => exact ⟨hmark, htrip⟩

/-- Where the record is discarded the notice is an ignored trigger, before or after it (R159). -/
theorem RecordTaken.discarded_at_halt {s t : State} {b mark : Bool} {r : CaptureRecord}
    (h : RecordTaken s t b r mark) (hmode : t.fmu.mode ≠ s.fmu.mode)
    (hst : s.cu.state = .idle ∨ s.cu.state = .complete) :
    t.cu = { s.cu with ignored := s.cu.ignored + sagTriggerCount (mark && s.cu.onSag) + 1 } := by
  have hna : s.cu.state ≠ .armed := by rcases hst with h | h <;> simp [h]
  cases h with
  | alone hmode' => exact absurd hmode' hmode
  | afterHalt _ _ _ _ hcu =>
    rw [hcu, CaptureUnit.trigger_of_not_armed .halt hna, CaptureUnit.takeRecord_of_discarding (c := { s.cu with
      ignored := s.cu.ignored + 1 }) r mark hst, add_right_comm]
  | beforeHalt _ _ _ _ hcu =>
    rw [hcu, CaptureUnit.takeRecord_of_discarding r mark hst]
    exact CaptureUnit.trigger_of_not_armed .halt hna

/-- In TRIGGERED too the notice is an ignored trigger, before or after the record (R159). -/
theorem RecordTaken.triggered_at_halt {s t : State} {b mark : Bool} {r : CaptureRecord}
    (h : RecordTaken s t b r mark) (hmode : t.fmu.mode ≠ s.fmu.mode) (hr : r.trigger = false)
    (hst : s.cu.state = .triggered) :
    t.cu.ignored = s.cu.ignored + sagTriggerCount (mark && s.cu.onSag) + 1 ∧ t.cu.source = s.cu.source ∧
      t.cu.buffer = s.cu.buffer ++ [{ r with trigger := s.cu.trigPending }] := by
  cases h with
  | alone hmode' => exact absurd hmode' hmode
  | afterHalt _ _ _ _ hcu =>
    obtain ⟨hbuffer, hignored, hsource, -⟩ :=
      CaptureUnit.takeRecord_of_triggered (c := { s.cu with ignored := s.cu.ignored + 1 }) mark hst hr
    rw [hcu, CaptureUnit.trigger_of_not_armed .halt (by simp [hst])]
    exact ⟨hignored.trans (add_right_comm _ _ _), hsource, hbuffer⟩
  | beforeHalt _ _ _ _ hcu =>
    obtain ⟨hbuffer, hignored, hsource, hna⟩ := CaptureUnit.takeRecord_of_triggered mark hst hr
    rw [hcu, CaptureUnit.trigger_of_not_armed .halt hna]
    exact ⟨congrArg (· + 1) hignored, hsource, hbuffer⟩

/-- In ARMED the first of the HALT notice and the sag trigger is the trigger, and the record is its record. -/
theorem RecordTaken.triggers_at_halt {s t : State} {b mark : Bool} {r : CaptureRecord}
    (h : RecordTaken s t b r mark) (hmode : t.fmu.mode ≠ s.fmu.mode) (hst : s.cu.state = .armed)
    (hfirst : s.cu.onSag = true ∨ b = true) :
    t.cu.buffer = s.cu.buffer ++ [{ r with trigger := true }] ∧ t.cu.trigPos = some s.cu.buffer.length ∧
      t.cu.trigPending = false ∧ t.cu.source = (if b then .halt else .sag) ∧
      t.cu.ignored = s.cu.ignored + sagTriggerCount (mark && s.cu.onSag) := by
  cases h with
  | alone hmode' => exact absurd hmode' hmode
  | afterHalt _ _ _ hb hcu =>
    have hpend : CaptureUnit.takeRecord r mark (s.cu.trigger .halt) = _ :=
      CaptureUnit.takeRecord_of_pending r mark (by rw [CaptureUnit.trigger_of_armed .halt hst])
        (by rw [CaptureUnit.trigger_of_armed .halt hst])
    rw [hcu, hpend, CaptureUnit.trigger_of_armed .halt hst, hb]
    exact ⟨rfl, rfl, rfl, rfl, rfl⟩
  | beforeHalt _ hmark _ hb hcu =>
    have hon : s.cu.onSag = true := hfirst.resolve_right (by simp [hb])
    rw [hcu, CaptureUnit.takeRecord_of_sagTrigger r hst (by simp [hmark, hon]), CaptureUnit.trigger_of_not_armed .halt
      (by simp only []; split <;> simp), hb, hmark, hon]
    exact ⟨rfl, rfl, rfl, rfl, rfl⟩

/-- In ARMED, with trigger-on-sag off and the record first, the record joins the window and the HALT notice triggers.
-/
theorem RecordTaken.window_at_halt {s t : State} {b mark : Bool} {r : CaptureRecord}
    (h : RecordTaken s t b r mark) (hmode : t.fmu.mode ≠ s.fmu.mode) (hst : s.cu.state = .armed)
    (hon : s.cu.onSag = false) (hb : b = false) :
    t.cu = { s.cu with
      buffer := if s.cu.buffer.length < s.cu.pPre then s.cu.buffer ++ [r] else (s.cu.buffer ++ [r]).tail
      state := .triggered, source := .halt, trigPending := true } := by
  cases h with
  | alone hmode' => exact absurd hmode' hmode
  | afterHalt _ _ _ hb' _ => exact absurd (hb.symm.trans hb') Bool.false_ne_true
  | beforeHalt _ _ _ _ hcu =>
    rw [hcu, CaptureUnit.takeRecord_of_window r hst (by simp [hon])]
    exact CaptureUnit.trigger_of_armed .halt hst

/-! ### The statement -/

/-- Settles O23: the record is formed before it is taken, and it falls alone or beside the HALT notice of a trip; each
capture state has its lemma for either. -/
theorem captureOfGridFrame : Obligations.CaptureOfGridFrame := by
  unfold Obligations.CaptureOfGridFrame
  intro s haltFirst f rest hheld hf hsrc hnew hprior _
  obtain ⟨t, valid, mark, r, ht, hvalid, hmark, hr, hactive, htaken⟩ :=
    State.takeGridFrame_recorded (s := s.leftToTake rest) haltFirst hsrc hnew hprior
  have htrigger : r.trigger = false := by rw [hr]
  obtain ⟨hpPre, honSag⟩ := htaken.settings
  refine ⟨t, valid, mark, r, mark && s.cu.onSag, sagTriggerCount (mark && s.cu.onSag),
    ht ▸ exec_gridSampleTaken_whole haltFirst hheld hf, hvalid, hmark, rfl, rfl, hr, hactive, hpPre, honSag,
    fun hmode => ⟨?_, ?_, ?_, ?_⟩, fun hmode => ?_⟩
  · exact htaken.discarded_alone hmode
  · exact htaken.window_alone hmode
  · exact htaken.triggers_alone hmode
  · exact fun p hst hp hpos _ => htaken.follows_alone hmode hst hp hpos
  · obtain ⟨hmarked, htrip⟩ := htaken.trips_at_halt hmode
    exact ⟨hmarked, htrip, htaken.discarded_at_halt hmode, htaken.triggered_at_halt hmode htrigger,
      htaken.triggers_at_halt hmode, htaken.window_at_halt hmode⟩

end Sys2Proof.Machine
end

