-- ==== Sys2Proof/Proofs/Settings.lean ====
section
/-! PROOFS. The global settings (O52): which command decides a setting, how its value decides the write, and what an
accepted write leaves of the other settings. -/

namespace Sys2Proof.Machine

/-! ### What a setting's write changes -/

theorem State.withSetting_me (s : State) (i v : Nat) : (s.withSetting i v).me = s.me := by
  unfold State.withSetting
  split <;> rfl

/-- An accepted value reads back. -/
theorem State.globalValue_withSetting_same {s : State} {i v : Nat} (h : settingRange i v) :
    (s.withSetting i v).globalValue i = v := by
  unfold settingRange at h
  split at h
  -- The stations and the type value are kept as words that hold every value in range.
  case h_1 | h_2 | h_3 | h_4 => exact Nat.mod_eq_of_lt (by omega)
  -- Trigger-on-sag is kept as a flag.
  case h_22 =>
    obtain rfl | rfl : v = 0 ∨ v = 1 := by omega
    · rfl
    · rfl
  -- P_pre, with the capture discarded or not.
  case h_21 =>
    simp only [State.withSetting, State.globalValue]
    split <;> rfl
  case h_23 => exact h.elim
  all_goals rfl

/-- A write leaves every other setting as it reads. -/
theorem State.globalValue_withSetting_of_ne {s : State} {i j v : Nat} (h : j ≠ i) :
    (s.withSetting i v).globalValue j = s.globalValue j := by
  unfold State.withSetting
  split
  case h_23 => rfl
  case' h_21 => split
  all_goals
    unfold State.globalValue
    split <;> first | rfl | exact absurd rfl h

/-! ### How a value decides a write (R197) -/

/-- The decision `e` of a write of `v` to setting `i`: BAD_MODE for class A in RUN, whatever the value; then BAD_VALUE
out of range; else the setting written. -/
def State.SettingDecided (s : State) (i v : Nat) (e : Except Result State) : Prop :=
  (i ≤ 0x06 → s.fmu.mode = .run → e = .error .badMode) ∧
  (¬(i ≤ 0x06 ∧ s.fmu.mode = .run) → ¬settingRange i v → e = .error .badValue) ∧
  (¬(i ≤ 0x06 ∧ s.fmu.mode = .run) → settingRange i v → e = .ok (s.withSetting i v))

theorem inRange_of_not {ok : Bool} (w : State) (h : ¬ok = true) : inRange ok w = .error .badValue := if_neg h

theorem inRange_of_true {ok : Bool} (w : State) (h : ok = true) : inRange ok w = .ok w := if_pos h

theorem State.settingDecided_inRange {s w : State} {i v : Nat} {ok : Bool} (hi : ¬i ≤ 0x06)
    (hok : ok = true ↔ settingRange i v) (hw : settingRange i v → w = s.withSetting i v) :
    s.SettingDecided i v (inRange ok w) := by
  refine ⟨fun h => absurd h hi, fun _ hout => inRange_of_not w (mt hok.mp hout), fun _ hin => ?_⟩
  rw [inRange_of_true w (hok.mpr hin), hw hin]

theorem State.settingDecided_classA {s w : State} {i v : Nat} {ok : Bool} (hi : i ≤ 0x06)
    (hok : ok = true ↔ settingRange i v) (hw : settingRange i v → w = s.withSetting i v) :
    s.SettingDecided i v (s.classA ok w) := by
  refine ⟨fun _ hrun => if_pos hrun, fun hmode hout => ?_, fun hmode hin => ?_⟩
  all_goals
    rw [not_and] at hmode
    unfold State.classA
    rw [if_neg (hmode hi)]
  · exact inRange_of_not w (mt hok.mp hout)
  · rw [inRange_of_true w (hok.mpr hin), hw hin]

theorem isStation_eq_true_iff {v own : Nat} : isStation v own = true ↔ (1 ≤ v ∧ v ≤ 0xEF) ∨ v = own := by
  simp [isStation, isRectifierStation]

theorem between_zero_iff {hi v : Nat} : between 0 hi v = true ↔ v ≤ hi := by simp [between_eq_true_iff]

/-- A changed measurement station, as a number and as a byte (R4). -/
theorem State.measurementStation_withSetting {s : State} {v : Nat} (h : settingRange 0x02 v) :
    { s with gm := { s.gm with
      station := BitVec.ofNat 8 v
      seqState := if BitVec.ofNat 8 v = s.gm.station then s.gm.seqState else none } } = s.withSetting 0x02 v := by
  have hsame : BitVec.ofNat 8 v = s.gm.station ↔ s.gm.station.toNat = v := by
    have hv : v < 256 := by
      simp only [settingRange] at h
      omega
    rw [← BitVec.toNat_inj, BitVec.toNat_ofNat, Nat.mod_eq_of_lt hv, eq_comm]
  simp only [State.withSetting, hsame]

/-- The active row is the last of the rows that are below (R25). -/
theorem activeRow_eq_getLast? (below : Vector Bool 8) :
    activeRow below = ((List.finRange 8).filter fun i => below[i]).getLast? := by
  rw [activeRow, ← List.head?_filter, List.filter_reverse, List.head?_reverse]

theorem State.putNRows_withSetting (s : State) (v : Nat) :
    { s with rtc := s.rtc.putNRows v } = s.withSetting 0x06 v := by
  simp only [RideThrough.putNRows, State.withSetting, activeRow_eq_getLast?, Fin.getElem_fin, Vector.getElem_ofFn]

/-- The command of a setting hands the entry to a decision that owns it and decides it by R197. -/
def State.SettingServed (s : State) (data : List Byte) (i : Nat) : Prop :=
  ∃ (owns : Nat → Bool) (d : EntryDecision),
    exec (settingCommand i) s = .next (s.live (State.serveEntry .global owns d)) ∧ owns i = true ∧
      s.SettingDecided i (settingValue data) (d i data s)

/-- Every setting but V_recover and P_pre, by index (R197). -/
theorem State.settingServed (s : State) (data : List Byte) :
    ∀ i, i < 0x16 → i ≠ 0x0B → i ≠ 0x14 → s.SettingServed data i
  | 0x00, _, _, _ => ⟨_, _, rfl, rfl, State.settingDecided_classA (by decide)
      (isStation_eq_true_iff.trans (by simp only [settingRange]; omega)) fun _ => rfl⟩
  | 0x01, _, _, _ => ⟨_, _, rfl, rfl, State.settingDecided_classA (by decide) isStation_eq_true_iff
      fun _ => rfl⟩
  | 0x02, _, _, _ => ⟨_, _, rfl, rfl, State.settingDecided_classA (by decide) isStation_eq_true_iff
      State.measurementStation_withSetting⟩
  | 0x03, _, _, _ => ⟨_, _, rfl, rfl, State.settingDecided_classA (by decide)
      (by simp [isTypeValue, isVlanTag, settingRange, and_assoc]) fun _ => rfl⟩
  | 0x04, _, _, _ => ⟨_, _, rfl, rfl, State.settingDecided_classA (by decide) (by simp [settingRange]) fun _ => rfl⟩
  | 0x05, _, _, _ => ⟨_, _, rfl, rfl, State.settingDecided_classA (by decide)
      (by simp [between, settingRange, and_assoc]) fun _ => rfl⟩
  | 0x06, _, _, _ => ⟨_, _, rfl, rfl, State.settingDecided_classA (by decide) between_zero_iff
      fun _ => State.putNRows_withSetting s _⟩
  | 0x07, _, _, _ => ⟨_, _, rfl, rfl, State.settingDecided_inRange (by decide) between_zero_iff fun _ => rfl⟩
  | 0x08, _, _, _ => ⟨_, _, rfl, rfl, State.settingDecided_inRange (by decide) between_zero_iff fun _ => rfl⟩
  | 0x09, _, _, _ => ⟨_, _, rfl, rfl, State.settingDecided_inRange (by decide) between_zero_iff fun _ => rfl⟩
  | 0x0A, _, _, _ => ⟨_, _, rfl, rfl, State.settingDecided_inRange (by decide) between_eq_true_iff fun _ => rfl⟩
  | 0x0B, _, h, _ => absurd rfl h
  | 0x0C, _, _, _ => ⟨_, _, rfl, rfl, State.settingDecided_inRange (by decide) between_zero_iff fun _ => rfl⟩
  | 0x0D, _, _, _ => ⟨_, _, rfl, rfl, State.settingDecided_inRange (by decide) between_eq_true_iff fun _ => rfl⟩
  | 0x0E, _, _, _ => ⟨_, _, rfl, rfl, State.settingDecided_inRange (by decide) between_zero_iff fun _ => rfl⟩
  | 0x0F, _, _, _ => ⟨_, _, rfl, rfl, State.settingDecided_inRange (by decide) between_eq_true_iff fun _ => rfl⟩
  | 0x10, _, _, _ => ⟨_, _, rfl, rfl, State.settingDecided_inRange (by decide) between_zero_iff fun _ => rfl⟩
  | 0x11, _, _, _ => ⟨_, _, rfl, rfl, State.settingDecided_inRange (by decide) between_eq_true_iff fun _ => rfl⟩
  | 0x12, _, _, _ => ⟨_, _, rfl, rfl, State.settingDecided_inRange (by decide) between_eq_true_iff fun _ => rfl⟩
  | 0x13, _, _, _ => ⟨_, _, rfl, rfl, State.settingDecided_inRange (by decide) between_eq_true_iff fun _ => rfl⟩
  | 0x14, _, _, h => absurd rfl h
  | 0x15, _, _, _ => ⟨_, _, rfl, rfl, State.settingDecided_inRange (by decide) between_zero_iff fun _ => rfl⟩
  | _ + 0x16, h, _, _ => absurd h (by omega)

/-- Settles O52: the entry in service names a setting that exists, its command's decision follows R197, and an entry
decided is counted or refused as R195 says. -/
theorem globalSettings : Obligations.GlobalSettings := by
  unfold Obligations.GlobalSettings
  intro s q i v hserves hacc hi hv hVRecover hPPre
  have hexists : i < 0x16 := by
    obtain ⟨-, -, -, hfor⟩ := hserves
    obtain ⟨-, -, -, hitems, -⟩ := (Request.isFor_iff q .write .global).mp hfor
    simp only [itemsExist, runWithin, Bool.and_eq_true, decide_eq_true_eq] at hitems
    omega
  obtain ⟨owns, d, hexec, howns, hdecided⟩ := s.settingServed (s.entryData q 4) i hexists hVRecover hPPre
  have hindex : s.entryIndex q = i := hi.symm
  obtain ⟨hrefused, htaken⟩ := State.serveEntry_entry (d := d) hserves (hindex.symm ▸ howns)
  rw [hindex] at hrefused htaken
  obtain ⟨hmode, hvalue, hok⟩ := hdecided
  rw [hv]
  exact ⟨_, hexec, fun hA hrun => hrefused _ (hmode hA hrun), fun hA hout => hrefused _ (hvalue hA hout),
    fun hA hin => ⟨htaken _ (hok hA hin) (by rw [State.withSetting_me]), State.globalValue_withSetting_same hin,
      fun _ hj => State.globalValue_withSetting_of_ne hj⟩⟩

end Sys2Proof.Machine
end

