-- ==== Sys2Proof/Proofs/Resets.lean ====
section
/-! PROOFS. The power-on reset (O5), the RESTART (O6), and the laws of the part right after reset (O54). -/

namespace Sys2Proof.Machine

/-! ### Power-on values, entry by entry -/

theorem RideThrough.reset_rows (i : Row) : RideThrough.reset.rows[i] = EnvelopeRow.default := by
  simp [RideThrough.reset]

theorem RideThrough.reset_below (i : Row) : RideThrough.reset.below[i] = false := by
  simp [RideThrough.reset]

theorem RideThrough.reset_dwellTimers (i : Row) : RideThrough.reset.dwellTimers[i] = none := by
  simp [RideThrough.reset]

theorem ChannelManager.reset_table (c : Chan) : ChannelManager.reset.table[c] = ChannelEntry.default c := by
  simp [ChannelManager.reset]

theorem ChannelManager.reset_groups (g : Fin 4) : ChannelManager.reset.groups[g] = 0 := by
  simp [ChannelManager.reset]

theorem ChannelManager.reset_profiles (p : Fin 8) : ChannelManager.reset.profiles[p] = Profile.default := by
  simp [ChannelManager.reset]

theorem ChannelManager.reset_chan (c : Chan) : ChannelManager.reset.chan[c] = .off := by
  simp [ChannelManager.reset]

theorem ChannelManager.reset_startTimers (c : Chan) : ChannelManager.reset.startTimers[c] = none := by
  simp [ChannelManager.reset]

theorem ChannelManager.reset_parkTimers (c : Chan) : ChannelManager.reset.parkTimers[c] = none := by
  simp [ChannelManager.reset]

theorem DemandIntake.reset_store (c : Chan) : DemandIntake.reset.store[c] = 0 := by
  simp [DemandIntake.reset]

theorem SetpointEngine.reset_last (c : Chan) : SetpointEngine.reset.last[c] = 0 := by
  simp [SetpointEngine.reset]

theorem SetpointEngine.reset_contention (c : Chan) : SetpointEngine.reset.contention[c] = false := by
  simp [SetpointEngine.reset]

theorem ReportReceiver.reset_record (c : Chan) : ReportReceiver.reset.record[c] = none := by
  simp [ReportReceiver.reset]

theorem ReportReceiver.reset_age (c : Chan) : ReportReceiver.reset.age[c] = 0 := by
  simp [ReportReceiver.reset]

theorem ReportReceiver.reset_mark (c : Chan) : ReportReceiver.reset.mark[c] = false := by
  simp [ReportReceiver.reset]

theorem ChannelEntry.default_station_toNat (c : Chan) : (ChannelEntry.default c).station.toNat = c.val + 1 := by
  simp only [ChannelEntry.default, BitVec.toNat_ofNat]
  omega

/-! ### The power-on reset (R203) -/

theorem State.timeBase_eq_zero {s : State} (h : s.clock = 0) : s.timeBase = 0 := by
  simp [State.timeBase, State.ms, timeBaseAt, h]

theorem State.powerOn_linkUp (s : State) (p : Port) : s.powerOn.linkUp p = false := by cases p <;> rfl

theorem State.powerOn_counter (s : State) (n : CounterName) : s.powerOn.counter n = 0 := by
  cases n with
  | rx p n => cases p <;> cases n <;> rfl
  | txU n | txD n => cases n <;> rfl
  | foreignU | foreignG | replyDrops | unmatched | missedGrid | invalidGrid | acceptedDispatch | refusedDispatch
  | ignoredEntries | faultsDropped | ignoredTriggers => rfl

/-- The start of supply leaves RESET as it holds the part; the release of RESET ends it (R203). -/
theorem exec_powerOn {c : Instr} {s : State} (h : c = .supplyStart ∨ (c = .resetReleased ∧ s.held = true)) :
    ∃ b, exec c s = .next { s.powerOn with held := b } ∧ (c = .supplyStart → b = s.held) ∧
      (c = .resetReleased → b = false) := by
  rcases h with rfl | ⟨rfl, hheld⟩
  · exact ⟨s.held, rfl, fun _ => rfl, fun h => by cases h⟩
  · exact ⟨false, congrArg Host.Outcome.next (if_pos hheld), fun h => (by cases h), fun _ => rfl⟩

/-- Settles O5: both commands leave the power-on state, and each record of it is read off. -/
theorem powerOnReset : Obligations.PowerOnReset := by
  unfold Obligations.PowerOnReset
  intro c s hc
  obtain ⟨b, hexec, hsupply, hreleased⟩ := exec_powerOn hc
  refine ⟨_, hexec, hsupply, hreleased, rfl, State.timeBase_eq_zero rfl, rfl, ?gm, ?rtc, ?di, ?cm, ?se, ?rr, ?fmu,
    ?cu, rfl, rfl, rfl, ?pu⟩
  case gm => exact ⟨rfl, rfl, rfl, rfl, rfl, rfl, rfl, rfl, rfl, rfl, rfl, rfl, rfl, rfl, rfl⟩
  case rtc =>
    refine ⟨rfl, rfl, rfl, rfl, rfl, rfl, rfl, rfl, rfl, rfl, rfl, rfl, rfl, rfl, rfl, rfl, rfl, rfl, rfl,
      fun i => ?_⟩
    exact ⟨RideThrough.reset_rows i, RideThrough.reset_below i, RideThrough.reset_dwellTimers i⟩
  case di => exact ⟨rfl, rfl, rfl, rfl, rfl, rfl, rfl, rfl, rfl⟩
  case cm =>
    refine ⟨rfl, ChannelManager.reset_groups, ChannelManager.reset_profiles, fun ch => ?_⟩
    have htable : s.powerOn.cm.table[ch] = ChannelEntry.default ch := ChannelManager.reset_table ch
    simp only [htable]
    exact ⟨rfl, ChannelEntry.default_station_toNat ch, rfl, rfl, rfl, rfl, rfl, rfl, rfl, rfl, rfl, rfl,
      ChannelManager.reset_chan ch, ChannelManager.reset_startTimers ch, ChannelManager.reset_parkTimers ch,
      DemandIntake.reset_store ch, SetpointEngine.reset_last ch, SetpointEngine.reset_contention ch,
      ReportReceiver.reset_record ch, ReportReceiver.reset_age ch, ReportReceiver.reset_mark ch⟩
  case se => exact ⟨rfl, rfl, rfl, rfl, rfl, rfl⟩
  case rr => exact ⟨rfl, rfl⟩
  case fmu => exact ⟨rfl, rfl, rfl, rfl, rfl, rfl⟩
  case cu => exact ⟨rfl, rfl, rfl, rfl, rfl, rfl, rfl, rfl⟩
  case pu =>
    exact ⟨rfl, rfl, s.powerOn_linkUp, rfl, rfl, rfl, rfl, rfl, rfl, rfl, s.powerOn_counter⟩

/-! ### The RESTART (R200) -/

theorem ChannelManager.standbyStates_getElem (m : ChannelManager) (c : Chan) :
    m.standbyStates[c] = if (m.table[c]).enable then .standby else .off := by
  simp [ChannelManager.standbyStates]

theorem exec_restartTakesEffect {s : State} (hheld : s.held = false) (hdue : s.me.restart = .due) :
    exec .restartTakesEffect s = .next s.restartNow :=
  congrArg Host.Outcome.next ((State.live_of_not_held hheld).trans (if_pos hdue))

/-- Settles O6: the restart gives every block its own RESTART values at one moment. -/
theorem restartTakesEffect : Obligations.RestartTakesEffect := by
  unfold Obligations.RestartTakesEffect
  intro s hheld hdue
  refine ⟨_, exec_restartTakesEffect hheld hdue, rfl, rfl, hheld, ?gm, ?rtc, ?di, ?cm, ?se, ?rr, ?fmu, ?cu, rfl, rfl,
    rfl, ?pu⟩
  case gm => exact ⟨rfl, rfl, rfl, rfl, rfl, rfl, rfl, rfl, rfl, rfl, rfl, rfl, rfl, rfl, rfl⟩
  case rtc =>
    refine ⟨rfl, rfl, rfl, rfl, rfl, rfl, rfl, rfl, rfl, rfl, rfl, rfl, rfl, rfl, rfl, rfl, rfl, rfl, rfl, rfl,
      fun i => ?_⟩
    exact ⟨RideThrough.reset_below i, RideThrough.reset_dwellTimers i⟩
  case di => exact ⟨rfl, rfl, rfl, rfl, rfl, rfl, rfl, rfl, rfl, DemandIntake.reset_store⟩
  case cm =>
    dsimp only [State.restartNow, ChannelManager.restart]
    exact ⟨rfl, rfl, rfl, rfl, fun c => ⟨s.cm.standbyStates_getElem c, ChannelManager.reset_startTimers c,
      ChannelManager.reset_parkTimers c⟩⟩
  case se =>
    have hnext : s.clock + s.se.tCyc * Config.clocksPerUs = s.clock + 25 * s.se.tCyc := by
      rw [Config.clocksPerUs, Nat.mul_comm]
    exact ⟨rfl, rfl, hnext, rfl, rfl, rfl, fun c =>
      ⟨SetpointEngine.reset_last c, SetpointEngine.reset_contention c⟩⟩
  case rr =>
    exact ⟨rfl, rfl, fun c =>
      ⟨ReportReceiver.reset_record c, ReportReceiver.reset_age c, ReportReceiver.reset_mark c⟩⟩
  case fmu => exact ⟨rfl, rfl, rfl, rfl, rfl, rfl⟩
  case cu => exact ⟨rfl, rfl, rfl, rfl, rfl, rfl, rfl, rfl⟩
  case pu => exact ⟨rfl, rfl, rfl, rfl, rfl⟩

/-! ### The laws right after reset -/

/-- Every channel is disabled, so the table asks nothing of stations and leaders (R52). -/
theorem tableLaw_reset : TableLaw ChannelManager.reset.table := by
  have hoff : ∀ c : Chan, (ChannelManager.reset.table[c]).enable = false := fun c => by
    rw [ChannelManager.reset_table]
    rfl
  refine ⟨fun c _ _ hc => ?_, fun c _ hc => ?_⟩ <;> rw [hoff c] at hc <;> cases hc

theorem entryLaw_reset : EntryLaw ChannelManager.reset.table := by
  intro c
  have hstation := ChannelEntry.default_station_toNat c
  rw [ChannelManager.reset_table]
  simp only [ChannelEntry.inRange, isRectifierStation, hstation, Bool.and_eq_true, decide_eq_true_eq]
  simp only [ChannelEntry.default]
  omega

theorem channelLaw_reset : ChannelLaw ChannelManager.reset .load := by
  intro c
  simp only [ChannelManager.reset_chan, ChannelManager.reset_table, ChannelManager.reset_startTimers,
    ChannelManager.reset_parkTimers]
  exact ⟨⟨fun _ => rfl, fun _ => trivial⟩, by simp [ChannelState.isActive], by simp, by simp⟩

theorem activeRow_noStandings : activeRow noStandings = none := by decide

theorem rideThroughLaw_reset : RideThroughLaw RideThrough.reset .load := by
  refine ⟨fun _ => ⟨rfl, rfl⟩, fun i => ?_, fun i => ?_, activeRow_noStandings.symm, by decide, rfl, by decide,
    fun _ => RideThrough.reset_below, fun h => by cases h⟩
  · simp [RideThrough.reset_dwellTimers i]
  · simp [RideThrough.reset_below i]

theorem captureLaw_reset : CaptureLaw CaptureUnit.reset := ⟨by decide, rfl, rfl, rfl⟩

theorem queueLaw_reset : QueueLaw State.reset := by
  refine ⟨⟨by decide, by decide, fun _ => rfl, fun _ => ⟨rfl, rfl, rfl⟩⟩,
    ⟨by decide, fun _ => rfl, fun _ => ⟨rfl, rfl⟩⟩, by decide, fun _ => ⟨id, id⟩, fun c => ?_⟩
  exact (ReportReceiver.reset_age c).trans_le (Nat.zero_le _)

/-- Settles O54: one lemma for each law. -/
theorem lawsAtReset : Obligations.LawsAtReset := by
  unfold Obligations.LawsAtReset
  refine ⟨tableLaw_reset, entryLaw_reset, ?mode, ?faults, ?raisings, channelLaw_reset, rideThroughLaw_reset,
    allowanceLaw_reset, sagListLaw_reset _, captureLaw_reset, queueLaw_reset⟩
  case mode => intro h; cases h
  case faults => exact ⟨by decide, List.Pairwise.nil, fun e he => by cases he⟩
  case raisings => exact ⟨fun _ => ⟨rfl, fun r hr => by cases hr⟩, fun r hr => by cases hr⟩

end Sys2Proof.Machine
end

