-- ==== Sys2Proof/Proofs/ChannelMoves.lean ====
section
/-! PROOFS. Everything that can happen to the channels: each change of the Channel Manager and of the part mode is one of
a few moves, and every step is a sequence of them. The laws of the channel table (O56) and of the channel states (O57)
are kept by each move. -/

namespace Sys2Proof.Machine

theorem vector_set_getElem {α : Type} {n : Nat} (v : Vector α n) (c d : Fin n) (x : α) :
    (v.set c x)[d] = if c = d then x else v[d] := by
  simp only [Fin.getElem_fin, Vector.getElem_set, Fin.ext_iff]

/-! ### What the Channel Manager's operations leave in each channel -/

@[simp] theorem ChannelManager.pass_table (m : ChannelManager) (c : Chan) (st : ChannelState) :
    (m.pass c st).table = m.table := by
  rw [ChannelManager.pass]

theorem ChannelManager.pass_chan (m : ChannelManager) (c d : Chan) (st : ChannelState) :
    (m.pass c st).chan[d] = if c = d then st else m.chan[d] := vector_set_getElem ..

theorem ChannelManager.pass_startTimers (m : ChannelManager) (c d : Chan) (st : ChannelState) :
    (m.pass c st).startTimers[d] = if c = d then none else m.startTimers[d] := vector_set_getElem ..

theorem ChannelManager.pass_parkTimers (m : ChannelManager) (c d : Chan) (st : ChannelState) :
    (m.pass c st).parkTimers[d] = if c = d then none else m.parkTimers[d] := vector_set_getElem ..

@[simp] theorem ChannelManager.enterHalt_table (m : ChannelManager) : m.enterHalt.table = m.table := by
  rw [ChannelManager.enterHalt]

theorem ChannelManager.enterHalt_chan (m : ChannelManager) (c : Chan) :
    m.enterHalt.chan[c] = if (m.chan[c]).isActive then .standby else m.chan[c] := by
  simp [ChannelManager.enterHalt]

theorem ChannelManager.enterHalt_startTimers (m : ChannelManager) (c : Chan) :
    m.enterHalt.startTimers[c] = if (m.chan[c]).isActive then none else m.startTimers[c] := by
  simp [ChannelManager.enterHalt]

theorem ChannelManager.enterHalt_parkTimers (m : ChannelManager) (c : Chan) :
    m.enterHalt.parkTimers[c] = if (m.chan[c]).isActive then none else m.parkTimers[c] := by
  simp [ChannelManager.enterHalt]

section
variable (m : ChannelManager) (p : PartMode) (rtc : RtcState) (store : Vector Nat 16) (ms : Nat) (c : Chan)

@[simp] theorem ChannelManager.examine_table : (m.examine p rtc store ms).table = m.table := by
  rw [ChannelManager.examine]

@[simp] theorem ChannelManager.examine_parkTimers : (m.examine p rtc store ms).parkTimers = m.parkTimers := by
  rw [ChannelManager.examine]

theorem ChannelManager.examine_chan :
    (m.examine p rtc store ms).chan[c] = if m.starts p rtc store c then .starting else m.chan[c] := by
  simp [ChannelManager.examine]

theorem ChannelManager.examine_startTimers : (m.examine p rtc store ms).startTimers[c] =
    if m.starts p rtc store c then startTimer ms m.tStart else m.startTimers[c] := by
  simp [ChannelManager.examine]

theorem ChannelManager.starts_iff : m.starts p rtc store c = true ↔
    m.chan[c] = .standby ∧ p = .run ∧ rtc = .normal ∧ 0 < store[c] := by
  simp [ChannelManager.starts, and_assoc]

variable (took : Chan → Bool) (cmd : Vector Nat 16)

@[simp] theorem ChannelManager.takeResults_table : (m.takeResults ms took cmd).table = m.table := by
  rw [ChannelManager.takeResults]

@[simp] theorem ChannelManager.takeResults_startTimers : (m.takeResults ms took cmd).startTimers = m.startTimers := by
  rw [ChannelManager.takeResults]

theorem ChannelManager.takeResults_chan : (m.takeResults ms took cmd).chan[c] =
    if took c then resultState m.chan[c] (decide (0 < cmd[c])) else m.chan[c] := by
  simp [ChannelManager.takeResults]

theorem ChannelManager.takeResults_parkTimers : (m.takeResults ms took cmd).parkTimers[c] =
    if took c then m.resultPark ms c (decide (0 < cmd[c])) else m.parkTimers[c] := by
  simp [ChannelManager.takeResults]

end

/-- The entry of channel `c` is replaced; a change of its enable field moves the channel (R54). -/
def ChannelManager.putEntry (m : ChannelManager) (c : Chan) (e : ChannelEntry) : ChannelManager :=
  if (m.table[c]).enable = e.enable then { m with table := m.table.set c e }
  else ChannelManager.pass { m with table := m.table.set c e } c (if e.enable then .standby else .off)

@[simp] theorem State.putChannel_cm (s : State) (c : Chan) (e : ChannelEntry) :
    (s.putChannel c e).cm = s.cm.putEntry c e := by
  unfold State.putChannel ChannelManager.putEntry
  simp only []
  split
  · rfl
  · split <;> rfl

@[simp] theorem ChannelManager.putEntry_table (m : ChannelManager) (c : Chan) (e : ChannelEntry) :
    (m.putEntry c e).table = m.table.set c e := by
  unfold ChannelManager.putEntry
  split <;> rfl

/-! ### The moves -/

/-- One change of the Channel Manager and of the part mode. -/
inductive ChannelMove : ChannelManager × PartMode → ChannelManager × PartMode → Prop where
  /-- The settings and the tables beside the channel table (R55, R56, R57). -/
  | settings {m m' : ChannelManager} {p : PartMode} (htable : m'.table = m.table) (hchan : m'.chan = m.chan)
      (hstart : m'.startTimers = m.startTimers) (hpark : m'.parkTimers = m.parkTimers) : ChannelMove (m, p) (m', p)
  /-- An event, an expiry, an ABORT or a release takes a channel out of its state (R61 to R63, R65 to R68). -/
  | passes {m : ChannelManager} {p : PartMode} {c : Chan} {st : ChannelState} (hoff : m.chan[c] ≠ .off)
      (hst : st = .standby ∨ st = .faulted ∨ (st = .running ∧ m.chan[c] = .starting)) : ChannelMove (m, p) (m.pass c st, p)
  /-- The start examination (R59). -/
  | examines {m : ChannelManager} {p : PartMode} (rtc : RtcState) (store : Vector Nat 16) (ms : Nat) :
      ChannelMove (m, p) (m.examine p rtc store ms, p)
  /-- The results of an allocation (R64). -/
  | results {m : ChannelManager} {p : PartMode} (ms : Nat) (took : Chan → Bool) (cmd : Vector Nat 16) :
      ChannelMove (m, p) (m.takeResults ms took cmd, p)
  /-- An accepted channel write (R51 to R54). -/
  | writes {m : ChannelManager} {p : PartMode} {c : Chan} {e : ChannelEntry} (hrange : e.inRange = true)
      (hlaw : breaksLaw m.table c e = false) : ChannelMove (m, p) (m.putEntry c e, p)
  /-- Entry to HALT (R69). -/
  | halts {m : ChannelManager} {p : PartMode} : ChannelMove (m, p) (m.enterHalt, .halt)
  /-- Entry to RUN (R69). -/
  | runs {m : ChannelManager} {p : PartMode} : ChannelMove (m, p) (m, .run)
  /-- Entry to LOAD, and a RESTART (R69, R75). -/
  | loads {m m' : ChannelManager} {p : PartMode} (htable : m'.table = m.table) (hchan : m'.chan = m.standbyStates)
      (hstart : m'.startTimers = Vector.replicate 16 none) (hpark : m'.parkTimers = Vector.replicate 16 none) :
      ChannelMove (m, p) (m', .load)
  /-- A power-on reset (R74). -/
  | resets {m : ChannelManager} {p : PartMode} : ChannelMove (m, p) (.reset, .load)

/-- Going from `s` to `t` is a sequence of moves of the channels. -/
def State.ChannelsMove (s t : State) : Prop :=
  Relation.ReflTransGen ChannelMove (s.cm, s.fmu.mode) (t.cm, t.fmu.mode)

theorem State.ChannelsMove.refl (s : State) : s.ChannelsMove s := Relation.ReflTransGen.refl

theorem State.ChannelsMove.trans {s t u : State} (h : s.ChannelsMove t) (h' : t.ChannelsMove u) : s.ChannelsMove u :=
  Relation.ReflTransGen.trans h h'

theorem State.channelsMove_of_eq {s t : State} (hcm : t.cm = s.cm) (hmode : t.fmu.mode = s.fmu.mode) :
    s.ChannelsMove t := by
  unfold State.ChannelsMove
  rw [hcm, hmode]

theorem State.channelsMove_single {s t : State} (h : ChannelMove (s.cm, s.fmu.mode) (t.cm, t.fmu.mode)) :
    s.ChannelsMove t := Relation.ReflTransGen.single h

/-- Moves of the Channel Manager alone. -/
theorem State.channelsMove_of_cm {s t : State} {m : ChannelManager}
    (h : Relation.ReflTransGen ChannelMove (s.cm, s.fmu.mode) (m, s.fmu.mode)) (hcm : t.cm = m)
    (hmode : t.fmu.mode = s.fmu.mode) : s.ChannelsMove t := by
  unfold State.ChannelsMove
  rw [hcm, hmode]
  exact h

theorem State.ChannelsMove.of_eq {s t u : State} (h : t.ChannelsMove u) (hcm : t.cm = s.cm)
    (hmode : t.fmu.mode = s.fmu.mode) : s.ChannelsMove u :=
  (State.channelsMove_of_eq hcm hmode).trans h

/-- What every move keeps, every sequence of moves keeps. -/
theorem State.ChannelsMove.keeps {P : ChannelManager × PartMode → Prop}
    (hP : ∀ x y, ChannelMove x y → P x → P y) {s t : State} (h : s.ChannelsMove t) (hs : P (s.cm, s.fmu.mode)) :
    P (t.cm, t.fmu.mode) := by
  have hall : ∀ x y, Relation.ReflTransGen ChannelMove x y → P x → P y := by
    intro x y hxy hx
    induction hxy with
    | refl => exact hx
    | tail _ hmove ih => exact hP _ _ hmove ih
  exact hall _ _ h hs

/-! ### Raisings -/

theorem State.enterHalt_channelsMove (s : State) : s.ChannelsMove s.enterHalt :=
  State.channelsMove_single .halts

theorem State.raise_channelsMove (s : State) (r : Raising) : s.ChannelsMove (s.raise r) := by
  unfold State.raise
  simp only []
  split
  · exact .of_eq (State.enterHalt_channelsMove _) rfl (FaultModeUnit.record_mode ..)
  · exact State.channelsMove_of_eq rfl (FaultModeUnit.record_mode ..)

/-- What changes neither the Channel Manager nor the part mode, before a raising. -/
theorem State.channelsMove_raise {s t : State} (r : Raising) (hcm : t.cm = s.cm) (hmode : t.fmu.mode = s.fmu.mode) :
    s.ChannelsMove (t.raise r) :=
  (t.raise_channelsMove r).of_eq hcm hmode

theorem State.raiseAll_channelsMove (s : State) (l : List Raising) : s.ChannelsMove (s.raiseAll l) := by
  unfold State.raiseAll
  induction l generalizing s with
  | nil => exact .refl s
  | cons r l ih => exact (s.raise_channelsMove r).trans (ih _)

theorem State.takeRaising_channelsMove (s : State) (code : FaultCode) : s.ChannelsMove (s.takeRaising code) := by
  unfold State.takeRaising
  split
  · exact .refl s
  · exact State.channelsMove_raise _ rfl rfl

theorem State.takeRaisings_channelsMove (s : State) : s.ChannelsMove s.takeRaisings :=
  .of_eq (State.raiseAll_channelsMove _ _) rfl rfl

/-! ### Events and releases -/

theorem channelMove_take (m : ChannelManager) (p : PartMode) (c : Chan) (e : ChannelEvent) :
    Relation.ReflTransGen ChannelMove (m, p) (m.take c e, p) := by
  have hon : (m.chan[c]).isOn = true → m.chan[c] ≠ .off := by
    intro h hoff
    rw [hoff] at h
    cases h
  unfold ChannelManager.take
  cases e with
  | ready =>
    simp only []
    split
    · rename_i h
      exact .single (.passes (by rw [h]; decide) (.inr (.inr ⟨rfl, h⟩)))
    · exact .refl
  | fault =>
    simp only []
    split
    · exact .single (.passes (hon ‹_›) (.inr (.inl rfl)))
    · exact .refl
  | leftRun =>
    simp only []
    split
    · exact .single (.passes (hon ‹_›) (.inl rfl))
    · exact .refl

theorem channelMove_takeEvents (m : ChannelManager) (p : PartMode) (ev : Chan → Option ChannelEvent) :
    Relation.ReflTransGen ChannelMove (m, p) (m.takeEvents ev, p) := by
  unfold ChannelManager.takeEvents
  generalize List.finRange 16 = l
  induction l generalizing m with
  | nil => exact .refl
  | cons c l ih =>
    rw [List.foldl_cons]
    cases ev c with
    | none => exact ih m
    | some e => exact (channelMove_take m p c e).trans (ih _)

theorem channelMove_release (m : ChannelManager) (p : PartMode) (c : Chan) :
    Relation.ReflTransGen ChannelMove (m, p) (m.release c, p) := by
  unfold ChannelManager.release
  split
  · rename_i h
    exact .single (.passes (by rw [h]; decide) (.inl rfl))
  · exact .refl

theorem channelMove_releaseAll (m : ChannelManager) (p : PartMode) :
    Relation.ReflTransGen ChannelMove (m, p) (m.releaseAll, p) := by
  unfold ChannelManager.releaseAll
  generalize List.finRange 16 = l
  induction l generalizing m with
  | nil => exact .refl
  | cons c l ih => exact (channelMove_release m p c).trans (ih _)

/-! ### The Report Receiver's work -/

theorem State.handEvents_channelsMove (s : State) : s.ChannelsMove s.handEvents := by
  unfold State.handEvents
  split
  · exact .refl s
  · rename_i events _ _ _
    exact State.channelsMove_of_cm (channelMove_takeEvents _ _ fun c => events[c]) (by dsimp only) rfl
  · exact .refl s

theorem State.finishReport_channelsMove (s : State) : s.ChannelsMove s.finishReport := by
  refine s.handEvents_channelsMove.trans ?_
  unfold State.finishReport
  generalize s.handEvents = s
  simp only []
  split
  · exact .refl s
  · exact .refl s
  · rename_i faults forward _
    have hraise : s.ChannelsMove (State.raiseAll faults { s with rr := { s.rr with work := .idle } }) :=
      .of_eq (State.raiseAll_channelsMove _ faults) rfl rfl
    cases forward with
    | none => exact hraise
    | some f => exact hraise.trans (State.channelsMove_of_eq rfl rfl)

theorem State.settleReports_channelsMove (s : State) : s.ChannelsMove s.settleReports :=
  s.finishReport_channelsMove.trans
    (.of_eq (State.finishReport_channelsMove _) (by simp) (by simp))

theorem State.takeExpiry_channelsMove (s : State) : s.ChannelsMove s.takeExpiry := by
  unfold State.takeExpiry
  split
  · exact s.settleReports_channelsMove.trans (State.channelsMove_of_eq rfl rfl)
  · exact .refl s

theorem State.takeReport_channelsMove (s : State) : s.ChannelsMove s.takeReport := by
  unfold State.takeReport
  split
  · exact .refl s
  · exact s.settleReports_channelsMove.trans (State.channelsMove_of_eq rfl rfl)

theorem State.endTrippingReport_channelsMove (s : State) : s.ChannelsMove s.endTrippingReport := by
  unfold State.endTrippingReport
  split
  · exact s.finishReport_channelsMove
  · exact .refl s

/-! ### The Setpoint Engine's work -/

theorem State.requestChannels_channelsMove (s : State) : s.ChannelsMove s.requestChannels := by
  refine .trans (t := s.readDemands.readStanding) (State.channelsMove_of_eq (by simp) (by simp)) ?_
  unfold State.requestChannels
  generalize s.readDemands.readStanding = s
  simp only []
  split
  · exact State.channelsMove_single (.examines ..)
  · exact .refl s

theorem State.closeCycle_channelsMove (s : State) : s.ChannelsMove s.closeCycle := by
  refine .trans (t := s.readVoltage.requestChannels) ?_ ?_
  · exact .trans (State.channelsMove_of_eq (by simp) (by simp)) s.readVoltage.requestChannels_channelsMove
  · unfold State.closeCycle
    generalize s.readVoltage.requestChannels = s
    simp only []
    split
    · exact .refl s
    · exact State.channelsMove_single (.results ..)

theorem State.handSetpointFrame_channelsMove (s : State) : s.ChannelsMove s.handSetpointFrame := by
  refine s.closeCycle_channelsMove.trans ?_
  unfold State.handSetpointFrame
  generalize s.closeCycle = s
  simp only []
  split
  · split <;> exact State.channelsMove_of_eq rfl rfl
  · exact .refl s

theorem State.lookAt_channelsMove (s : State) (o : StatusOwner) : s.ChannelsMove (s.lookAt o) := by
  refine s.handSetpointFrame_channelsMove.trans ?_
  unfold State.lookAt
  generalize s.handSetpointFrame = s
  simp only []
  split <;> exact State.channelsMove_of_eq rfl rfl

theorem State.handStatusFrame_channelsMove (s : State) : s.ChannelsMove s.handStatusFrame := by
  refine s.handSetpointFrame_channelsMove.trans ?_
  unfold State.handStatusFrame
  generalize s.handSetpointFrame = s
  simp only []
  split <;> exact State.channelsMove_of_eq rfl rfl

theorem State.settle_channelsMove (s : State) : s.ChannelsMove s.settle :=
  s.handStatusFrame_channelsMove.trans
    ((State.takeExpiry_channelsMove _).trans (State.settleReports_channelsMove _))

/-! ### Frames and links -/

theorem State.takeRecord_channelsMove (s : State) (r : CaptureRecord) (mark : Bool) :
    s.ChannelsMove (s.takeRecord r mark) := State.channelsMove_of_eq rfl rfl

theorem State.takeValidFrame_channelsMove (s : State) (f : GridSample) (b held : Bool) :
    s.ChannelsMove (s.takeValidFrame f b held) := by
  have hnotice : s.ChannelsMove (s.afterNotice f) := State.channelsMove_of_eq rfl rfl
  rw [State.takeValidFrame_eq]
  split
  · split
    · exact State.channelsMove_of_eq rfl rfl
    · split
      · exact hnotice.trans ((State.raise_channelsMove _ _).trans (State.takeRecord_channelsMove _ _ _))
      · exact hnotice.trans ((State.takeRecord_channelsMove _ _ _).trans (State.raise_channelsMove _ _))
  · exact State.channelsMove_of_eq rfl rfl

theorem State.takeSample_channelsMove (s : State) (b held : Bool) : s.ChannelsMove (s.takeSample b held) := by
  unfold State.takeSample
  split
  · exact .refl s
  · unfold State.takeGridFrame
    split
    case h_4 => exact .of_eq (State.takeValidFrame_channelsMove _ _ _ _) rfl rfl
    all_goals exact State.channelsMove_of_eq rfl rfl

theorem State.storeEntry_channelsMove (s : State) (e : DispatchEntry) : s.ChannelsMove (s.storeEntry e) := by
  unfold State.storeEntry
  split
  · exact .refl s
  · split
    · exact State.channelsMove_of_eq rfl rfl
    · split
      · exact State.channelsMove_of_eq rfl rfl
      · exact State.channelsMove_raise _ rfl rfl

theorem State.foldl_storeEntry_channelsMove (l : List DispatchEntry) (s : State) :
    s.ChannelsMove (l.foldl State.storeEntry s) := by
  induction l generalizing s with
  | nil => exact .refl s
  | cons e l ih => exact (s.storeEntry_channelsMove e).trans (ih _)

theorem State.takeDispatch_channelsMove (s : State) (f : Dispatch) : s.ChannelsMove (s.takeDispatch f) := by
  unfold State.takeDispatch
  split
  · exact State.channelsMove_of_eq rfl rfl
  · split
    · exact State.channelsMove_raise _ rfl rfl
    · exact (State.foldl_storeEntry_channelsMove f.entries s).trans (State.channelsMove_of_eq rfl rfl)

theorem State.receive_channelsMove (s : State) (p : Port) (f : Frame) : s.ChannelsMove (s.receive p f) := by
  unfold State.receive
  split <;> exact State.channelsMove_of_eq (by simp) (by simp)

theorem State.loseSignal_channelsMove (s : State) (p : Port) (cut : Bool) : s.ChannelsMove (s.loseSignal p cut) := by
  unfold State.loseSignal
  simp only []
  refine .trans (State.channelsMove_raise { code := .linkDown, cls := .hold, subject := .port p }
    (t := { s.setLink p false false with fmu := { s.fmu with summary := { s.fmu.summary with link := true } } })
    (State.setLink_cm ..) rfl) ?_
  split <;> exact State.channelsMove_of_eq (by simp) (by simp)

theorem State.queueRequest_channelsMove (s : State) (q : Request) : s.ChannelsMove (s.queueRequest q) := by
  unfold State.queueRequest
  split
  · exact s.raise_channelsMove _
  · exact State.channelsMove_of_eq rfl rfl

/-! ### Counters, modes and resets -/

theorem State.putCounter_channelsMove (s : State) (n : CounterName) (v : Nat) :
    s.ChannelsMove (s.putCounter n v) := by
  refine State.channelsMove_of_eq (State.putCounter_cm s n v) ?_
  cases n with
  | rx p n => simp [State.putCounter]
  | _ => rfl

theorem State.foldl_putCounter_channelsMove (l : List CounterName) (v : Nat) (s : State) :
    s.ChannelsMove (l.foldl (fun s n => s.putCounter n v) s) := by
  induction l generalizing s with
  | nil => exact .refl s
  | cons n l ih => exact (s.putCounter_channelsMove n v).trans (ih _)

theorem State.enterRunFromLoad_channelsMove (s : State) : s.ChannelsMove s.enterRunFromLoad := by
  unfold State.enterRunFromLoad
  simp only []
  split <;> exact State.channelsMove_single .runs

theorem State.enterRunFromHalt_channelsMove (s : State) : s.ChannelsMove s.enterRunFromHalt := by
  unfold State.enterRunFromHalt
  simp only []
  split <;> exact State.channelsMove_single .runs

theorem State.enterLoad_channelsMove (s : State) : s.ChannelsMove s.enterLoad := by
  refine State.channelsMove_single (.loads ?_ ?_ ?_ ?_) <;> rw [State.enterLoad]

theorem State.restartNow_channelsMove (s : State) : s.ChannelsMove s.restartNow := by
  refine State.channelsMove_single (.loads ?_ ?_ ?_ ?_) <;>
    rw [State.restartNow, ChannelManager.restart, ChannelManager.reset]

theorem State.powerOn_channelsMove (s : State) : s.ChannelsMove s.powerOn :=
  State.channelsMove_single .resets

/-! ### Owners that decide a request -/

/-- Serving a request moves the channels. -/
def Service.MovesChannels (f : Service) : Prop := ∀ (q : Request) (s : State), s.ChannelsMove (f q s).1

theorem decideFaultRead_movesChannels : Service.MovesChannels decideFaultRead := by
  intro q s; unfold decideFaultRead; split <;> exact .refl s

theorem decideAckAll_movesChannels : Service.MovesChannels decideAckAll :=
  fun _ _ => State.channelsMove_of_cm (channelMove_releaseAll _ _) (by rw [decideAckAll]) rfl

theorem decideAckHead_movesChannels : Service.MovesChannels decideAckHead := by
  intro q s
  unfold decideAckHead
  split
  · exact .refl s
  · unfold ChannelManager.releaseIf
    split
    · exact State.channelsMove_of_eq rfl rfl
    · exact State.channelsMove_of_cm (channelMove_release _ _ _) rfl rfl

theorem decideAbort_movesChannels : Service.MovesChannels decideAbort := by
  intro q s
  unfold decideAbort
  split
  · exact .refl s
  · split
    · rename_i h
      exact State.channelsMove_single (.passes (by rw [h]; decide) (.inl rfl))
    · exact .refl s

theorem decideCounterWrite_movesChannels : Service.MovesChannels decideCounterWrite := by
  intro q s
  unfold decideCounterWrite
  simp only []
  split
  · exact State.foldl_putCounter_channelsMove ..
  · exact .refl s

theorem decideRun_movesChannels : Service.MovesChannels decideRun := by
  intro q s
  unfold decideRun
  split
  · exact .refl s
  · split
    · exact .refl s
    · split
      · exact .refl s
      · exact s.enterRunFromLoad_channelsMove

theorem decideHalt_movesChannels : Service.MovesChannels decideHalt := by
  intro q s
  unfold decideHalt
  split
  · exact .refl s
  · split
    · exact .refl s
    · exact s.enterHalt_channelsMove

theorem decideResume_movesChannels : Service.MovesChannels decideResume := by
  intro q s
  unfold decideResume
  split
  · exact .refl s
  · split
    · exact .refl s
    · split
      · exact s.enterRunFromHalt_channelsMove
      · exact .refl s

theorem decideLoad_movesChannels : Service.MovesChannels decideLoad := by
  intro q s
  unfold decideLoad
  split
  · exact .refl s
  · split
    · exact .refl s
    · exact s.endTrippingReport_channelsMove.trans
        ((State.takeRaisings_channelsMove _).trans (State.enterLoad_channelsMove _))

/-! ### Owners that decide an entry of a WRITE -/

/-- Accepting an entry moves the channels. -/
def EntryDecision.MovesChannels (d : EntryDecision) : Prop :=
  ∀ (i : Nat) (data : List Byte) (s t : State), d i data s = .ok t → s.ChannelsMove t

theorem channelEntry?_inRange {l : List Byte} {e : ChannelEntry} (h : channelEntry? l = some e) : e.inRange = true := by
  unfold channelEntry? at h
  split at h
  · obtain ⟨hr, he⟩ := Option.ite_none_right_eq_some.mp h
    cases he
    exact hr
  · cases h

theorem writeChannelEntry_movesChannels : EntryDecision.MovesChannels writeChannelEntry := by
  intro i data s t h
  unfold writeChannelEntry at h
  split at h
  · cases h
  · rename_i c _
    unfold State.writeChannel at h
    split at h
    · cases h
    · rename_i e he
      split at h
      · cases h
      · split at h
        · cases h
        · rename_i hlaw
          cases h
          refine State.channelsMove_single ?_
          rw [State.putChannel_cm, State.putChannel_fmu]
          exact .writes (channelEntry?_inRange he) (Bool.eq_false_iff.mpr hlaw)

theorem writeGroup_movesChannels : EntryDecision.MovesChannels writeGroup := by
  intro i data s t h
  unfold writeGroup at h
  split at h
  · cases h
  · split at h <;> cases h
    exact State.channelsMove_single (.settings rfl rfl rfl rfl)

theorem writeProfile_movesChannels : EntryDecision.MovesChannels writeProfile := by
  intro i data s t h
  unfold writeProfile at h
  split at h <;> cases h
  exact State.channelsMove_single (.settings rfl rfl rfl rfl)

theorem writeCounter_movesChannels : EntryDecision.MovesChannels writeCounter := by
  intro i data s t h
  unfold writeCounter at h
  split at h
  · cases h
  · split at h <;> cases h
    exact s.putCounter_channelsMove ..

theorem writeEnvelopeRow_movesChannels : EntryDecision.MovesChannels writeEnvelopeRow := by
  intro i data s t h
  unfold writeEnvelopeRow at h
  split at h
  · cases h
  · split at h <;> rw [State.decideEnvelope_eq_ok h] <;> exact State.channelsMove_of_eq rfl rfl

theorem writeSwell_movesChannels : EntryDecision.MovesChannels writeSwell := by
  intro i data s t h
  unfold writeSwell at h
  simp only [] at h
  split at h <;> cases h
  exact State.channelsMove_of_eq rfl rfl

/-- Of the settings of GLOBAL_WRITE the Channel Manager owns T_start (R57). -/
theorem writeGlobal_movesChannels : EntryDecision.MovesChannels writeGlobal := by
  intro i data s t h
  unfold writeGlobal State.writeSetting at h
  split at h
  case h_15 => cases h
  case h_1 | h_2 | h_3 | h_4 => rw [State.classA_eq_ok h]; exact State.channelsMove_of_eq rfl rfl
  case h_14 => rw [inRange_eq_ok h]; exact State.channelsMove_single (.settings rfl rfl rfl rfl)
  all_goals rw [inRange_eq_ok h]; exact State.channelsMove_of_eq rfl rfl

theorem movesChannels_of_classA {ok : List Byte → State → Bool} {w : List Byte → State → State}
    (hcm : ∀ data s, (w data s).cm = s.cm) (hmode : ∀ data s, (w data s).fmu = s.fmu) :
    EntryDecision.MovesChannels fun _ data s => s.classA (ok data s) (w data s) := by
  intro i data s t h
  rw [State.classA_eq_ok h]
  exact State.channelsMove_of_eq (hcm data s) (by rw [hmode])

theorem movesChannels_of_inRange {ok : List Byte → State → Bool} {w : List Byte → State → State}
    (hcm : ∀ data s, (w data s).cm = s.cm) (hmode : ∀ data s, (w data s).fmu = s.fmu) :
    EntryDecision.MovesChannels fun _ data s => inRange (ok data s) (w data s) := by
  intro i data s t h
  rw [inRange_eq_ok h]
  exact State.channelsMove_of_eq (hcm data s) (by rw [hmode])

theorem writeMeasurementStation_movesChannels : EntryDecision.MovesChannels writeMeasurementStation :=
  movesChannels_of_classA (fun _ _ => rfl) fun _ _ => rfl

theorem writeTCyc_movesChannels : EntryDecision.MovesChannels writeTCyc :=
  movesChannels_of_classA (fun _ _ => rfl) fun _ _ => rfl

theorem writeNRows_movesChannels : EntryDecision.MovesChannels writeNRows :=
  movesChannels_of_classA (fun _ _ => rfl) fun _ _ => rfl

theorem writeVRecover_movesChannels : EntryDecision.MovesChannels writeVRecover := by
  intro i data s t h
  rw [State.decideEnvelope_eq_ok h]
  exact State.channelsMove_of_eq rfl rfl

theorem writeW_movesChannels : EntryDecision.MovesChannels writeW :=
  movesChannels_of_inRange (fun _ _ => rfl) fun _ _ => rfl

theorem writeL_movesChannels : EntryDecision.MovesChannels writeL :=
  movesChannels_of_inRange (fun _ _ => rfl) fun _ _ => rfl

theorem writeTriggerOnSag_movesChannels : EntryDecision.MovesChannels writeTriggerOnSag :=
  movesChannels_of_inRange (fun _ _ => rfl) fun _ _ => rfl

theorem writePPre_movesChannels : EntryDecision.MovesChannels writePPre := by
  intro i data s t h
  unfold writePPre at h
  split at h
  · cases h
  · split at h <;> cases h
    exact State.channelsMove_of_eq rfl rfl

/-! ### The control forms -/

/-- Whatever next state the outcome gives is reached from `s` by moves of the channels. -/
def ChannelsMoveTo (s : State) (o : Host.Outcome State Fault Refusal) : Prop := ∀ t, o = .next t → s.ChannelsMove t

theorem channelsMoveTo_next {s t : State} (h : s.ChannelsMove t) : ChannelsMoveTo s (.next t) := by
  intro u hu; cases hu; exact h

/-- A command that a held part ignores. -/
theorem channelsMoveTo_live {s : State} {f : State → State} (h : s.ChannelsMove (f s)) :
    ChannelsMoveTo s (.next (s.live f)) :=
  channelsMoveTo_next (State.live_ind (P := s.ChannelsMove) (.refl s) fun _ => h)

theorem channelsMoveTo_serve {s : State} {op : Operation} {o : Object} {accepts : Request → Bool} {f : Service}
    (hf : f.MovesChannels) : ChannelsMoveTo s (.next (s.live (State.serve op o accepts f))) :=
  channelsMoveTo_live <| State.serve_ind (P := s.ChannelsMove) (.refl s) fun q _ _ _ =>
    (hf q s).trans (State.channelsMove_of_eq rfl rfl)

theorem channelsMoveTo_serveEntry {s : State} {o : Object} {owns : Nat → Bool} {d : EntryDecision}
    (hd : d.MovesChannels) : ChannelsMoveTo s (.next (s.live (State.serveEntry o owns d))) :=
  channelsMoveTo_live <| State.serveEntry_ind (P := s.ChannelsMove) (.refl s)
    (fun _ _ _ => State.channelsMove_of_eq rfl rfl)
    fun _ t _ _ _ ht =>
      have h : s.ChannelsMove t := hd _ _ _ _ ht
      ⟨h.trans (State.channelsMove_of_eq rfl rfl), h.trans (State.channelsMove_of_eq rfl rfl)⟩

theorem State.onExpiry_channelsMove {s : State} {t : Timer} {f : State → State}
    (h : ∀ w : State, w.cm = s.cm → w.ChannelsMove (f w)) : s.ChannelsMove (s.onExpiry t f) :=
  State.onExpiry_ind (P := s.ChannelsMove) (.refl s) fun m _ =>
    .trans (t := s.advanceMs m) (State.channelsMove_of_eq rfl rfl) (h _ rfl)

theorem State.tripOn_channelsMove (s : State) (code : FaultCode) (t : Timer) (part : TripPart) :
    s.ChannelsMove (s.tripOn code t part) := by
  cases part with
  | whole => exact State.onExpiry_channelsMove fun _ _ => State.channelsMove_raise _ rfl rfl
  | trip => exact State.onExpiry_channelsMove fun _ _ => State.channelsMove_of_eq rfl rfl
  | raise => exact s.takeRaising_channelsMove code

/-! ### The commands that have a form of their own -/

theorem execLinkLoss_channelsMoveTo (p : Port) (cut : Bool) (s : State) : ChannelsMoveTo s (execLinkLoss p cut s) := by
  refine channelsMoveTo_next ?_
  split
  · exact State.channelsMove_of_eq (by simp) (by simp)
  · split
    · exact s.loseSignal_channelsMove p cut
    · exact State.channelsMove_of_eq (by simp) (by simp)

theorem execLinkUp_channelsMoveTo (p : Port) (s : State) : ChannelsMoveTo s (execLinkUp p s) := by
  refine channelsMoveTo_next ?_
  split <;> exact State.channelsMove_of_eq (by simp) (by simp)

theorem execResetAsserted_channelsMoveTo (n : Nat) (s : State) : ChannelsMoveTo s (execResetAsserted n s) := by
  refine channelsMoveTo_next ?_
  split <;> exact State.channelsMove_of_eq rfl rfl

theorem execResetReleased_channelsMoveTo (s : State) : ChannelsMoveTo s (execResetReleased s) := by
  refine channelsMoveTo_next ?_
  split
  · exact s.powerOn_channelsMove
  · exact .refl s

theorem execGridSampleTaken_channelsMoveTo (b : Bool) (s : State) (part : TripPart) :
    ChannelsMoveTo s (execGridSampleTaken b s part) := by
  refine channelsMoveTo_live ?_
  cases part with
  | whole => exact s.takeSample_channelsMove b false
  | trip => exact s.takeSample_channelsMove b true
  | raise => exact s.takeRaising_channelsMove _

theorem execRecoveryHoldExpiry_channelsMoveTo (s : State) : ChannelsMoveTo s (execRecoveryHoldExpiry s) := by
  refine channelsMoveTo_live ?_
  split
  · exact State.onExpiry_channelsMove fun _ _ => State.channelsMove_of_eq rfl rfl
  · exact .refl s

theorem execRecoveryRampExpiry_channelsMoveTo (s : State) : ChannelsMoveTo s (execRecoveryRampExpiry s) := by
  refine channelsMoveTo_live ?_
  split
  · exact State.onExpiry_channelsMove fun _ _ => State.channelsMove_of_eq rfl rfl
  · exact .refl s

theorem execSagListEntryAged_channelsMoveTo (s : State) : ChannelsMoveTo s (execSagListEntryAged s) := by
  refine channelsMoveTo_live ?_
  split <;> exact State.channelsMove_of_eq rfl rfl

theorem execDispatchFrameTaken_channelsMoveTo (s : State) : ChannelsMoveTo s (execDispatchFrameTaken s) := by
  refine channelsMoveTo_live ?_
  split
  · exact .refl s
  · exact .of_eq (State.takeDispatch_channelsMove _ _) rfl rfl

/-- A channel out of its timed state, and its fault (R62, R65). -/
theorem State.channelsMove_passes_raise {s : State} {c : Chan} {st : ChannelState} (r : Raising)
    (hoff : s.cm.chan[c] ≠ .off) (hst : st = .standby ∨ st = .faulted) :
    s.ChannelsMove (State.raise r { s with cm := s.cm.pass c st }) :=
  .trans (t := { s with cm := s.cm.pass c st })
    (State.channelsMove_single (.passes hoff (hst.imp_right .inl))) (State.raise_channelsMove _ r)

theorem execStartTimerExpiry_channelsMoveTo (c : Chan) (s : State) : ChannelsMoveTo s (execStartTimerExpiry c s) := by
  refine channelsMoveTo_live ?_
  split
  · rename_i h
    exact State.onExpiry_channelsMove fun w hw =>
      State.channelsMove_passes_raise _ (by rw [hw, h]; decide) (.inr rfl)
  · exact .refl s

theorem execParkTimerExpiry_channelsMoveTo (c : Chan) (s : State) : ChannelsMoveTo s (execParkTimerExpiry c s) := by
  refine channelsMoveTo_live ?_
  split
  · rename_i h
    exact State.onExpiry_channelsMove fun w hw =>
      State.channelsMove_passes_raise _ (by rw [hw, h]; decide) (.inl rfl)
  · exact .refl s

theorem execReportTaken_channelsMoveTo (s : State) (part : ReportPart) : ChannelsMoveTo s (execReportTaken s part) := by
  refine channelsMoveTo_live ?_
  cases part with
  | whole =>
    dsimp only
    split
    · exact .refl s
    · exact s.takeReport_channelsMove.trans (State.finishReport_channelsMove _)
  | decide => exact s.takeReport_channelsMove
  | hand =>
    dsimp only
    split
    · exact s.handEvents_channelsMove
    · exact .refl s
  | finish =>
    dsimp only
    split
    · exact s.finishReport_channelsMove
    · exact .refl s

theorem execReportLoss_channelsMoveTo (s : State) (part : ReportPart) : ChannelsMoveTo s (execReportLoss s part) := by
  refine channelsMoveTo_live ?_
  cases part with
  | whole =>
    dsimp only
    split
    · exact s.settleReports_channelsMove
    · exact .refl s
  | decide =>
    dsimp only
    split
    · exact s.finishReport_channelsMove.trans (State.channelsMove_of_eq (by simp) (by simp))
    · exact .refl s
  | hand =>
    dsimp only
    split
    · exact s.handEvents_channelsMove
    · exact .refl s
  | finish =>
    dsimp only
    split
    · exact s.finishReport_channelsMove
    · exact .refl s

theorem execCycleStart_channelsMoveTo (part : CyclePart) (s : State) : ChannelsMoveTo s (execCycleStart part s) := by
  have hbegin : s.ChannelsMove s.settle.beginCycle := s.settle_channelsMove.trans (State.channelsMove_of_eq rfl rfl)
  refine channelsMoveTo_live ?_
  cases part with
  | whole reportsFirst =>
    cases reportsFirst with
    | true =>
      exact hbegin.trans ((State.takeExpiry_channelsMove _).trans
        ((State.settleReports_channelsMove _).trans (State.handStatusFrame_channelsMove _)))
    | false => exact hbegin.trans ((State.handStatusFrame_channelsMove _).trans (State.takeExpiry_channelsMove _))
  | start => exact hbegin
  | demands | standing | voltage => exact State.channelsMove_of_eq (by simp) (by simp)
  | request => exact s.requestChannels_channelsMove
  | close => exact s.closeCycle_channelsMove
  | setpoint => exact s.handSetpointFrame_channelsMove
  | look o => exact s.lookAt_channelsMove o
  | status => exact s.handStatusFrame_channelsMove
  | reports => exact s.takeExpiry_channelsMove

theorem execTransmissionEndD_channelsMoveTo (s : State) : ChannelsMoveTo s (execTransmissionEndD s) := by
  refine channelsMoveTo_live ?_
  split <;> exact State.channelsMove_of_eq rfl rfl

theorem execTransmissionEndU_channelsMoveTo (s : State) : ChannelsMoveTo s (execTransmissionEndU s) := by
  refine channelsMoveTo_live ?_
  split <;> exact State.channelsMove_of_eq rfl rfl

theorem execMgmtRequestQueued_channelsMoveTo (s : State) : ChannelsMoveTo s (execMgmtRequestQueued s) := by
  refine channelsMoveTo_live ?_
  split
  · exact .refl s
  · exact .of_eq (State.queueRequest_channelsMove _ _) rfl rfl

theorem execMgmtRequestRefused_channelsMoveTo (s : State) : ChannelsMoveTo s (execMgmtRequestRefused s) := by
  refine channelsMoveTo_live ?_
  split
  · exact .refl s
  · split
    · exact .refl s
    · split <;> exact State.channelsMove_of_eq rfl rfl

theorem execRestart_channelsMoveTo (s : State) : ChannelsMoveTo s (execRestart s) := by
  refine channelsMoveTo_live ?_
  split
  · exact .refl s
  · split <;> exact State.channelsMove_of_eq rfl rfl

theorem execRestartTakesEffect_channelsMoveTo (s : State) : ChannelsMoveTo s (execRestartTakesEffect s) := by
  refine channelsMoveTo_live ?_
  split
  · exact s.restartNow_channelsMove
  · exact .refl s

/-! ### Every command -/

theorem exec_channelsMoveTo (c : Instr) (s : State) : ChannelsMoveTo s (exec c s) := by
  cases c with
  | supplyStart => exact channelsMoveTo_next s.powerOn_channelsMove
  | resetReleased => exact execResetReleased_channelsMoveTo s
  | resetAsserted n => exact execResetAsserted_channelsMoveTo n s
  | linkLoss p cut => exact execLinkLoss_channelsMoveTo p cut s
  | linkUp p => exact execLinkUp_channelsMoveTo p s
  | frameReceived p f => exact channelsMoveTo_live (s.receive_channelsMove p f)
  | gridSampleTaken b part => exact execGridSampleTaken_channelsMoveTo b s part
  | gridSilenceExpiry | dispatchSilenceExpiry =>
    exact channelsMoveTo_live (State.onExpiry_channelsMove fun _ _ => State.channelsMove_raise _ rfl rfl)
  | envelopeExit row part => exact channelsMoveTo_live (State.tripOn_channelsMove ..)
  | swellExit part => exact channelsMoveTo_live (State.tripOn_channelsMove ..)
  | recoveryHoldExpiry => exact execRecoveryHoldExpiry_channelsMoveTo s
  | recoveryRampExpiry => exact execRecoveryRampExpiry_channelsMoveTo s
  | sagListEntryAged => exact execSagListEntryAged_channelsMoveTo s
  | dispatchFrameTaken => exact execDispatchFrameTaken_channelsMoveTo s
  | startTimerExpiry ch => exact execStartTimerExpiry_channelsMoveTo ch s
  | parkTimerExpiry ch => exact execParkTimerExpiry_channelsMoveTo ch s
  | reportTaken part => exact execReportTaken_channelsMoveTo s part
  | cycleStart part => exact execCycleStart_channelsMoveTo part s
  | reportLoss part => exact execReportLoss_channelsMoveTo s part
  | transmissionEndD => exact execTransmissionEndD_channelsMoveTo s
  | transmissionEndU => exact execTransmissionEndU_channelsMoveTo s
  | mgmtRequestQueued => exact execMgmtRequestQueued_channelsMoveTo s
  | mgmtRequestRefused => exact execMgmtRequestRefused_channelsMoveTo s
  | restart => exact execRestart_channelsMoveTo s
  | restartTakesEffect => exact execRestartTakesEffect_channelsMoveTo s
  | modeRun => exact channelsMoveTo_serve decideRun_movesChannels
  | modeHalt => exact channelsMoveTo_serve decideHalt_movesChannels
  | modeResume => exact channelsMoveTo_serve decideResume_movesChannels
  | modeLoad => exact channelsMoveTo_serve decideLoad_movesChannels
  | ackHead => exact channelsMoveTo_serve decideAckHead_movesChannels
  | ackAll => exact channelsMoveTo_serve decideAckAll_movesChannels
  | abort => exact channelsMoveTo_serve decideAbort_movesChannels
  | counterWrite => exact channelsMoveTo_serve decideCounterWrite_movesChannels
  | faultRead => exact channelsMoveTo_serve decideFaultRead_movesChannels
  | arm | trigger | mask | captureRead | summaryRead | contentionRead | channelStateRead | saglistRead | globalRead
  | envelopeRead | swellRead | channelRead | groupRead | profileRead | counterRead =>
    exact channelsMoveTo_serve fun _ _ => State.channelsMove_of_eq rfl rfl
  | channelWrite => exact channelsMoveTo_serveEntry writeChannelEntry_movesChannels
  | envelopeWrite => exact channelsMoveTo_serveEntry writeEnvelopeRow_movesChannels
  | swellWrite => exact channelsMoveTo_serveEntry writeSwell_movesChannels
  | groupWrite => exact channelsMoveTo_serveEntry writeGroup_movesChannels
  | profileWrite => exact channelsMoveTo_serveEntry writeProfile_movesChannels
  | counterObjectWrite => exact channelsMoveTo_serveEntry writeCounter_movesChannels
  | globalWrite => exact channelsMoveTo_serveEntry writeGlobal_movesChannels
  | measurementStationWrite => exact channelsMoveTo_serveEntry writeMeasurementStation_movesChannels
  | nRowsWrite => exact channelsMoveTo_serveEntry writeNRows_movesChannels
  | vRecoverWrite => exact channelsMoveTo_serveEntry writeVRecover_movesChannels
  | wWrite => exact channelsMoveTo_serveEntry writeW_movesChannels
  | tCycWrite => exact channelsMoveTo_serveEntry writeTCyc_movesChannels
  | lWrite => exact channelsMoveTo_serveEntry writeL_movesChannels
  | pPreWrite => exact channelsMoveTo_serveEntry writePPre_movesChannels
  | triggerOnSagWrite => exact channelsMoveTo_serveEntry writeTriggerOnSag_movesChannels

theorem step_channelsMoveTo (s : State) : ChannelsMoveTo s (step s) := by
  unfold step
  split
  · unfold State.tick
    split
    · exact channelsMoveTo_next (.refl s)
    · exact channelsMoveTo_next (State.channelsMove_of_eq rfl rfl)
  · rename_i c rest _
    exact exec_channelsMoveTo c { s with pending := rest }

end Sys2Proof.Machine
end

