-- ==== Sys2Proof/Proofs/ChannelLaws.lean ====
section
/-! PROOFS. The table law and the check that a channel write makes of it say the same (R52); the laws of the channel table
(O56) and of the channel states (O57) through every step. -/

namespace Sys2Proof.Machine

/-! ### The check of R52 -/

theorem stationTaken_eq_true_iff {t : Vector ChannelEntry 16} {c : Chan} {st : Station} :
    stationTaken t c st = true ↔ ∃ d : Chan, d ≠ c ∧ (t[d]).enable = true ∧ (t[d]).station = st := by
  simp [stationTaken, and_assoc]

theorem leaderUnfit_eq_true_iff {t : Vector ChannelEntry 16} {l : Chan} :
    leaderUnfit t l = true ↔ ¬((t[l]).enable = true ∧ (t[l]).ready = .self) := by
  simp [leaderUnfit, imp_iff_not_or]

theorem isLed_eq_true_iff {t : Vector ChannelEntry 16} {c : Chan} :
    isLed t c = true ↔ ∃ d : Chan, d ≠ c ∧ (t[d]).enable = true ∧ (t[d]).ready = .leader c := by
  simp [isLed, and_assoc]

/-- The four cases of R52 that refuse entry `e` at channel `c`, as conditions that an accepted entry meets. -/
theorem breaksLaw_eq_false_iff {t : Vector ChannelEntry 16} {c : Chan} {e : ChannelEntry} :
    breaksLaw t c e = false ↔
      (e.enable = true → ∀ d : Chan, d ≠ c → (t[d]).enable = true → (t[d]).station ≠ e.station) ∧
      e.ready ≠ .leader c ∧
      (∀ l : Chan, e.ready = .leader l → e.enable = true → (t[l]).enable = true ∧ (t[l]).ready = .self) ∧
      (∀ d : Chan, d ≠ c → (t[d]).enable = true → (t[d]).ready = .leader c → e.enable = true ∧ e.ready = .self) := by
  have hstation := stationTaken_eq_true_iff (t := t) (c := c) (st := e.station)
  have hled := isLed_eq_true_iff (t := t) (c := c)
  unfold breaksLaw
  cases hr : e.ready with
  | self => grind
  | leader l =>
    have hfit := leaderUnfit_eq_true_iff (t := t) (l := l)
    grind

/-- An entry that R52 does not refuse is one with which the table keeps its law, and which does not name itself (R52).
-/
theorem breaksLaw_eq_false_iff_tableLaw {t : Vector ChannelEntry 16} (h : TableLaw t) {c : Chan} {e : ChannelEntry} :
    breaksLaw t c e = false ↔ TableLaw (t.set c e) ∧ e.ready ≠ .leader c := by
  obtain ⟨hstations, hleaders⟩ := h
  rw [breaksLaw_eq_false_iff]
  simp only [TableLaw, vector_set_getElem]
  constructor
  · rintro ⟨hfree, hself, hfit, hled⟩
    refine ⟨⟨fun a b hab ha hb => ?_, fun a l ha hl => ?_⟩, hself⟩
    · grind
    · grind
  · rintro ⟨⟨hfree, hfit⟩, hself⟩
    refine ⟨fun he d hd hden => ?_, hself, fun l hl he => ?_, fun d hd hden hdl => ?_⟩
    · grind
    · grind
    · grind

/-! ### The laws of the channel table (R50, R52) -/

/-- A move leaves the channel table, or it is an accepted write or a power-on reset. -/
theorem ChannelMove.table_cases {x y : ChannelManager × PartMode} (h : ChannelMove x y) :
    y.1.table = x.1.table ∨
    (∃ (c : Chan) (e : ChannelEntry), e.inRange = true ∧ breaksLaw x.1.table c e = false ∧
      y.1.table = x.1.table.set c e) ∨
    y.1 = .reset := by
  cases h with
  | settings htable | loads htable => exact .inl htable
  | runs => exact .inl rfl
  | passes => exact .inl (ChannelManager.pass_table ..)
  | examines => exact .inl (ChannelManager.examine_table ..)
  | results => exact .inl (ChannelManager.takeResults_table ..)
  | halts => exact .inl (ChannelManager.enterHalt_table _)
  | writes hrange hlaw => exact .inr (.inl ⟨_, _, hrange, hlaw, ChannelManager.putEntry_table ..⟩)
  | resets => exact .inr (.inr rfl)

theorem ChannelMove.keeps_tableLaw {x y : ChannelManager × PartMode} (h : ChannelMove x y) (hx : TableLaw x.1.table) :
    TableLaw y.1.table := by
  rcases h.table_cases with heq | ⟨c, e, -, hlaw, heq⟩ | heq
  · rwa [heq]
  · rw [heq]
    exact ((breaksLaw_eq_false_iff_tableLaw hx).mp hlaw).1
  · rw [heq]
    exact tableLaw_reset

theorem ChannelMove.keeps_entryLaw {x y : ChannelManager × PartMode} (h : ChannelMove x y) (hx : EntryLaw x.1.table) :
    EntryLaw y.1.table := by
  rcases h.table_cases with heq | ⟨c, e, hrange, -, heq⟩ | heq
  · rwa [heq]
  · intro d
    rw [heq, vector_set_getElem]
    split
    · exact hrange
    · exact hx d
  · rw [heq]
    exact entryLaw_reset

/-- Settles O56: each move of the channels keeps both laws, and every step is a sequence of moves. -/
theorem tableLawsKept : Obligations.TableLawsKept := by
  unfold Obligations.TableLawsKept
  intro s t h
  have hmoves := step_channelsMoveTo s t h
  exact ⟨hmoves.keeps (P := fun x => TableLaw x.1.table) fun _ _ hm => hm.keeps_tableLaw,
    hmoves.keeps (P := fun x => EntryLaw x.1.table) fun _ _ hm => hm.keeps_entryLaw⟩

/-! ### The law of the channel states (R54, R60, R65, R69) -/

/-- What `ChannelLaw` says of one channel: its enable field, its state and whether its timers run. -/
def ChannelOk (enable : Bool) (st : ChannelState) (startTimer parkTimer : Timer) (p : PartMode) : Prop :=
  (st = .off ↔ enable = false) ∧ (st.isActive = true → p = .run) ∧ (startTimer.isSome = true ↔ st = .starting) ∧
  (parkTimer.isSome = true → st = .parked)

theorem channelLaw_iff {m : ChannelManager} {p : PartMode} :
    ChannelLaw m p ↔ ∀ c : Chan, ChannelOk (m.table[c]).enable m.chan[c] m.startTimers[c] m.parkTimers[c] p := Iff.rfl

/-- A channel with both timers stopped, in a state that needs none. -/
theorem channelOk_of_stopped {enable : Bool} {st : ChannelState} {p : PartMode} (hoff : st = .off ↔ enable = false)
    (hrun : st.isActive = true → p = .run) (hst : st ≠ .starting) : ChannelOk enable st none none p :=
  ⟨hoff, hrun, by simp [hst], by simp⟩

/-- STANDBY and FAULTED are open to every enabled channel in every part mode. -/
theorem channelOk_of_waiting {enable : Bool} {st : ChannelState} {p : PartMode} (hen : enable = true)
    (hst : st = .standby ∨ st = .faulted) : ChannelOk enable st none none p := by
  rcases hst with rfl | rfl <;> exact channelOk_of_stopped (by simp [hen]) (by simp [ChannelState.isActive]) (by simp)

/-- The state of a channel whose enable field has just been written (R54, R69, R75). -/
theorem channelOk_of_written (enable : Bool) (p : PartMode) :
    ChannelOk enable (if enable then .standby else .off) none none p := by
  cases enable with
  | true => exact channelOk_of_waiting rfl (.inl rfl)
  | false => exact channelOk_of_stopped (by decide) (fun h => (by cases h)) (by decide)

/-- What is not active may stand in any part mode. -/
theorem ChannelOk.of_not_active {enable : Bool} {st : ChannelState} {ts tp : Timer} {p p' : PartMode}
    (h : ChannelOk enable st ts tp p) (hst : st.isActive = false) : ChannelOk enable st ts tp p' := by
  obtain ⟨hoff, -, hstart, hpark⟩ := h
  exact ⟨hoff, by simp [hst], hstart, hpark⟩

theorem ChannelOk.on_result {m : ChannelManager} {p : PartMode} {c : Chan}
    (h : ChannelOk (m.table[c]).enable m.chan[c] m.startTimers[c] m.parkTimers[c] p) (ms : Nat) (positive : Bool) :
    ChannelOk (m.table[c]).enable (resultState m.chan[c] positive) m.startTimers[c] (m.resultPark ms c positive) p := by
  obtain ⟨hoff, hrun, hstart, hpark⟩ := h
  unfold ChannelManager.resultPark
  cases hst : m.chan[c] with
  | running =>
    rw [hst] at hoff hrun hstart hpark
    cases positive with
    | true => exact ⟨hoff, hrun, hstart, hpark⟩
    | false => 
      exact ⟨by simpa [resultState] using hoff, fun _ => hrun rfl, by simpa [resultState] using hstart, fun _ => rfl⟩
  | parked =>
    rw [hst] at hoff hrun hstart hpark
    cases positive with
    | true => exact ⟨by simpa [resultState] using hoff, fun _ => hrun rfl, by simpa [resultState] using hstart, by simp⟩
    | false => exact ⟨hoff, hrun, hstart, hpark⟩
  | off | standby | starting | faulted =>
    rw [hst] at hoff hrun hstart hpark
    exact ⟨hoff, hrun, hstart, hpark⟩

section
variable {m : ChannelManager} {p : PartMode}

theorem ChannelLaw.enabled (h : ChannelLaw m p) {c : Chan} (hoff : m.chan[c] ≠ .off) : (m.table[c]).enable = true := by
  obtain ⟨hen, -⟩ := h c
  simpa using mt hen.mpr hoff

theorem ChannelLaw.pass (h : ChannelLaw m p) {c : Chan} {st : ChannelState} (hoff : m.chan[c] ≠ .off)
    (hst : st = .standby ∨ st = .faulted ∨ (st = .running ∧ m.chan[c] = .starting)) : ChannelLaw (m.pass c st) p := by
  have hen := h.enabled hoff
  rw [channelLaw_iff] at h ⊢
  intro d
  simp only [ChannelManager.pass_table, ChannelManager.pass_chan, ChannelManager.pass_startTimers,
    ChannelManager.pass_parkTimers]
  split
  · rename_i heq
    subst heq
    rcases hst with hst | hst | ⟨rfl, hstarting⟩
    · exact channelOk_of_waiting hen (.inl hst)
    · exact channelOk_of_waiting hen (.inr hst)
    · obtain ⟨-, hrun, -⟩ := h c
      have hrun : p = .run := hrun (by rw [hstarting]; rfl)
      rw [hen]
      exact channelOk_of_stopped (by decide) (fun _ => hrun) (by decide)
  · exact h d

theorem ChannelLaw.examine (h : ChannelLaw m p) (rtc : RtcState) (store : Vector Nat 16) (ms : Nat) :
    ChannelLaw (m.examine p rtc store ms) p := by
  have hen := fun d => h.enabled (c := d)
  rw [channelLaw_iff] at h ⊢
  intro d
  simp only [ChannelManager.examine_table, ChannelManager.examine_chan, ChannelManager.examine_startTimers,
    ChannelManager.examine_parkTimers]
  split
  · rename_i hstarts
    obtain ⟨hst, hp, -⟩ := (ChannelManager.starts_iff ..).mp hstarts
    obtain ⟨-, -, -, hpark⟩ := h d
    rw [hst] at hpark
    rw [hen d (by rw [hst]; decide)]
    exact ⟨by decide, fun _ => hp, by simp [startTimer], fun hs => absurd (hpark hs) (by decide)⟩
  · exact h d

theorem ChannelLaw.takeResults (h : ChannelLaw m p) (ms : Nat) (took : Chan → Bool) (cmd : Vector Nat 16) :
    ChannelLaw (m.takeResults ms took cmd) p := by
  rw [channelLaw_iff] at h ⊢
  intro d
  simp only [ChannelManager.takeResults_table, ChannelManager.takeResults_chan, ChannelManager.takeResults_startTimers,
    ChannelManager.takeResults_parkTimers]
  split
  · exact (h d).on_result ms _
  · exact h d

theorem ChannelLaw.putEntry (h : ChannelLaw m p) (c : Chan) (e : ChannelEntry) : ChannelLaw (m.putEntry c e) p := by
  rw [channelLaw_iff] at h ⊢
  intro d
  have hd := h d
  unfold ChannelManager.putEntry
  split
  · rename_i hsame
    simp only [vector_set_getElem]
    split
    · rename_i heq
      subst heq
      rw [hsame] at hd
      exact hd
    · exact hd
  · simp only [ChannelManager.pass_chan, ChannelManager.pass_startTimers, ChannelManager.pass_parkTimers,
      ChannelManager.pass_table, vector_set_getElem]
    split
    · exact channelOk_of_written e.enable p
    · exact hd

theorem ChannelLaw.enterHalt (h : ChannelLaw m p) : ChannelLaw m.enterHalt .halt := by
  have hen := fun d => h.enabled (c := d)
  rw [channelLaw_iff] at h ⊢
  intro d
  simp only [ChannelManager.enterHalt_table, ChannelManager.enterHalt_chan, ChannelManager.enterHalt_startTimers,
    ChannelManager.enterHalt_parkTimers]
  cases hact : (m.chan[d]).isActive with
  | true =>
    refine channelOk_of_waiting (hen d fun hoff => ?_) (.inl rfl)
    rw [hoff] at hact
    cases hact
  | false => exact (h d).of_not_active hact

theorem channelLaw_of_standbyStates {m' : ChannelManager} (htable : m'.table = m.table)
    (hchan : m'.chan = m.standbyStates) (hstart : m'.startTimers = Vector.replicate 16 none)
    (hpark : m'.parkTimers = Vector.replicate 16 none) : ChannelLaw m' .load := by
  rw [channelLaw_iff]
  intro d
  rw [htable, hchan, hstart, hpark, ChannelManager.standbyStates_getElem]
  simp only [Fin.getElem_fin, Vector.getElem_replicate]
  exact channelOk_of_written _ _

end

theorem ChannelMove.keeps_channelLaw {x y : ChannelManager × PartMode} (h : ChannelMove x y)
    (hx : ChannelLaw x.1 x.2) : ChannelLaw y.1 y.2 := by
  cases h with
  | settings htable hchan hstart hpark => simpa only [ChannelLaw, htable, hchan, hstart, hpark] using hx
  | passes hoff hst => exact hx.pass hoff hst
  | examines rtc store ms => exact hx.examine rtc store ms
  | results ms took cmd => exact hx.takeResults ms took cmd
  | writes => exact hx.putEntry _ _
  | halts => exact hx.enterHalt
  | runs =>
    intro d
    obtain ⟨hoff, -, htimers⟩ := hx d
    exact ⟨hoff, fun _ => rfl, htimers⟩
  | loads htable hchan hstart hpark => exact channelLaw_of_standbyStates htable hchan hstart hpark
  | resets => exact channelLaw_reset

/-- Settles O57: each move of the channels keeps the law, and every step is a sequence of moves. -/
theorem channelLawKept : Obligations.ChannelLawKept := by
  unfold Obligations.ChannelLawKept
  intro s t h
  exact (step_channelsMoveTo s t h).keeps (P := fun x => ChannelLaw x.1 x.2) fun _ _ hm => hm.keeps_channelLaw

end Sys2Proof.Machine
end

