-- ==== Sys2Proof/Proofs/ChannelRequests.lean ====
section
/-! PROOFS. What the Channel Manager does on its own: its two expiries (O25, O26), the ABORT (O26), the writes of channels
(O27), of groups and of profiles (O28), and the releases of an acknowledgement (O46). -/

namespace Sys2Proof.Machine

/-! ### The expiries of the start and park timers (R62, R65) -/

/-- Time has passed to millisecond `ms`, channel `c` has passed to state `st`, and the fault `r` has been recorded. -/
def State.timedOut (s : State) (ms : Nat) (c : Chan) (st : ChannelState) (r : Raising) : State :=
  { s.advanceMs ms with
    cm := s.cm.pass c st, fmu := s.fmu.record r (s.advanceMs ms).timeBase s.gm.seqState }

theorem State.advanceMs_agesSags (s : State) (ms : Nat) : s.agesSags (s.advanceMs ms) := ⟨rfl, rfl⟩

theorem State.changesOnly_timedOut (s : State) (ms : Nat) (c : Chan) (st : ChannelState) (r : Raising) :
    s.changesOnly (s.timedOut ms c st r) [.clock, .rtc, .cm, .fmu] := by
  intro p hp
  cases p with
  | clock | rtc | cm | fmu => simp at hp
  | held | gm | di | se | rr | cu | me | pu | pending => rfl

/-- A fault that is not TRIP-class never enters HALT (R136). -/
theorem State.raise_timedOut {s : State} {ms : Nat} {c : Chan} {st : ChannelState} {r : Raising} (h : r.cls ≠ .trip) :
    State.raise r { s.advanceMs ms with cm := s.cm.pass c st } = s.timedOut ms c st r :=
  State.raise_eq_record fun hc => h hc.1

theorem exec_startTimerExpiry {s : State} {c : Chan} {ms : Nat} (hheld : s.held = false)
    (hst : s.cm.chan[c] = .starting) (ht : s.cm.startTimers[c] = some ms) :
    exec (.startTimerExpiry c) s =
      .next (s.timedOut ms c .faulted { code := .startTimeout, cls := .hold, subject := .channel c }) := by
  refine congrArg Host.Outcome.next ((State.live_of_not_held hheld).trans ?_)
  rw [if_pos hst, ht, State.onExpiry_some]
  exact State.raise_timedOut (by simp)

theorem exec_parkTimerExpiry {s : State} {c : Chan} {ms : Nat} (hheld : s.held = false)
    (hst : s.cm.chan[c] = .parked) (ht : s.cm.parkTimers[c] = some ms) :
    exec (.parkTimerExpiry c) s =
      .next (s.timedOut ms c .standby { code := .parkLimit, cls := .note, subject := .channel c }) := by
  refine congrArg Host.Outcome.next ((State.live_of_not_held hheld).trans ?_)
  rw [if_pos hst, ht, State.onExpiry_some]
  exact State.raise_timedOut (by simp)

/-- Settles O25: the boundary is waited for, and a HOLD-class fault only records. -/
theorem startTimeout : Obligations.StartTimeout := by
  unfold Obligations.StartTimeout
  intro s c ms hheld hst ht
  exact ⟨_, exec_startTimerExpiry hheld hst ht, s.changesOnly_timedOut _ _ _ _, rfl, rfl, FaultModeUnit.record_mode ..,
    s.advanceMs_agesSags ms⟩

/-! ### The items that a request names exist (R193, R194) -/

theorem index?_of_lt {n v : Nat} (h : v < n) : index? n v = some ⟨v, h⟩ := dif_pos h

theorem State.serves.itemsExist {s : State} {q : Request} {op : Operation} {o : Object} (h : s.serves q op o) :
    Machine.itemsExist op o q.index q.count = true := by
  obtain ⟨-, -, -, hfor⟩ := h
  obtain ⟨-, -, -, hitems, -⟩ := (Request.isFor_iff q op o).mp hfor
  exact hitems

theorem runWithin_iff {n index count : Nat} : runWithin n index count = true ↔ 1 ≤ count ∧ index + count ≤ n := by
  simp [runWithin]

/-! ### ABORT (R63) -/

theorem decideAbort_of_starting {s : State} {q : Request} {c : Chan} (hc : index? 16 q.index = some c)
    (h : s.cm.chan[c] = .starting) :
    decideAbort q s = ({ s with cm := s.cm.pass c .standby }, q.answered .done) := by
  unfold decideAbort
  simp only [hc, h, if_true]

theorem decideAbort_of_not_starting {s : State} {q : Request} {c : Chan} (hc : index? 16 q.index = some c)
    (h : s.cm.chan[c] ≠ .starting) : decideAbort q s = (s, q.answered .busy) := by
  unfold decideAbort
  simp only [hc, h, if_false]

/-- Settles O26: the park timer's expiry records a NOTE, and an ABORT finds the channel that its index names. -/
theorem parkLimitAndAbort : Obligations.ParkLimitAndAbort := by
  unfold Obligations.ParkLimitAndAbort
  refine ⟨fun s c ms hheld hst ht => ?park, fun s q hserves => ?abort⟩
  case park =>
    exact ⟨_, exec_parkTimerExpiry hheld hst ht, s.changesOnly_timedOut _ _ _ _, rfl, rfl, FaultModeUnit.record_mode ..,
      s.advanceMs_agesSags ms⟩
  case abort =>
    have hindex : q.index < 16 := by
      have hle : q.index ≤ 15 := of_decide_eq_true hserves.itemsExist
      omega
    have hreplies := State.serve_repliesTo (f := decideAbort) hserves (accepts := anyRequest) rfl
    refine ⟨⟨q.index, hindex⟩, _, rfl, rfl, fun hst => ?_, fun hst => ?_⟩
    · rw [decideAbort_of_starting (index?_of_lt hindex) hst] at hreplies
      exact hreplies
    · rw [decideAbort_of_not_starting (index?_of_lt hindex) hst] at hreplies
      exact hreplies

/-! ### Writes of groups and profiles (R55, R56) -/

/-- The entry decided next lies in an object of `n` items (R194, R195). -/
theorem State.serves.entryIndex_lt {s : State} {q : Request} {o : Object} {n : Nat} (h : s.serves q .write o)
    (hacc : s.me.accepted < q.count) (hrun : Machine.itemsExist .write o q.index q.count = runWithin n q.index q.count) :
    s.entryIndex q < n := by
  have hitems := h.itemsExist
  rw [hrun, runWithin_iff] at hitems
  unfold State.entryIndex
  omega

theorem writeGroup_of_gt {s : State} {i : Nat} {data : List Byte} (hi : i < 4) (h : 1000000 < ofBe data) :
    writeGroup i data s = .error .badValue := by
  unfold writeGroup
  simp only [index?_of_lt hi]
  exact if_neg (by omega)

theorem writeGroup_of_le {s : State} {i : Nat} {data : List Byte} (hi : i < 4) (h : ofBe data ≤ 1000000) :
    writeGroup i data s = .ok { s with cm := { s.cm with groups := s.cm.groups.set i (ofBe data) } } := by
  unfold writeGroup
  simp only [index?_of_lt hi]
  exact if_pos h

/-- The profile that 10 bytes spell, whether or not its fields lie in their ranges (R177). -/
def profileSpelt (l : List Byte) : Profile :=
  { up := field l 0 2, down := field l 2 2, recovery := field l 4 2, park := field l 6 4 }

theorem profile?_eq (l : List Byte) :
    profile? l = if (profileSpelt l).inRange then some (profileSpelt l) else none := rfl

theorem Profile.inRange_iff {p : Profile} : p.inRange = true ↔ 1 ≤ p.up ∧ p.up ≤ 5000 ∧ 1 ≤ p.down ∧ p.down ≤ 5000 ∧
    1 ≤ p.recovery ∧ p.recovery ≤ 5000 ∧ p.park ≤ 600000 := by
  simp [Profile.inRange, and_assoc]

theorem writeProfile_of_inRange {s : State} {i : Nat} {data : List Byte} (hi : i < 8)
    (h : (profileSpelt data).inRange = true) :
    writeProfile i data s = .ok { s with cm := { s.cm with profiles := s.cm.profiles.set i (profileSpelt data) } } := by
  unfold writeProfile
  simp only [index?_of_lt hi, profile?_eq, h, if_true]

theorem writeProfile_of_not_inRange {s : State} {i : Nat} {data : List Byte} (hi : i < 8)
    (h : ¬(profileSpelt data).inRange = true) : writeProfile i data s = .error .badValue := by
  unfold writeProfile
  simp only [index?_of_lt hi, profile?_eq, if_neg h]

/-- Settles O28: the entry decided next names an item that exists, and its range alone decides it. -/
theorem groupAndProfileWrites : Obligations.GroupAndProfileWrites := by
  unfold Obligations.GroupAndProfileWrites
  refine ⟨fun s q hserves hacc => ?group, fun s q hserves hacc => ?profile⟩
  case group =>
    have hi : s.entryIndex q < 4 := hserves.entryIndex_lt hacc rfl
    obtain ⟨hrefused, htaken⟩ := State.serveEntry_entry (owns := anyEntry) (d := writeGroup) hserves rfl
    exact ⟨⟨_, hi⟩, _, rfl, rfl, fun hv => hrefused _ (writeGroup_of_gt hi hv),
      fun hv => htaken _ (writeGroup_of_le hi hv) rfl⟩
  case profile =>
    have hi : s.entryIndex q < 8 := hserves.entryIndex_lt hacc rfl
    obtain ⟨hrefused, htaken⟩ := State.serveEntry_entry (owns := anyEntry) (d := writeProfile) hserves rfl
    refine ⟨⟨_, hi⟩, _, rfl, rfl, fun p hp => ⟨fun hv => ?_, fun hv => ?_⟩⟩
    · subst hp
      exact htaken _ (writeProfile_of_inRange hi (Profile.inRange_iff.mpr hv)) rfl
    · subst hp
      exact hrefused _ (writeProfile_of_not_inRange hi (mt Profile.inRange_iff.mp hv))

/-! ### A channel write (R51, R52, R54) -/

theorem changesIdentity_iff {old e : ChannelEntry} : changesIdentity old e = true ↔
    e.enable ≠ old.enable ∨ e.station ≠ old.station ∨ e.group ≠ old.group ∨ e.ready ≠ old.ready := by
  simp only [changesIdentity, Bool.or_eq_true, decide_eq_true_eq, or_assoc, ne_comm]

theorem writeChannelEntry_of_lt {s : State} {i : Nat} {data : List Byte} (hi : i < 16) :
    writeChannelEntry i data s = s.writeChannel ⟨i, hi⟩ data := by
  unfold writeChannelEntry
  simp only [index?_of_lt hi]

section
variable {s : State} {c : Chan} {data : List Byte} {e : ChannelEntry}

theorem State.writeChannel_of_none (h : channelEntry? data = none) : s.writeChannel c data = .error .badValue := by
  unfold State.writeChannel
  simp only [h]

theorem State.writeChannel_of_busy (h : channelEntry? data = some e)
    (hbusy : (s.cm.chan[c]).isActive ∧ changesIdentity s.cm.table[c] e) : s.writeChannel c data = .error .busy := by
  unfold State.writeChannel
  simp only [h]
  exact if_pos hbusy

theorem State.writeChannel_of_breaksLaw (h : channelEntry? data = some e)
    (hbusy : ¬((s.cm.chan[c]).isActive ∧ changesIdentity s.cm.table[c] e)) (hlaw : breaksLaw s.cm.table c e = true) :
    s.writeChannel c data = .error .badValue := by
  unfold State.writeChannel
  simp only [h]
  exact (if_neg hbusy).trans (if_pos hlaw)

theorem State.writeChannel_of_lawful (h : channelEntry? data = some e)
    (hbusy : ¬((s.cm.chan[c]).isActive ∧ changesIdentity s.cm.table[c] e)) (hlaw : breaksLaw s.cm.table c e = false) :
    s.writeChannel c data = .ok (s.putChannel c e) := by
  unfold State.writeChannel
  simp only [h]
  exact (if_neg hbusy).trans (if_neg (by simp [hlaw]))

/-- The report records of channel `c` are emptied (R126). -/
def ReportReceiver.forget (r : ReportReceiver) (c : Chan) : ReportReceiver :=
  { r with record := r.record.set c none, age := r.age.set c 0, mark := r.mark.set c false }

/-- Entry `e` stands at channel `c`, and nothing that follows the enable field is touched. -/
def ChannelManager.withEntry (m : ChannelManager) (c : Chan) (e : ChannelEntry) : ChannelManager :=
  { m with table := m.table.set c e }

theorem State.putChannel_of_same (h : e.enable = (s.cm.table[c]).enable) :
    s.putChannel c e = { s with cm := s.cm.withEntry c e } := by
  unfold State.putChannel
  exact if_pos h.symm

theorem State.putChannel_of_enabled (h : e.enable ≠ (s.cm.table[c]).enable) (he : e.enable = true) :
    s.putChannel c e = { s with cm := (s.cm.withEntry c e).pass c .standby, rr := s.rr.forget c } := by
  unfold State.putChannel
  exact (if_neg (Ne.symm h)).trans (if_pos he)

theorem State.putChannel_of_disabled (h : e.enable ≠ (s.cm.table[c]).enable) (he : e.enable = false) :
    s.putChannel c e = { s with
      cm := (s.cm.withEntry c e).pass c .off, rr := s.rr.forget c
      di := { s.di with store := s.di.store.set c 0 } } := by
  unfold State.putChannel
  exact (if_neg (Ne.symm h)).trans (if_neg (by simp [he]))

end

/-- What an accepted write of entry `e` at channel `c` does, whatever the enable field (R51, R54, R85, R126). -/
def State.EntryPut (s : State) (c : Chan) (e : ChannelEntry) (w : State) : Prop :=
  s.changesOnly w [.cm, .rr, .di] ∧
  w.cm.table = s.cm.table.set c e ∧ w.cm.groups = s.cm.groups ∧ w.cm.profiles = s.cm.profiles ∧
  w.cm.tStart = s.cm.tStart ∧
  (∀ d : Chan, d ≠ c → w.cm.chan[d] = s.cm.chan[d] ∧ w.cm.startTimers[d] = s.cm.startTimers[d] ∧
    w.cm.parkTimers[d] = s.cm.parkTimers[d] ∧ w.rr.record[d] = s.rr.record[d] ∧
    w.rr.age[d] = s.rr.age[d] ∧ w.rr.mark[d] = s.rr.mark[d]) ∧
  w.rr = { s.rr with record := w.rr.record, age := w.rr.age, mark := w.rr.mark } ∧
  (e.enable = (s.cm.table[c]).enable → w.cm.chan = s.cm.chan ∧ w.cm.startTimers = s.cm.startTimers ∧
    w.cm.parkTimers = s.cm.parkTimers ∧ w.rr = s.rr ∧ w.di = s.di) ∧
  (e.enable ≠ (s.cm.table[c]).enable →
    w.cm.chan[c] = (if e.enable then .standby else .off) ∧ w.rr.record[c] = none ∧ w.rr.age[c] = 0 ∧
    w.rr.mark[c] = false ∧
    w.di = (if e.enable then s.di else { s.di with store := s.di.store.set c 0 }))

theorem State.changesOnly_cm_rr_di (s : State) (m : ChannelManager) (r : ReportReceiver) (d : DemandIntake) :
    s.changesOnly { s with cm := m, rr := r, di := d } [.cm, .rr, .di] := by
  intro p hp
  cases p with
  | cm | rr | di => simp at hp
  | held | clock | rtc | gm | se | fmu | cu | me | pu | pending => rfl

/-- A change of enable passes the channel, and no other, and empties its report records. -/
theorem State.entryPut_of_change {s : State} {c : Chan} {e : ChannelEntry} {st : ChannelState} {d : DemandIntake}
    (h : e.enable ≠ (s.cm.table[c]).enable) (hst : st = if e.enable then .standby else .off)
    (hd : d = if e.enable then s.di else { s.di with store := s.di.store.set c 0 }) :
    s.EntryPut c e { s with cm := (s.cm.withEntry c e).pass c st, rr := s.rr.forget c, di := d } := by
  refine ⟨s.changesOnly_cm_rr_di _ _ _, rfl, rfl, rfl, rfl, fun x hx => ?_, rfl, fun hs => absurd hs h, fun _ => ?_⟩
  · simp only [ChannelManager.pass_chan, ChannelManager.pass_startTimers, ChannelManager.pass_parkTimers,
      ReportReceiver.forget, vector_set_getElem, if_neg (Ne.symm hx), ChannelManager.withEntry, and_self]
  · simp only [ChannelManager.pass_chan, ReportReceiver.forget, vector_set_getElem, if_true, hst, hd, and_self]

theorem State.putChannel_entryPut (s : State) (c : Chan) (e : ChannelEntry) : s.EntryPut c e (s.putChannel c e) := by
  by_cases h : e.enable = (s.cm.table[c]).enable
  · rw [State.putChannel_of_same h]
    exact ⟨s.changesOnly_cm_rr_di _ _ _, rfl, rfl, rfl, rfl, fun _ _ => ⟨rfl, rfl, rfl, rfl, rfl, rfl⟩, rfl,
      fun _ => ⟨rfl, rfl, rfl, rfl, rfl⟩, fun hn => absurd h hn⟩
  · cases he : e.enable with
    | true =>
      rw [State.putChannel_of_enabled h he]
      exact State.entryPut_of_change h (by simp [he]) (by simp [he])
    | false =>
      rw [State.putChannel_of_disabled h he]
      exact State.entryPut_of_change h (by simp [he]) (by simp [he])

/-- Settles O27: the three steps of R51 in their order, the table law by the four cases of R52. -/
theorem channelWrite : Obligations.ChannelWrite := by
  unfold Obligations.ChannelWrite
  intro s q hserves hacc hlaw
  have hi : s.entryIndex q < 16 := hserves.entryIndex_lt hacc rfl
  obtain ⟨hrefused, htaken⟩ := State.serveEntry_entry (owns := anyEntry) (d := writeChannelEntry) hserves rfl
  rw [writeChannelEntry_of_lt hi] at hrefused htaken
  refine ⟨⟨_, hi⟩, _, rfl, rfl, fun hnone => hrefused _ (State.writeChannel_of_none hnone), ?_⟩
  intro e old he hold
  subst hold
  refine ⟨fun hactive hchange => ?busy, fun hfree => ?decided⟩
  case busy => exact hrefused _ (State.writeChannel_of_busy he ⟨hactive, changesIdentity_iff.mpr hchange⟩)
  case decided =>
    have hbusy : ¬((s.cm.chan[(⟨_, hi⟩ : Chan)]).isActive ∧ changesIdentity s.cm.table[(⟨_, hi⟩ : Chan)] e) := by
      rw [changesIdentity_iff]
      rintro ⟨hactive, hchange⟩
      rcases hfree with hidle | ⟨h1, h2, h3, h4⟩
      · exact absurd (hidle.symm.trans hactive) (by simp)
      · simp [h1, h2, h3, h4] at hchange
    rw [← breaksLaw_eq_false_iff_tableLaw hlaw]
    refine ⟨fun hbreaks => ?_, fun hkeeps => ?_⟩
    · exact hrefused _ (State.writeChannel_of_breaksLaw he hbusy (by simpa using hbreaks))
    · have hput := s.putChannel_entryPut ⟨_, hi⟩ e
      have hme : (s.putChannel ⟨_, hi⟩ e).me = s.me := hput.1 .me (by simp)
      exact ⟨_, htaken _ (State.writeChannel_of_lawful he hbusy hkeeps) (by rw [hme]), hput⟩

/-! ### Events and releases, channel by channel (R61, R66 to R68) -/

/-- A fold that at each index acts on what is seen at that index alone acts once on each index of the list. -/
theorem foldl_pointwise {σ ι β : Type} [DecidableEq ι] {view : σ → ι → β} {g : σ → ι → σ} {h : ι → β → β}
    (hg : ∀ x i j, view (g x i) j = if j = i then h i (view x i) else view x j) {l : List ι} (hl : l.Nodup) (x : σ)
    (j : ι) : view (l.foldl g x) j = if j ∈ l then h j (view x j) else view x j := by
  induction l generalizing x with
  | nil => simp
  | cons i l ih =>
    obtain ⟨hi, hl⟩ := List.nodup_cons.mp hl
    rw [List.foldl_cons, ih hl, hg]
    by_cases hj : j = i
    · subst hj; simp [hi]
    · simp [hj]

/-- What the Channel Manager holds of one channel: its state and its two timers. -/
structure ChannelView where
  /-- The state. -/
  st : ChannelState
  /-- The start timer. -/
  start : Timer
  /-- The park timer. -/
  park : Timer

/-- The channel passes to state `st`, its timers stopped, or stays as it is where it is in that state. -/
def ChannelView.to (v : ChannelView) (st : ChannelState) : ChannelView :=
  if st = v.st then v else { st := st, start := none, park := none }

theorem ChannelView.to_self (v : ChannelView) : v.to v.st = v := if_pos rfl

@[simp] theorem ChannelView.to_st (v : ChannelView) (st : ChannelState) : (v.to st).st = st := by
  unfold ChannelView.to
  split
  · exact ‹st = v.st›.symm
  · rfl

theorem ChannelView.to_of_ne {v : ChannelView} {st : ChannelState} (h : st ≠ v.st) :
    v.to st = { st := st, start := none, park := none } := if_neg h

def ChannelManager.view (m : ChannelManager) (c : Chan) : ChannelView :=
  { st := m.chan[c], start := m.startTimers[c], park := m.parkTimers[c] }

/-- `m'` differs from `m` in the states and timers of channels alone. -/
def ChannelManager.SameTables (m m' : ChannelManager) : Prop :=
  m' = { m with chan := m'.chan, startTimers := m'.startTimers, parkTimers := m'.parkTimers }

theorem ChannelManager.SameTables.table {m m' : ChannelManager} (h : m.SameTables m') :
    m'.table = m.table ∧ m'.groups = m.groups ∧ m'.profiles = m.profiles := by
  rw [h]
  exact ⟨rfl, rfl, rfl⟩

theorem ChannelManager.SameTables.trans {m m' m'' : ChannelManager} (h : m.SameTables m') (h' : m'.SameTables m'') :
    m.SameTables m'' :=
  Eq.trans h' (congrArg (fun x : ChannelManager => { x with
    chan := m''.chan, startTimers := m''.startTimers, parkTimers := m''.parkTimers }) h)

theorem ChannelManager.foldl_sameTables {g : ChannelManager → Chan → ChannelManager}
    (hg : ∀ (m : ChannelManager) (c : Chan), m.SameTables (g m c)) (l : List Chan) (m : ChannelManager) :
    m.SameTables (l.foldl g m) := by
  induction l generalizing m with
  | nil => rfl
  | cons c l ih => exact (hg m c).trans (ih _)

theorem ChannelManager.pass_view (m : ChannelManager) (c d : Chan) {st : ChannelState} (h : m.chan[c] ≠ st) :
    (m.pass c st).view d = if d = c then (m.view c).to st else m.view d := by
  unfold ChannelManager.view
  rw [ChannelManager.pass_chan, ChannelManager.pass_startTimers, ChannelManager.pass_parkTimers]
  by_cases hd : d = c
  · subst hd
    simp only [if_true, ChannelView.to_of_ne (v := ⟨m.chan[d], _, _⟩) (Ne.symm h)]
  · simp only [if_neg hd, if_neg (Ne.symm hd)]

theorem ChannelManager.same_view (m : ChannelManager) (c d : Chan) :
    m.view d = if d = c then (m.view c).to m.chan[c] else m.view d := by
  split
  · subst d
    exact (m.view c).to_self.symm
  · rfl

/-- The state of a channel in state `st` after a release event (R68). -/
def afterRelease (st : ChannelState) : ChannelState := if st = .faulted then .standby else st

theorem ChannelManager.release_sameTables (m : ChannelManager) (c : Chan) : m.SameTables (m.release c) := by
  unfold ChannelManager.release
  split <;> rfl

theorem ChannelManager.release_view (m : ChannelManager) (c d : Chan) :
    (m.release c).view d = if d = c then (m.view c).to (afterRelease m.chan[c]) else m.view d := by
  unfold ChannelManager.release afterRelease
  split
  · exact m.pass_view c d (by simp [*])
  · exact m.same_view c d

theorem ChannelManager.releaseAll_sameTables (m : ChannelManager) : m.SameTables m.releaseAll :=
  ChannelManager.foldl_sameTables ChannelManager.release_sameTables _ m

theorem ChannelManager.releaseAll_chan (m : ChannelManager) (c : Chan) :
    m.releaseAll.chan[c] = afterRelease m.chan[c] := by
  have h := foldl_pointwise (view := ChannelManager.view) (h := fun _ v => v.to (afterRelease v.st))
    ChannelManager.release_view (List.nodup_finRange 16) m c
  rw [if_pos (List.mem_finRange c)] at h
  exact (congrArg ChannelView.st h).trans (ChannelView.to_st _ _)

/-! ### Acknowledgement (R142, R143) -/

theorem FaultEntry.holds_iff {e : FaultEntry} {c : Chan} :
    e.holds c = true ↔ e.cls ≠ .note ∧ e.subject = .channel c := by
  simp [FaultEntry.holds, FaultClass.grave_iff]

theorem releasedBy_eq_some_iff {e : FaultEntry} {rest : List FaultEntry} {c : Chan} :
    releasedBy e rest = some c ↔ e.cls ≠ .note ∧ e.subject = .channel c ∧
      ∀ x ∈ rest, ¬(x.cls ≠ .note ∧ x.subject = .channel c) := by
  unfold releasedBy
  split
  · rename_i d hd
    simp only [Option.ite_none_right_eq_some, Option.some.injEq, Bool.and_eq_true, FaultClass.grave_iff,
      Bool.not_eq_true', List.any_eq_false, FaultEntry.holds_iff, hd, Subject.channel.injEq]
    constructor
    · rintro ⟨⟨hcls, hrest⟩, rfl⟩
      exact ⟨hcls, rfl, hrest⟩
    · rintro ⟨hcls, rfl, hrest⟩
      exact ⟨⟨hcls, hrest⟩, rfl⟩
  · simp [*]
  · simp [*]

theorem ChannelManager.releaseIf_sameTables (m : ChannelManager) (c : Option Chan) : m.SameTables (m.releaseIf c) := by
  cases c with
  | none => rfl
  | some c => exact m.release_sameTables c

theorem ChannelManager.releaseIf_chan (m : ChannelManager) (o : Option Chan) (c : Chan) :
    (m.releaseIf o).chan[c] = if m.chan[c] = .faulted ∧ o = some c then .standby else m.chan[c] := by
  cases o with
  | none => simp [ChannelManager.releaseIf]
  | some d =>
    refine (congrArg ChannelView.st (m.release_view d c)).trans ?_
    by_cases hc : c = d
    · subst hc
      simp [afterRelease, ChannelManager.view]
    · simp [hc, Ne.symm hc, ChannelManager.view]

theorem State.changesOnly_fmu_cm (s : State) (f : FaultModeUnit) (m : ChannelManager) :
    s.changesOnly { s with fmu := f, cm := m } [.fmu, .cm] := by
  intro p hp
  cases p with
  | fmu | cm => simp at hp
  | held | clock | rtc | gm | di | se | rr | cu | me | pu | pending => rfl

theorem decideAckHead_of_nil {s : State} {q : Request} (h : s.fmu.faults = []) :
    decideAckHead q s = (s, q.answered .busy) := by
  unfold decideAckHead
  simp only [h]

theorem decideAckHead_of_cons {s : State} {q : Request} {e : FaultEntry} {rest : List FaultEntry}
    (h : s.fmu.faults = e :: rest) :
    decideAckHead q s = ({ s with
      fmu := { s.fmu with faults := rest }, cm := s.cm.releaseIf (releasedBy e rest) }, q.answered .done) := by
  unfold decideAckHead
  simp only [h]

/-- Settles O46: the channel released is the one that the entry held and that none of the others holds. -/
theorem acknowledgement : Obligations.Acknowledgement := by
  unfold Obligations.Acknowledgement
  refine ⟨fun s q hserves => ?head, fun s q hserves => ?all⟩
  case head =>
    have hreplies := State.serve_repliesTo (f := decideAckHead) hserves (accepts := anyRequest) rfl
    refine ⟨_, rfl, fun hnil => ?_, fun e rest hcons => ?_⟩
    · rw [decideAckHead_of_nil hnil] at hreplies
      exact hreplies
    · rw [decideAckHead_of_cons hcons] at hreplies
      obtain ⟨htable, hgroups, hprofiles⟩ := (s.cm.releaseIf_sameTables (releasedBy e rest)).table
      refine ⟨_, hreplies, s.changesOnly_fmu_cm _ _, rfl, htable, hgroups, hprofiles, fun c => ?_⟩
      exact (s.cm.releaseIf_chan _ c).trans (by simp only [releasedBy_eq_some_iff])
  case all =>
    have hreplies := State.serve_repliesTo (f := decideAckAll) hserves (accepts := anyRequest) rfl
    obtain ⟨htable, hgroups, hprofiles⟩ := s.cm.releaseAll_sameTables.table
    exact ⟨_, rfl, _, hreplies, s.changesOnly_fmu_cm _ _, rfl, htable, hgroups, hprofiles, s.cm.releaseAll_chan⟩

end Sys2Proof.Machine
end

