-- ==== Sys2Proof/Proofs/ReportWork.lean ====
section
/-! PROOFS. The Report Receiver's work, part by part (O42) and whole (O40): what a report gives each channel, how the
Channel Manager takes the events, and what the raisings do. -/

namespace Sys2Proof.Machine

/-! ### What a report gives a channel (R119, R121 to R123) -/

theorem actsOn_iff {t : Vector ChannelEntry 16} {st : Station} {c : Chan} : actsOn t st c = true ↔ ActsOn t st c := by
  unfold actsOn ActsOn reportSource
  cases (t[c]).ready with
  | self => simp
  | leader l => simp

theorem mismatch_iff {e : ChannelEntry} {status : BitVec 16} : mismatch e status = true ↔ Mismatches e status := by
  unfold mismatch Mismatches
  rw [decide_eq_true_eq, ne_eq, BitVec.eq_of_getLsbD_eq_iff, not_forall]
  constructor
  · rintro ⟨b, hb⟩
    obtain ⟨hlt, hne⟩ := Classical.not_imp.mp hb
    simp only [BitVec.getLsbD_and] at hne
    cases hmask : e.cmpMask.getLsbD b with
    | false => simp [hmask] at hne
    | true => exact ⟨⟨b, hlt⟩, hmask, by simpa [hmask] using hne⟩
  · rintro ⟨b, hmask, hne⟩
    refine ⟨b, Classical.not_imp.mpr ⟨b.isLt, fun heq => hne ?_⟩⟩
    simpa only [BitVec.getLsbD_and, hmask, Bool.and_true] using heq

theorem isOn_iff {st : ChannelState} : st.isOn = true ↔ st = .running ∨ st = .parked := by
  cases st <;> decide

/-- OFF and STANDBY: the rectifier has left RUN (R121). -/
theorem onRectifier_of_le_one {b : Byte} (h : b.toNat ≤ 1) :
    onRectifier b = { event := some .leftRun, faults := [(.rectifierLeftRun, .note)] } := by
  have hb : b = 0#8 ∨ b = 1#8 := by bv_omega
  rcases hb with rfl | rfl <;> rfl

/-- READY, RUNNING and BLOCKED mean nothing to a channel that is on. -/
theorem onRectifier_of_two_to_four {b : Byte} (h2 : 2 ≤ b.toNat) (h4 : b.toNat ≤ 4) :
    onRectifier b = { event := none, faults := [] } := by
  have hb : b = 2#8 ∨ b = 3#8 ∨ b = 4#8 := by bv_omega
  rcases hb with rfl | rfl | rfl <;> rfl

/-- FAULT, and every code that is none of the six (R122). -/
theorem onRectifier_of_five_le {b : Byte} (h : 5 ≤ b.toNat) :
    onRectifier b = { event := some .fault, faults := [(.rectifierFault, .hold)] } := by
  have hb : b ≠ 0x00 ∧ b ≠ 0x01 ∧ b ≠ 0x02 ∧ b ≠ 0x03 ∧ b ≠ 0x04 := by bv_omega
  obtain ⟨h0, h1, h2, h3, h4⟩ := hb
  by_cases h5 : b = 0x05
  · subst h5
    rfl
  · unfold onRectifier rectifierState?
    simp only [h0, h1, h2, h3, h4, h5, if_false]

theorem withCompare_of_mismatches {e : ChannelEntry} {status : BitVec 16} {v : ReportVerdict}
    (h : Mismatches e status) : withCompare e status v =
      { event := some .fault, faults := v.faults ++ [(.compareMismatch, e.cmpClass.faultClass)] } :=
  if_pos (mismatch_iff.mpr h)

theorem withCompare_of_not_mismatches {e : ChannelEntry} {status : BitVec 16} {v : ReportVerdict}
    (h : ¬Mismatches e status) : withCompare e status v = v := if_neg (mt mismatch_iff.mp h)

theorem reportVerdict_of_isOn {st : ChannelState} {e : ChannelEntry} {r : Report} (h : st.isOn = true) :
    reportVerdict st e r = withCompare e r.status (onRectifier r.state) := by
  rcases isOn_iff.mp h with rfl | rfl <;> rfl

theorem reportVerdict_of_starting {e : ChannelEntry} {r : Report} :
    (reportVerdict .starting e r).event = (if r.state = 0x02 ∨ r.state = 0x03 then some .ready else none) ∧
    (reportVerdict .starting e r).faults = [] := by
  have hready : (rectifierState? r.state = some .ready ∨ rectifierState? r.state = some .running) ↔
      r.state = 0x02 ∨ r.state = 0x03 := by
    unfold rectifierState?
    grind
  simp only [reportVerdict, hready]
  split <;> exact ⟨rfl, rfl⟩

theorem reportVerdict_faults_of_not_isOn {st : ChannelState} {e : ChannelEntry} {r : Report} (h : ¬st.isOn = true) :
    (reportVerdict st e r).faults = [] := by
  cases st with
  | running | parked => exact absurd rfl h
  | starting => exact reportVerdict_of_starting.2
  | off | standby | faulted => rfl

theorem reportVerdict_event (st : ChannelState) (e : ChannelEntry) (r : Report) :
    ReportEvent st e r (reportVerdict st e r).event := by
  refine ⟨?idle, ?starting, fun hon => ⟨?fault, ?leftRun, ?nothing⟩⟩
  case idle => rintro (rfl | rfl | rfl) <;> rfl
  case starting =>
    rintro rfl
    exact reportVerdict_of_starting.1
  all_goals rw [reportVerdict_of_isOn hon]
  case fault =>
    by_cases hm : Mismatches e r.status
    · exact fun _ => by rw [withCompare_of_mismatches hm]
    · rintro (hm' | h5)
      · exact absurd hm' hm
      · rw [withCompare_of_not_mismatches hm, onRectifier_of_five_le h5]
  case leftRun =>
    intro hm h1
    rw [withCompare_of_not_mismatches hm, onRectifier_of_le_one h1]
  case nothing =>
    intro hm h2 h4
    rw [withCompare_of_not_mismatches hm, onRectifier_of_two_to_four h2 h4]

theorem onRectifier_faults (b : Byte) : (onRectifier b).faults =
    if b.toNat ≤ 1 then [(FaultCode.rectifierLeftRun, FaultClass.note)]
    else if b.toNat ≤ 4 then [] else [(.rectifierFault, .hold)] := by
  split
  · rw [onRectifier_of_le_one ‹_›]
  · split
    · rw [onRectifier_of_two_to_four (by omega) ‹_›]
    · rw [onRectifier_of_five_le (by omega)]

section
variable {s : State} {r : Report} {c : Chan}

theorem State.verdict_of_actsOn (h : ActsOn s.cm.table r.source c) :
    s.verdict r c = reportVerdict s.cm.chan[c] s.cm.table[c] r := if_pos (actsOn_iff.mpr h)

theorem State.verdict_of_not_actsOn (h : ¬ActsOn s.cm.table r.source c) :
    s.verdict r c = { event := none, faults := [] } := if_neg (mt actsOn_iff.mp h)

end

theorem State.reportFaults_reportFaults (s : State) (r : Report) : s.ReportFaults r (s.reportFaults r) := by
  refine ⟨fun c => (s.verdict r c).faults, fun c hc => ?_, fun c hacts hon => ?_, rfl⟩ <;> dsimp only
  · by_cases hacts : ActsOn s.cm.table r.source c
    · rw [State.verdict_of_actsOn hacts]
      exact reportVerdict_faults_of_not_isOn fun hon => hc ⟨hacts, hon⟩
    · rw [State.verdict_of_not_actsOn hacts]
  · rw [State.verdict_of_actsOn hacts, reportVerdict_of_isOn hon]
    refine ⟨_, rfl, fun hm => ?_, fun hm => ?_⟩
    · rw [withCompare_of_not_mismatches hm, onRectifier_faults]
    · rw [withCompare_of_mismatches hm, onRectifier_faults]

/-- Of the faults that a report gives only COMPARE MISMATCH can be TRIP-class. -/
theorem State.ReportFaults.trip_iff {s : State} {r : Report} {l : List Raising} (h : s.ReportFaults r l) :
    (∃ x ∈ l, x.cls = .trip) ↔ ∃ c : Chan, ActsOn s.cm.table r.source c ∧ (s.cm.chan[c]).isOn = true ∧
      Mismatches s.cm.table[c] r.status ∧ (s.cm.table[c]).cmpClass = .trip := by
  obtain ⟨faults, hnone, hon, rfl⟩ := h
  have hcls : ∀ k : CompareClass, k.faultClass = .trip ↔ k = .trip := fun k => by cases k <;> decide
  have hchan : ∀ c : Chan, (∃ f ∈ faults c, f.2 = .trip) ↔ ActsOn s.cm.table r.source c ∧
      (s.cm.chan[c]).isOn = true ∧ Mismatches s.cm.table[c] r.status ∧ (s.cm.table[c]).cmpClass = .trip := by
    intro c
    by_cases hc : ActsOn s.cm.table r.source c ∧ (s.cm.chan[c]).isOn = true
    · obtain ⟨own, hown, hplain, hmismatch⟩ := hon c hc.1 hc.2
      have hno : ∀ f ∈ own, f.2 ≠ .trip := by
        rw [hown]
        split
        · simp
        · split <;> simp
      by_cases hm : Mismatches s.cm.table[c] r.status
      · rw [hmismatch hm]
        simp only [List.mem_append, List.mem_singleton, hc.1, hc.2, hm, true_and, ← hcls]
        constructor
        · rintro ⟨f, hf | rfl, htrip⟩
          · exact absurd htrip (hno f hf)
          · exact htrip
        · exact fun htrip => ⟨_, .inr rfl, htrip⟩
      · rw [hplain hm]
        exact iff_of_false (fun ⟨f, hf, htrip⟩ => hno f hf htrip) (fun h => hm h.2.2.1)
    · rw [hnone c hc]
      exact iff_of_false (by simp) (fun h => hc ⟨h.1, h.2.1⟩)
  simp only [← hchan, List.mem_flatMap, List.mem_map, List.mem_finRange, true_and]
  constructor
  · rintro ⟨x, ⟨c, f, hf, rfl⟩, htrip⟩
    exact ⟨c, f, hf, htrip⟩
  · rintro ⟨c, f, hf, htrip⟩
    exact ⟨_, ⟨c, f, hf, rfl⟩, htrip⟩

/-! ### The records of a report (R118, R119) -/

theorem matchedChannel_eq_some_iff {t : Vector ChannelEntry 16} (h : TableLaw t) {st : Station} {c : Chan} :
    matchedChannel t st = some c ↔ (t[c]).enable = true ∧ (t[c]).station = st := by
  unfold matchedChannel
  constructor
  · intro hc
    simpa using List.find?_some hc
  · rintro ⟨henable, hstation⟩
    cases hfind : (List.finRange 16).find? fun c => (t[c]).enable && decide ((t[c]).station = st) with
    | none =>
      have hno : ¬((t[c]).enable = true ∧ (t[c]).station = st) := by
        simpa using List.find?_eq_none.mp hfind c (List.mem_finRange c)
      exact absurd ⟨henable, hstation⟩ hno
    | some d =>
      have hd : (t[d]).enable = true ∧ (t[d]).station = st := by simpa using List.find?_some hfind
      by_contra hne
      exact h.1 c d (fun hcd => hne (by rw [hcd])) henable hd.1 (hstation.trans hd.2.symm)

theorem matchedChannel_eq_none_iff {t : Vector ChannelEntry 16} {st : Station} :
    matchedChannel t st = none ↔ ∀ c : Chan, ¬((t[c]).enable = true ∧ (t[c]).station = st) := by
  simp [matchedChannel]

section
variable {rr : ReportReceiver} {t : Vector ChannelEntry 16} {r : Report}

theorem ReportReceiver.fill_of_matched {c : Chan} (h : matchedChannel t r.source = some c) :
    rr.fill t r = { rr with record := rr.record.set c (some
      { state := r.state, reserved := r.reserved, status := r.status, current := r.current }) } := by
  unfold ReportReceiver.fill
  simp only [h]

theorem ReportReceiver.fill_of_unmatched (h : matchedChannel t r.source = none) :
    rr.fill t r = { rr with unmatched := rr.unmatched + 1 } := by
  unfold ReportReceiver.fill
  simp only [h]

theorem ReportReceiver.fill_handed (rr : ReportReceiver) (t : Vector ChannelEntry 16) (r : Report) (l : List Report) :
    ReportReceiver.fill { rr with handed := l } t r = { rr.fill t r with handed := l } := by
  cases h : matchedChannel t r.source with
  | none => rw [ReportReceiver.fill_of_unmatched h, ReportReceiver.fill_of_unmatched h]
  | some c => rw [ReportReceiver.fill_of_matched h, ReportReceiver.fill_of_matched h]

end

theorem ReportReceiver.hear_age (rr : ReportReceiver) (t : Vector ChannelEntry 16) (st : Station) (c : Chan) :
    (rr.hear t st).age[c] = if actsOn t st c then 0 else rr.age[c] := by
  simp [ReportReceiver.hear]

theorem ReportReceiver.hear_mark (rr : ReportReceiver) (t : Vector ChannelEntry 16) (st : Station) (c : Chan) :
    (rr.hear t st).mark[c] = if actsOn t st c then false else rr.mark[c] := by
  simp [ReportReceiver.hear]

/-- Steps 1 and 2 of a report write the records that R118 and R119 name. -/
theorem State.reportRecorded_of_eq {s : State} (hlaw : TableLaw s.cm.table) {r : Report} {t : ReportReceiver}
    (hrecord : t.record = (s.rr.fill s.cm.table r).record) (hunmatched : t.unmatched = (s.rr.fill s.cm.table r).unmatched)
    (hage : t.age = (s.rr.hear s.cm.table r.source).age) (hmark : t.mark = (s.rr.hear s.cm.table r.source).mark) :
    s.ReportRecorded r t := by
  unfold State.ReportRecorded
  rw [hrecord, hunmatched, hage, hmark]
  refine ⟨fun c henable hstation => ?matched, fun c hc => ?other, fun hall => ?unmatched, fun c hc => ?heard,
    fun c hc => ?unheard⟩
  case matched =>
    rw [ReportReceiver.fill_of_matched ((matchedChannel_eq_some_iff hlaw).mpr ⟨henable, hstation⟩)]
    exact ⟨by simp, rfl⟩
  case other =>
    cases hd : matchedChannel s.cm.table r.source with
    | none => rw [ReportReceiver.fill_of_unmatched hd]
    | some d =>
      rw [ReportReceiver.fill_of_matched hd]
      have hne : d ≠ c := fun hdc => hc ((matchedChannel_eq_some_iff hlaw).mp (hdc ▸ hd))
      simp only [vector_set_getElem, if_neg hne]
  case unmatched => rw [ReportReceiver.fill_of_unmatched (matchedChannel_eq_none_iff.mpr hall)]
  case heard =>
    rw [ReportReceiver.hear_age, ReportReceiver.hear_mark, if_pos (actsOn_iff.mpr hc), if_pos (actsOn_iff.mpr hc)]
    exact ⟨rfl, rfl⟩
  case unheard =>
    rw [ReportReceiver.hear_age, ReportReceiver.hear_mark, if_neg (mt actsOn_iff.mp hc), if_neg (mt actsOn_iff.mp hc)]
    exact ⟨rfl, rfl⟩

/-! ### The Channel Manager takes the events (R61, R66, R67) -/

/-- The Channel Manager takes the event for channel `c`, when there is one. -/
def ChannelManager.takeIf (m : ChannelManager) (c : Chan) (o : Option ChannelEvent) : ChannelManager :=
  o.elim m (m.take c)

theorem ChannelManager.takeEvents_eq (m : ChannelManager) (ev : Chan → Option ChannelEvent) :
    m.takeEvents ev = (List.finRange 16).foldl (fun m c => m.takeIf c (ev c)) m := by
  unfold ChannelManager.takeEvents
  congr 1
  funext m c
  cases ev c <;> rfl

theorem ChannelManager.takeIf_sameTables (m : ChannelManager) (c : Chan) (o : Option ChannelEvent) :
    m.SameTables (m.takeIf c o) := by
  cases o with
  | none => rfl
  | some e =>
    cases e <;>
    · simp only [ChannelManager.takeIf, Option.elim_some, ChannelManager.take]
      split <;> rfl

theorem ChannelManager.takeIf_view (m : ChannelManager) (c d : Chan) (o : Option ChannelEvent) :
    (m.takeIf c o).view d = if d = c then (m.view c).to (afterEvent m.chan[c] o) else m.view d := by
  cases o with
  | none => exact m.same_view c d
  | some e =>
    cases e with
    | ready =>
      simp only [ChannelManager.takeIf, Option.elim_some, ChannelManager.take, afterEvent]
      split
      · exact m.pass_view c d (by simp [*])
      · exact m.same_view c d
    | fault | leftRun =>
      simp only [ChannelManager.takeIf, Option.elim_some, ChannelManager.take, afterEvent, isOn_iff]
      split
      · rename_i hon
        exact m.pass_view c d (by rcases hon with h | h <;> simp [h])
      · exact m.same_view c d

theorem ChannelManager.takeEvents_sameTables (m : ChannelManager) (ev : Chan → Option ChannelEvent) :
    m.SameTables (m.takeEvents ev) := by
  rw [ChannelManager.takeEvents_eq]
  exact ChannelManager.foldl_sameTables (fun m c => m.takeIf_sameTables c (ev c)) _ m

/-- Each channel takes the event given it, on the state it then holds. -/
theorem ChannelManager.takeEvents_view (m : ChannelManager) (ev : Chan → Option ChannelEvent) (c : Chan) :
    (m.takeEvents ev).view c = (m.view c).to (afterEvent m.chan[c] (ev c)) := by
  rw [ChannelManager.takeEvents_eq, foldl_pointwise (view := ChannelManager.view)
    (h := fun c v => v.to (afterEvent v.st (ev c))) (fun m c d => m.takeIf_view c d (ev c)) (List.nodup_finRange 16) m c,
    if_pos (List.mem_finRange c)]
  rfl

/-! ### The raisings (R120, R136) -/

theorem FaultModeUnit.SameList.refl (f : FaultModeUnit) : f.SameList f := ⟨rfl, rfl, rfl⟩

/-- What a raising does to the list does not depend on the rest of the unit. -/
theorem FaultModeUnit.SameList.record {f g : FaultModeUnit} (h : f.SameList g) (r : Raising) (now : BitVec 32)
    (q : Option (BitVec 16)) : (f.record r now q).SameList (g.record r now q) := by
  obtain ⟨hfaults, hdropped, htrip⟩ := h
  unfold FaultModeUnit.record
  rw [hfaults, hdropped, htrip]
  dsimp only
  split
  · exact ⟨rfl, rfl, rfl⟩
  · split
    · exact ⟨rfl, rfl, rfl⟩
    · split
      · split <;> exact ⟨rfl, rfl, rfl⟩
      · exact ⟨rfl, rfl, rfl⟩

theorem FaultModeUnit.SameList.trans {f g h : FaultModeUnit} (hfg : f.SameList g) (hgh : g.SameList h) :
    f.SameList h :=
  ⟨hfg.1.trans hgh.1, hfg.2.1.trans hgh.2.1, hfg.2.2.trans hgh.2.2⟩

/-- The raisings of `l` recorded one after another. -/
def FaultModeUnit.recordAll (f : FaultModeUnit) (l : List Raising) (now : BitVec 32) (q : Option (BitVec 16)) :
    FaultModeUnit := l.foldl (fun f r => f.record r now q) f

theorem FaultModeUnit.SameList.recordAll {f g : FaultModeUnit} (h : f.SameList g) (l : List Raising) (now : BitVec 32)
    (q : Option (BitVec 16)) : (f.recordAll l now q).SameList (g.recordAll l now q) := by
  unfold FaultModeUnit.recordAll
  induction l generalizing f g with
  | nil => exact h
  | cons r l ih => exact ih (h.record r now q)

theorem FaultModeUnit.recordAll_mode (f : FaultModeUnit) (l : List Raising) (now : BitVec 32) (q : Option (BitVec 16)) :
    (f.recordAll l now q).mode = f.mode := by
  unfold FaultModeUnit.recordAll
  induction l generalizing f with
  | nil => rfl
  | cons r l ih => exact (ih _).trans (f.record_mode r now q)

theorem State.enterHalt_sameList (s : State) : s.enterHalt.fmu.SameList s.fmu := ⟨rfl, rfl, rfl⟩

/-- Going from `s` to `t`, the raisings of `l` have been taken: the list holds them, and where one is TRIP-class in RUN
the part has entered HALT (R120, R136). -/
def State.Raises (s : State) (l : List Raising) (t : State) : Prop :=
  t.fmu.SameList (s.fmu.recordAll l s.timeBase s.gm.seqState) ∧
  (s.fmu.mode = .run ∧ (∃ x ∈ l, x.cls = .trip) →
    t.fmu.mode = .halt ∧ t.cu = s.cu.trigger .halt ∧ t.cm = s.cm.enterHalt) ∧
  (¬(s.fmu.mode = .run ∧ ∃ x ∈ l, x.cls = .trip) →
    t.fmu.mode = s.fmu.mode ∧ t.cm = s.cm ∧ t.cu = s.cu ∧ t.di = s.di)

theorem State.raises_of_not_halt {s : State} {l : List Raising} (h : ¬(s.fmu.mode = .run ∧ ∃ x ∈ l, x.cls = .trip)) :
    s.Raises l (s.raiseAll l) := by
  have heq : s.raiseAll l = { s with fmu := s.fmu.recordAll l s.timeBase s.gm.seqState } := by
    by_cases hrun : s.fmu.mode = .run
    · exact State.raiseAll_eq_record fun r hr htrip => h ⟨hrun, r, hr, htrip⟩
    · exact State.raiseAll_eq_record_of_not_run hrun
  rw [heq]
  exact ⟨.refl _, fun hhalt => absurd hhalt h, fun _ => ⟨s.fmu.recordAll_mode l _ _, rfl, rfl, rfl⟩⟩

theorem State.raiseAll_raises (s : State) (l : List Raising) : s.Raises l (s.raiseAll l) := by
  by_cases h : s.fmu.mode = .run ∧ ∃ x ∈ l, x.cls = .trip
  · obtain ⟨hrun, htrip⟩ := h
    induction l generalizing s with
    | nil => simp at htrip
    | cons r l ih =>
      have hcons : s.raiseAll (r :: l) = (s.raise r).raiseAll l := rfl
      by_cases hr : r.cls = .trip
      · have hnot : (s.raise r).fmu.mode ≠ .run := by
          rw [State.raise_eq_halt hr hrun]
          simp [State.enterHalt]
        obtain ⟨hlist, -, hkeep⟩ := State.raises_of_not_halt (l := l) fun hc => hnot hc.1
        obtain ⟨hmode, hcm, hcu, -⟩ := hkeep fun hc => hnot hc.1
        rw [hcons]
        rw [State.raise_eq_halt hr hrun] at hlist hmode hcm hcu ⊢
        exact ⟨hlist.trans ((State.enterHalt_sameList _).recordAll l _ _), fun _ => ⟨hmode, hcu, hcm⟩,
          fun hc => absurd ⟨hrun, htrip⟩ hc⟩
      · have hrest : ∃ x ∈ l, x.cls = .trip := by
          obtain ⟨x, hx, hxtrip⟩ := htrip
          rcases List.mem_cons.mp hx with rfl | hx
          · exact absurd hxtrip hr
          · exact ⟨x, hx, hxtrip⟩
        have hraise := State.raise_eq_record (s := s) (r := r) fun hc => hr hc.1
        have hrun' : (s.raise r).fmu.mode = .run := by
          rw [hraise]
          exact (s.fmu.record_mode r _ _).trans hrun
        obtain ⟨hlist, hhalt, -⟩ := ih (s.raise r) hrun' hrest
        obtain ⟨hmode, hcu, hcm⟩ := hhalt ⟨hrun', hrest⟩
        rw [hcons]
        rw [hraise] at hlist hmode hcu hcm ⊢
        exact ⟨hlist, fun _ => ⟨hmode, hcu, hcm⟩, fun hc => absurd ⟨hrun, htrip⟩ hc⟩
  · exact State.raises_of_not_halt h

theorem State.Raises.mode_ne_iff {s t : State} {l : List Raising} (h : s.Raises l t) :
    t.fmu.mode ≠ s.fmu.mode ↔ s.fmu.mode = .run ∧ ∃ x ∈ l, x.cls = .trip := by
  obtain ⟨-, hhalt, hkeep⟩ := h
  by_cases hc : s.fmu.mode = .run ∧ ∃ x ∈ l, x.cls = .trip
  · exact iff_of_true (by rw [(hhalt hc).1, hc.1]; simp) hc
  · exact iff_of_false (fun hne => hne (hkeep hc).1) hc

theorem State.Raises.of_mode_ne {s t : State} {l : List Raising} (h : s.Raises l t) (hne : t.fmu.mode ≠ s.fmu.mode) :
    t.fmu.mode = .halt ∧ t.cu = s.cu.trigger .halt ∧ t.cm = s.cm.enterHalt := h.2.1 (h.mode_ne_iff.mp hne)

theorem State.Raises.of_mode_eq {s t : State} {l : List Raising} (h : s.Raises l t) (heq : t.fmu.mode = s.fmu.mode) :
    t.cm = s.cm ∧ t.cu = s.cu ∧ t.di = s.di := (h.2.2 fun hc => h.mode_ne_iff.mpr hc heq).2

/-! ### The steps of a report and of a loss test (R120) -/

/-- Going from `s` to `t`, steps 4 and 5 of a report with these faults, or of a loss test, have been taken. -/
def State.Finishes (s : State) (faults : List Raising) (forward : Option Frame) (t : State) : Prop :=
  s.changesOnly t [.cm, .rr, .fmu, .cu, .di, .pu] ∧ t.rr = { s.rr with work := .idle } ∧ s.Raises faults t ∧
  t.pu = { s.pu with u := t.pu.u } ∧ (forward = none → t.pu = s.pu) ∧
  ∀ f, forward = some f → s.pu.u.TakesForward s.clock f t.pu.u

theorem State.finishReport_changesOnly (s : State) : s.changesOnly s.finishReport [.cm, .rr, .fmu, .cu, .di, .pu] := by
  intro p hp
  cases p with
  | cm | rr | fmu | cu | di | pu => simp at hp
  | held | clock | rtc | gm | se | me | pending => simp [State.agrees]

/-- The Report Receiver has no work left in progress. -/
def State.reportsIdle (s : State) : State := { s with rr := { s.rr with work := .idle } }

theorem State.finishReport_of_handed_none {s : State} {faults : List Raising} (h : s.rr.work = .handed faults none) :
    s.finishReport = s.reportsIdle.raiseAll faults := State.finishReport_of_handed h

theorem State.finishReport_of_handed_some {s : State} {faults : List Raising} {f : Frame}
    (h : s.rr.work = .handed faults (some f)) :
    s.finishReport = (s.reportsIdle.raiseAll faults).onU (PortU.handForward s.clock f) :=
  (State.finishReport_of_handed h).trans
    (congrArg (fun c => (s.reportsIdle.raiseAll faults).onU (PortU.handForward c f)) (State.raiseAll_clock ..))

theorem State.finishReport_finishes {s : State} {faults : List Raising} {forward : Option Frame}
    (h : s.rr.work = .handed faults forward) : s.Finishes faults forward s.finishReport := by
  refine ⟨s.finishReport_changesOnly, ?_⟩
  have hraises : s.Raises faults (s.reportsIdle.raiseAll faults) := s.reportsIdle.raiseAll_raises faults
  have hrr : (s.reportsIdle.raiseAll faults).rr = { s.rr with work := .idle } := State.raiseAll_rr ..
  have hpu : (s.reportsIdle.raiseAll faults).pu = s.pu := State.raiseAll_pu ..
  cases forward with
  | none =>
    rw [State.finishReport_of_handed_none h]
    exact ⟨hrr, hraises, by rw [hpu], fun _ => hpu, by simp⟩
  | some f =>
    rw [State.finishReport_of_handed_some h]
    refine ⟨hrr, hraises, by simp only [State.onU, hpu], by simp, fun f' hf' => ?_⟩
    cases hf'
    simp only [State.onU, hpu]
    exact s.pu.u.handForward_takes s.clock f

/-- Going from `s` to `t`, the Channel Manager has taken the events that wait (R120). -/
def State.HandsEvents (s : State) (events : Vector (Option ChannelEvent) 16) (faults : List Raising)
    (forward : Option Frame) (t : State) : Prop :=
  s.changesOnly t [.cm, .rr] ∧ t.rr = { s.rr with work := .handed faults forward } ∧
  t.cm = { s.cm with chan := t.cm.chan, startTimers := t.cm.startTimers, parkTimers := t.cm.parkTimers } ∧
  ∀ d : Chan, t.cm.chan[d] = afterEvent s.cm.chan[d] events[d] ∧
    (t.cm.chan[d] = s.cm.chan[d] → t.cm.startTimers[d] = s.cm.startTimers[d] ∧
      t.cm.parkTimers[d] = s.cm.parkTimers[d]) ∧
    (t.cm.chan[d] ≠ s.cm.chan[d] → t.cm.startTimers[d] = none ∧ t.cm.parkTimers[d] = none)

theorem State.changesOnly_cm_rr (s : State) (m : ChannelManager) (r : ReportReceiver) :
    s.changesOnly { s with cm := m, rr := r } [.cm, .rr] := by
  intro p hp
  cases p with
  | cm | rr => simp at hp
  | held | clock | rtc | gm | di | se | fmu | cu | me | pu | pending => rfl

theorem State.changesOnly_rr (s : State) (r : ReportReceiver) : s.changesOnly { s with rr := r } [.rr] := by
  intro p hp
  cases p with
  | rr => simp at hp
  | held | clock | rtc | gm | di | cm | se | fmu | cu | me | pu | pending => rfl

theorem State.handEvents_handsEvents {s : State} {events : Vector (Option ChannelEvent) 16} {faults : List Raising}
    {forward : Option Frame} (h : s.rr.work = .decided events faults forward) :
    s.HandsEvents events faults forward s.handEvents := by
  have hsame := s.cm.takeEvents_sameTables fun c => events[c]
  have hview := s.cm.takeEvents_view fun c => events[c]
  rw [State.handEvents_eq h]
  generalize (s.cm.takeEvents fun c => events[c]) = m at hsame hview ⊢
  refine ⟨s.changesOnly_cm_rr _ _, rfl, hsame, fun d => ?_⟩
  have hst : m.chan[d] = afterEvent s.cm.chan[d] events[d] :=
    (congrArg ChannelView.st (hview d)).trans (ChannelView.to_st _ _)
  refine ⟨hst, fun hkept => ?_, fun hmoved => ?_⟩
  · have hto : m.view d = s.cm.view d := (hview d).trans (if_pos (hst.symm.trans hkept))
    exact ⟨congrArg ChannelView.start hto, congrArg ChannelView.park hto⟩
  · have hto := (hview d).trans (ChannelView.to_of_ne fun heq => hmoved (hst.trans heq))
    exact ⟨congrArg ChannelView.start hto, congrArg ChannelView.park hto⟩

/-- Going from `s` to `t`, steps 1 and 2 of report `r` have been taken (R118 to R123). -/
def State.Decides (s : State) (r : Report) (rest : List Report) (events : Vector (Option ChannelEvent) 16)
    (faults : List Raising) (t : State) : Prop :=
  s.changesOnly t [.rr] ∧ s.ReportRecorded r t.rr ∧
  t.rr = { s.rr with handed := rest, record := t.rr.record, unmatched := t.rr.unmatched, age := t.rr.age
                     mark := t.rr.mark, work := .decided events faults (some r.raw) } ∧
  s.ReportFaults r faults ∧ (∀ c : Chan, ¬ActsOn s.cm.table r.source c → events[c] = none) ∧
  ∀ c : Chan, ActsOn s.cm.table r.source c → ReportEvent s.cm.chan[c] s.cm.table[c] r events[c]

theorem State.takeReport_eq {s : State} {r : Report} {rest : List Report} (hhanded : s.rr.handed = r :: rest)
    (hwork : s.rr.work = .idle) (htest : s.rr.testDue = none) :
    s.takeReport = { s with rr := { (s.rr.fill s.cm.table r).hear s.cm.table r.source with
      handed := rest
      work := .decided (Vector.ofFn fun c => (s.verdict r c).event) (s.reportFaults r) (some r.raw) } } := by
  unfold State.takeReport
  simp only [hhanded, State.settleReports_of_idle hwork htest]
  unfold State.decideReport
  dsimp only
  rw [ReportReceiver.fill_handed]
  rfl

theorem State.takeReport_decides {s : State} {r : Report} {rest : List Report} (hhanded : s.rr.handed = r :: rest)
    (hwork : s.rr.work = .idle) (htest : s.rr.testDue = none) (hlaw : TableLaw s.cm.table) :
    ∃ events faults, s.Decides r rest events faults s.takeReport := by
  rw [State.takeReport_eq hhanded hwork htest]
  refine ⟨Vector.ofFn fun c => (s.verdict r c).event, s.reportFaults r, s.changesOnly_rr _,
    State.reportRecorded_of_eq hlaw ?record ?unmatched ?age ?mark, ?rr,
    s.reportFaults_reportFaults r, fun c hc => ?none, fun c hc => ?event⟩
  case record | unmatched => simp only [ReportReceiver.hear]
  case age | mark | rr =>
    cases h : matchedChannel s.cm.table r.source with
    | none => simp only [ReportReceiver.fill_of_unmatched h, ReportReceiver.hear]
    | some c => simp only [ReportReceiver.fill_of_matched h, ReportReceiver.hear]
  case none => simp [State.verdict_of_not_actsOn hc]
  case event =>
    simp only [Fin.getElem_fin, Vector.getElem_ofFn, State.verdict_of_actsOn hc]
    exact reportVerdict_event _ _ _

theorem State.isLost_iff {s : State} {limit : Nat} {c : Chan} : s.isLost limit c = true ↔
    (s.cm.table[c]).enable = true ∧ (s.cm.chan[c] = .running ∨ s.cm.chan[c] = .parked) ∧ limit < s.rr.age[c] ∧
      s.rr.mark[c] = false := by
  simp only [State.isLost, Bool.and_eq_true, isOn_iff, decide_eq_true_eq, Bool.not_eq_true', and_assoc]

theorem State.decideLoss_eq {s : State} {limit : Nat} (h : s.rr.testDue = some limit) :
    s.decideLoss = { s with rr := { s.rr with
      testDue := none
      mark := Vector.ofFn fun c => s.isLost limit c || s.rr.mark[c]
      work := .decided (Vector.ofFn fun c => if s.isLost limit c then some .fault else none)
        (((List.finRange 16).filter fun c => s.isLost limit c).map reportLossOf) none } } := by
  unfold State.decideLoss
  simp only [h]

theorem ReportReceiver.ageAll_age (rr : ReportReceiver) (t : Vector ChannelEntry 16) (c : Chan) :
    (rr.ageAll t).age[c] = if (t[c]).enable then min 255 (rr.age[c] + 1) else rr.age[c] := by
  simp [ReportReceiver.ageAll]

theorem State.takeExpiry_of_idle {s : State} (hdue : s.rr.expiryDue = true) (hwork : s.rr.work = .idle)
    (htest : s.rr.testDue = none) : s.takeExpiry = { s with rr :=
      { s.rr.ageAll s.cm.table with expiryDue := false, testDue := some s.rr.limit } } := by
  unfold State.takeExpiry
  rw [if_pos hdue, State.settleReports_of_idle hwork htest]

theorem State.handEvents_of_handed {s : State} {faults : List Raising} {forward : Option Frame}
    (h : s.rr.work = .handed faults forward) : s.handEvents = s := by
  unfold State.handEvents
  simp only [h]

/-- Work that has been decided is handed before it is finished. -/
theorem State.finishReport_of_decided {s : State} {events : Vector (Option ChannelEvent) 16} {faults : List Raising}
    {forward : Option Frame} (h : s.rr.work = .decided events faults forward) :
    s.finishReport = s.handEvents.finishReport := by
  have hagain : s.handEvents.handEvents = s.handEvents :=
    State.handEvents_of_handed (faults := faults) (forward := forward) (by rw [State.handEvents_eq h])
  conv_lhs => unfold State.finishReport
  conv_rhs => unfold State.finishReport
  rw [hagain]

/-! ### The commands -/

theorem State.agrees.trans {s t u : State} {p : Part} (h : s.agrees t p) (h' : t.agrees u p) : s.agrees u p := by
  cases p <;> exact Eq.trans h' h

theorem State.changesOnly.trans {s t u : State} {ps : List Part} (h : s.changesOnly t ps) (h' : t.changesOnly u ps) :
    s.changesOnly u ps := fun p hp => (h p hp).trans (h' p hp)

theorem State.changesOnly.mono {s t : State} {ps qs : List Part} (h : s.changesOnly t ps) (hsub : ps ⊆ qs) :
    s.changesOnly t qs := fun p hp => h p fun hmem => hp (hsub hmem)

theorem exec_handEvents {s : State} {c : Instr} {events : Vector (Option ChannelEvent) 16} {faults : List Raising}
    {forward : Option Frame} (hheld : s.held = false) (h : s.rr.work = .decided events faults forward)
    (hc : c = if forward.isSome then .reportTaken .hand else .reportLoss .hand) : exec c s = .next s.handEvents := by
  subst hc
  cases forward with
  | none => exact congrArg Host.Outcome.next ((State.live_of_not_held hheld).trans (if_pos (by rw [h]; rfl)))
  | some f => exact congrArg Host.Outcome.next ((State.live_of_not_held hheld).trans (if_pos (by rw [h]; rfl)))

theorem exec_finishReport {s : State} {c : Instr} {faults : List Raising} {forward : Option Frame}
    (hheld : s.held = false) (h : s.rr.work = .handed faults forward)
    (hc : c = if forward.isSome then .reportTaken .finish else .reportLoss .finish) :
    exec c s = .next s.finishReport := by
  subst hc
  cases forward with
  | none => exact congrArg Host.Outcome.next ((State.live_of_not_held hheld).trans (if_pos (by rw [h]; rfl)))
  | some f => exact congrArg Host.Outcome.next ((State.live_of_not_held hheld).trans (if_pos (by rw [h]; rfl)))

theorem exec_reportDecide {s : State} (hheld : s.held = false) :
    exec (.reportTaken .decide) s = .next s.takeReport :=
  congrArg Host.Outcome.next (State.live_of_not_held hheld)

theorem exec_takeExpiry {s : State} (hheld : s.held = false) : exec (.cycleStart .reports) s = .next s.takeExpiry :=
  congrArg Host.Outcome.next (State.live_of_not_held hheld)

theorem exec_lossDecide {s : State} {limit : Nat} (hheld : s.held = false) (htest : s.rr.testDue = some limit)
    (hwork : s.rr.work = .idle) : exec (.reportLoss .decide) s = .next s.decideLoss := by
  refine congrArg Host.Outcome.next ((State.live_of_not_held hheld).trans ((if_pos (by rw [htest]; rfl)).trans ?_))
  rw [State.finishReport_of_idle hwork]

/-- Settles O42: one rule for each part, and the command that makes it. -/
theorem reportParts : Obligations.ReportParts := by
  unfold Obligations.ReportParts
  refine ⟨fun s r rest hheld hhanded hwork htest hlaw => ?decide, fun s hheld hdue hwork htest => ?expiry,
    fun s limit hheld htest hwork => ?loss, fun s c events faults forward hheld hwork hc => ?hand,
    fun s c faults forward hheld hwork hc => ?finish⟩
  case decide =>
    obtain ⟨events, faults, hdecides⟩ := State.takeReport_decides hhanded hwork htest hlaw
    exact ⟨s.takeReport, events, faults, exec_reportDecide hheld, hdecides⟩
  case expiry =>
    have hexec := exec_takeExpiry hheld
    rw [State.takeExpiry_of_idle hdue hwork htest] at hexec
    refine ⟨_, hexec, s.changesOnly_rr _, ?_, fun c => ?_⟩ <;> dsimp only
    · simp only [ReportReceiver.ageAll]
    · rw [ReportReceiver.ageAll_age]
  case loss =>
    have hexec := exec_lossDecide hheld htest hwork
    rw [State.decideLoss_eq htest] at hexec
    exact ⟨_, _, s.isLost limit, hexec, s.changesOnly_rr _, fun c => State.isLost_iff, fun c => by simp,
      _, rfl, rfl⟩
  case hand =>
    exact ⟨_, exec_handEvents hheld hwork hc, State.handEvents_handsEvents hwork⟩
  case finish =>
    obtain ⟨hchanges, hrr, hraises, hpu, hnone, hsome⟩ := State.finishReport_finishes hwork
    refine ⟨_, exec_finishReport hheld hwork hc, hchanges, hrr, hraises.1, hraises.mode_ne_iff, fun hne => ?_,
      hraises.of_mode_eq, hpu, hnone, hsome⟩
    obtain ⟨hmode, hcu, hcm⟩ := hraises.of_mode_ne hne
    exact ⟨hmode, hcu, fun d => by rw [hcm, ChannelManager.enterHalt_chan]⟩

theorem exec_reportTaken {s : State} (hheld : s.held = false) (h : s.rr.handed ≠ []) :
    exec (.reportTaken .whole) s = .next s.takeReport.finishReport :=
  congrArg Host.Outcome.next ((State.live_of_not_held hheld).trans (if_neg h))

/-- Settles O40: the whole is the three parts, one after another, with nothing taken between them. -/
theorem reportTaken : Obligations.ReportTaken := by
  unfold Obligations.ReportTaken
  intro s r rest hheld hhanded hwork htest hlaw
  obtain ⟨events, faults, hchanges₁, hrecorded, hrr₁, hfaults, hnone, hevent⟩ :=
    State.takeReport_decides hhanded hwork htest hlaw
  have hwork₁ := congrArg ReportReceiver.work hrr₁
  obtain ⟨hchanges₂, hrr₂, hcm₂, hchan⟩ := State.handEvents_handsEvents hwork₁
  have hwork₂ := congrArg ReportReceiver.work hrr₂
  obtain ⟨hchanges₃, hrr₃, hraises, hpu, -, hforward⟩ := State.finishReport_finishes hwork₂
  have hexec := exec_reportTaken hheld (by rw [hhanded]; simp)
  rw [State.finishReport_of_decided hwork₁] at hexec
  generalize hd : s.takeReport = d at *
  generalize hh : d.handEvents = h at *
  generalize h.finishReport = t at *
  have hkept₂ : s.changesOnly h [.cm, .rr] := (hchanges₁.mono (by simp)).trans hchanges₂
  have hkept : s.changesOnly t [.cm, .rr, .fmu, .cu, .di, .pu] := (hkept₂.mono (by simp)).trans hchanges₃
  have hcm₁ : d.cm = s.cm := hchanges₁ .cm (by simp)
  have hfmu : h.fmu = s.fmu := hkept₂ .fmu (by simp)
  have hgm : h.gm = s.gm := hkept₂ .gm (by simp)
  have hclock : h.clock = s.clock := hkept₂ .clock (by simp)
  have hpu₂ : h.pu = s.pu := hkept₂ .pu (by simp)
  have htime : h.timeBase = s.timeBase := State.timeBase_congr hclock
  have hlist := hraises.1
  have hmode := hraises.mode_ne_iff
  have hhalted := hraises.of_mode_ne
  have hstays := hraises.of_mode_eq
  rw [hfmu] at hlist hmode hhalted hstays
  rw [htime, hgm] at hlist
  rw [hcm₁] at hchan hcm₂
  rw [hpu₂, hclock] at hforward
  rw [hpu₂] at hpu
  have hafter : ∀ c : Chan, t.cm.chan[c] =
      if t.fmu.mode ≠ s.fmu.mode ∧ (h.cm.chan[c]).isActive = true then .standby else h.cm.chan[c] := by
    intro c
    by_cases hne : t.fmu.mode ≠ s.fmu.mode
    · rw [(hhalted hne).2.2, ChannelManager.enterHalt_chan]
      simp [hne]
    · rw [(hstays (not_not.mp hne)).1]
      simp [hne]
  have htable : t.cm.table = s.cm.table := by
    by_cases hne : t.fmu.mode ≠ s.fmu.mode
    · rw [(hhalted hne).2.2, ChannelManager.enterHalt_table, hcm₂]
    · rw [(hstays (not_not.mp hne)).1, hcm₂]
  refine ⟨_, hexec, hkept, ?rr, htable, ?recorded, fun c hc hmode => ?unheard, fun c hc => ⟨_, hevent c hc, ?heard⟩,
    ⟨_, hfaults, hlist⟩, hmode.trans (and_congr_right' hfaults.trip_iff),
    fun hne => ⟨(hhalted hne).1, fun c => ?halted⟩,
    hpu, hforward r.raw rfl⟩
  case rr =>
    rw [hrr₃, hrr₂, hrr₁]
    simp only [hwork]
  case recorded => rwa [hrr₃, hrr₂]
  case unheard =>
    rw [hafter, (hchan c).1, hnone c hc]
    simp [hmode, afterEvent]
  case heard => rw [hafter, (hchan c).1]
  case halted =>
    rw [hafter]
    cases h.cm.chan[c] <;> simp [hne, ChannelState.isActive]

end Sys2Proof.Machine
end

