-- ==== Sys2Proof/Proofs/CycleFrameParts.lean ====
section
/-! PROOFS. The parts of a cycle start that hand its frames (O39): what each part leaves, and what the two frames carry. -/

namespace Sys2Proof.Machine

/-! ### The commands -/

theorem exec_handSetpointFrame {s : State} (hheld : s.held = false) :
    exec (.cycleStart .setpoint) s = .next s.handSetpointFrame :=
  congrArg Host.Outcome.next (State.live_of_not_held hheld)

theorem exec_lookAt {s : State} (hheld : s.held = false) (o : StatusOwner) :
    exec (.cycleStart (.look o)) s = .next (s.lookAt o) :=
  congrArg Host.Outcome.next (State.live_of_not_held hheld)

theorem exec_handStatusFrame {s : State} (hheld : s.held = false) :
    exec (.cycleStart .status) s = .next s.handStatusFrame :=
  congrArg Host.Outcome.next (State.live_of_not_held hheld)

theorem State.changesOnly_se_pu (s : State) (e : SetpointEngine) (p : PortUnits) :
    s.changesOnly { s with se := e, pu := p } [.se, .pu] := by
  intro q hq
  cases q with
  | se | pu => simp at hq
  | held | clock | rtc | gm | di | cm | rr | fmu | cu | me | pending => rfl

/-! ### The setpoint frame (R106, R107) -/

theorem CycleInputs.setpoint_payload (i : CycleInputs) (cycle : BitVec 16) (cmd : Vector Nat 16) :
    (i.setpoint cycle cmd).payload =
      be 2 cycle.toNat ++ be 2 i.tag.toNat ++ be 2 (if i.mode = .run then i.allowance else 0) ++
        [BitVec.ofNat 8 (16 * i.mode.code.toNat + i.rtc.code.toNat),
         BitVec.ofNat 8 ((List.finRange 16).filter fun c : Chan => decide (i.cm.chan[c] ≠ .off)).length] ++
        ((List.finRange 16).filter fun c : Chan => decide (i.cm.chan[c] ≠ .off)).flatMap fun c =>
          [(i.cm.table[c]).station, (i.order c).code] ++ be 2 cmd[c] := by
  simp only [SetpointContent.payload, CycleInputs.setpoint, CycleInputs.used, List.length_map, List.flatMap_map]

/-- Going from `s` to `t`, the setpoint frame of `w` has been handed to port D, except in LOAD (R107, R110). -/
theorem State.handSetpointFrame_of_closed {s : State} {w : ClosedCycle} (h : s.se.work = .closed w) :
    ∃ d : PortD, s.handSetpointFrame = { s with
      se := { s.se with work := .building w .none }, pu := { s.pu with d := d } } ∧
      (w.inputs.mode = .load → d = s.pu.d) ∧
      (w.inputs.mode ≠ .load → s.pu.d.TakesSetpoint s.clock (s.setpointFrame w) d) := by
  rw [State.handSetpointFrame_eq h]
  split
  · exact ⟨s.pu.d, rfl, fun _ => rfl, fun hne => absurd ‹_› hne⟩
  · exact ⟨s.pu.d.handSetpoint s.clock (s.setpointFrame w), rfl, fun hload => absurd hload ‹_›,
      fun _ => s.pu.d.handSetpoint_takes _ _⟩

/-! ### The owners' fields (R109) -/

/-- One owner's fields are read unless they have been, and no other's. -/
theorem State.readOwner_reads (s : State) (o : StatusOwner) (v : StatusReadings) :
    let x := s.readOwner o v
    (o ≠ .ports → x.links = v.links) ∧ (o ≠ .gridMonitor → x.grid = v.grid) ∧
    (o ≠ .faultModeUnit → x.faults = v.faults) ∧ (o ≠ .demandIntake → x.fallback = v.fallback) ∧
    (o ≠ .reportReceiver → x.measured = v.measured) ∧
    (o = .ports → x.links = some (v.links.getD s.pu.shown)) ∧
    (o = .gridMonitor → x.grid = some (v.grid.getD s.gm.shown)) ∧
    (o = .faultModeUnit → x.faults = some (v.faults.getD s.fmu.shown)) ∧
    (o = .demandIntake → x.fallback = some (v.fallback.getD s.di.fallbackActive)) ∧
    (o = .reportReceiver → x.measured = some (v.measured.getD s.rr.shown)) := by
  cases o <;> simp [State.readOwner]

/-- What has been read stands; what has not been read is what the owner shows. -/
theorem reading_once {α : Type} {p : Prop} {x v : Option α} {shown : α} (hother : ¬p → x = v)
    (hread : p → x = some (v.getD shown)) :
    (∀ y, v = some y → x = some y) ∧ (p → v = none → x = some shown) := by
  refine ⟨fun y hy => ?_, fun hp hv => ?_⟩
  · by_cases hp : p
    · rw [hread hp, hy, Option.getD_some]
    · rw [hother hp, hy]
  · rw [hread hp, hv, Option.getD_none]

theorem ReportReceiver.shown_getElem (r : ReportReceiver) (c : Chan) : r.shown[c] = measuredCurrent r.record[c] := by
  simp [ReportReceiver.shown]

/-! ### The status frame (R108) -/

theorem State.statusContent_blocks (s : State) (w : ClosedCycle) (v : StatusReadings) (c : Chan) :
    ((s.statusContent w v).blocks)[c] = {
      state := w.inputs.cm.chan[c], order := w.inputs.order c, command := w.cmd[c]
      measured := (v.measured.getD s.rr.shown)[c] } := by
  simp [State.statusContent]

/-- Settles O39: one rule for each part; the frames are those of the inputs gathered, whatever has been taken since. -/
theorem cycleFrames : Obligations.CycleFrames := by
  unfold Obligations.CycleFrames
  refine ⟨fun s w i hheld hwork hi => ?setpoint, fun s w v o hheld hwork => ?look, fun s w v i hheld hwork hi => ?status⟩
  case setpoint =>
    subst hi
    obtain ⟨d, heq, hload, htakes⟩ := State.handSetpointFrame_of_closed hwork
    have hexec := exec_handSetpointFrame hheld
    rw [heq] at hexec
    exact ⟨_, _, hexec, s.changesOnly_se_pu _ _, rfl, rfl,
      congrArg (buildFrame _ _ _ _ _) (w.inputs.setpoint_payload s.se.cycle w.cmd), hload, htakes⟩
  case look =>
    have hexec := exec_lookAt hheld o
    rw [State.lookAt_eq o hwork] at hexec
    obtain ⟨links, grid, faults, fallback, measured, links', grid', faults', fallback', measured'⟩ :=
      s.readOwner_reads o v
    obtain ⟨linksStay, linksRead⟩ := reading_once links links'
    obtain ⟨gridStays, gridRead⟩ := reading_once grid grid'
    obtain ⟨faultsStay, faultsRead⟩ := reading_once faults faults'
    obtain ⟨fallbackStays, fallbackRead⟩ := reading_once fallback fallback'
    obtain ⟨measuredStays, measuredRead⟩ := reading_once measured measured'
    refine ⟨s.readOwner o v, hexec, links, grid, faults, fallback, measured, linksStay, gridStays, faultsStay,
      fallbackStays, measuredStays, linksRead, gridRead, faultsRead, fallbackRead,
      fun ho hv => ⟨s.rr.shown, measuredRead ho hv, fun c => ?_⟩⟩
    rw [ReportReceiver.shown_getElem]
    cases s.rr.record[c] <;> rfl
  case status =>
    subst hi
    have hexec := exec_handStatusFrame hheld
    rw [State.handStatusFrame_eq hwork] at hexec
    refine ⟨_, _, s.statusContent w v, hexec, s.changesOnly_se_pu _ _, rfl, rfl, rfl, rfl, rfl, rfl, rfl, rfl, rfl, rfl,
      fun x hx => ?links, fun x hx => ?grid, fun x hx => ?faults, rfl, fun d => ?blocks, fun l hl d => ?read,
      fun hnone d => ?unread, s.pu.u.handStatus_takes _ _⟩
    case links => exact hx.symm
    case grid =>
      subst hx
      exact ⟨rfl, rfl, rfl, rfl⟩
    case faults =>
      subst hx
      exact ⟨rfl, rfl, rfl, rfl, rfl⟩
    case blocks => rw [State.statusContent_blocks]
    case read => rw [State.statusContent_blocks, hl, Option.getD_some]
    case unread =>
      rw [State.statusContent_blocks, hnone, Option.getD_none, ReportReceiver.shown_getElem]
      cases s.rr.record[d] <;> rfl

end Sys2Proof.Machine
end

