-- ==== Sys2Proof/Proofs/GroupFill.lean ====
section
/-! PROOFS. The fill of a group, channel by channel (R100, R101), and the closing of an allocation (O38). -/

namespace Sys2Proof.Machine

/-! ### A fill in any order -/

section
variable {i : CycleInputs}

theorem CycleInputs.fillChannel_cmd (i : CycleInputs) (f : Fill) (c d : Chan) : (i.fillChannel f c).cmd[d] =
    if c = d then fillCommand i.cm.table[c] (i.need c) f.remaining else f.cmd[d] :=
  vector_set_getElem f.cmd c d _

theorem CycleInputs.fillChannel_noted (i : CycleInputs) (f : Fill) (c d : Chan) : (i.fillChannel f c).noted[d] =
    if c = d then decide (f.remaining < i.need c) else f.noted[d] :=
  vector_set_getElem f.noted c d _

theorem CycleInputs.fillChannel_remaining (i : CycleInputs) (f : Fill) (c : Chan) : (i.fillChannel f c).remaining =
    f.remaining - fillCommand i.cm.table[c] (i.need c) f.remaining := rfl

/-- A channel that is not taken keeps its command and its note. -/
theorem CycleInputs.foldl_fillChannel_of_not_mem {l : List Chan} {c : Chan} (h : c ∉ l) (f : Fill) :
    (l.foldl i.fillChannel f).cmd[c] = f.cmd[c] ∧ (l.foldl i.fillChannel f).noted[c] = f.noted[c] := by
  induction l generalizing f with
  | nil => exact ⟨rfl, rfl⟩
  | cons d l ih =>
    obtain ⟨hcd, hl⟩ := List.ne_and_not_mem_of_not_mem_cons h
    obtain ⟨hcmd, hnoted⟩ := ih hl (i.fillChannel f d)
    rw [List.foldl_cons, hcmd, hnoted, CycleInputs.fillChannel_cmd, CycleInputs.fillChannel_noted,
      if_neg (Ne.symm hcd), if_neg (Ne.symm hcd)]
    exact ⟨rfl, rfl⟩

/-- What is left is what was there less the commands given. -/
theorem CycleInputs.foldl_fillChannel_remaining {l : List Chan} (h : l.Nodup) (f : Fill) :
    (l.foldl i.fillChannel f).remaining =
      f.remaining - (l.map fun c => (l.foldl i.fillChannel f).cmd[c]).sum := by
  induction l generalizing f with
  | nil => rfl
  | cons d l ih =>
    obtain ⟨hd, hl⟩ := List.nodup_cons.mp h
    rw [List.foldl_cons, ih hl, List.map_cons, List.sum_cons,
      (CycleInputs.foldl_fillChannel_of_not_mem hd (i.fillChannel f d)).1, CycleInputs.fillChannel_cmd, if_pos rfl,
      CycleInputs.fillChannel_remaining, Nat.sub_sub]

/-- Each channel gets its command of what those before it left, and is noted where that is less than its need. -/
theorem CycleInputs.foldl_fillChannel_at {l₁ l₂ : List Chan} {c : Chan} (h : (l₁ ++ c :: l₂).Nodup) (f : Fill) :
    let r := (l₁ ++ c :: l₂).foldl i.fillChannel f
    let left := f.remaining - (l₁.map fun d => r.cmd[d]).sum
    r.cmd[c] = fillCommand i.cm.table[c] (i.need c) left ∧ r.noted[c] = decide (left < i.need c) := by
  dsimp only
  obtain ⟨hl₁, hcl₂, hdisjoint⟩ := List.nodup_append.mp h
  have hc : c ∉ l₂ := (List.nodup_cons.mp hcl₂).1
  have hbefore : (l₁.map fun d => ((l₁ ++ c :: l₂).foldl i.fillChannel f).cmd[d]) =
      l₁.map fun d => (l₁.foldl i.fillChannel f).cmd[d] := by
    refine List.map_congr_left fun d hd => ?_
    rw [List.foldl_append]
    exact (CycleInputs.foldl_fillChannel_of_not_mem (fun hmem => hdisjoint d hd d hmem rfl) _).1
  rw [hbefore, ← CycleInputs.foldl_fillChannel_remaining hl₁, List.foldl_append, List.foldl_cons]
  obtain ⟨hcmd, hnoted⟩ := CycleInputs.foldl_fillChannel_of_not_mem hc
    (i.fillChannel (l₁.foldl i.fillChannel f) c)
  rw [hcmd, hnoted, CycleInputs.fillChannel_cmd, CycleInputs.fillChannel_noted, if_pos rfl, if_pos rfl]
  exact ⟨rfl, rfl⟩

end

/-! ### The order of the fill (R101) -/

theorem filledBefore_iff {t : Vector ChannelEntry 16} {d c : Chan} : filledBefore t d c = true ↔
    (t[d]).rank < (t[c]).rank ∨ ((t[d]).rank = (t[c]).rank ∧ d < c) := by
  simp [filledBefore]

theorem filledBefore_asymm {t : Vector ChannelEntry 16} {d c : Chan} (h : filledBefore t d c = true) :
    ¬filledBefore t c d = true := by
  rw [filledBefore_iff, Fin.lt_def, Fin.lt_def, Fin.ext_iff] at h ⊢
  omega

theorem CycleInputs.mem_fillOrder {i : CycleInputs} {g : Fin 4} {c : Chan} :
    c ∈ i.fillOrder g ↔ i.takesPart c = true ∧ (i.cm.table[c]).group = g := by
  simp [CycleInputs.fillOrder, and_assoc]

theorem CycleInputs.fillOrder_pairwise (i : CycleInputs) (g : Fin 4) :
    (i.fillOrder g).Pairwise fun d c => filledBefore i.cm.table d c = true := by
  unfold CycleInputs.fillOrder
  refine List.pairwise_flatMap.mpr ⟨fun rank _ => ?_, ?_⟩
  · refine List.Pairwise.imp_of_mem ?_ ((List.pairwise_lt_finRange 16).filter _)
    intro d c hd hc hlt
    simp only [List.mem_filter, Bool.and_eq_true, decide_eq_true_eq] at hd hc
    exact filledBefore_iff.mpr (.inr ⟨hd.2.2.trans hc.2.2.symm, hlt⟩)
  · refine (List.pairwise_lt_finRange 16).imp ?_
    intro r₁ r₂ hlt d hd c hc
    simp only [List.mem_filter, Bool.and_eq_true, decide_eq_true_eq] at hd hc
    exact filledBefore_iff.mpr (.inl (by rw [hd.2.2, hc.2.2]; exact hlt))

theorem CycleInputs.fillOrder_nodup (i : CycleInputs) (g : Fin 4) : (i.fillOrder g).Nodup :=
  (i.fillOrder_pairwise g).imp fun h heq => by
    subst heq
    exact filledBefore_asymm h h

/-- Before channel `c` the fill has taken just those of its group that take part and are filled before it. -/
theorem CycleInputs.fillOrder_before {i : CycleInputs} {g : Fin 4} {l₁ l₂ : List Chan} {c : Chan}
    (h : i.fillOrder g = l₁ ++ c :: l₂) : l₁.Perm ((List.finRange 16).filter fun d =>
      i.takesPart d && decide ((i.cm.table[d]).group = g) && filledBefore i.cm.table d c) := by
  have hnodup := i.fillOrder_nodup g
  have hpairwise := i.fillOrder_pairwise g
  rw [h] at hnodup hpairwise
  refine (List.perm_ext_iff_of_nodup hnodup.of_append_left ((List.nodup_finRange 16).filter _)).mpr fun d => ?_
  have hmem : d ∈ i.fillOrder g ↔ d ∈ l₁ ∨ d = c ∨ d ∈ l₂ := by rw [h]; simp
  rw [CycleInputs.mem_fillOrder] at hmem
  obtain ⟨-, hcl₂, hbefore⟩ := List.pairwise_append.mp hpairwise
  simp only [List.mem_filter, List.mem_finRange, true_and, Bool.and_eq_true, decide_eq_true_eq, hmem]
  constructor
  · exact fun hd => ⟨.inl hd, hbefore d hd c List.mem_cons_self⟩
  · rintro ⟨hd | rfl | hd, hdc⟩
    · exact hd
    · exact absurd hdc (filledBefore_asymm hdc)
    · exact absurd hdc (filledBefore_asymm ((List.pairwise_cons.mp hcl₂).1 d hd))

/-! ### The allocation (R95, R100, R101) -/

theorem CycleInputs.allocate_cmd (i : CycleInputs) (c : Chan) :
    i.allocate.cmd[c] = (i.groupFill (i.cm.table[c]).group).cmd[c] := by
  simp [CycleInputs.allocate]

theorem CycleInputs.allocate_noted (i : CycleInputs) (c : Chan) :
    i.allocate.noted[c] = (i.groupFill (i.cm.table[c]).group).noted[c] := by
  simp [CycleInputs.allocate]

theorem CycleInputs.allocate_of_not_takesPart {i : CycleInputs} {c : Chan} (h : i.takesPart c = false) :
    i.allocate.cmd[c] = 0 ∧ i.allocate.noted[c] = false := by
  have hmem : c ∉ i.fillOrder (i.cm.table[c]).group := by
    rw [CycleInputs.mem_fillOrder, h]
    simp
  rw [CycleInputs.allocate_cmd, CycleInputs.allocate_noted]
  obtain ⟨hcmd, hnoted⟩ := CycleInputs.foldl_fillChannel_of_not_mem hmem
    (Fill.empty (effCapacity i.cm.groups[(i.cm.table[c]).group] i.vLast))
  unfold CycleInputs.groupFill
  rw [hcmd, hnoted]
  simp [Fill.empty]

theorem CycleInputs.allocate_of_takesPart {i : CycleInputs} {c : Chan} (h : i.takesPart c = true) :
    let left := capacityLeft i.cm i.vLast i.takesPart i.allocate.cmd c
    i.allocate.cmd[c] = fillCommand i.cm.table[c] (i.need c) left ∧
    i.allocate.noted[c] = decide (left < i.need c) := by
  have hmem : c ∈ i.fillOrder (i.cm.table[c]).group := CycleInputs.mem_fillOrder.mpr ⟨h, rfl⟩
  obtain ⟨l₁, l₂, hsplit⟩ := List.append_of_mem hmem
  have hnodup := i.fillOrder_nodup (i.cm.table[c]).group
  rw [hsplit] at hnodup
  have hfill := CycleInputs.foldl_fillChannel_at (i := i) hnodup
    (Fill.empty (effCapacity i.cm.groups[(i.cm.table[c]).group] i.vLast))
  rw [← hsplit] at hfill
  have hgroup : ∀ d ∈ l₁, (i.groupFill (i.cm.table[c]).group).cmd[d] = i.allocate.cmd[d] := by
    intro d hd
    have hdg := (CycleInputs.mem_fillOrder (i := i)).mp (hsplit ▸ List.mem_append_left _ hd)
    rw [CycleInputs.allocate_cmd, hdg.2]
  have hleft : (Fill.empty (effCapacity i.cm.groups[(i.cm.table[c]).group] i.vLast)).remaining -
      (l₁.map fun d => (i.groupFill (i.cm.table[c]).group).cmd[d]).sum =
        capacityLeft i.cm i.vLast i.takesPart i.allocate.cmd c := by
    rw [List.map_congr_left hgroup, ((CycleInputs.fillOrder_before hsplit).map _).sum_eq]
    rfl
  dsimp only
  rw [CycleInputs.allocate_cmd i c, CycleInputs.allocate_noted, ← hleft]
  exact hfill

/-! ### Contention (R102) -/

theorem joinContention_getElem (old noted : Vector Bool 16) (c : Chan) :
    (joinContention old noted)[c] = (old[c] || noted[c]) := by
  simp [joinContention]

theorem anyMember_iff {v : Vector Bool 16} : anyMember v = true ↔ ∃ c : Chan, v[c] = true := by
  simp [anyMember]

theorem contentionNotice_iff {old noted : Vector Bool 16} : contentionNotice old noted = true ↔
    (∀ c : Chan, old[c] = false) ∧ ∃ c : Chan, noted[c] = true := by
  rw [contentionNotice, Bool.and_eq_true, Bool.not_eq_true', anyMember_iff, ← Bool.not_eq_true, anyMember_iff,
    not_exists]
  simp only [Bool.not_eq_true]

/-- The Fault and Mode Unit with the contention notice taken, when there is one. -/
def FaultModeUnit.withNotice (f : FaultModeUnit) (notice : Bool) : FaultModeUnit :=
  { f with summary := { f.summary with contention := f.summary.contention || notice } }

theorem FaultModeUnit.withNotice_false (f : FaultModeUnit) : f.withNotice false = f := by
  simp only [FaultModeUnit.withNotice, Bool.or_false]

theorem FaultModeUnit.withNotice_true (f : FaultModeUnit) :
    f.withNotice true = { f with summary := { f.summary with contention := true } } := by
  simp only [FaultModeUnit.withNotice, Bool.or_true]

theorem contentionNotice_of_joins {old noted : Vector Bool 16} (hold : ∀ c : Chan, old[c] = false)
    (hjoined : ∃ c : Chan, (joinContention old noted)[c] = true) : contentionNotice old noted = true := by
  obtain ⟨c, hc⟩ := hjoined
  rw [joinContention_getElem, hold c, Bool.false_or] at hc
  exact contentionNotice_iff.mpr ⟨hold, c, hc⟩

theorem contentionNotice_of_stays {old noted : Vector Bool 16}
    (h : (∃ c : Chan, old[c] = true) ∨ ∀ c : Chan, (joinContention old noted)[c] = false) :
    contentionNotice old noted = false := by
  rw [← Bool.not_eq_true, contentionNotice_iff]
  rintro ⟨hold, c, hc⟩
  rcases h with ⟨d, hd⟩ | hnone
  · simp [hold d] at hd
  · have hjoined := hnone c
    rw [joinContention_getElem, hc, Bool.or_true] at hjoined
    cases hjoined

/-! ### The results (R64, R65) -/

theorem resultState_of_not_isOn {st : ChannelState} (h : ¬(st = .running ∨ st = .parked)) (positive : Bool) :
    resultState st positive = st := by
  cases st with
  | running | parked => simp at h
  | off | standby | starting | faulted => rfl

theorem resultState_of_isOn {st : ChannelState} (h : st = .running ∨ st = .parked) (positive : Bool) :
    resultState st positive = if positive then .running else .parked := by
  rcases h with rfl | rfl <;> rfl

section
variable {m : ChannelManager} {c : Chan}

theorem ChannelManager.resultPark_of_not_isOn (h : ¬(m.chan[c] = .running ∨ m.chan[c] = .parked)) (ms : Nat)
    (positive : Bool) : m.resultPark ms c positive = m.parkTimers[c] := by
  unfold ChannelManager.resultPark
  split <;> simp_all

theorem ChannelManager.resultPark_of_running (h : m.chan[c] = .running) (ms : Nat) (positive : Bool) :
    m.resultPark ms c positive =
      if positive then m.parkTimers[c]
      else if (m.profiles[(m.table[c]).profile]).park = 0 then none
      else some (ms + (m.profiles[(m.table[c]).profile]).park) := by
  unfold ChannelManager.resultPark
  rw [h]
  rfl

theorem ChannelManager.resultPark_of_parked (h : m.chan[c] = .parked) (ms : Nat) (positive : Bool) :
    m.resultPark ms c positive = if positive then none else m.parkTimers[c] := by
  unfold ChannelManager.resultPark
  rw [h]

end

theorem ChannelManager.takeResults_eq (m : ChannelManager) (ms : Nat) (took : Chan → Bool) (cmd : Vector Nat 16) :
    m.takeResults ms took cmd = { m with
      chan := (m.takeResults ms took cmd).chan, parkTimers := (m.takeResults ms took cmd).parkTimers } := by
  simp only [ChannelManager.takeResults]

/-- What the results of an allocation do to channel `c` (R64, R65, R71). -/
theorem ChannelManager.takeResults_channel (m : ChannelManager) (ms : Nat) (took : Chan → Bool) (cmd : Vector Nat 16)
    (c : Chan) :
    let t := m.takeResults ms took cmd
    (took c = false ∨ ¬(m.chan[c] = .running ∨ m.chan[c] = .parked) →
      t.chan[c] = m.chan[c] ∧ t.parkTimers[c] = m.parkTimers[c]) ∧
    (took c = true →
      (m.chan[c] = .running → 0 < cmd[c] → t.chan[c] = .running ∧ t.parkTimers[c] = m.parkTimers[c]) ∧
      (m.chan[c] = .running → cmd[c] = 0 → t.chan[c] = .parked ∧ t.parkTimers[c] =
        if (m.profiles[(m.table[c]).profile]).park = 0 then none
        else some (ms + (m.profiles[(m.table[c]).profile]).park)) ∧
      (m.chan[c] = .parked → 0 < cmd[c] → t.chan[c] = .running ∧ t.parkTimers[c] = none) ∧
      (m.chan[c] = .parked → cmd[c] = 0 → t.chan[c] = .parked ∧ t.parkTimers[c] = m.parkTimers[c])) := by
  dsimp only
  rw [ChannelManager.takeResults_chan, ChannelManager.takeResults_parkTimers]
  refine ⟨?ignored, fun htook => ⟨fun hst hcmd => ?_, fun hst hcmd => ?_, fun hst hcmd => ?_, fun hst hcmd => ?_⟩⟩
  case ignored =>
    rintro (htook | hst)
    · simp [htook]
    · rw [resultState_of_not_isOn hst, ChannelManager.resultPark_of_not_isOn hst, ite_self, ite_self]
      exact ⟨rfl, rfl⟩
  all_goals rw [if_pos htook, if_pos htook]
  all_goals simp only [hcmd, Nat.lt_irrefl, decide_true, decide_false]
  · rw [resultState_of_isOn (.inl hst), ChannelManager.resultPark_of_running hst]
    exact ⟨rfl, rfl⟩
  · rw [resultState_of_isOn (.inl hst), ChannelManager.resultPark_of_running hst]
    exact ⟨rfl, rfl⟩
  · rw [resultState_of_isOn (.inr hst), ChannelManager.resultPark_of_parked hst]
    exact ⟨rfl, rfl⟩
  · rw [resultState_of_isOn (.inr hst), ChannelManager.resultPark_of_parked hst]
    exact ⟨rfl, rfl⟩

/-! ### The closing (R101, R102, R105) -/

theorem CycleInputs.takesPart_iff {i : CycleInputs} {c : Chan} :
    i.takesPart c = true ↔ i.mode = .run ∧ (i.cm.chan[c] = .running ∨ i.cm.chan[c] = .parked) := by
  rw [CycleInputs.takesPart, Bool.and_eq_true, decide_eq_true_eq, isOn_iff]

theorem upRate_eq (p : Profile) (rtc : RtcState) :
    upRate p rtc = if rtc = .sag ∨ rtc = .recover then p.recovery else p.up := by
  cases rtc <;> rfl

theorem CycleInputs.need_eq (i : CycleInputs) (c : Chan) : i.need c = rampedNeed i.cm.table[c] i.used i.prev[c]
    (Machine.target i.cm.table[c] i.used (clampedDemand i.cm.table[c] i.store[c]))
    (max 1 ((if i.rtc = .sag ∨ i.rtc = .recover then (i.cm.profiles[(i.cm.table[c]).profile]).recovery
      else (i.cm.profiles[(i.cm.table[c]).profile]).up) * i.period / 1000))
    (max 1 ((i.cm.profiles[(i.cm.table[c]).profile]).down * i.period / 1000)) := by
  unfold CycleInputs.need CycleInputs.upStep CycleInputs.downStep CycleInputs.target rampStep
  rw [upRate_eq]

theorem State.closeAllocation_eq (s : State) (i : CycleInputs) : s.closeAllocation i = { s with
    se := { s.se with
      last := i.allocate.cmd, contention := joinContention s.se.contention i.allocate.noted
      lastAllowance := i.used, lastSum := commandSum i.allocate.cmd
      work := .closed {
        inputs := i, cmd := i.allocate.cmd, contention := joinContention s.se.contention i.allocate.noted } }
    cm := s.cm.takeResults s.ms i.takesPart i.allocate.cmd
    fmu := s.fmu.withNotice (contentionNotice s.se.contention i.allocate.noted) } := rfl

theorem exec_closeCycle {s : State} {i : CycleInputs} (hheld : s.held = false) (h : s.inputs = some i) :
    exec (.cycleStart .close) s = .next (s.closeAllocation i) :=
  congrArg Host.Outcome.next ((State.live_of_not_held hheld).trans (State.closeCycle_eq h))

theorem State.changesOnly_se_cm_fmu (s : State) (e : SetpointEngine) (m : ChannelManager) (f : FaultModeUnit) :
    s.changesOnly { s with se := e, cm := m, fmu := f } [.se, .cm, .fmu] := by
  intro q hq
  cases q with
  | se | cm | fmu => simp at hq
  | held | clock | rtc | gm | di | rr | cu | me | pu | pending => rfl

/-- Settles O38: the fill gives each channel its command of what the channels before it left. -/
theorem cycleCloses : Obligations.CycleCloses := by
  unfold Obligations.CycleCloses
  intro s d st v m a i hheld hwork hi
  have hinputs : s.inputs = some i := by
    unfold State.inputs
    simp only [hwork, hi]
  have hexec := exec_closeCycle hheld hinputs
  rw [State.closeAllocation_eq] at hexec
  have hmode : i.mode = m := by rw [hi]
  have hcm : i.cm = a := by rw [hi]
  have hv : i.vLast = v := by rw [hi]
  have hused : i.used = if m = .run then st.allowance else 0 := by rw [CycleInputs.used, hi]
  have htakes : ∀ c : Chan, i.takesPart c = true ↔ m = .run ∧ (a.chan[c] = .running ∨ a.chan[c] = .parked) := by
    intro c
    rw [CycleInputs.takesPart_iff, hmode, hcm]
  have hresults := s.cm.takeResults_channel s.ms i.takesPart i.allocate.cmd
  have hsame := s.cm.takeResults_eq s.ms i.takesPart i.allocate.cmd
  refine ⟨_, hexec, s.changesOnly_se_cm_fmu _ _ _, by rw [← hused], rfl, ?fill, fun hold hjoined => ?joins,
    fun hstays => ?stays, hsame, fun c => ⟨fun h => (hresults c).1 ?ignored, fun hrun hon => ?results⟩⟩
  case fill =>
    intro x on up n left hx hon hup hn hleft c
    have honEq : on = i.takesPart := by
      funext c
      rw [Bool.eq_iff_iff, hon, htakes]
    have hneed : n c = i.need c := by
      rw [CycleInputs.need_eq, hn, hup, hused, hx]
      subst hi
      rfl
    have hleftEq : left c = capacityLeft i.cm i.vLast i.takesPart i.allocate.cmd c := by
      rw [hleft, honEq, hcm, hv]
    dsimp only
    rw [joinContention_getElem, honEq, hneed, hleftEq]
    refine ⟨fun hc => ?_, fun hc => ?_⟩
    · obtain ⟨hcmd, hnoted⟩ := CycleInputs.allocate_of_takesPart hc
      rw [hnoted]
      exact ⟨hcmd.trans (by rw [fillCommand, hcm]), rfl⟩
    · obtain ⟨hcmd, hnoted⟩ := CycleInputs.allocate_of_not_takesPart hc
      rw [hnoted, Bool.or_false]
      exact ⟨hcmd, rfl⟩
  case joins =>
    dsimp only at hjoined ⊢
    rw [contentionNotice_of_joins hold hjoined, FaultModeUnit.withNotice_true]
  case stays =>
    dsimp only at hstays ⊢
    rw [contentionNotice_of_stays hstays, FaultModeUnit.withNotice_false]
  case ignored =>
    rw [← htakes, Bool.not_eq_true] at h
    exact h
  case results => exact (hresults c).2 ((htakes c).mpr ⟨hrun, hon⟩)

end Sys2Proof.Machine
end

