-- ==== Sys2Proof/Proofs/ChannelsAtStart.lean ====
section
/-! PROOFS. What a whole cycle start does to each channel (O32): the loss test of a Report Receiver that goes first, the
start examination, and the results of the allocation. -/

namespace Sys2Proof.Machine

/-! ### The loss test (R124) -/

theorem ChannelManager.SameTables.tStart {m m' : ChannelManager} (h : m.SameTables m') : m'.tStart = m.tStart := by
  rw [h]

theorem vector_ofFn_getElem {α : Type} {n : Nat} (f : Fin n → α) (c : Fin n) : (Vector.ofFn f)[c] = f c := by
  simp

theorem afterEvent_fault {st : ChannelState} (h : st = .running ∨ st = .parked) :
    afterEvent st (some .fault) = .faulted := if_pos h

/-- The loss test, made whole, FAULTs and marks the channels that are lost, and leaves the others as they are. -/
theorem State.settleReports_of_due {s : State} {limit : Nat} (hwork : s.rr.work = .idle)
    (htest : s.rr.testDue = some limit) :
    s.settleReports.fmu.mode = s.fmu.mode ∧ s.settleReports.di = s.di ∧ s.cm.SameTables s.settleReports.cm ∧
    ∀ c : Chan, s.settleReports.rr.mark[c] = (s.isLost limit c || s.rr.mark[c]) ∧
      s.settleReports.cm.chan[c] = (if s.isLost limit c then .faulted else s.cm.chan[c]) ∧
      (s.isLost limit c = false → s.settleReports.cm.parkTimers[c] = s.cm.parkTimers[c]) := by
  have heq := State.decideLoss_eq htest
  have hrr := congrArg State.rr heq
  have hcm := congrArg State.cm heq
  have hfmu := congrArg State.fmu heq
  have hdi := congrArg State.di heq
  have hwork₁ := congrArg ReportReceiver.work hrr
  unfold State.settleReports
  rw [State.finishReport_of_idle hwork, State.finishReport_of_decided hwork₁]
  obtain ⟨hchanges, hrr₂, hsame, hchan⟩ := State.handEvents_handsEvents hwork₁
  obtain ⟨-, hrr₃, hraises, -⟩ := State.finishReport_finishes (congrArg ReportReceiver.work hrr₂)
  have hfmu₂ : s.decideLoss.handEvents.fmu = s.fmu := Eq.trans (hchanges .fmu (by simp)) hfmu
  have hdi₂ : s.decideLoss.handEvents.di = s.di := Eq.trans (hchanges .di (by simp)) hdi
  have hmode : s.decideLoss.handEvents.finishReport.fmu.mode = s.decideLoss.handEvents.fmu.mode := by
    by_contra hne
    obtain ⟨-, x, hx, htrip⟩ := hraises.mode_ne_iff.mp hne
    obtain ⟨c, -, rfl⟩ := List.mem_map.mp hx
    cases htrip
  obtain ⟨hcm₃, -, hdi₃⟩ := hraises.of_mode_eq hmode
  rw [hmode, hfmu₂, hdi₃, hdi₂, hcm₃, hrr₃, hrr₂, hrr]
  have hcm₁ : s.decideLoss.cm = s.cm := hcm
  rw [hcm₁] at hsame hchan
  refine ⟨rfl, rfl, hsame, fun c => ⟨by simp, ?_⟩⟩
  obtain ⟨hst, hkept, -⟩ := hchan c
  rw [vector_ofFn_getElem] at hst
  cases hlost : s.isLost limit c with
  | false =>
    rw [hlost] at hst
    exact ⟨hst, fun _ => (hkept hst).2⟩
  | true =>
    obtain ⟨-, hon, -⟩ := State.isLost_iff.mp hlost
    rw [hlost, if_pos rfl, afterEvent_fault hon] at hst
    exact ⟨hst, fun h => by cases h⟩

/-- Channel `c` is found lost at this cycle start by a Report Receiver that goes first (R124). -/
def State.LostAtStart (s : State) (reportsFirst : Bool) (c : Chan) : Prop :=
  reportsFirst = true ∧ (s.cm.table[c]).enable = true ∧ (s.cm.chan[c]).isOn = true ∧
    s.rr.limit < min 255 (s.rr.age[c] + 1) ∧ s.rr.mark[c] = false

/-- Going from `s` to `v`, a cycle start has come to the Setpoint Engine's work. -/
def State.Begins (s : State) (reportsFirst : Bool) (v : State) : Prop :=
  v.se.work = .gathering .none ∧ v.fmu.mode = s.fmu.mode ∧ v.rtc.state = s.rtc.state ∧ v.di = s.di ∧
  s.cm.SameTables v.cm ∧ ∀ c : Chan,
    (s.LostAtStart reportsFirst c → v.cm.chan[c] = .faulted ∧ v.rr.mark[c] = true) ∧
    (¬s.LostAtStart reportsFirst c → v.cm.chan[c] = s.cm.chan[c] ∧ v.cm.parkTimers[c] = s.cm.parkTimers[c] ∧
      v.rr.mark[c] = s.rr.mark[c])

theorem State.beginCycle_begins (s : State) : s.Begins false s.beginCycle :=
  ⟨rfl, rfl, rfl, rfl, rfl, fun _ => ⟨(fun h => nomatch h.1), fun _ => ⟨rfl, rfl, rfl⟩⟩⟩

theorem State.takeExpiry_beginCycle {s : State} (h : s.settled) : s.beginCycle.takeExpiry = { s.beginCycle with rr :=
    { s.rr.ageAll s.cm.table with expiryDue := false, testDue := some s.rr.limit } } := by
  obtain ⟨-, hwork, htest, -⟩ := h
  exact State.takeExpiry_of_idle rfl hwork htest

theorem State.cycleBegun_begins {s : State} (h : s.settled) (b : Bool) : s.Begins b (s.cycleBegun b) := by
  cases b with
  | false => exact s.beginCycle_begins
  | true =>
    obtain ⟨u, hu⟩ : ∃ u, u = s.beginCycle.takeExpiry := ⟨_, rfl⟩
    have hset := State.takeExpiry_beginCycle h
    rw [← hu] at hset
    have hwork : u.rr.work = .idle := by rw [hset]; simpa only [ReportReceiver.ageAll] using h.2.1
    have htest : u.rr.testDue = some s.rr.limit := by rw [hset]
    have hcm : u.cm = s.cm := by rw [hset]; rfl
    have hmark : u.rr.mark = s.rr.mark := by rw [hset]; simp only [ReportReceiver.ageAll]
    have hlost : ∀ c : Chan, u.isLost s.rr.limit c = true ↔ s.LostAtStart true c := by
      intro c
      rw [State.isLost_iff, hcm, hmark, State.LostAtStart, isOn_iff, hset]
      dsimp only
      rw [ReportReceiver.ageAll_age]
      by_cases henable : (s.cm.table[c]).enable = true
      · rw [if_pos henable, and_iff_right rfl]
      · exact iff_of_false (fun hl => henable hl.1) (fun hl => henable hl.2.1)
    obtain ⟨hmode, hdi, hsame, hchan⟩ := State.settleReports_of_due hwork htest
    have hbegun : s.cycleBegun true = u.settleReports := by rw [hu]; rfl
    rw [hbegun]
    rw [hcm] at hsame hchan
    rw [hmark] at hchan
    refine ⟨?_, ?_, ?_, ?_, hsame, fun c => ?_⟩
    · rw [State.settleReports_se, hset]; rfl
    · rw [hmode, hset]; rfl
    · rw [State.settleReports_rtc, hset]; rfl
    · rw [hdi, hset]; rfl
    · obtain ⟨hmark', hst, hpark⟩ := hchan c
      rw [← hlost, hmark', hst, Bool.not_eq_true]
      exact ⟨fun hl => by rw [hl]; exact ⟨rfl, rfl⟩, fun hl => ⟨by rw [hl]; rfl, hpark hl, by rw [hl]; rfl⟩⟩

/-! ### The Setpoint Engine's work, whole (R93) -/

/-- The Channel Manager after the start examination of a cycle start whose readings fall together (R59, R93). -/
def State.examined (s : State) : ChannelManager := s.cm.examine s.fmu.mode s.rtc.state s.di.store s.ms

/-- Going from `s` to `t`, the Setpoint Engine has done its work for a cycle start over the inputs `i`. -/
def State.Cycles (s : State) (i : CycleInputs) (t : State) : Prop :=
  i.mode = s.fmu.mode ∧ i.cm = s.examined.answer ∧ t.cm = s.examined.takeResults s.ms i.takesPart i.allocate.cmd ∧
  t.se.last = i.allocate.cmd ∧ t.rr.mark = s.rr.mark ∧ t.clock = s.clock

theorem State.gathered_of_fresh {s : State} (h : s.se.work = .gathering .none) :
    ∃ g : Gathering, s.readVoltage.requestChannels = State.atWork (.gathering g) { s with
      di := { s.di with appliedTag := s.di.pendingTag }, cm := s.examined } ∧
      ∃ d st v, g = { demands := some d, standing := some st, vLast := some v
                      answer := some (s.fmu.mode, s.examined.answer) } := by
  rw [State.readVoltage_eq h rfl]
  unfold State.requestChannels
  rw [State.readDemands_eq (g := { Gathering.none with vLast := some s.gm.vLast }) rfl rfl]
  rw [State.readStanding_eq (g := { Gathering.none with
    demands := some { store := s.di.store, tag := s.di.pendingTag }, vLast := some s.gm.vLast }) rfl rfl]
  exact ⟨_, rfl, _, _, _, rfl⟩

theorem State.closeCycle_of_gathered {s : State} {i : CycleInputs} (h : s.readVoltage.requestChannels.inputs = some i) :
    s.closeCycle = s.readVoltage.requestChannels.closeAllocation i := by
  unfold State.closeCycle
  simp only [h]

/-- The frames are handed after the closing. -/
theorem State.handStatusFrame_of_closeCycle {s : State} {w : ClosedCycle} (h : s.closeCycle.se.work = .closed w) :
    s.handStatusFrame = s.closeCycle.handStatusFrame := by
  have hagain : s.closeCycle.closeCycle = s.closeCycle := State.closeCycle_of_not_gathering (by simp [h])
  have hset : s.closeCycle.handSetpointFrame = s.handSetpointFrame := by
    unfold State.handSetpointFrame
    rw [hagain]
  unfold State.handStatusFrame
  rw [hset]

/-- The frames touch the ports alone. -/
theorem State.handStatusFrame_of_closed {s : State} {w : ClosedCycle} (h : s.se.work = .closed w) :
    ∃ p : PortUnits, s.handStatusFrame = { s with se := { s.se with work := .idle }, pu := p } := by
  obtain ⟨d, heq, -⟩ := State.handSetpointFrame_of_closed h
  unfold State.handStatusFrame
  rw [heq]
  exact ⟨_, rfl⟩

theorem State.handStatusFrame_cycles {s : State} (h : s.se.work = .gathering .none) :
    ∃ i, s.Cycles i s.handStatusFrame ∧ s.handStatusFrame.rr = s.rr := by
  obtain ⟨g, hg, d, st, v, hgathered⟩ := State.gathered_of_fresh h
  obtain ⟨i, hi, hmode, hcm⟩ : ∃ i, s.readVoltage.requestChannels.inputs = some i ∧ i.mode = s.fmu.mode ∧
      i.cm = s.examined.answer := by
    rw [hg, hgathered]
    exact ⟨_, rfl, rfl, rfl⟩
  have hclose := State.closeCycle_of_gathered hi
  obtain ⟨p, hframes⟩ := State.handStatusFrame_of_closed (s := s.closeCycle)
    (by rw [hclose, State.closeAllocation_work])
  rw [State.handStatusFrame_of_closeCycle (by rw [hclose, State.closeAllocation_work]), hframes, hclose, hg,
    State.closeAllocation_eq]
  exact ⟨i, ⟨hmode, hcm, rfl, rfl, rfl, rfl⟩, rfl⟩

/-- A whole cycle start of a settled part: the Setpoint Engine's work over the state at which it begins. -/
theorem exec_cycleStart_whole {s : State} (hheld : s.held = false) (h : s.settled) (b : Bool) :
    ∃ t i, exec (.cycleStart (.whole b)) s = .next t ∧ (s.cycleBegun b).Cycles i t := by
  have hbegins := State.cycleBegun_begins h b
  obtain ⟨i, hcycles, hrr⟩ := State.handStatusFrame_cycles hbegins.1
  cases b with
  | true =>
    refine ⟨_, i, congrArg Host.Outcome.next ((State.live_of_not_held hheld).trans ?_), hcycles⟩
    exact congrArg (fun x : State => x.beginCycle.takeExpiry.settleReports.handStatusFrame) (State.settle_of_settled h)
  | false =>
    obtain ⟨-, hwork, htest, -⟩ := id h
    obtain ⟨hmode, hcm, hresults, hlast, hmark, hclock⟩ := hcycles
    have hexpiry := State.takeExpiry_of_idle (s := (s.cycleBegun false).handStatusFrame) (by rw [hrr]; rfl)
      (by rw [hrr]; exact hwork) (by rw [hrr]; exact htest)
    refine ⟨(s.cycleBegun false).handStatusFrame.takeExpiry, i, congrArg Host.Outcome.next
      ((State.live_of_not_held hheld).trans
        (congrArg (fun x : State => x.beginCycle.handStatusFrame.takeExpiry) (State.settle_of_settled h))), ?_⟩
    rw [hexpiry]
    exact ⟨hmode, hcm, hresults, hlast, by simpa only [ReportReceiver.ageAll] using hmark, hclock⟩

section
variable {s : State} {c : Chan}

theorem State.examined_tables (s : State) : s.examined.table = s.cm.table ∧ s.examined.profiles = s.cm.profiles ∧
    s.examined.parkTimers = s.cm.parkTimers := by
  unfold State.examined ChannelManager.examine
  exact ⟨rfl, rfl, rfl⟩

theorem State.examined_of_starts (hst : s.cm.chan[c] = .standby)
    (h : s.fmu.mode = .run ∧ s.rtc.state = .normal ∧ 0 < s.di.store[c]) :
    s.examined.chan[c] = .starting ∧ s.examined.startTimers[c] = some (s.ms + s.cm.tStart) := by
  have hstarts := (ChannelManager.starts_iff ..).mpr ⟨hst, h⟩
  rw [State.examined, ChannelManager.examine_chan, ChannelManager.examine_startTimers, if_pos hstarts, if_pos hstarts]
  exact ⟨rfl, rfl⟩

theorem State.examined_of_not_starts
    (h : ¬(s.cm.chan[c] = .standby ∧ s.fmu.mode = .run ∧ s.rtc.state = .normal ∧ 0 < s.di.store[c])) :
    s.examined.chan[c] = s.cm.chan[c] := by
  rw [State.examined, ChannelManager.examine_chan, if_neg (mt (ChannelManager.starts_iff ..).mp h)]

end

/-- The results of a cycle's work act on the channels that the start examination left RUNNING or PARKED in RUN. -/
theorem State.Cycles.takesPart_iff {v t : State} {i : CycleInputs} (h : v.Cycles i t) (c : Chan) :
    i.takesPart c = true ↔ v.fmu.mode = .run ∧ (v.examined.chan[c] = .running ∨ v.examined.chan[c] = .parked) := by
  obtain ⟨hmode, hanswer, -⟩ := h
  rw [CycleInputs.takesPart_iff, hmode, hanswer]
  rfl

/-- A channel that takes no part stands as the start examination left it, and is commanded 0. -/
theorem State.Cycles.of_not_takesPart {v t : State} {i : CycleInputs} (h : v.Cycles i t) {c : Chan}
    (hc : ¬i.takesPart c = true) : t.cm.chan[c] = v.examined.chan[c] ∧ t.se.last[c] = 0 := by
  obtain ⟨-, -, hcm, hlast, -⟩ := h
  rw [hcm, hlast]
  rw [Bool.not_eq_true] at hc
  exact ⟨((v.examined.takeResults_channel v.ms i.takesPart i.allocate.cmd c).1 (.inl hc)).1,
    (CycleInputs.allocate_of_not_takesPart hc).1⟩

/-- What a cycle start over `v`, which has come from `s`, does to a channel that is not lost or is. -/
theorem State.Cycles.channel {v t : State} {i : CycleInputs} (h : v.Cycles i t) (c : Chan) :
    (v.cm.chan[c] ≠ .standby → ¬(v.fmu.mode = .run ∧ (v.cm.chan[c]).isOn = true) →
      t.cm.chan[c] = v.cm.chan[c] ∧ t.se.last[c] = 0) ∧
    (v.cm.chan[c] = .standby →
      (v.fmu.mode = .run ∧ v.rtc.state = .normal ∧ 0 < v.di.store[c] →
        t.cm.chan[c] = .starting ∧ t.cm.startTimers[c] = some (t.ms + v.cm.tStart) ∧ t.se.last[c] = 0) ∧
      (¬(v.fmu.mode = .run ∧ v.rtc.state = .normal ∧ 0 < v.di.store[c]) → t.cm.chan[c] = .standby)) ∧
    (v.fmu.mode = .run → (v.cm.chan[c]).isOn = true →
      (0 < t.se.last[c] → t.cm.chan[c] = .running) ∧ (t.se.last[c] = 0 → t.cm.chan[c] = .parked) ∧
      (v.cm.chan[c] = .running → t.se.last[c] = 0 → t.cm.parkTimers[c] =
        if (v.cm.profiles[(v.cm.table[c]).profile]).park = 0 then none
        else some (t.ms + (v.cm.profiles[(v.cm.table[c]).profile]).park)) ∧
      (v.cm.chan[c] = .parked → 0 < t.se.last[c] → t.cm.parkTimers[c] = none) ∧
      (v.cm.chan[c] = .parked → t.se.last[c] = 0 → t.cm.parkTimers[c] = v.cm.parkTimers[c])) := by
  have htakes := h.takesPart_iff c
  refine ⟨fun hst hidle => ?idle, fun hst => ⟨fun hstarts => ?starts, fun hstays => ?stays⟩, fun hrun hon => ?results⟩
  case idle =>
    rw [State.examined_of_not_starts fun hs => hst hs.1, ← isOn_iff] at htakes
    rw [← State.examined_of_not_starts (s := v) fun hs => hst hs.1]
    exact h.of_not_takesPart (mt htakes.mp hidle)
  case starts =>
    obtain ⟨hchan, htimer⟩ := State.examined_of_starts hst hstarts
    obtain ⟨hchan', hlast⟩ := h.of_not_takesPart (c := c) (by rw [htakes, hchan]; simp)
    obtain ⟨-, -, hcm, -, -, hclock⟩ := h
    have hms : t.ms = v.ms := by unfold State.ms; rw [hclock]
    exact ⟨hchan'.trans hchan, by rw [hcm, ChannelManager.takeResults_startTimers, htimer, hms], hlast⟩
  case stays =>
    have hchan := State.examined_of_not_starts (s := v) (c := c) fun hs => hstays hs.2
    rw [hst] at hchan
    exact (h.of_not_takesPart (c := c) (by rw [htakes, hchan]; simp)).1.trans hchan
  case results =>
    have hchan := State.examined_of_not_starts (s := v) (c := c) fun hs => by rw [hs.1] at hon; cases hon
    rw [isOn_iff] at hon
    obtain ⟨htable, hprofiles, hparks⟩ := v.examined_tables
    obtain ⟨-, -, hcm, hlast, -, hclock⟩ := h
    have hms : t.ms = v.ms := by unfold State.ms; rw [hclock]
    have hresults := (v.examined.takeResults_channel v.ms i.takesPart i.allocate.cmd c).2
      (htakes.mpr ⟨hrun, by rwa [hchan]⟩)
    rw [← hcm, ← hlast, hchan, hparks, ← hms] at hresults
    simp only [htable, hprofiles] at hresults
    obtain ⟨hrr, hrp, hpr, hpp⟩ := hresults
    refine ⟨fun hpos => ?_, fun hzero => ?_, fun hst hzero => (hrp hst hzero).2, fun hst hpos => (hpr hst hpos).2,
      fun hst hzero => (hpp hst hzero).2⟩
    · rcases hon with hst | hst
      · exact (hrr hst hpos).1
      · exact (hpr hst hpos).1
    · rcases hon with hst | hst
      · exact (hrp hst hzero).1
      · exact (hpp hst hzero).1

/-- Settles O32: a lost channel is FAULTED before the Channel Manager's request, and every other channel meets the start
examination and the results as it stood. -/
theorem channelsAtCycleStart : Obligations.ChannelsAtCycleStart := by
  unfold Obligations.ChannelsAtCycleStart
  intro s b hheld hsettled
  obtain ⟨t, i, hexec, hcycles⟩ := exec_cycleStart_whole hheld hsettled b
  obtain ⟨-, hmode, hrtc, hdi, hsame, hbegins⟩ := State.cycleBegun_begins hsettled b
  obtain ⟨htable, -, hprofiles⟩ := hsame.table
  have htStart := hsame.tStart
  refine ⟨t, hexec, fun c lost hlost => ?_⟩
  have hiff : lost ↔ s.LostAtStart b c := hlost
  obtain ⟨hgone, hkept⟩ := hbegins c
  obtain ⟨hidle, hstandby, hon⟩ := hcycles.channel c
  obtain ⟨-, -, -, -, hmark, -⟩ := hcycles
  rw [hmark, hiff]
  simp only [hmode, hrtc, hdi, htable, hprofiles, htStart] at hidle hstandby hon
  have hfound : ¬(s.cm.chan[c]).isOn = true → (s.cycleBegun b).cm.chan[c] = s.cm.chan[c] := fun hoff =>
    (hkept fun h => hoff h.2.2.1).1
  refine ⟨fun h => ?lost, fun h => (hkept h).2.2, fun hst => ?standby, fun hst => ?idle, fun h hrun hchan => ?on,
    fun h hrun => ?mode⟩
  case lost =>
    obtain ⟨hst, hmarked⟩ := hgone h
    rw [hst] at hidle
    obtain ⟨hchan, hlast⟩ := hidle (by simp) (by simp [ChannelState.isOn])
    exact ⟨hchan, hlast, hmarked⟩
  case standby =>
    exact hstandby ((hfound (by rw [hst]; simp [ChannelState.isOn])).trans hst)
  case idle =>
    have hoff : ¬(s.cm.chan[c]).isOn = true := by
      rcases hst with hst | hst | hst <;> rw [hst] <;> simp [ChannelState.isOn]
    rw [hfound hoff] at hidle
    exact (hidle (by rcases hst with hst | hst | hst <;> rw [hst] <;> simp) (fun h => hoff h.2)).1
  case on =>
    obtain ⟨hst, hpark, -⟩ := hkept h
    rw [hst, hpark] at hon
    exact hon hrun hchan
  case mode =>
    have hst := (hkept h).1
    rw [hst] at hidle hstandby
    by_cases hwait : s.cm.chan[c] = .standby
    · exact ((hstandby hwait).2 fun hs => hrun hs.1).trans hwait.symm
    · exact (hidle hwait fun hs => hrun hs.1).1

end Sys2Proof.Machine
end

