-- ==== Sys2Proof/Proofs/DemandIntake.lean ====
section
/-! PROOFS. An accepted dispatch frame and dispatch silence (O24): what one entry does, what the entries of a frame do
together, and the expiry of the dispatch-silence timer. -/

namespace Sys2Proof.Machine

/-! ### What one entry does (R79) -/

/-- The demand store after the entry: an enabled channel takes its demand, clamped at R (R79). -/
def DispatchEntry.storedIn (e : DispatchEntry) (t : Vector ChannelEntry 16) (store : Vector Nat 16) : Vector Nat 16 :=
  Vector.ofFn fun c => if e.channel = c.val ∧ (t[c]).enable = true then min e.demand (t[c]).rated else store[c]

/-- The entry names a disabled channel, so it is ignored and counted (R79). -/
def DispatchEntry.isIgnored (e : DispatchEntry) (t : Vector ChannelEntry 16) : Bool :=
  decide (∃ c : Chan, e.channel = c.val ∧ (t[c]).enable = false)

/-- The entry names channel `c`, which is enabled, with a demand above its rated current (R79). -/
def DispatchEntry.exceeds (e : DispatchEntry) (t : Vector ChannelEntry 16) (c : Chan) : Bool :=
  c.val == e.channel && (t[c]).enable && decide ((t[c]).rated < e.demand)

/-- The channel at which the entry's demand is clamped, or none (R79). -/
def DispatchEntry.clampedChannel (e : DispatchEntry) (t : Vector ChannelEntry 16) : Option Chan :=
  (List.finRange 16).find? (e.exceeds t)

/-- The Fault and Mode Unit after the entry: DEMAND CLAMPED is recorded where the demand was clamped (R79). -/
def FaultModeUnit.noteClamp (f : FaultModeUnit) (t : Vector ChannelEntry 16) (now : BitVec 32)
    (q : Option (BitVec 16)) (e : DispatchEntry) : FaultModeUnit :=
  match e.clampedChannel t with
  | none => f
  | some c => f.record { code := .demandClamped, cls := .note, subject := .channel c } now q

section
variable {e : DispatchEntry} {c : Chan}

theorem DispatchEntry.storedIn_getElem (e : DispatchEntry) (t : Vector ChannelEntry 16) (store : Vector Nat 16)
    (c : Chan) : (e.storedIn t store)[c] =
      if e.channel = c.val ∧ (t[c]).enable = true then min e.demand (t[c]).rated else store[c] :=
  vector_ofFn_getElem _ c

theorem DispatchEntry.storedIn_of_channel (hc : e.channel = c.val) (t : Vector ChannelEntry 16)
    (store : Vector Nat 16) : e.storedIn t store =
      if (t[c]).enable then store.set c (min e.demand (t[c]).rated) else store := by
  have hset := vector_set_getElem store c
  refine Vector.ext fun j hj => (e.storedIn_getElem t store ⟨j, hj⟩).trans ?_
  by_cases hcj : c = ⟨j, hj⟩
  · subst hcj
    by_cases henable : (t[(⟨j, hj⟩ : Chan)]).enable = true
    · rw [if_pos ⟨hc, henable⟩, if_pos henable]
      exact ((hset ⟨j, hj⟩ _).trans (if_pos rfl)).symm
    · rw [if_neg fun h => henable h.2, if_neg henable]
      rfl
  · rw [if_neg fun h => hcj (Fin.ext (hc.symm.trans h.1))]
    split
    · exact ((hset ⟨j, hj⟩ _).trans (if_neg hcj)).symm
    · rfl

theorem DispatchEntry.isIgnored_of_channel (hc : e.channel = c.val) (t : Vector ChannelEntry 16) :
    e.isIgnored t = !(t[c]).enable := by
  rw [DispatchEntry.isIgnored, Bool.eq_iff_iff, decide_eq_true_eq, Bool.not_eq_true']
  refine ⟨?_, fun h => ⟨c, hc, h⟩⟩
  rintro ⟨d, hd, h⟩
  obtain rfl : c = d := Fin.ext (hc.symm.trans hd)
  exact h

theorem DispatchEntry.exceeds_iff (hc : e.channel = c.val) (t : Vector ChannelEntry 16) (d : Chan) :
    e.exceeds t d = true ↔ d = c ∧ (t[d]).enable = true ∧ (t[d]).rated < e.demand := by
  rw [DispatchEntry.exceeds, Bool.and_eq_true, Bool.and_eq_true, beq_iff_eq, decide_eq_true_eq, hc, ← Fin.ext_iff,
    and_assoc]

theorem DispatchEntry.clampedChannel_of_channel (hc : e.channel = c.val) (t : Vector ChannelEntry 16) :
    e.clampedChannel t = if (t[c]).enable = true ∧ (t[c]).rated < e.demand then some c else none := by
  have hiff := DispatchEntry.exceeds_iff hc t
  unfold DispatchEntry.clampedChannel
  split
  · rename_i h
    cases hfind : (List.finRange 16).find? (e.exceeds t) with
    | none => exact absurd ((hiff c).mpr ⟨rfl, h⟩) (List.find?_eq_none.mp hfind c (List.mem_finRange c))
    | some d => rw [((hiff d).mp (List.find?_some hfind)).1]
  · rename_i h
    refine List.find?_eq_none.mpr fun d _ hd => h ?_
    obtain ⟨rfl, hclamped⟩ := (hiff d).mp hd
    exact hclamped

theorem FaultModeUnit.noteClamp_of_channel (hc : e.channel = c.val) (f : FaultModeUnit) (t : Vector ChannelEntry 16)
    (now : BitVec 32) (q : Option (BitVec 16)) : f.noteClamp t now q e =
      if (t[c]).enable = true ∧ (t[c]).rated < e.demand then
        f.record { code := .demandClamped, cls := .note, subject := .channel c } now q
      else f := by
  unfold FaultModeUnit.noteClamp
  rw [DispatchEntry.clampedChannel_of_channel hc]
  by_cases h : (t[c]).enable = true ∧ (t[c]).rated < e.demand
  · rw [if_pos h, if_pos h]
  · rw [if_neg h, if_neg h]

end

@[simp] theorem FaultModeUnit.noteClamp_mode (f : FaultModeUnit) (t : Vector ChannelEntry 16) (now : BitVec 32)
    (q : Option (BitVec 16)) (e : DispatchEntry) : (f.noteClamp t now q e).mode = f.mode := by
  unfold FaultModeUnit.noteClamp
  split
  · rfl
  · exact f.record_mode ..

/-- One entry, whichever of the three things R79 does with it: a NOTE never enters HALT (R136). -/
theorem State.storeEntry_eq (s : State) {e : DispatchEntry} (h : e.channel ≤ 15) : s.storeEntry e = { s with
    di := { s.di with
      store := e.storedIn s.cm.table s.di.store
      ignored := s.di.ignored + BitVec.ofNat 32 (if e.isIgnored s.cm.table then 1 else 0) }
    fmu := s.fmu.noteClamp s.cm.table s.timeBase s.gm.seqState e } := by
  obtain ⟨c, hc⟩ : ∃ c : Chan, e.channel = c.val := ⟨⟨e.channel, Nat.lt_succ_of_le h⟩, rfl⟩
  have hindex : index? 16 e.channel = some c := by rw [hc]; exact index?_of_lt c.isLt
  rw [DispatchEntry.storedIn_of_channel hc, DispatchEntry.isIgnored_of_channel hc,
    FaultModeUnit.noteClamp_of_channel hc]
  unfold State.storeEntry
  simp only [hindex]
  generalize s.cm.table[c] = entry
  cases henable : entry.enable with
  | false => simp
  | true =>
    by_cases hdemand : e.demand ≤ entry.rated
    · simp [hdemand, Nat.not_lt.mpr hdemand]
    · have hclamped := Nat.lt_of_not_le hdemand
      rw [if_neg (by simp), if_neg hdemand, State.raise_eq_record (by simp)]
      simp [hclamped, Nat.min_eq_right hclamped.le, State.timeBase, State.ms]

/-! ### The entries of a frame together (R78, R79) -/

/-- The demand store after the entries `l`. -/
def storedAll (t : Vector ChannelEntry 16) (l : List DispatchEntry) (store : Vector Nat 16) : Vector Nat 16 :=
  l.foldl (fun store e => e.storedIn t store) store

/-- The Fault and Mode Unit after the entries `l`. -/
def FaultModeUnit.noteClamps (f : FaultModeUnit) (t : Vector ChannelEntry 16) (now : BitVec 32)
    (q : Option (BitVec 16)) (l : List DispatchEntry) : FaultModeUnit :=
  l.foldl (fun f e => f.noteClamp t now q e) f

theorem FaultModeUnit.noteClamps_mode (f : FaultModeUnit) (t : Vector ChannelEntry 16) (now : BitVec 32)
    (q : Option (BitVec 16)) (l : List DispatchEntry) : (f.noteClamps t now q l).mode = f.mode := by
  unfold FaultModeUnit.noteClamps
  induction l generalizing f with
  | nil => rfl
  | cons e l ih => exact (ih _).trans (f.noteClamp_mode ..)

theorem State.storeEntries_eq (s : State) {l : List DispatchEntry} (h : ∀ e ∈ l, e.channel ≤ 15) :
    l.foldl State.storeEntry s = { s with
      di := { s.di with
        store := storedAll s.cm.table l s.di.store
        ignored := s.di.ignored + BitVec.ofNat 32 (l.countP fun e => e.isIgnored s.cm.table) }
      fmu := s.fmu.noteClamps s.cm.table s.timeBase s.gm.seqState l } := by
  induction l generalizing s with
  | nil => simp [storedAll, FaultModeUnit.noteClamps]
  | cons e l ih =>
    obtain ⟨hchannel, hrest⟩ := List.forall_mem_cons.mp h
    rw [List.foldl_cons, ih _ hrest, State.storeEntry_eq s hchannel, List.countP_cons,
      Nat.add_comm (List.countP _ l), BitVec.ofNat_add, ← BitVec.add_assoc]
    rfl

/-- A channel that no entry names keeps its demand. -/
theorem storedAll_of_not_named {t : Vector ChannelEntry 16} {l : List DispatchEntry} {c : Chan}
    (h : ∀ e ∈ l, e.channel ≠ c.val) (store : Vector Nat 16) : (storedAll t l store)[c] = store[c] := by
  induction l generalizing store with
  | nil => rfl
  | cons e l ih =>
    obtain ⟨hother, hrest⟩ := List.forall_mem_cons.mp h
    have hkept := e.storedIn_getElem t store c
    rw [if_neg fun hc => hother hc.1] at hkept
    exact (ih hrest _).trans hkept

/-- A channel is named by one entry at most (R78), and that entry decides its demand. -/
theorem storedAll_of_named {t : Vector ChannelEntry 16} {l : List DispatchEntry} {e : DispatchEntry} {c : Chan}
    (hnodup : (l.map DispatchEntry.channel).Nodup) (hmem : e ∈ l) (hc : e.channel = c.val) (store : Vector Nat 16) :
    (storedAll t l store)[c] = if (t[c]).enable then min e.demand (t[c]).rated else store[c] := by
  induction l generalizing store with
  | nil => cases hmem
  | cons x l ih =>
    rw [List.map_cons, List.nodup_cons] at hnodup
    obtain ⟨honce, hnodup⟩ := hnodup
    have hstep := x.storedIn_getElem t store c
    rcases List.mem_cons.mp hmem with rfl | hmem
    · have hrest : ∀ y ∈ l, y.channel ≠ c.val := fun y hy hyc =>
        honce (by rw [hc, ← hyc]; exact List.mem_map_of_mem hy)
      simp only [hc, true_and] at hstep
      exact (storedAll_of_not_named hrest _).trans hstep
    · rw [if_neg fun hx => honce (by rw [hx.1, ← hc]; exact List.mem_map_of_mem hmem)] at hstep
      exact (ih hnodup hmem _).trans (by rw [hstep])

/-- The ignored entries are as many as the disabled channels that the frame names, since no channel is named twice
(R78). -/
theorem countP_isIgnored {l : List DispatchEntry} (hnodup : (l.map DispatchEntry.channel).Nodup)
    (t : Vector ChannelEntry 16) : (l.countP fun e => e.isIgnored t) =
      ((List.finRange 16).filter fun c : Chan => !(t[c]).enable && l.any fun e => e.channel == c.val).length := by
  have hperm : ((l.filter fun e => e.isIgnored t).map DispatchEntry.channel).Perm
      (((List.finRange 16).filter fun c : Chan => !(t[c]).enable && l.any fun e => e.channel == c.val).map Fin.val) := by
    refine (List.perm_ext_iff_of_nodup (hnodup.sublist (List.filter_sublist.map _))
      (((List.nodup_finRange 16).filter _).map Fin.val_injective)).mpr fun n => ?_
    simp only [List.mem_map, List.mem_filter, DispatchEntry.isIgnored, decide_eq_true_eq, List.mem_finRange, true_and,
      Bool.and_eq_true, Bool.not_eq_true', List.any_eq_true, beq_iff_eq]
    constructor
    · rintro ⟨e, ⟨hmem, c, hc, henable⟩, rfl⟩
      exact ⟨c, ⟨henable, e, hmem, hc⟩, hc.symm⟩
    · rintro ⟨c, ⟨henable, e, hmem, hc⟩, rfl⟩
      exact ⟨e, ⟨hmem, c, hc, henable⟩, hc⟩
  rw [List.countP_eq_length_filter, ← List.length_map (f := DispatchEntry.channel), hperm.length_eq, List.length_map]

/-! ### The frame and the expiry (R80, R82) -/

theorem State.takeDispatch_of_accepted {s : State} {f : Dispatch} (hsrc : f.source = s.di.supervisor)
    (h : IsAcceptable f) : s.takeDispatch f = { s with
      di := { s.di with
        store := storedAll s.cm.table f.entries s.di.store
        pendingTag := f.tag
        fallbackActive := false
        silence := if s.fmu.mode = .run then some (s.ms + s.di.tDs) else s.di.silence
        accepted := s.di.accepted + 1
        ignored := s.di.ignored + BitVec.ofNat 32 (f.entries.countP fun e => e.isIgnored s.cm.table) }
      fmu := s.fmu.noteClamps s.cm.table s.timeBase s.gm.seqState f.entries } := by
  obtain ⟨-, -, -, hchannels, -⟩ := id h
  have hok : ¬f.acceptable = false := fun hbad => Dispatch.acceptable_eq_false_iff.mp hbad h
  unfold State.takeDispatch
  rw [if_neg (not_not_intro hsrc), if_neg hok, State.storeEntries_eq s hchannels]
  simp only [State.acceptDispatch, FaultModeUnit.noteClamps_mode]
  rfl

theorem State.changesOnly_di_fmu (s : State) (d : DemandIntake) (f : FaultModeUnit) :
    s.changesOnly { s with di := d, fmu := f } [.di, .fmu] := by
  intro p hp
  cases p with
  | di | fmu => simp at hp
  | held | clock | gm | rtc | cm | se | rr | cu | me | pu | pending => rfl

theorem State.fallbackStore_getElem (s : State) (c : Chan) : s.fallbackStore[c] =
    if (s.cm.table[c]).enable then (s.cm.table[c]).fallback else s.di.store[c] := vector_ofFn_getElem _ c

/-- What the expiry does once its boundary has come: a HOLD-class raising only records. -/
theorem exec_dispatchSilenceExpiry {s : State} {m : Nat} (hheld : s.held = false) (hm : s.di.silence = some m) :
    exec .dispatchSilenceExpiry s = .next { s.advanceMs m with
      di := { s.di with store := s.fallbackStore, fallbackActive := true, silence := none }
      fmu := s.fmu.record { code := .dispatchLost, cls := .hold, subject := .none } (s.advanceMs m).timeBase
        s.gm.seqState } := by
  refine congrArg Host.Outcome.next ((State.live_of_not_held hheld).trans ?_)
  rw [hm, State.onExpiry_some]
  exact State.raise_eq_record (by simp)

/-- Settles O24: no channel is named twice, so each entry decides its channel's demand alone; and the expiry waits for
its boundary. -/
theorem dispatchFramesAndSilence : Obligations.DispatchFramesAndSilence := by
  unfold Obligations.DispatchFramesAndSilence
  refine ⟨fun s f rest hheld hf hsrc hok => ?frame, fun s m hheld hm => ?silence⟩
  case frame =>
    have hexec := exec_dispatchFrameTaken hheld hf
    rw [State.takeDispatch_of_accepted (s := s.leftToDispatch rest) hsrc hok] at hexec
    obtain ⟨-, -, -, -, hnodup⟩ := hok
    refine ⟨_, hexec, s.changesOnly_di_fmu _ _, ?_, fun c hc => storedAll_of_not_named hc _,
      fun c e he hc => storedAll_of_named hnodup he hc _, rfl⟩
    rw [← countP_isIgnored hnodup]
    rfl
  case silence =>
    refine ⟨_, exec_dispatchSilenceExpiry hheld hm, fun p hp => ?_, rfl, s.fallbackStore_getElem, rfl,
      FaultModeUnit.record_mode .., s.advanceMs_agesSags m⟩
    cases p with
    | clock | rtc | di | fmu => simp at hp
    | held | gm | cm | se | rr | cu | me | pu | pending => rfl

end Sys2Proof.Machine
end

