-- ==== Sys2Proof/Proofs/CycleRecords.lean ====
section
/-! PROOFS. The records that a whole cycle start changes (O29): what the loss test of a Report Receiver that goes first
leaves, what the Setpoint Engine's work leaves, and the two together. -/

namespace Sys2Proof.Machine

/-! ### The loss test, record by record (R124) -/

theorem FaultModeUnit.recordAll_mask (f : FaultModeUnit) (l : List Raising) (now : BitVec 32) (q : Option (BitVec 16)) :
    (f.recordAll l now q).mask = f.mask := by
  unfold FaultModeUnit.recordAll
  induction l generalizing f with
  | nil => rfl
  | cons r l ih => exact (ih _).trans (f.record_mask r now q)

/-- A loss test that has been decided is finished: raisings none of which is TRIP-class only record (R120, R136). -/
theorem State.finishReport_of_no_trip {s : State} {events : Vector (Option ChannelEvent) 16} {faults : List Raising}
    (h : s.rr.work = .decided events faults none) (hno : ∀ r ∈ faults, r.cls ≠ .trip) :
    s.finishReport = { s with
      cm := s.cm.takeEvents fun c => events[c]
      rr := { s.rr with work := .idle }
      fmu := s.fmu.recordAll faults s.timeBase s.gm.seqState } := by
  have hhanded : s.handEvents.rr.work = .handed faults none := by rw [State.handEvents_eq h]
  rw [State.finishReport_of_decided h, State.finishReport_of_handed_none hhanded, State.raiseAll_eq_record hno,
    State.handEvents_eq h]
  rfl

/-- The loss test, made whole: each loss is HOLD-class, so it is recorded and never enters HALT (R124, R136). -/
theorem State.settleReports_eq {s : State} {limit : Nat} (hwork : s.rr.work = .idle)
    (htest : s.rr.testDue = some limit) :
    ∃ m marks losses, s.cm.SameTables m ∧ s.settleReports = { s with
      cm := m
      rr := { s.rr with testDue := none, mark := marks, work := .idle }
      fmu := s.fmu.recordAll losses s.timeBase s.gm.seqState } := by
  have hloss := State.decideLoss_eq htest
  have hholds : ∀ r ∈ ((List.finRange 16).filter fun c => s.isLost limit c).map reportLossOf, r.cls ≠ .trip := by
    intro r hr
    obtain ⟨c, -, rfl⟩ := List.mem_map.mp hr
    simp [reportLossOf]
  unfold State.settleReports
  rw [State.finishReport_of_idle hwork, State.finishReport_of_no_trip (by rw [hloss]) hholds, hloss]
  exact ⟨_, _, _, s.cm.takeEvents_sameTables _, rfl⟩

/-- Going from `r` to `r'`, the Report Receiver has taken the expiry of a cycle start, and its loss test is due or has
been made (R124). -/
def ReportReceiver.TakesExpiry (r : ReportReceiver) (t : Vector ChannelEntry 16) (due : Option Nat)
    (r' : ReportReceiver) : Prop :=
  r' = { r.ageAll t with mark := r'.mark, expiryDue := false, testDue := due, work := .idle }

theorem ReportReceiver.TakesExpiry.records {r r' : ReportReceiver} {t : Vector ChannelEntry 16} {due : Option Nat}
    (h : r.TakesExpiry t due r') :
    r'.record = r.record ∧ r'.unmatched = r.unmatched ∧ r'.limit = r.limit ∧ r'.handed = r.handed ∧ r'.work = .idle ∧
    r'.expiryDue = false ∧ r'.testDue = due ∧
    ∀ c : Chan, r'.age[c] = if (t[c]).enable then min 255 (r.age[c] + 1) else r.age[c] := by
  have hage : r'.age = (r.ageAll t).age := by rw [h]
  simp only [hage, r.ageAll_age t, implies_true, and_true]
  rw [h]
  simp only [ReportReceiver.ageAll, and_self]

/-- The state at which the Setpoint Engine begins its work when the Report Receiver goes first. -/
theorem State.cycleBegun_true_eq {s : State} (h : s.settled) :
    ∃ m f r, s.cycleBegun true = { s.beginCycle with cm := m, rr := r, fmu := f } ∧ s.cm.SameTables m ∧
      f.mode = s.fmu.mode ∧ f.mask = s.fmu.mask ∧ s.rr.TakesExpiry s.cm.table none r := by
  obtain ⟨u, hu⟩ : ∃ u, u = s.beginCycle.takeExpiry := ⟨_, rfl⟩
  have hset := State.takeExpiry_beginCycle h
  rw [← hu] at hset
  obtain ⟨-, hidle, -, -⟩ := h
  have hwork : u.rr.work = .idle := by rw [hset]; simpa only [ReportReceiver.ageAll] using hidle
  have htest : u.rr.testDue = some s.rr.limit := by rw [hset]
  obtain ⟨m, marks, losses, hsame, heq⟩ := State.settleReports_eq hwork htest
  have hbegun : s.cycleBegun true = u.settleReports := by rw [hu]; rfl
  rw [hset] at hsame heq
  rw [hbegun, hset]
  exact ⟨m, _, _, heq, hsame, FaultModeUnit.recordAll_mode .., FaultModeUnit.recordAll_mask .., rfl⟩

/-- A Report Receiver that goes second takes the expiry as it stood: the Setpoint Engine's work leaves its records. -/
theorem State.takeExpiry_handStatusFrame {s : State} (h : s.settled) :
    s.beginCycle.handStatusFrame.takeExpiry = { s.beginCycle.handStatusFrame with rr :=
      { s.rr.ageAll s.beginCycle.handStatusFrame.cm.table with expiryDue := false, testDue := some s.rr.limit } } := by
  obtain ⟨-, hwork, htest, -⟩ := h
  have hrr : s.beginCycle.handStatusFrame.rr = { s.rr with expiryDue := true } := State.handStatusFrame_rr _
  rw [State.takeExpiry_of_idle (by rw [hrr]) (by rw [hrr]; exact hwork) (by rw [hrr]; exact htest), hrr]
  rfl

/-! ### The Setpoint Engine's work, record by record (R84, R105, R110) -/

theorem ChannelManager.examine_sameTables (m : ChannelManager) (p : PartMode) (rtc : RtcState) (store : Vector Nat 16)
    (ms : Nat) : m.SameTables (m.examine p rtc store ms) := rfl

theorem ChannelManager.takeResults_sameTables (m : ChannelManager) (ms : Nat) (took : Chan → Bool)
    (cmd : Vector Nat 16) : m.SameTables (m.takeResults ms took cmd) := rfl

/-- The Setpoint Engine's records once the frames of a cycle with inputs `i` have been handed (R102, R105). -/
def SetpointEngine.afterCycle (e : SetpointEngine) (i : CycleInputs) : SetpointEngine :=
  { e with
    last := i.allocate.cmd, contention := joinContention e.contention i.allocate.noted
    lastAllowance := i.used, lastSum := commandSum i.allocate.cmd, work := .idle }

/-- The frames touch ports U and D alone. -/
theorem State.handStatusFrame_of_closed_ports {s : State} {w : ClosedCycle} (h : s.se.work = .closed w) :
    ∃ u d, s.handStatusFrame = { s with se := { s.se with work := .idle }, pu := { s.pu with u := u, d := d } } := by
  obtain ⟨d, heq, -⟩ := State.handSetpointFrame_of_closed h
  unfold State.handStatusFrame
  rw [heq]
  exact ⟨_, d, rfl⟩

/-- What a cycle start reads where its readings fall together (R93). -/
def State.readTogether (s : State) : Gathering :=
  { demands := some { store := s.di.store, tag := s.di.pendingTag }
    standing := some { rtc := s.rtc.state, active := s.rtc.active, blocking := s.rtc.blocking
                       allowance := s.allowanceNow }
    vLast := some s.gm.vLast
    answer := some (s.fmu.mode, s.examined.answer) }

theorem State.readings_of_fresh {s : State} (h : s.se.work = .gathering .none) :
    s.readVoltage.requestChannels = State.atWork (.gathering s.readTogether) { s with
      di := { s.di with appliedTag := s.di.pendingTag }, cm := s.examined } := by
  rw [State.readVoltage_eq h rfl]
  unfold State.requestChannels
  rw [State.readDemands_eq (g := { Gathering.none with vLast := some s.gm.vLast }) rfl rfl]
  rw [State.readStanding_eq (g := { Gathering.none with
    demands := some { store := s.di.store, tag := s.di.pendingTag }, vLast := some s.gm.vLast }) rfl rfl]
  rfl

/-- The Setpoint Engine's whole work: the reading of the tag, the closing, and the two frames. -/
theorem State.handStatusFrame_of_fresh {s : State} (h : s.se.work = .gathering .none) :
    ∃ i m n u d, i.used = (if s.fmu.mode = .run then s.allowanceNow else 0) ∧ s.cm.SameTables m ∧
      s.handStatusFrame = { s with
        di := { s.di with appliedTag := s.di.pendingTag }
        cm := m
        se := s.se.afterCycle i
        fmu := s.fmu.withNotice n
        pu := { s.pu with u := u, d := d } } := by
  have hreadings := State.readings_of_fresh h
  obtain ⟨i, hi, hused⟩ : ∃ i, s.readVoltage.requestChannels.inputs = some i ∧
      i.used = if s.fmu.mode = .run then s.allowanceNow else 0 := by
    rw [hreadings]
    exact ⟨_, rfl, rfl⟩
  have hclose := State.closeCycle_of_gathered hi
  have hwork := State.closeAllocation_work s.readVoltage.requestChannels i
  rw [← hclose] at hwork
  obtain ⟨u, d, hframes⟩ := State.handStatusFrame_of_closed_ports hwork
  rw [State.handStatusFrame_of_closeCycle hwork, hframes, hclose, hreadings, State.closeAllocation_eq]
  have hexamined : s.cm.SameTables s.examined := s.cm.examine_sameTables ..
  exact ⟨i, _, _, u, d, hused, hexamined.trans (s.examined.takeResults_sameTables ..), rfl⟩

/-! ### The cycle start, whole -/

/-- The two orders of the Setpoint Engine and the Report Receiver (R124; log entry 9). -/
theorem exec_cycleStart_whole_eq {s : State} (hheld : s.held = false) (h : s.settled) :
    exec (.cycleStart (.whole true)) s = .next (s.cycleBegun true).handStatusFrame ∧
    exec (.cycleStart (.whole false)) s = .next s.beginCycle.handStatusFrame.takeExpiry := by
  have hlive : ∀ b, exec (.cycleStart (.whole b)) s = .next _ := fun b =>
    congrArg Host.Outcome.next (State.live_of_not_held hheld)
  rw [hlive true, hlive false, State.settle_of_settled h]
  exact ⟨rfl, rfl⟩

/-- Everything that a whole cycle start changes. -/
theorem exec_cycleStart_whole_records {s : State} (hheld : s.held = false) (h : s.settled) (b : Bool) :
    ∃ i m f r u d, exec (.cycleStart (.whole b)) s = .next { s.beginCycle with
        di := { s.di with appliedTag := s.di.pendingTag }
        cm := m
        se := s.beginCycle.se.afterCycle i
        rr := r
        fmu := f
        pu := { s.pu with u := u, d := d } } ∧
      i.used = (if s.fmu.mode = .run then s.beginCycle.allowanceNow else 0) ∧ s.cm.SameTables m ∧
      f.mode = s.fmu.mode ∧ f.mask = s.fmu.mask ∧
      s.rr.TakesExpiry s.cm.table (if b then none else some s.rr.limit) r := by
  obtain ⟨hfirst, hsecond⟩ := exec_cycleStart_whole_eq hheld h
  cases b with
  | true =>
    obtain ⟨m, f, r, hbegun, hsame, hmode, hmask, hrr⟩ := State.cycleBegun_true_eq h
    rw [hfirst, hbegun]
    obtain ⟨i, m', n, u, d, hused, hsame', hdone⟩ := State.handStatusFrame_of_fresh
      (s := { s.beginCycle with cm := m, rr := r, fmu := f }) rfl
    dsimp only at hused
    rw [hmode] at hused
    rw [hdone]
    exact ⟨i, m', f.withNotice n, r, u, d, rfl, hused, hsame.trans hsame', hmode, hmask, hrr⟩
  | false =>
    obtain ⟨i, m, n, u, d, hused, hsame, hdone⟩ := State.handStatusFrame_of_fresh (s := s.beginCycle) rfl
    rw [hsecond, State.takeExpiry_handStatusFrame h, hdone]
    obtain ⟨-, hwork, -, -⟩ := h
    refine ⟨i, m, s.fmu.withNotice n, _, u, d, rfl, hused, hsame, rfl, rfl, ?_⟩
    have htable : m.table = s.cm.table := hsame.table.1
    simp only [ReportReceiver.TakesExpiry, ReportReceiver.ageAll, htable, hwork]
    rfl

/-- P_state does not depend on the recent-sag list, which ages while the cycle start is waited for (R30, R42). -/
theorem State.beginCycle_allowanceNow (s : State) :
    s.beginCycle.allowanceNow = s.rtc.pState s.beginCycle.timeBase * s.gm.factor / 1000 := rfl

/-- Settles O29: the Report Receiver and the Setpoint Engine each change records of their own, whichever goes first. -/
theorem cycleStartRecords : Obligations.CycleStartRecords := by
  unfold Obligations.CycleStartRecords
  intro s b hheld hsettled
  obtain ⟨i, m, f, r, u, d, hexec, hused, hsame, hmode, hmask, hrr⟩ := exec_cycleStart_whole_records hheld hsettled b
  obtain ⟨htable, hgroups, hprofiles⟩ := hsame.table
  refine ⟨_, hexec, fun p hp => ?only, rfl, ⟨rfl, rfl⟩, rfl, rfl, rfl, rfl, ?next, rfl, ?allowance, rfl, htable, hgroups,
    hprofiles, hsame.tStart, hmode, hmask, ?records⟩
  case only =>
    cases p with
    | clock | rtc | di | cm | se | rr | fmu | pu => simp at hp
    | held | gm | cu | me | pending => rfl
  case next => exact congrArg (s.se.nextCycle + ·) (Nat.mul_comm ..)
  case allowance => rwa [State.beginCycle_allowanceNow] at hused
  case records =>
    obtain ⟨hrecord, hunmatched, hlimit, hhanded, hwork, hexpiry, htest, hage⟩ := hrr.records
    exact ⟨hrecord, hunmatched, hlimit, hhanded, hwork, hexpiry, htest, hage, rfl, rfl, rfl⟩

end Sys2Proof.Machine
end

