-- ==== Sys2Proof/Proofs/Needs.lean ====
section
/-! PROOFS. The target, the need and the order of a channel (O31): what each stage of R96 to R99 gives, case by case,
and the table of R104. -/

namespace Sys2Proof.Machine

section
variable {e : ChannelEntry} {a d prev t up down n : Nat}

/-! ### The clamped demand (R96) -/

@[simp] theorem clampedDemand_zero (e : ChannelEntry) : clampedDemand e 0 = 0 := rfl

theorem clampedDemand_of_lt (hpos : 0 < d) (hlt : d < e.iMin) : clampedDemand e d = e.iMin := by
  rw [clampedDemand, if_neg (by omega), if_pos hlt]

theorem clampedDemand_of_le (h : e.iMin ≤ d) : clampedDemand e d = min d e.rated := by
  by_cases hd : d = 0
  · simp [clampedDemand, hd]
  · rw [clampedDemand, if_neg hd, if_neg (by omega)]

/-! ### The target (R97) -/

theorem target_le_allowance (e : ChannelEntry) (a d : Nat) : target e a d ≤ e.rated * a / 1000 := by
  dsimp only [target]
  split <;> omega

theorem target_le_demand (e : ChannelEntry) (a d : Nat) : target e a d ≤ d := by
  dsimp only [target]
  split <;> omega

theorem target_eq_zero_or_iMin_le (e : ChannelEntry) (a d : Nat) : target e a d = 0 ∨ e.iMin ≤ target e a d := by
  dsimp only [target]
  split <;> omega

/-- The whole rated current is allowed at an allowance of 1000. -/
theorem target_full (hle : d ≤ e.rated) (hmin : e.iMin ≤ d) : target e 1000 d = d := by
  rw [target, Nat.mul_div_cancel _ (by omega), min_eq_left hle]
  exact if_neg (by omega)

theorem target_le_rated (ha : a ≤ 1000) (d : Nat) : target e a d ≤ e.rated := by
  have hle : e.rated * a / 1000 ≤ e.rated :=
    Nat.div_le_of_le_mul (by rw [Nat.mul_comm]; exact Nat.mul_le_mul_right _ ha)
  exact (target_le_allowance e a d).trans hle

theorem target_no_allowance (e : ChannelEntry) (d : Nat) : target e 0 d = 0 := by
  have hle := target_le_allowance e 0 d
  omega

/-! ### The move towards the target (R99) -/

theorem rampMove_from_zero (h : 0 < t) : rampMove e a 0 t up down = max e.iMin (min t up) := by
  rw [rampMove, if_pos h, if_pos rfl]

theorem rampMove_rise (hpos : 0 < prev) (h : prev < t) : rampMove e a prev t up down = min t (prev + up) := by
  rw [rampMove, if_pos h, if_neg (by omega)]

theorem rampMove_cut (h : t < prev) (ha : a < 1000) : rampMove e a prev t up down = t := by
  rw [rampMove, if_neg (by omega), if_pos h, if_pos ha]

theorem rampMove_fall (h : t < prev) (ha : ¬a < 1000) : rampMove e a prev t up down = max t (prev - down) := by
  rw [rampMove, if_neg (by omega), if_pos h, if_neg ha]

theorem rampMove_rest (h : t = prev) : rampMove e a prev t up down = prev := by
  rw [rampMove, if_neg (by omega), if_neg (by omega)]

/-- The five cases of R99. -/
theorem rampMove_eq {y : Nat} (ha : a ≤ 1000) (hzero : prev < t → prev = 0 → y = max e.iMin (min t up))
    (hrise : prev < t → 0 < prev → y = min t (prev + up)) (hcut : t < prev → a < 1000 → y = t)
    (hfall : t < prev → a = 1000 → y = max t (prev - down)) (hrest : t = prev → y = prev) :
    rampMove e a prev t up down = y := by
  rcases Nat.lt_trichotomy prev t with hlt | heq | hgt
  · rcases Nat.eq_zero_or_pos prev with rfl | hpos
    · rw [rampMove_from_zero hlt, hzero hlt rfl]
    · rw [rampMove_rise hpos hlt, hrise hlt hpos]
  · rw [rampMove_rest heq.symm, hrest heq.symm]
  · by_cases hlow : a < 1000
    · rw [rampMove_cut hgt hlow, hcut hgt hlow]
    · rw [rampMove_fall hgt hlow, hfall hgt (by omega)]

/-- A move passes neither the larger of target and previous command, nor, above the minimum current, one up-step. -/
theorem rampMove_le (ht : t = 0 ∨ e.iMin ≤ t) :
    rampMove e a prev t up down ≤ max t prev ∧ rampMove e a prev t up down ≤ max (prev + up) e.iMin := by
  rcases Nat.lt_trichotomy prev t with hlt | heq | hgt
  · rcases Nat.eq_zero_or_pos prev with rfl | hpos
    · rw [rampMove_from_zero hlt]; omega
    · rw [rampMove_rise hpos hlt]; omega
  · rw [rampMove_rest heq.symm]; omega
  · by_cases hlow : a < 1000
    · rw [rampMove_cut hgt hlow]; omega
    · rw [rampMove_fall hgt hlow]; omega

/-- With a target of 0 and an allowance below 1000 nothing is left (R99). -/
theorem rampMove_to_zero (ha : a < 1000) : rampMove e a prev 0 up down = 0 := by
  rcases Nat.eq_zero_or_pos prev with rfl | hpos
  · exact rampMove_rest rfl
  · exact rampMove_cut hpos ha

/-! ### The cut to R and the rise to I_min (R99) -/

theorem fitNeed_eq_zero_or_iMin_le (e : ChannelEntry) (t n : Nat) : fitNeed e t n = 0 ∨ e.iMin ≤ fitNeed e t n := by
  dsimp only [fitNeed]
  split
  · split <;> omega
  · omega

theorem fitNeed_commandOk (h : e.iMin ≤ e.rated) (t n : Nat) : CommandOk e (fitNeed e t n) := by
  have hle : fitNeed e t n ≤ e.rated := by
    dsimp only [fitNeed]
    split
    · split <;> omega
    · omega
  exact (fitNeed_eq_zero_or_iMin_le e t n).imp_right fun hmin => ⟨hmin, hle⟩

/-- A move that is a command already stands. -/
theorem fitNeed_of_commandOk (h : CommandOk e n) (t : Nat) : fitNeed e t n = n := by
  have hle : n ≤ e.rated := by
    rcases h with h | h <;> omega
  rw [fitNeed, min_eq_left hle]
  exact if_neg (by rcases h with h | h <;> omega)

/-- A need passes its move only where the target is at least the minimum current, and then only up to it. -/
theorem fitNeed_le (e : ChannelEntry) (t n : Nat) : fitNeed e t n ≤ max n (min t e.iMin) := by
  dsimp only [fitNeed]
  split
  · split <;> omega
  · omega

/-! ### The need (R98, R99) -/

theorem rampedNeed_commandOk (h : e.iMin ≤ e.rated) (a prev t up down : Nat) :
    CommandOk e (rampedNeed e a prev t up down) := fitNeed_commandOk h _ _

/-- A need never passes the larger of target and previous command, nor one up-step or the minimum current. -/
theorem rampedNeed_le (ht : t = 0 ∨ e.iMin ≤ t) : rampedNeed e a prev t up down ≤ max t prev ∧
    rampedNeed e a prev t up down ≤ max (prev + up) e.iMin := by
  have hfit := fitNeed_le e t (rampMove e a prev t up down)
  obtain ⟨hmax, hstep⟩ := rampMove_le (a := a) (prev := prev) (up := up) (down := down) ht
  unfold rampedNeed
  omega

theorem rampedNeed_no_allowance (e : ChannelEntry) (prev up down : Nat) : rampedNeed e 0 prev 0 up down = 0 := by
  rw [rampedNeed, rampMove_to_zero (by omega), fitNeed_of_commandOk (.inl rfl)]

/-- A move that is a command is the need. -/
theorem rampedNeed_of_move (hmove : rampMove e a prev t up down = n) (h : CommandOk e n) :
    rampedNeed e a prev t up down = n := by
  rw [rampedNeed, hmove, fitNeed_of_commandOk h]

end

/-! ### The orders (R104) -/

section
variable {i : CycleInputs} {c : Chan}

theorem CycleInputs.order_of_off (h : i.cm.chan[c] = .off) : i.order c = .standby := if_pos h

theorem CycleInputs.order_of_load (h : i.mode = .load) : i.order c = .standby := by
  rw [CycleInputs.order, h]
  exact ite_self _

theorem CycleInputs.order_of_halt (h : i.mode = .halt) (hchan : i.cm.chan[c] ≠ .off) :
    i.order c = if i.rtc = .tripped then .trip else .standby := by
  rw [CycleInputs.order, if_neg hchan, h]

theorem CycleInputs.order_of_run (h : i.mode = .run) :
    (i.cm.chan[c] = .standby ∨ i.cm.chan[c] = .faulted → i.order c = .standby) ∧
    (i.cm.chan[c] = .starting → i.order c = .start) ∧
    ((i.cm.chan[c]).isOn = true → i.order c = if i.rtc = .sag ∧ i.blocking = true then .block else .run) := by
  unfold CycleInputs.order
  rw [h]
  cases i.cm.chan[c] <;> simp [ChannelState.isOn]

end

/-- Settles O31: the target is 0 or at least I_min, so the cut and the rise of R99 touch only a ramp that ends between
0 and I_min. -/
theorem needsAndOrders : Obligations.NeedsAndOrders := by
  unfold Obligations.NeedsAndOrders
  refine ⟨fun e a prev d up down hmin ha hup hdown t n ht hn => ?need, fun i c => ⟨CycleInputs.order_of_off,
    CycleInputs.order_of_load, CycleInputs.order_of_halt, CycleInputs.order_of_run⟩⟩
  have htarget : t = 0 ∨ e.iMin ≤ t := ht ▸ target_eq_zero_or_iMin_le ..
  have hallow : t ≤ e.rated * a / 1000 := ht ▸ target_le_allowance ..
  have hrated : t ≤ e.rated := ht ▸ target_le_rated ha _
  have hdemand : t ≤ clampedDemand e d := ht ▸ target_le_demand ..
  have htargetOk : CommandOk e t := htarget.imp_right fun h => ⟨h, hrated⟩
  have hok : CommandOk e n := hn ▸ rampedNeed_commandOk hmin ..
  obtain ⟨hmax, hstep⟩ : n ≤ max t prev ∧ n ≤ max (prev + up) e.iMin := hn ▸ rampedNeed_le htarget
  have hmoves : ∀ m, rampMove e a prev t up down = m → CommandOk e m → n = m := fun m hm hcmd =>
    hn.trans (rampedNeed_of_move hm hcmd)
  refine ⟨fun y hy => ?spelled, fun y hzero hrise hcut hfall hrest => ?moved, hok, fun hnone => ?none, hallow, htarget,
    fun hd => ?undemanded, fun hfull hle => ?full, fun hfull hpos hlt => ?low, fun hlt hcut => ?cut, hmax, hstep,
    fun heq => ?rest, fun hzero hpos => ?start, fun hpos hlt hle => ?rise, fun hlt hfull hprev hle => ?fall,
    fun hzero hpos hfull hprev => ?stop⟩
  case spelled => rw [ht, hy]; rfl
  case moved => rw [hn, rampedNeed, rampMove_eq ha hzero hrise hcut hfall hrest]; rfl
  case none =>
    subst hnone
    rw [hn, ht, target_no_allowance, rampedNeed_no_allowance]
  case undemanded =>
    rw [hd, clampedDemand_zero] at hdemand
    omega
  case full => rw [ht, hfull, clampedDemand_of_le hle, target_full (by omega) (by omega)]
  case low => rw [ht, hfull, clampedDemand_of_lt hpos hlt, target_full hmin le_rfl]
  case cut => exact hmoves t (rampMove_cut hlt hcut) htargetOk
  case rest => exact hmoves t ((rampMove_rest heq.symm).trans heq) htargetOk
  case start =>
    subst hzero
    exact hmoves _ (rampMove_from_zero hpos) (.inr (by omega))
  case rise => exact hmoves _ (rampMove_rise hpos hlt) (.inr (by omega))
  case fall => exact hmoves _ (rampMove_fall hlt (by omega)) (.inr (by omega))
  case stop =>
    subst hzero
    rw [hn, rampedNeed, rampMove_fall hpos (by omega), Nat.zero_max]
    by_cases hlow : prev - down < e.iMin
    · rw [if_pos hlow]
      dsimp only [fitNeed]
      rw [min_eq_left (by omega), if_neg (by omega : ¬e.iMin ≤ 0)]
      exact ite_eq_left_iff.mpr (by omega)
    · rw [if_neg hlow, fitNeed_of_commandOk (.inr (by omega))]

end Sys2Proof.Machine
end

