-- ==== Sys2Proof/Proofs/CycleWhole.lean ====
section
/-! PROOFS. A whole cycle start over the inputs that it gathers: the state at which the Setpoint Engine's work begins,
the inputs it then reads together, and everything that the work leaves. The statements about the commands (O30), the
contention record (O33) and the two frames (O34, O35) are read off it. -/

namespace Sys2Proof.Machine

/-! ### Where the Setpoint Engine's work begins -/

/-- A Report Receiver that goes first changes the channels, its own marks and ages, and the fault list. -/
theorem State.cycleBegun_eq {s : State} (h : s.settled) (b : Bool) : ∃ m f r,
    s.cycleBegun b = { s.beginCycle with cm := m, rr := r, fmu := f } ∧ s.cm.SameTables m ∧ f.mode = s.fmu.mode ∧
      f.mask = s.fmu.mask ∧ r.record = s.rr.record := by
  cases b with
  | false => exact ⟨s.cm, s.fmu, s.beginCycle.rr, rfl, rfl, rfl, rfl, rfl⟩
  | true =>
    obtain ⟨m, f, r, heq, hsame, hmode, hmask, hrr⟩ := State.cycleBegun_true_eq h
    exact ⟨m, f, r, heq, hsame, hmode, hmask, hrr.records.1⟩

/-- What the status frame and the setpoint frame take from the owners stands as the expiry found it. -/
theorem State.cycleBegun_kept {s : State} (h : s.settled) (b : Bool) :
    (s.cycleBegun b).pu = s.pu ∧ (s.cycleBegun b).gm = s.gm ∧ (s.cycleBegun b).di = s.di ∧
    (s.cycleBegun b).se.cycle = s.se.cycle + 1 ∧ (s.cycleBegun b).se.contention = s.se.contention ∧
    (s.cycleBegun b).fmu.mode = s.fmu.mode ∧ (s.cycleBegun b).fmu.mask = s.fmu.mask ∧
    (s.cycleBegun b).rr.record = s.rr.record := by
  obtain ⟨m, f, r, hbegun, -, hmode, hmask, hrecord⟩ := State.cycleBegun_eq h b
  rw [hbegun]
  exact ⟨rfl, rfl, rfl, rfl, rfl, hmode, hmask, hrecord⟩

/-- Up to its own work no order of the blocks takes a channel out of RUNNING or PARKED but to FAULTED (R124). -/
theorem State.cycleBegun_chan_of_not_isOn {s : State} (h : s.settled) (b : Bool) {c : Chan}
    (hoff : (s.cm.chan[c]).isOn = false) : (s.cycleBegun b).cm.chan[c] = s.cm.chan[c] := by
  obtain ⟨-, -, -, -, -, hchan⟩ := State.cycleBegun_begins h b
  exact ((hchan c).2 fun ⟨_, _, hon, _⟩ => Bool.false_ne_true (hoff.symm.trans hon)).1

/-! ### The inputs, read together (R93) -/

/-- The inputs of a cycle start whose readings fall together. -/
def State.inputsTogether (s : State) : CycleInputs :=
  { mode := s.fmu.mode, store := s.di.store, tag := s.di.pendingTag, rtc := s.rtc.state, active := s.rtc.active
    blocking := s.rtc.blocking, allowance := s.allowanceNow, vLast := s.gm.vLast, period := s.se.period
    cm := s.examined.answer, prev := s.se.last }

theorem State.gathered_eq {s : State} (h : s.se.work = .gathering .none) : s.gathered = some s.inputsTogether := by
  unfold State.gathered
  rw [State.readings_of_fresh h]
  rfl

/-- A channel that is not RUNNING or PARKED when the expiry comes takes no part: it is started at most (R59). -/
theorem State.inputsTogether_not_isOn {s : State} (h : s.settled) (b : Bool) {c : Chan}
    (hoff : (s.cm.chan[c]).isOn = false) : (((s.cycleBegun b).inputsTogether).cm.chan[c]).isOn = false := by
  have hchan : (s.cycleBegun b).inputsTogether.cm.chan[c] = (s.cycleBegun b).examined.chan[c] := rfl
  rw [hchan, State.examined, ChannelManager.examine_chan, State.cycleBegun_chan_of_not_isOn h b hoff]
  split
  · rfl
  · exact hoff

/-- A TRIPPED controller answers with no allowance (R42, R43). -/
theorem State.allowanceNow_of_tripped {s : State} (h : s.rtc.state = .tripped) : s.allowanceNow = 0 := by
  simp [State.allowanceNow, RideThrough.pState, h, allowance]

/-- The inputs `i` are what the owners hold in `s`, but for the channel states, which the loss test and the start
examination may have changed, and the allowance, which depends on the time of the expiry; of these two it says what
keeps a command at 0. -/
structure CycleInputs.Over (i : CycleInputs) (s : State) : Prop where
  mode : i.mode = s.fmu.mode
  tag : i.tag = s.di.pendingTag
  rtc : i.rtc = s.rtc.state
  active : i.active = s.rtc.active
  vLast : i.vLast = s.gm.vLast
  period : i.period = s.se.tCyc
  prev : i.prev = s.se.last
  table : i.cm.table = s.cm.table
  groups : i.cm.groups = s.cm.groups
  profiles : i.cm.profiles = s.cm.profiles
  off : ∀ c : Chan, (s.cm.chan[c]).isOn = false → (i.cm.chan[c]).isOn = false
  tripped : s.rtc.state = .tripped → i.allowance = 0

/-- The Channel Manager answers with the tables it holds: the start examination changes none. -/
theorem State.inputsTogether_tables (s : State) : s.inputsTogether.cm.table = s.cm.table ∧
    s.inputsTogether.cm.groups = s.cm.groups ∧ s.inputsTogether.cm.profiles = s.cm.profiles := by
  unfold State.inputsTogether ChannelManager.answer State.examined ChannelManager.examine
  exact ⟨rfl, rfl, rfl⟩

theorem State.inputsTogether_over {s : State} (h : s.settled) (b : Bool) : (s.cycleBegun b).inputsTogether.Over s := by
  obtain ⟨m, f, r, hbegun, hsame, hmode, -, -⟩ := State.cycleBegun_eq h b
  obtain ⟨htable, hgroups, hprofiles⟩ := hsame.table
  obtain ⟨htable', hgroups', hprofiles'⟩ := (s.cycleBegun b).inputsTogether_tables
  have hoff : ∀ c : Chan, (s.cm.chan[c]).isOn = false → _ := fun c => State.inputsTogether_not_isOn h b
  have hrtc : (s.cycleBegun b).rtc.state = s.rtc.state := by rw [hbegun]; rfl
  have htripped : s.rtc.state = .tripped → _ := fun hs => State.allowanceNow_of_tripped (hrtc.trans hs)
  rw [hbegun] at htable' hgroups' hprofiles' hoff htripped ⊢
  exact ⟨hmode, rfl, rfl, rfl, rfl, rfl, rfl, htable'.trans htable, hgroups'.trans hgroups,
    hprofiles'.trans hprofiles, hoff, htripped⟩

theorem CycleInputs.used_eq_zero {i : CycleInputs} (h : i.mode ≠ .run ∨ i.allowance = 0) : i.used = 0 := by
  unfold CycleInputs.used
  split
  · exact h.resolve_left (not_not.mpr ‹_›)
  · rfl

/-! ### What the work leaves -/

/-- The cycle of inputs `i` with its allocation closed over the contention record `old`. -/
def CycleInputs.closed (i : CycleInputs) (old : Vector Bool 16) : ClosedCycle :=
  { inputs := i, cmd := i.allocate.cmd, contention := joinContention old i.allocate.noted }

/-- The work leaves port D's link as it is. -/
theorem PortD.TakesSetpoint.up {p p' : PortD} {clock : Nat} {f : Frame} (h : p.TakesSetpoint clock f p') :
    p'.up = p.up := by
  obtain ⟨hdown, hbusy, hfree⟩ := h
  cases hup : p.up with
  | false => rw [hdown hup]; exact hup
  | true =>
    cases hsending : p.sending with
    | none => rw [hfree hup hsending]; exact hup
    | some x => rw [hbusy hup (by rw [hsending]; rfl)]; exact hup

/-- In `v`, where the status frame of a cycle from `u` to `t` is built, the owners show what they did in `u`, beside the
contention notice and what port D has been handed (R109). -/
structure State.Shows (u t v : State) : Prop where
  gm : v.gm = u.gm
  rr : v.rr = u.rr
  fmu : v.fmu = t.fmu
  cycle : v.se.cycle = u.se.cycle
  pu : v.pu = { u.pu with d := t.pu.d }
  supervisor : v.di.supervisor = u.di.supervisor
  fallbackActive : v.di.fallbackActive = u.di.fallbackActive

/-- Going from `u` to `t`, the Setpoint Engine has done its work for a cycle start, whose allocation it closed as
`w`. -/
structure State.DoesCycle (u : State) (w : ClosedCycle) (t : State) : Prop where
  gathered : u.gathered = some w.inputs
  cmd : w.cmd = w.inputs.allocate.cmd
  joined : w.contention = joinContention u.se.contention w.inputs.allocate.noted
  last : t.se.last = w.cmd
  allowance : t.se.lastAllowance = w.inputs.used
  contention : t.se.contention = w.contention
  fmu : t.fmu = u.fmu.withNotice (contentionNotice u.se.contention w.inputs.allocate.noted)
  clock : t.clock = u.clock
  load : u.fmu.mode = .load → t.pu.d = u.pu.d
  setpoint : u.fmu.mode ≠ .load → u.pu.d.TakesSetpoint u.clock (u.setpointFrame w) t.pu.d
  status : ∃ v, u.Shows t v ∧ u.pu.u.TakesStatus u.clock (v.statusFrame w .none) t.pu.u

/-- The closing of a cycle start whose readings fall together. -/
theorem State.closeCycle_of_fresh {u : State} (h : u.se.work = .gathering .none) : u.closeCycle = { u with
    di := { u.di with appliedTag := u.di.pendingTag }
    cm := u.examined.takeResults u.ms u.inputsTogether.takesPart u.inputsTogether.allocate.cmd
    se := { u.se.afterCycle u.inputsTogether with work := .closed (u.inputsTogether.closed u.se.contention) }
    fmu := u.fmu.withNotice (contentionNotice u.se.contention u.inputsTogether.allocate.noted) } := by
  rw [State.closeCycle_of_gathered (State.gathered_eq h), State.readings_of_fresh h, State.closeAllocation_eq]
  rfl

/-- The two frames of a closed allocation, and the state `v` at which the second is built. -/
theorem State.handStatusFrame_of_closed_frames {c : State} {w : ClosedCycle} (h : c.se.work = .closed w) : ∃ d v,
    c.handStatusFrame = { c with
      se := { c.se with work := .idle }
      pu := { c.pu with u := c.pu.u.handStatus c.clock (v.statusFrame w .none), d := d } } ∧
    (w.inputs.mode = .load → d = c.pu.d) ∧
    (w.inputs.mode ≠ .load → c.pu.d.TakesSetpoint c.clock (c.setpointFrame w) d) ∧
    v = { c with se := { c.se with work := .building w .none }, pu := { c.pu with d := d } } := by
  obtain ⟨d, hset, hload, htakes⟩ := State.handSetpointFrame_of_closed h
  have hbuilt : c.handSetpointFrame.se.work = .building w .none := by rw [hset]
  have hstatus : c.handStatusFrame = c.handSetpointFrame.handStatusFrame := by
    unfold State.handStatusFrame
    rw [State.handSetpointFrame_of_building hbuilt]
  refine ⟨d, c.handSetpointFrame, ?_, hload, htakes, hset⟩
  rw [hstatus, State.handStatusFrame_eq hbuilt, hset]
  rfl

theorem State.handStatusFrame_doesCycle {u : State} (h : u.se.work = .gathering .none) :
    u.DoesCycle (u.inputsTogether.closed u.se.contention) u.handStatusFrame := by
  have hgathered := State.gathered_eq h
  obtain ⟨w, hw⟩ : ∃ w, w = u.inputsTogether.closed u.se.contention := ⟨_, rfl⟩
  have hinputs : u.inputsTogether = w.inputs := by rw [hw]; rfl
  have hcmd : w.cmd = w.inputs.allocate.cmd := by rw [hw]; rfl
  have hjoined : w.contention = joinContention u.se.contention w.inputs.allocate.noted := by rw [hw]; rfl
  have hmode : w.inputs.mode = u.fmu.mode := by rw [← hinputs]; rfl
  have hclose := State.closeCycle_of_fresh h
  rw [← hw, hinputs] at hclose
  rw [hinputs] at hgathered
  rw [← hw]
  clear hw hinputs
  obtain ⟨hse, hfmu, hsupervisor, hfallback⟩ : u.closeCycle.se = { u.se.afterCycle w.inputs with work := .closed w } ∧
      u.closeCycle.fmu = u.fmu.withNotice (contentionNotice u.se.contention w.inputs.allocate.noted) ∧
      u.closeCycle.di.supervisor = u.di.supervisor ∧ u.closeCycle.di.fallbackActive = u.di.fallbackActive := by
    rw [hclose]
    exact ⟨rfl, rfl, rfl, rfl⟩
  have hwork : u.closeCycle.se.work = .closed w := by rw [hse]
  have hcycle : u.closeCycle.se.cycle = u.se.cycle := by simp only [hse, SetpointEngine.afterCycle]
  have hframe : u.closeCycle.setpointFrame w = u.setpointFrame w := by
    unfold State.setpointFrame
    rw [hcycle, State.closeCycle_pu]
  obtain ⟨d, v, hdone, hload, htakes, hv⟩ := State.handStatusFrame_of_closed_frames hwork
  rw [← State.handStatusFrame_of_closeCycle hwork] at hdone
  rw [hmode, State.closeCycle_pu] at hload
  rw [hmode, hframe, State.closeCycle_clock, State.closeCycle_pu] at htakes
  rw [State.closeCycle_pu] at hv
  have hstatus := u.pu.u.handStatus_takes u.clock (v.statusFrame w .none)
  have hpu : u.handStatusFrame.pu = { u.pu with u := u.pu.u.handStatus u.clock (v.statusFrame w .none), d := d } := by
    rw [hdone, State.closeCycle_clock, State.closeCycle_pu]
  have hdoneSe : u.handStatusFrame.se = u.se.afterCycle w.inputs := by
    rw [hdone]
    simp only [hse, SetpointEngine.afterCycle]
  have hdoneFmu : u.handStatusFrame.fmu = u.closeCycle.fmu := by rw [hdone]
  have hclock := u.handStatusFrame_clock
  generalize u.handStatusFrame = t at *
  have hd : t.pu.d = d := congrArg PortUnits.d hpu
  have hshows : u.Shows t v := by
    rw [hv]
    refine ⟨u.closeCycle_gm, u.closeCycle_rr, hdoneFmu.symm, hcycle, ?_, hsupervisor, hfallback⟩
    rw [hd]
  exact {
    gathered := hgathered, cmd := hcmd, joined := hjoined, fmu := hdoneFmu.trans hfmu, clock := hclock
    last := (congrArg SetpointEngine.last hdoneSe).trans hcmd.symm
    allowance := congrArg SetpointEngine.lastAllowance hdoneSe
    contention := (congrArg SetpointEngine.contention hdoneSe).trans hjoined.symm
    load := hd.symm ▸ hload, setpoint := hd.symm ▸ htakes, status := ⟨v, hshows, by rwa [hpu]⟩ }

/-- Port D's link is as it was. -/
theorem State.DoesCycle.up {u t : State} {w : ClosedCycle} (h : u.DoesCycle w t) : t.pu.d.up = u.pu.d.up := by
  by_cases hload : u.fmu.mode = .load
  · rw [h.load hload]
  · exact (h.setpoint hload).up

/-- A Report Receiver that goes second changes nothing of what the Setpoint Engine's work leaves. -/
theorem State.DoesCycle.withReports {u t : State} {w : ClosedCycle} (h : u.DoesCycle w t) (r : ReportReceiver) :
    u.DoesCycle w { t with rr := r } := by
  obtain ⟨v, hshows, htakes⟩ := h.status
  exact { h with status := ⟨v, { hshows with }, htakes⟩ }

/-- A whole cycle start, in either order of the blocks: the Setpoint Engine's work from where it begins, over inputs
that are what the owners held when the expiry came. -/
theorem exec_cycleStart_doesCycle {s : State} (hheld : s.held = false) (h : s.settled) (b : Bool) :
    ∃ t w, exec (.cycleStart (.whole b)) s = .next t ∧ (s.cycleBegun b).DoesCycle w t ∧ w.inputs.Over s := by
  obtain ⟨hfirst, hsecond⟩ := exec_cycleStart_whole_eq hheld h
  have hcycle := State.handStatusFrame_doesCycle (State.cycleBegun_begins h b).1
  have hover := State.inputsTogether_over h b
  cases b with
  | true => exact ⟨_, _, hfirst, hcycle, hover⟩
  | false =>
    rw [State.takeExpiry_handStatusFrame h] at hsecond
    exact ⟨_, _, hsecond, hcycle.withReports _, hover⟩

end Sys2Proof.Machine
end

