-- ==== Sys2Proof/Proofs/SafeCommands.lean ====
section
/-! PROOFS. The commands that an allocation gives are safe (O30): each lies in its channel's range and within one
up-step, and those of a group stay within its derated capacity. -/

namespace Sys2Proof.Machine

/-! ### One channel (R99, R101) -/

theorem EntryLaw.iMin_le {t : Vector ChannelEntry 16} (h : EntryLaw t) (c : Chan) : (t[c]).iMin ≤ (t[c]).rated := by
  have hc := h c
  simp only [ChannelEntry.inRange, Bool.and_eq_true, decide_eq_true_eq] at hc
  obtain ⟨⟨-, hmin⟩, -⟩ := hc
  exact hmin

theorem fillCommand_le (e : ChannelEntry) (need left : Nat) : fillCommand e need left ≤ min need left := by
  dsimp only [fillCommand]
  split <;> omega

theorem fillCommand_commandOk {e : ChannelEntry} {need : Nat} (h : CommandOk e need) (left : Nat) :
    CommandOk e (fillCommand e need left) := by
  unfold CommandOk at h ⊢
  dsimp only [fillCommand]
  split <;> omega

theorem CycleInputs.target_eq_zero_or_iMin_le (i : CycleInputs) (c : Chan) :
    i.target c = 0 ∨ (i.cm.table[c]).iMin ≤ i.target c := Machine.target_eq_zero_or_iMin_le ..

theorem CycleInputs.need_eq_zero_or_iMin_le (i : CycleInputs) (c : Chan) :
    i.need c = 0 ∨ (i.cm.table[c]).iMin ≤ i.need c := fitNeed_eq_zero_or_iMin_le ..

/-- With no allowance in force there is no need (R97, R99). -/
theorem CycleInputs.need_of_used_zero {i : CycleInputs} (h : i.used = 0) (c : Chan) : i.need c = 0 := by
  unfold CycleInputs.need CycleInputs.target
  rw [h, target_no_allowance, rampedNeed_no_allowance]

/-- A channel never receives more than its need. -/
theorem CycleInputs.allocate_le_need (i : CycleInputs) (c : Chan) : i.allocate.cmd[c] ≤ i.need c := by
  cases htakes : i.takesPart c with
  | false => rw [(CycleInputs.allocate_of_not_takesPart htakes).1]; omega
  | true =>
    rw [(CycleInputs.allocate_of_takesPart htakes).1]
    exact (fillCommand_le ..).trans (min_le_left _ _)

theorem CycleInputs.allocate_commandOk {i : CycleInputs} (h : EntryLaw i.cm.table) (c : Chan) :
    CommandOk i.cm.table[c] i.allocate.cmd[c] := by
  cases htakes : i.takesPart c with
  | false => exact .inl (CycleInputs.allocate_of_not_takesPart htakes).1
  | true =>
    rw [(CycleInputs.allocate_of_takesPart htakes).1]
    exact fillCommand_commandOk (rampedNeed_commandOk (h.iMin_le c) ..) _

/-! ### One group (R100, R101) -/

/-- The commands that a fill gives add up to no more than it had. -/
theorem CycleInputs.sum_foldl_fillChannel_le (i : CycleInputs) {l : List Chan} (h : l.Nodup) (f : Fill) :
    (l.map fun c => (l.foldl i.fillChannel f).cmd[c]).sum ≤ f.remaining := by
  induction l generalizing f with
  | nil => exact Nat.zero_le _
  | cons d l ih =>
    obtain ⟨hd, hl⟩ := List.nodup_cons.mp h
    have hrest := ih hl (i.fillChannel f d)
    have hle := fillCommand_le i.cm.table[d] (i.need d) f.remaining
    rw [CycleInputs.fillChannel_remaining] at hrest
    rw [List.foldl_cons, List.map_cons, List.sum_cons,
      (CycleInputs.foldl_fillChannel_of_not_mem hd (i.fillChannel f d)).1, CycleInputs.fillChannel_cmd, if_pos rfl]
    omega

/-- Of a group's channels only those that the fill takes receive a command. -/
theorem CycleInputs.groupSum_eq (i : CycleInputs) (g : Fin 4) : groupSum i.cm.table g i.allocate.cmd =
    ((i.fillOrder g).map fun c => (i.groupFill g).cmd[c]).sum := by
  have hidle : ((((List.finRange 16).filter fun c => decide ((i.cm.table[c]).group = g)).filter
      fun c => ¬i.takesPart c = true).map fun c => i.allocate.cmd[c]).sum = 0 := by
    refine List.sum_eq_zero fun x hx => ?_
    obtain ⟨c, hc, rfl⟩ := List.mem_map.mp hx
    have htakes := (List.mem_filter.mp hc).2
    exact (CycleInputs.allocate_of_not_takesPart (by simpa using htakes)).1
  have htaken : (((List.finRange 16).filter fun c => decide ((i.cm.table[c]).group = g)).filter
      fun c => i.takesPart c = true).Perm (i.fillOrder g) := by
    refine (List.perm_ext_iff_of_nodup (((List.nodup_finRange 16).filter _).filter _)
      (i.fillOrder_nodup g)).mpr fun c => ?_
    simp [CycleInputs.mem_fillOrder]
  have hgroup : ∀ c ∈ i.fillOrder g, i.allocate.cmd[c] = (i.groupFill g).cmd[c] := by
    intro c hc
    rw [CycleInputs.allocate_cmd, (CycleInputs.mem_fillOrder.mp hc).2]
  rw [groupSum, ← List.sum_map_filter_add_sum_map_filter_not (fun c => i.takesPart c = true), hidle, Nat.add_zero,
    (htaken.map _).sum_eq, List.map_congr_left hgroup]

theorem CycleInputs.groupSum_le (i : CycleInputs) (g : Fin 4) :
    groupSum i.cm.table g i.allocate.cmd ≤ i.cm.groups[g] * min i.vLast 1000 / 1000 := by
  rw [CycleInputs.groupSum_eq]
  exact i.sum_foldl_fillChannel_le (i.fillOrder_nodup g) _

/-! ### All channels -/

/-- What makes the commands of an allocation safe, whatever its inputs are. -/
theorem CycleInputs.allocate_safe {i : CycleInputs} (h : EntryLaw i.cm.table) :
    (∀ c : Chan, CommandOk i.cm.table[c] i.allocate.cmd[c] ∧
      i.allocate.cmd[c] ≤ max (i.prev[c] + i.upStep c) (i.cm.table[c]).iMin) ∧
    (∀ g : Fin 4, groupSum i.cm.table g i.allocate.cmd ≤ i.cm.groups[g] * min i.vLast 1000 / 1000) ∧
    (i.mode ≠ .run ∨ i.allowance = 0 → ∀ c : Chan, i.allocate.cmd[c] = 0) ∧
    (∀ c : Chan, (i.cm.chan[c]).isOn = false → i.allocate.cmd[c] = 0) := by
  refine ⟨fun c => ⟨CycleInputs.allocate_commandOk h c, ?_⟩, i.groupSum_le, fun hnone c => ?_, fun c hoff => ?_⟩
  · exact (i.allocate_le_need c).trans (rampedNeed_le (i.target_eq_zero_or_iMin_le c)).2
  · have hneed := CycleInputs.need_of_used_zero (CycleInputs.used_eq_zero hnone) c
    exact Nat.eq_zero_of_le_zero (hneed ▸ i.allocate_le_need c)
  · exact (CycleInputs.allocate_of_not_takesPart (by rw [CycleInputs.takesPart, hoff, Bool.and_false])).1

/-- Settles O30: the commands are those of an allocation, which is safe over any inputs; a whole cycle start gathers
them together. -/
theorem commandsAreSafe : Obligations.CommandsAreSafe := by
  unfold Obligations.CommandsAreSafe
  refine ⟨fun s b hheld hsettled hlaw => ?whole, fun s i hheld hinputs hlaw =>
    ⟨_, exec_closeCycle hheld hinputs, CycleInputs.allocate_safe hlaw⟩⟩
  obtain ⟨t, w, hexec, hcycle, hover⟩ := exec_cycleStart_doesCycle hheld hsettled b
  obtain ⟨hcommands, hsums, hnone, hidle⟩ := CycleInputs.allocate_safe (i := w.inputs) (by rwa [hover.table])
  rw [← hcycle.cmd, ← hcycle.last] at hcommands hsums hnone hidle
  refine ⟨t, hexec, fun c => ?command, fun g => ?sum, fun h => hnone (h.imp (fun hrun => ?mode) hover.tripped),
    fun c hoff => hidle c (hover.off c hoff)⟩
  case command =>
    have hcommand := hcommands c
    unfold CycleInputs.upStep at hcommand
    simpa only [hover.table, hover.profiles, hover.prev, hover.rtc, hover.period] using hcommand
  case sum => simpa only [hover.table, hover.groups, hover.vLast] using hsums g
  case mode => rwa [hover.mode]

end Sys2Proof.Machine
end

