-- ==== Sys2Proof/Proofs/CycleOutcome.lean ====
section
/-! PROOFS. The contention record (O33), the setpoint frame (O34) and the status frame (O35) of a whole cycle start. -/

namespace Sys2Proof.Machine

/-! ### The contention record (R102, R103) -/

/-- A channel is noted exactly when it takes part and receives less than its need: what is left for it falls short of
the need, and a need that is met is a command of its own (R101, R102). -/
theorem CycleInputs.allocate_noted_iff (i : CycleInputs) (c : Chan) :
    i.allocate.noted[c] = (i.takesPart c && decide (i.allocate.cmd[c] < i.need c)) := by
  cases htakes : i.takesPart c with
  | false => exact (CycleInputs.allocate_of_not_takesPart htakes).2
  | true =>
    obtain ⟨hcmd, hnoted⟩ := CycleInputs.allocate_of_takesPart htakes
    have hneed := i.need_eq_zero_or_iMin_le c
    rw [hcmd, hnoted, Bool.true_and, decide_eq_decide]
    dsimp only [fillCommand]
    split <;> omega

/-- Outside RUN no channel takes part, and the record stays (R95, R110). -/
theorem CycleInputs.joinContention_of_not_run {i : CycleInputs} (h : i.mode ≠ .run) (old : Vector Bool 16) :
    joinContention old i.allocate.noted = old := by
  refine Vector.ext fun n hn => ?_
  have hidle : i.takesPart ⟨n, hn⟩ = false := by rw [CycleInputs.takesPart, decide_eq_false h, Bool.false_and]
  have hjoin := joinContention_getElem old i.allocate.noted ⟨n, hn⟩
  rw [(CycleInputs.allocate_of_not_takesPart hidle).2, Bool.or_false] at hjoin
  exact hjoin

/-- Settles O33: the record is joined by the channels noted, and its notice comes with the first of them. -/
theorem contentionRecord : Obligations.ContentionRecord := by
  unfold Obligations.ContentionRecord
  refine ⟨fun s u b hheld hsettled hu => ?cycle, fun s q hserves => ?read⟩
  case cycle =>
    subst hu
    obtain ⟨t, w, hexec, hcycle, hover⟩ := exec_cycleStart_doesCycle hheld hsettled b
    obtain ⟨-, -, -, -, hold, -⟩ := State.cycleBegun_kept hsettled b
    have hfmu := hcycle.fmu
    rw [hold] at hfmu
    refine ⟨t, w.inputs, hexec, hcycle.gathered, ?_⟩
    rw [hcycle.last, hcycle.cmd, hcycle.contention, hcycle.joined, hold]
    refine ⟨fun c => ?joins, fun hmode => ?stays, fun hempty hsome => ?notice, fun hquiet => ?quiet⟩
    case joins => rw [joinContention_getElem, CycleInputs.allocate_noted_iff]
    case stays => exact CycleInputs.joinContention_of_not_run (hover.mode.trans_ne hmode) _
    case notice => rw [hfmu, contentionNotice_of_joins hempty hsome, FaultModeUnit.withNotice_true]
    case quiet => rw [hfmu, contentionNotice_of_stays hquiet, FaultModeUnit.withNotice_false]
  case read =>
    exact ⟨_, rfl, State.serve_repliesTo (f := decideContentionRead) hserves (accepts := anyRequest) rfl⟩

/-! ### The setpoint frame (R106, R107) -/

/-- The setpoint frame of a whole cycle start, spelled out. -/
theorem State.setpointFrame_cycleBegun {s : State} (h : s.settled) (b : Bool) {w : ClosedCycle} (hw : w.inputs.Over s) :
    (s.cycleBegun b).setpointFrame w =
      buildFrame s.pu.ownStation s.pu.typeValue 0x30 0xFF (s.se.cycle + 1)
        (be 2 (s.se.cycle + 1).toNat ++ be 2 s.di.pendingTag.toNat ++ be 2 w.inputs.used ++
          [BitVec.ofNat 8 (16 * s.fmu.mode.code.toNat + s.rtc.state.code.toNat),
           BitVec.ofNat 8 ((List.finRange 16).filter fun c : Chan => decide (w.inputs.cm.chan[c] ≠ .off)).length] ++
          ((List.finRange 16).filter fun c : Chan => decide (w.inputs.cm.chan[c] ≠ .off)).flatMap fun c =>
            [(s.cm.table[c]).station, (w.inputs.order c).code] ++ be 2 w.cmd[c]) := by
  obtain ⟨hpu, -, -, hcycle, -⟩ := State.cycleBegun_kept h b
  simp only [← hw.mode, ← hw.rtc, ← hw.tag, ← hw.table, CycleInputs.used]
  unfold State.setpointFrame
  rw [CycleInputs.setpoint_payload, hpu, hcycle]
  rfl

/-- Settles O34: the frame is handed to port D as the cycle start found it, with the commands of its own allocation. -/
theorem setpointFrame : Obligations.SetpointFrame := by
  unfold Obligations.SetpointFrame
  intro s u b hheld hsettled hu
  subst hu
  obtain ⟨t, w, hexec, hcycle, hover⟩ := exec_cycleStart_doesCycle hheld hsettled b
  obtain ⟨hpu, -, -, -, -, hmode, -⟩ := State.cycleBegun_kept hsettled b
  have hframe := State.setpointFrame_cycleBegun hsettled b hover
  have hload := hcycle.load
  have htakes := hcycle.setpoint
  rw [hmode, hpu] at hload htakes
  rw [← hcycle.last, ← hcycle.allowance] at hframe
  exact ⟨t, w.inputs, _, hexec, hcycle.gathered, hover.mode, hover.rtc, hover.tag, hover.table, hframe, hload,
    hcycle.clock ▸ htakes⟩

/-! ### The status frame (R108, R109) -/

theorem be_length (k n : Nat) : (be k n).length = k := by
  induction k with
  | zero => rfl
  | succ k ih => rw [be, List.length_cons, ih]

/-- The payload is 26 bytes of the part's own and six for each of the sixteen channels (R175). -/
theorem StatusContent.payload_length (c : StatusContent) : c.payload.length = 122 := by
  simp only [StatusContent.payload, List.length_append, List.length_cons, List.length_nil, be_length,
    List.length_flatMap, List.map_const', List.length_finRange, List.sum_replicate]
  rfl

/-- Settles O35: the frame is built from the owners' records as the setpoint frame left them, which touches port D's
transmitter alone. -/
theorem statusFrame : Obligations.StatusFrame := by
  unfold Obligations.StatusFrame
  intro s u b hheld hsettled hu
  subst hu
  obtain ⟨t, w, hexec, hcycle, hover⟩ := exec_cycleStart_doesCycle hheld hsettled b
  obtain ⟨v, hshows, htakes⟩ := hcycle.status
  obtain ⟨hpu, hgm, hdi, hnumber, -, -, hmask, hrecord⟩ := State.cycleBegun_kept hsettled b
  have hfmu := hshows.fmu.trans hcycle.fmu
  have hlinks : v.pu.shown = (s.pu.u.up, s.pu.d.up, s.pu.g.up) := by
    rw [hshows.pu, ← hpu, ← hcycle.up]
    rfl
  refine ⟨t, w.inputs, v.statusFrame w .none, v.statusContent w .none, hexec, hcycle.gathered, ?frame,
    StatusContent.payload_length _, hshows.cycle.trans hnumber, hover.tag, hover.mode, hover.rtc, hover.active, hlinks,
    hcycle.allowance.symm, ?factor, ?vLast, ?fLast, ?summary, ?mask, ?count, ?head, ?dropped, ?fallback, ?gridLost,
    hcycle.contention.symm, fun d => ?blocks, ?handed⟩
  case frame =>
    unfold State.statusFrame
    rw [hshows.pu, hshows.cycle, hshows.supervisor, hpu, hdi, hnumber]
    rfl
  case factor | vLast | fLast | gridLost => rw [← hgm, ← hshows.gm]; rfl
  case summary => rw [← hshows.fmu]; rfl
  case mask => rw [← hmask]; exact congrArg (·.mask) hfmu
  case count => exact congrArg (·.faults.length) hfmu
  case head => exact congrArg (·.faults.head?.map fun e => (e.code, e.subject)) hfmu
  case dropped => exact congrArg (·.droppedTrip) hfmu
  case fallback => exact hshows.fallbackActive.trans (congrArg DemandIntake.fallbackActive hdi)
  case blocks =>
    rw [State.statusContent_blocks, hcycle.last, ← hrecord, ← hshows.rr, StatusReadings.none, Option.getD_none,
      ReportReceiver.shown_getElem]
    cases v.rr.record[d] <;> rfl
  case handed =>
    rw [hpu] at htakes
    exact hcycle.clock ▸ htakes

end Sys2Proof.Machine
end

