-- ==== Sys2Proof/Proofs/CycleParts.lean ====
section
/-! PROOFS. Each part of the Setpoint Engine's work absorbs the parts it would make itself, and the readings commute:
what the parts of a cycle start need to make the whole (O36). -/

namespace Sys2Proof.Machine

/-! ### Commands one after another -/

theorem State.afterAll_cons {s t : State} {c : Instr} (h : exec c s = .next t) (l : List Instr) :
    s.afterAll (c :: l) = t.afterAll l := by
  rw [State.afterAll, h]

theorem State.afterAll_append {s t : State} {l : List Instr} (h : s.afterAll l = some t) (l' : List Instr) :
    s.afterAll (l ++ l') = t.afterAll l' := by
  induction l generalizing s with
  | nil =>
    cases h
    rfl
  | cons c l ih =>
    rw [List.cons_append, State.afterAll]
    rw [State.afterAll] at h
    split at h
    · exact ih h
    · cases h
    · cases h

/-- What a CYCLE_START command does to a part that is not held in reset. -/
def State.cyclePart (s : State) : CyclePart → State
  | .whole true => s.settle.beginCycle.takeExpiry.settleReports.handStatusFrame
  | .whole false => s.settle.beginCycle.handStatusFrame.takeExpiry
  | .start => s.settle.beginCycle
  | .demands => s.readDemands
  | .standing => s.readStanding
  | .voltage => s.readVoltage
  | .request => s.requestChannels
  | .close => s.closeCycle
  | .setpoint => s.handSetpointFrame
  | .look o => s.lookAt o
  | .status => s.handStatusFrame
  | .reports => s.takeExpiry

theorem exec_cycleStart {s : State} (h : s.held = false) (p : CyclePart) :
    exec (.cycleStart p) s = .next (s.cyclePart p) := by
  refine congrArg Host.Outcome.next ((State.live_of_not_held h).trans ?_)
  cases p with
  | whole b => cases b <;> rfl
  | start | demands | standing | voltage | request | close | setpoint | look o | status | reports => rfl

theorem State.cyclePart_held (s : State) (p : CyclePart) : (s.cyclePart p).held = s.held := by
  cases p with
  | whole b => cases b <;> simp [State.cyclePart]
  | start | demands | standing | voltage | request | close | setpoint | look o | status | reports =>
    simp [State.cyclePart]

theorem State.afterAll_cycleStart {s : State} (h : s.held = false) (l : List CyclePart) :
    s.afterAll (l.map .cycleStart) = some (l.foldl State.cyclePart s) := by
  induction l generalizing s with
  | nil => rfl
  | cons p l ih =>
    rw [List.map_cons, State.afterAll_cons (exec_cycleStart h p), ih ((s.cyclePart_held p).trans h), List.foldl_cons]

/-- A part that does what others do one after another. -/
theorem State.afterAll_cycleStart_eq {s : State} {p : CyclePart} {l : List CyclePart} (h : s.held = false)
    (heq : s.cyclePart p = l.foldl State.cyclePart s) :
    s.afterAll [.cycleStart p] = s.afterAll (l.map .cycleStart) :=
  (State.afterAll_cycleStart h [p]).trans ((congrArg some heq).trans (State.afterAll_cycleStart h l).symm)

/-! ### The readings (R93) -/

/-- Work in progress either gathers inputs or does not. -/
theorem State.gathering_ind {P : State → Prop}
    (gathering : ∀ (s : State) (g : Gathering), P (s.atWork (.gathering g)))
    (other : ∀ s : State, (∀ g, s.se.work ≠ .gathering g) → P s) (s : State) : P s := by
  by_cases h : ∃ g, s.se.work = .gathering g
  · obtain ⟨g, hg⟩ := h
    have heq : s = s.atWork (.gathering g) := by rw [← hg]; rfl
    rw [heq]
    exact gathering s g
  · exact other s fun g hg => h ⟨g, hg⟩

/-- The three readings may come in any order. -/
theorem State.readings_comm (s : State) : s.readStanding.readDemands = s.readDemands.readStanding ∧
    s.readVoltage.readDemands = s.readDemands.readVoltage ∧
    s.readVoltage.readStanding = s.readStanding.readVoltage := by
  cases s using State.gathering_ind with
  | gathering s g =>
    obtain ⟨demands, standing, vLast, _⟩ := g
    refine ⟨?_, ?_, ?_⟩
    · cases demands <;> cases standing <;> rfl
    · cases demands <;> cases vLast <;> rfl
    · cases standing <;> cases vLast <;> rfl
  | other s h =>
    rw [State.readDemands_of_not_gathering h, State.readStanding_of_not_gathering h,
      State.readVoltage_of_not_gathering h, State.readDemands_of_not_gathering h, State.readStanding_of_not_gathering h]
    exact ⟨rfl, rfl, rfl⟩

/-- Each of them is made once. -/
theorem State.readings_idem (s : State) : s.readDemands.readDemands = s.readDemands ∧
    s.readStanding.readStanding = s.readStanding ∧ s.readVoltage.readVoltage = s.readVoltage := by
  cases s using State.gathering_ind with
  | gathering s g =>
    obtain ⟨demands, standing, vLast, _⟩ := g
    refine ⟨?_, ?_, ?_⟩
    · cases demands <;> rfl
    · cases standing <;> rfl
    · cases vLast <;> rfl
  | other s h =>
    rw [State.readDemands_of_not_gathering h, State.readStanding_of_not_gathering h,
      State.readVoltage_of_not_gathering h, State.readDemands_of_not_gathering h, State.readStanding_of_not_gathering h,
      State.readVoltage_of_not_gathering h]
    exact ⟨rfl, rfl, rfl⟩

theorem State.foldl_readings_of_perm {l : List CyclePart} (h : l.Perm [.demands, .standing, .voltage]) (s : State) :
    l.foldl State.cyclePart s = [CyclePart.demands, .standing, .voltage].foldl State.cyclePart s := by
  refine h.foldl_eq' (fun p hp q hq z => ?_) s
  have hmem : ∀ r ∈ l, r = .demands ∨ r = .standing ∨ r = .voltage := fun r hr => by simpa using h.mem_iff.mp hr
  obtain ⟨hds, hdv, hsv⟩ := z.readings_comm
  rcases hmem p hp with rfl | rfl | rfl <;> rcases hmem q hq with rfl | rfl | rfl <;>
    simp only [State.cyclePart, hds, hdv, hsv]

/-! ### The request and the closing (R59, R93, R101) -/

/-- The request is made once, and v_last may be read before it or after. -/
theorem State.requestChannels_comm_idem (s : State) : s.requestChannels.requestChannels = s.requestChannels ∧
    s.readVoltage.requestChannels = s.requestChannels.readVoltage := by
  cases s using State.gathering_ind with
  | gathering s g =>
    obtain ⟨demands, standing, vLast, answer⟩ := g
    refine ⟨?_, ?_⟩
    · cases demands <;> cases standing <;> cases answer <;> rfl
    · cases demands <;> cases standing <;> cases vLast <;> cases answer <;> rfl
  | other s h =>
    rw [State.readVoltage_of_not_gathering h, State.requestChannels_of_not_gathering h,
      State.requestChannels_of_not_gathering h, State.readVoltage_of_not_gathering h]
    exact ⟨rfl, rfl⟩

/-- A request makes the two readings it carries. -/
theorem State.requestChannels_of_read (s : State) :
    s.readDemands.readStanding.requestChannels = s.requestChannels := by
  obtain ⟨hcomm, -⟩ := s.readDemands.readings_comm
  obtain ⟨hdemands, -⟩ := s.readings_idem
  obtain ⟨-, hstanding, -⟩ := s.readDemands.readings_idem
  unfold State.requestChannels
  rw [hcomm, hdemands, hstanding]

/-- A closing makes the request and the reading it needs. -/
theorem State.closeCycle_of_gather (s : State) : s.requestChannels.readVoltage.closeCycle = s.closeCycle := by
  obtain ⟨hidem, hcomm⟩ := s.requestChannels_comm_idem
  obtain ⟨-, -, hvoltage⟩ := s.requestChannels.readings_idem
  obtain ⟨-, hcomm'⟩ := s.requestChannels.requestChannels_comm_idem
  unfold State.closeCycle
  rw [hvoltage, hcomm', hidem, hcomm]

theorem State.closeCycle_of_parts (s : State) :
    s.readDemands.readStanding.readVoltage.requestChannels.closeCycle = s.closeCycle := by
  obtain ⟨-, hcomm⟩ := s.readDemands.readStanding.requestChannels_comm_idem
  rw [hcomm, State.requestChannels_of_read, State.closeCycle_of_gather]

/-- All inputs are gathered before an allocation is closed. -/
theorem State.closeCycle_work_ne (s : State) (g : Gathering) : s.closeCycle.se.work ≠ .gathering g := by
  cases s using State.gathering_ind with
  | gathering s g =>
    obtain ⟨demands, standing, vLast, answer⟩ := g
    obtain ⟨i, hi⟩ : ∃ i, (s.atWork (.gathering ⟨demands, standing, vLast, answer⟩)).gathered = some i := by
      cases demands <;> cases standing <;> cases vLast <;> cases answer <;> exact ⟨_, rfl⟩
    rw [State.closeCycle_of_gathered hi, State.closeAllocation_work]
    simp
  | other s h =>
    rw [State.closeCycle_of_not_gathering h]
    exact h g

theorem State.closeCycle_idem (s : State) : s.closeCycle.closeCycle = s.closeCycle :=
  State.closeCycle_of_not_gathering s.closeCycle_work_ne

/-! ### The frames (R106 to R109) -/

theorem State.handSetpointFrame_of_close (s : State) : s.closeCycle.handSetpointFrame = s.handSetpointFrame := by
  unfold State.handSetpointFrame
  rw [State.closeCycle_idem]

theorem State.handSetpointFrame_of_idle {s : State} (h : s.se.work = .idle) : s.handSetpointFrame = s := by
  unfold State.handSetpointFrame
  rw [State.closeCycle_of_not_gathering (by simp [h])]
  simp only [h]

/-- Once the setpoint frame has been handed, the status frame is being built, or there is no work. -/
theorem State.handSetpointFrame_work (s : State) :
    s.handSetpointFrame.se.work = .idle ∨ ∃ w v, s.handSetpointFrame.se.work = .building w v := by
  rw [← State.handSetpointFrame_of_close]
  cases hwork : s.closeCycle.se.work with
  | gathering g => exact absurd hwork (s.closeCycle_work_ne g)
  | closed w =>
    obtain ⟨d, hset, -⟩ := State.handSetpointFrame_of_closed hwork
    rw [hset]
    exact .inr ⟨w, _, rfl⟩
  | building w v => rw [State.handSetpointFrame_of_building hwork]; exact .inr ⟨w, v, hwork⟩
  | idle => rw [State.handSetpointFrame_of_idle hwork]; exact .inl hwork

theorem State.handSetpointFrame_idem (s : State) : s.handSetpointFrame.handSetpointFrame = s.handSetpointFrame := by
  rcases s.handSetpointFrame_work with hwork | ⟨w, v, hwork⟩
  · exact State.handSetpointFrame_of_idle hwork
  · exact State.handSetpointFrame_of_building hwork

theorem State.lookAt_of_setpoint (s : State) (o : StatusOwner) : s.handSetpointFrame.lookAt o = s.lookAt o := by
  unfold State.lookAt
  rw [State.handSetpointFrame_idem]

theorem State.handStatusFrame_of_setpoint (s : State) : s.handSetpointFrame.handStatusFrame = s.handStatusFrame := by
  unfold State.handStatusFrame
  rw [State.handSetpointFrame_idem]

/-- What an owner shows when it is looked at is what the status frame would show without the look. -/
theorem State.statusContent_readOwner (s : State) (w : ClosedCycle) (o : StatusOwner) (v : StatusReadings) :
    s.statusContent w (s.readOwner o v) = s.statusContent w v := by
  cases o <;> rfl

theorem State.statusFrame_readOwner (s : State) (w : ClosedCycle) (o : StatusOwner) (v : StatusReadings)
    (x : CycleWork) : (s.atWork x).statusFrame w (s.readOwner o v) = s.statusFrame w v := by
  have hcontent : (s.atWork x).statusContent w (s.readOwner o v) = s.statusContent w (s.readOwner o v) := rfl
  unfold State.statusFrame
  rw [hcontent, State.statusContent_readOwner]
  rfl

/-- With nothing between them, a look changes nothing of the status frame (R109). -/
theorem State.handStatusFrame_of_look (s : State) (o : StatusOwner) :
    (s.lookAt o).handStatusFrame = s.handStatusFrame := by
  rw [← State.handStatusFrame_of_setpoint s, ← State.lookAt_of_setpoint]
  rcases s.handSetpointFrame_work with hwork | ⟨w, v, hwork⟩
  · have hlook : s.handSetpointFrame.lookAt o = s.handSetpointFrame := by
      unfold State.lookAt
      rw [State.handSetpointFrame_idem]
      simp only [hwork]
    rw [hlook]
  · generalize s.handSetpointFrame = u at *
    rw [State.lookAt_eq o hwork, State.handStatusFrame_eq hwork, State.handStatusFrame_eq (s := u.atWork _) rfl,
      State.statusFrame_readOwner]
    rfl

theorem State.handStatusFrame_work (s : State) : s.handStatusFrame.se.work = .idle := by
  rw [← State.handStatusFrame_of_setpoint]
  rcases s.handSetpointFrame_work with hwork | ⟨w, v, hwork⟩
  · rw [State.handStatusFrame_of_idle hwork, hwork]
  · rw [State.handStatusFrame_eq hwork]
    rfl

theorem State.handStatusFrame_of_close (s : State) : s.closeCycle.handStatusFrame = s.handStatusFrame := by
  rw [← State.handStatusFrame_of_setpoint, State.handSetpointFrame_of_close, State.handStatusFrame_of_setpoint]

end Sys2Proof.Machine
end

