-- ==== Sys2Proof/Proofs/PartsMakeWhole.lean ====
section
/-! PROOFS. The parts of a cycle start, of a report, of a loss test and of a trip make the whole (O36). -/

namespace Sys2Proof.Machine

/-! ### The Report Receiver's work (R120, R124) -/

/-- Whatever work was in progress, of the Report Receiver's records only the work changes when it is finished. -/
theorem State.finishReport_rr (s : State) : s.finishReport.rr = { s.rr with work := .idle } := by
  cases hwork : s.rr.work with
  | idle => rw [State.finishReport_of_idle hwork, ← hwork]
  | decided events faults forward =>
    have hhanded : s.handEvents.rr = { s.rr with work := .handed faults forward } := by rw [State.handEvents_eq hwork]
    rw [State.finishReport_of_decided hwork]
    obtain ⟨-, hrr, -⟩ := State.finishReport_finishes (congrArg ReportReceiver.work hhanded)
    rw [hrr, hhanded]
  | handed faults forward =>
    obtain ⟨-, hrr, -⟩ := State.finishReport_finishes hwork
    exact hrr

theorem State.finishReport_idem (s : State) : s.finishReport.finishReport = s.finishReport :=
  State.finishReport_of_idle (by rw [State.finishReport_rr])

theorem State.settleReports_of_finished (s : State) : s.finishReport.settleReports = s.settleReports := by
  unfold State.settleReports
  rw [State.finishReport_idem]

/-- Settling ends the work, makes the loss test, and leaves the expiry to be taken as it was. -/
theorem State.settleReports_rr (s : State) : s.settleReports.rr.work = .idle ∧ s.settleReports.rr.testDue = none ∧
    s.settleReports.rr.expiryDue = s.rr.expiryDue := by
  have hloss : s.finishReport.decideLoss.rr.testDue = none ∧
      s.finishReport.decideLoss.rr.expiryDue = s.finishReport.rr.expiryDue := by
    cases htest : s.finishReport.rr.testDue with
    | none => rw [State.decideLoss_of_none htest]; exact ⟨htest, rfl⟩
    | some limit => rw [State.decideLoss_eq htest]; exact ⟨rfl, rfl⟩
  obtain ⟨htest, hexpiry⟩ := hloss
  unfold State.settleReports
  rw [State.finishReport_rr s.finishReport.decideLoss]
  refine ⟨rfl, htest, hexpiry.trans ?_⟩
  rw [State.finishReport_rr]

theorem State.takeExpiry_expiryDue (s : State) : s.takeExpiry.rr.expiryDue = false := by
  cases hdue : s.rr.expiryDue with
  | false => rw [State.takeExpiry_of_not_due hdue, hdue]
  | true => rw [State.takeExpiry, if_pos hdue]

theorem State.takeExpiry_testDue {s : State} (h : s.rr.expiryDue = true) : s.takeExpiry.rr.testDue.isSome = true := by
  rw [State.takeExpiry, if_pos h]
  rfl

theorem State.settle_settled (s : State) : s.settle.settled := by
  obtain ⟨hwork, htest, hexpiry⟩ := s.handStatusFrame.takeExpiry.settleReports_rr
  rw [State.takeExpiry_expiryDue] at hexpiry
  refine ⟨?_, hwork, htest, hexpiry⟩
  unfold State.settle
  rw [State.settleReports_se, State.takeExpiry_se, State.handStatusFrame_work]

theorem exec_reportTaken_finish {s : State} (h : s.held = false) :
    exec (.reportTaken .finish) s = .next (if s.rr.work.isReport then s.finishReport else s) :=
  congrArg Host.Outcome.next (State.live_of_not_held h)

theorem exec_reportLoss_finish {s : State} (h : s.held = false) :
    exec (.reportLoss .finish) s = .next (if s.rr.work.isLossTest then s.finishReport else s) :=
  congrArg Host.Outcome.next (State.live_of_not_held h)

theorem exec_reportLoss {s : State} (h : s.held = false) :
    exec (.reportLoss .whole) s = .next (if s.rr.testDue.isSome then s.settleReports else s) :=
  congrArg Host.Outcome.next (State.live_of_not_held h)

theorem ReportWork.eq_idle {w : ReportWork} (hreport : w.isReport = false) (hloss : w.isLossTest = false) :
    w = .idle := by
  cases w with
  | idle => rfl
  | decided events faults forward | handed faults forward =>
    cases forward with
    | none => cases hloss
    | some f => cases hreport

/-- One of the two commands finishes the work in progress, whichever it is for. -/
theorem State.afterAll_finish {s : State} (h : s.held = false) (l : List Instr) :
    s.afterAll (.reportTaken .finish :: .reportLoss .finish :: l) = s.finishReport.afterAll l := by
  have hdone : s.finishReport.rr.work = .idle := by rw [State.finishReport_rr]
  have hheld : s.finishReport.held = false := s.finishReport_held.trans h
  rw [State.afterAll_cons (exec_reportTaken_finish h)]
  cases hreport : s.rr.work.isReport with
  | true =>
    rw [if_pos rfl, State.afterAll_cons (exec_reportLoss_finish hheld), hdone]
    rfl
  | false =>
    rw [if_neg Bool.false_ne_true, State.afterAll_cons (exec_reportLoss_finish h)]
    cases hloss : s.rr.work.isLossTest with
    | true => rfl
    | false => rw [State.finishReport_of_idle (ReportWork.eq_idle hreport hloss)]; rfl

/-- The commands that end the work in progress before a cycle start. -/
def settlingCommands : List Instr :=
  [.cycleStart .status, .cycleStart .reports, .reportTaken .finish, .reportLoss .finish, .reportLoss .whole]

/-- They end it as each cycle start does (R92, R120, R124). -/
theorem State.afterAll_settlingCommands {s : State} (h : s.held = false) :
    s.afterAll settlingCommands = some s.settle := by
  have hstatus : s.handStatusFrame.held = false := s.handStatusFrame_held.trans h
  have hexpiry : s.handStatusFrame.takeExpiry.held = false := (State.takeExpiry_held _).trans hstatus
  unfold settlingCommands State.settle
  rw [State.afterAll_cons (exec_handStatusFrame h), State.afterAll_cons (exec_takeExpiry hstatus),
    State.afterAll_finish hexpiry]
  generalize s.handStatusFrame.takeExpiry = u at *
  rw [State.afterAll_cons (exec_reportLoss (u.finishReport_held.trans hexpiry)), State.settleReports_of_finished]
  cases htest : u.finishReport.rr.testDue with
  | some limit => rfl
  | none =>
    have hidle : u.finishReport.rr.work = .idle := by rw [State.finishReport_rr]
    rw [← State.settleReports_of_finished, State.settleReports_of_idle hidle htest]
    rfl

/-- A cycle start does to a settled part what it does to any. -/
theorem State.cyclePart_of_settle {p : CyclePart} (hp : p = .start ∨ ∃ b, p = .whole b) (s : State) :
    s.settle.cyclePart p = s.cyclePart p := by
  have hidem := State.settle_of_settled s.settle_settled
  rcases hp with rfl | ⟨b, rfl⟩
  · simp only [State.cyclePart, hidem]
  · cases b <;> simp only [State.cyclePart, hidem]

/-! ### A report and a loss test in parts (R120, R124) -/

theorem exec_reportLoss_decide {s : State} (h : s.held = false) :
    exec (.reportLoss .decide) s = .next (if s.rr.testDue.isSome then s.finishReport.decideLoss else s) :=
  congrArg Host.Outcome.next (State.live_of_not_held h)

/-- Work that has been decided is handed and finished by the two commands for it. -/
theorem State.afterAll_hand_finish {s : State} (h : s.held = false) {events : Vector (Option ChannelEvent) 16}
    {faults : List Raising} {forward : Option Frame} (hwork : s.rr.work = .decided events faults forward)
    {hand finish : Instr} (hhand : hand = if forward.isSome then .reportTaken .hand else .reportLoss .hand)
    (hfinish : finish = if forward.isSome then .reportTaken .finish else .reportLoss .finish) :
    s.afterAll [hand, finish] = some s.finishReport := by
  have hhanded : s.handEvents.rr.work = .handed faults forward := by rw [State.handEvents_eq hwork]
  rw [State.afterAll_cons (exec_handEvents h hwork hhand),
    State.afterAll_cons (exec_finishReport (s.handEvents_held.trans h) hhanded hfinish),
    State.finishReport_of_decided hwork]
  rfl

theorem State.takeReport_work {s : State} (h : s.rr.handed ≠ []) :
    ∃ events faults f, s.takeReport.rr.work = .decided events faults (some f) := by
  unfold State.takeReport
  split
  · exact absurd ‹_› h
  · exact ⟨_, _, _, rfl⟩

theorem State.reportTaken_parts {s : State} (hheld : s.held = false) (h : s.rr.handed ≠ []) :
    s.afterAll [.reportTaken .whole] = s.afterAll [.reportTaken .decide, .reportTaken .hand, .reportTaken .finish] := by
  obtain ⟨events, faults, f, hwork⟩ := State.takeReport_work h
  rw [State.afterAll_cons (exec_reportTaken hheld h), State.afterAll_cons (exec_reportDecide hheld)]
  exact (State.afterAll_hand_finish (s.takeReport_held.trans hheld) hwork rfl rfl).symm

theorem State.reportLoss_parts {s : State} (hheld : s.held = false) (h : s.rr.testDue ≠ none) :
    s.afterAll [.reportLoss .whole] = s.afterAll [.reportLoss .decide, .reportLoss .hand, .reportLoss .finish] := by
  obtain ⟨limit, hlimit⟩ := Option.ne_none_iff_exists'.mp h
  have hdue : s.rr.testDue.isSome = true := by rw [hlimit]; rfl
  have htest : s.finishReport.rr.testDue = some limit := by rw [State.finishReport_rr]; exact hlimit
  have hwork := congrArg (·.rr.work) (State.decideLoss_eq htest)
  have hdecided : s.finishReport.decideLoss.held = false := by simpa using hheld
  rw [State.afterAll_cons (exec_reportLoss hheld), State.afterAll_cons (exec_reportLoss_decide hheld), if_pos hdue,
    if_pos hdue]
  exact (State.afterAll_hand_finish hdecided hwork rfl rfl).symm

/-! ### A trip in parts (R40, R111) -/

section
variable {s : State} {code : FaultCode}

theorem State.takeRaising_of_none (h : ∀ x ∈ s.fmu.handed, x.code ≠ code) : s.takeRaising code = s := by
  have hfind : s.fmu.handed.find? (fun r => decide (r.code = code)) = none :=
    List.find?_eq_none.mpr fun x hx => by simpa using h x hx
  unfold State.takeRaising
  rw [hfind]

/-- A raising that is handed and taken with nothing between is raised. -/
theorem State.takeRaising_handRaising {r : Raising} (h : ∀ x ∈ s.fmu.handed, x.code ≠ r.code) :
    (s.handRaising r).takeRaising r.code = s.raise r := by
  have hnone : ∀ x ∈ s.fmu.handed, ¬decide (x.code = r.code) = true := fun x hx => by simpa using h x hx
  have hfind : (s.fmu.handed ++ [r]).find? (fun x => decide (x.code = r.code)) = some r := by
    rw [List.find?_append, List.find?_eq_none.mpr hnone]
    simp
  have herase : (s.fmu.handed ++ [r]).eraseP (fun x => decide (x.code = r.code)) = s.fmu.handed := by
    rw [List.eraseP_append_right _ hnone]
    simp
  unfold State.takeRaising State.handRaising
  dsimp only
  rw [hfind, herase]

/-- The trip by an expiry: a stopped timer hands nothing to take. -/
theorem State.tripOn_parts (t : Timer) (h : ∀ x ∈ s.fmu.handed, x.code ≠ code) :
    (s.tripOn code t .trip).takeRaising code = s.tripOn code t .whole := by
  cases t with
  | none => exact State.takeRaising_of_none h
  | some m => exact State.takeRaising_handRaising (r := tripFault code) h

/-- The trip by a repeated sag, which alone raises something: the record falls before the raising (R162). -/
theorem State.takeValidFrame_parts (h : ∀ x ∈ s.fmu.handed, x.code ≠ .repeatedSag) (f : GridSample) (b : Bool) :
    (s.takeValidFrame f b true).takeRaising .repeatedSag = s.takeValidFrame f false false := by
  unfold State.takeValidFrame
  dsimp only
  split
  · exact State.takeRaising_handRaising (r := tripFault .repeatedSag) h
  · exact State.takeRaising_of_none h

theorem State.takeSample_parts (h : ∀ x ∈ s.fmu.handed, x.code ≠ .repeatedSag) (b : Bool) :
    (s.takeSample b true).takeRaising .repeatedSag = s.takeSample false false := by
  have hframe : ∀ (u : State) (f : GridSample), (∀ x ∈ u.fmu.handed, x.code ≠ .repeatedSag) →
      (u.takeGridFrame f b true).takeRaising .repeatedSag = u.takeGridFrame f false false := by
    intro u f hu
    unfold State.takeGridFrame
    cases u.gm.outcome f with
    | valid => exact State.takeValidFrame_parts hu f b
    | foreign | stale | invalid => exact State.takeRaising_of_none hu
  unfold State.takeSample
  cases s.gm.handed with
  | nil => exact State.takeRaising_of_none h
  | cons f rest => exact hframe _ f h

end

/-- A command makes what two do, one after the other. -/
theorem State.afterAll_of_pair {s t u : State} {c c₁ c₂ : Instr} (h₁ : exec c₁ s = .next t) (h₂ : exec c₂ t = .next u)
    (h : exec c s = .next u) : s.afterAll [c] = s.afterAll [c₁, c₂] := by
  rw [State.afterAll_cons h, State.afterAll_cons h₁, State.afterAll_cons h₂]

theorem exec_envelopeExit {s : State} (h : s.held = false) (i : Row) (part : TripPart) :
    exec (.envelopeExit i part) s = .next (s.tripOn .envelopeExit s.rtc.dwellTimers[i] part) :=
  congrArg Host.Outcome.next (State.live_of_not_held h)

theorem exec_swellExit {s : State} (h : s.held = false) (part : TripPart) :
    exec (.swellExit part) s = .next (s.tripOn .swellExit s.rtc.swellTimer part) :=
  congrArg Host.Outcome.next (State.live_of_not_held h)

theorem exec_gridSampleTaken_parts {s : State} (h : s.held = false) (b : Bool) :
    exec (.gridSampleTaken b) s = .next (s.takeSample b false) ∧
    exec (.gridSampleTaken b .trip) s = .next (s.takeSample b true) ∧
    exec (.gridSampleTaken b .raise) s = .next (s.takeRaising .repeatedSag) :=
  ⟨congrArg Host.Outcome.next (State.live_of_not_held h), congrArg Host.Outcome.next (State.live_of_not_held h),
    congrArg Host.Outcome.next (State.live_of_not_held h)⟩

/-- No frame that is taken puts the part in reset. -/
@[simp] theorem State.takeValidFrame_held (s : State) (f : GridSample) (b raisingHeld : Bool) :
    (s.takeValidFrame f b raisingHeld).held = s.held := by
  unfold State.takeValidFrame
  dsimp only
  split
  · cases raisingHeld <;> cases b <;> simp
  · simp

@[simp] theorem State.takeGridFrame_held (s : State) (f : GridSample) (b raisingHeld : Bool) :
    (s.takeGridFrame f b raisingHeld).held = s.held := by
  unfold State.takeGridFrame State.takeInvalidFrame
  split <;> simp

@[simp] theorem State.takeSample_held (s : State) (b raisingHeld : Bool) :
    (s.takeSample b raisingHeld).held = s.held := by
  unfold State.takeSample
  split <;> simp

/-- Settles O36: a part absorbs the earlier parts it makes, and the readings commute. -/
theorem partsMakeTheWhole : Obligations.PartsMakeTheWhole := by
  unfold Obligations.PartsMakeTheWhole
  intro s hheld
  have hcycle := State.afterAll_cycleStart hheld
  refine ⟨fun l hl => ?settle, ?second, ?first, fun l hl => ?perm, ?request, ?close, ?setpoint, fun o => ?look, ?status,
    fun i h => ?envelope, fun h => ?swell, fun b h => ?sample, State.reportTaken_parts hheld,
    State.reportLoss_parts hheld⟩
  case settle =>
    have hsettles : s.afterAll l = some s.settle := by rw [hl]; exact State.afterAll_settlingCommands hheld
    refine ⟨⟨_, hsettles, s.settle_settled, State.settle_of_settled⟩, fun p hp => ?_⟩
    rw [State.afterAll_append hsettles]
    refine (hcycle [p]).trans (.trans ?_ (State.afterAll_cycleStart (s.settle_held.trans hheld) [p]).symm)
    exact congrArg some (State.cyclePart_of_settle hp s).symm
  case second =>
    refine State.afterAll_cycleStart_eq hheld ?_
    simp only [List.foldl_cons, List.foldl_nil, State.cyclePart, State.handStatusFrame_of_look,
      State.handStatusFrame_of_setpoint, State.closeCycle_of_parts, State.handStatusFrame_of_close]
  case first =>
    have hbegun : s.settle.beginCycle.held = false := s.settle_held.trans hheld
    have htest := State.takeExpiry_testDue (s := s.settle.beginCycle) rfl
    have hexpiry : s.settle.beginCycle.takeExpiry.held = false := (State.takeExpiry_held _).trans hbegun
    rw [State.afterAll_cons (exec_cycleStart hheld _), State.afterAll_cons (exec_cycleStart hheld _)]
    dsimp only [State.cyclePart]
    rw [State.afterAll_cons (exec_takeExpiry hbegun), State.afterAll_cons (exec_reportLoss hexpiry), if_pos htest,
      State.afterAll_cons (exec_handStatusFrame ((State.settleReports_held _).trans hexpiry))]
  case perm => rw [hcycle, hcycle, State.foldl_readings_of_perm hl]
  case request => exact State.afterAll_cycleStart_eq hheld s.requestChannels_of_read.symm
  case close => exact State.afterAll_cycleStart_eq hheld s.closeCycle_of_gather.symm
  case setpoint => exact State.afterAll_cycleStart_eq hheld s.handSetpointFrame_of_close.symm
  case look => exact State.afterAll_cycleStart_eq hheld (s.lookAt_of_setpoint o).symm
  case status => exact State.afterAll_cycleStart_eq hheld s.handStatusFrame_of_setpoint.symm
  case envelope =>
    refine State.afterAll_of_pair (exec_envelopeExit hheld i .trip)
      (exec_envelopeExit ((State.tripOn_held ..).trans hheld) i .raise) ((exec_envelopeExit hheld i .whole).trans ?_)
    exact congrArg Host.Outcome.next (State.tripOn_parts _ h).symm
  case swell =>
    refine State.afterAll_of_pair (exec_swellExit hheld .trip)
      (exec_swellExit ((State.tripOn_held ..).trans hheld) .raise) ((exec_swellExit hheld .whole).trans ?_)
    exact congrArg Host.Outcome.next (State.tripOn_parts _ h).symm
  case sample =>
    obtain ⟨hwhole, -, -⟩ := exec_gridSampleTaken_parts hheld false
    obtain ⟨-, htrip, -⟩ := exec_gridSampleTaken_parts hheld b
    obtain ⟨-, -, hraise⟩ := exec_gridSampleTaken_parts ((s.takeSample_held b true).trans hheld) b
    refine State.afterAll_of_pair htrip hraise (hwhole.trans ?_)
    exact congrArg Host.Outcome.next (State.takeSample_parts h b).symm

end Sys2Proof.Machine
end

