-- ==== Sys2Proof/Proofs/ReportLoss.lean ====
section
/-! PROOFS. The loss test of a taken cycle start, made whole (O41). -/

namespace Sys2Proof.Machine

/-! ### What the test leaves -/

/-- The REPORT LOSS raisings of the channels that a loss test with limit `limit` finds lost, in ascending order. -/
def State.losses (s : State) (limit : Nat) : List Raising :=
  ((List.finRange 16).filter fun c => s.isLost limit c).map reportLossOf

/-- The Channel Manager after the fault events of a loss test with limit `limit`. -/
def State.faultLost (s : State) (limit : Nat) : ChannelManager :=
  s.cm.takeEvents fun c => if s.isLost limit c then some .fault else none

theorem State.losses_cls {s : State} {limit : Nat} : ∀ r ∈ s.losses limit, r.cls ≠ .trip := by
  intro r hr
  obtain ⟨c, -, rfl⟩ := List.mem_map.mp hr
  simp [reportLossOf]

theorem State.faultLost_table (s : State) (limit : Nat) : (s.faultLost limit).table = s.cm.table :=
  (s.cm.takeEvents_sameTables _).table.1

/-- Only a channel that is on is found lost, so each one that is takes its fault event (R66). -/
theorem State.faultLost_chan (s : State) (limit : Nat) (c : Chan) :
    (s.faultLost limit).chan[c] = if s.isLost limit c then .faulted else s.cm.chan[c] := by
  have hevent : (s.faultLost limit).chan[c] =
      afterEvent s.cm.chan[c] (if s.isLost limit c then some .fault else none) :=
    (congrArg ChannelView.st (s.cm.takeEvents_view _ c)).trans (ChannelView.to_st _ _)
  rw [hevent]
  cases hlost : s.isLost limit c with
  | false => rfl
  | true =>
    obtain ⟨-, hon, -⟩ := State.isLost_iff.mp hlost
    exact if_pos hon

/-- A loss test that is due, with no work in progress, made whole: none of its raisings is TRIP-class, so they only
enter the fault list (R124, R136). -/
theorem State.settleReports_of_testDue {s : State} {limit : Nat} (htest : s.rr.testDue = some limit)
    (hwork : s.rr.work = .idle) :
    s.settleReports = { s with
      cm := s.faultLost limit
      rr := { s.rr with testDue := none, mark := Vector.ofFn fun c => s.isLost limit c || s.rr.mark[c] }
      fmu := s.fmu.recordAll (s.losses limit) s.timeBase s.gm.seqState } := by
  have hdecided : s.decideLoss.rr.work =
      .decided (Vector.ofFn fun c => if s.isLost limit c then some .fault else none) (s.losses limit) none := by
    rw [State.decideLoss_eq htest, State.losses]
  have hhanded : s.decideLoss.handEvents.rr.work = .handed (s.losses limit) none := by
    rw [State.handEvents_eq hdecided]
  unfold State.settleReports
  rw [State.finishReport_of_idle hwork, State.finishReport_of_decided hdecided,
    State.finishReport_of_handed_none hhanded, State.raiseAll_eq_record State.losses_cls, State.reportsIdle,
    State.handEvents_eq hdecided, State.decideLoss_eq htest]
  simp only [State.faultLost, Fin.getElem_fin, Vector.getElem_ofFn, hwork]
  rfl

/-! ### The test is made once (R120) -/

/-- What is settled stays settled. -/
theorem State.settleReports_idem (s : State) : s.settleReports.settleReports = s.settleReports := by
  obtain ⟨hwork, htest, -⟩ := s.settleReports_rr
  exact State.settleReports_of_idle hwork htest

/-- Settling takes no report. -/
theorem State.settleReports_handed (s : State) : s.settleReports.rr.handed = s.rr.handed := by
  have hloss : ∀ w : State, w.decideLoss.rr.handed = w.rr.handed := fun w => by
    cases htest : w.rr.testDue with
    | none => rw [State.decideLoss_of_none htest]
    | some limit => rw [State.decideLoss_eq htest]
  unfold State.settleReports
  rw [State.finishReport_rr s.finishReport.decideLoss, hloss, State.finishReport_rr s]

/-- The next report settles first, so it finds nothing left to settle. -/
theorem State.takeReport_of_settleReports {s : State} (h : s.rr.handed ≠ []) :
    s.settleReports.takeReport = s.takeReport := by
  cases hhanded : s.rr.handed with
  | nil => exact absurd hhanded h
  | cons r rest =>
    unfold State.takeReport
    rw [State.settleReports_handed, hhanded]
    simp only [State.settleReports_idem]

/-- So does the next expiry. -/
theorem State.takeExpiry_of_settleReports {s : State} (h : s.rr.expiryDue = true) :
    s.settleReports.takeExpiry = s.takeExpiry := by
  obtain ⟨-, -, hdue⟩ := s.settleReports_rr
  unfold State.takeExpiry
  rw [hdue, h, if_pos rfl, if_pos rfl, State.settleReports_idem]

/-- And so does the next cycle start, whether or not an expiry is due before it. -/
theorem State.settle_of_settleReports {s : State} (h : s.se.work = .idle) : s.settleReports.settle = s.settle := by
  have hwork : s.settleReports.se.work = .idle := by rw [State.settleReports_se, h]
  unfold State.settle
  rw [State.handStatusFrame_of_idle h, State.handStatusFrame_of_idle hwork]
  cases hdue : s.rr.expiryDue with
  | true => rw [State.takeExpiry_of_settleReports hdue]
  | false =>
    obtain ⟨-, -, hdue'⟩ := s.settleReports_rr
    rw [State.takeExpiry_of_not_due hdue, State.takeExpiry_of_not_due (hdue'.trans hdue), State.settleReports_idem]

/-! ### REPORT_LOSS -/

theorem exec_reportLoss_of_none {s : State} (hheld : s.held = false) (htest : s.rr.testDue = none) :
    exec (.reportLoss .whole) s = .next s := by
  rw [exec_reportLoss hheld, htest]
  rfl

theorem exec_reportLoss_of_due {s : State} {limit : Nat} (hheld : s.held = false) (htest : s.rr.testDue = some limit) :
    exec (.reportLoss .whole) s = .next s.settleReports := by
  rw [exec_reportLoss hheld, htest]
  rfl

theorem State.changesOnly_cm_rr_fmu (s : State) (m : ChannelManager) (r : ReportReceiver) (f : FaultModeUnit) :
    s.changesOnly { s with cm := m, rr := r, fmu := f } [.cm, .rr, .fmu] := by
  intro p hp
  cases p with
  | cm | rr | fmu => simp at hp
  | held | clock | rtc | gm | di | se | cu | me | pu | pending => rfl

/-- Settles O41: the test is the settling of the Report Receiver's work, which its next event makes first. -/
theorem reportLoss : Obligations.ReportLoss := by
  unfold Obligations.ReportLoss
  refine ⟨fun s hheld htest => exec_reportLoss_of_none hheld htest, fun s limit hheld htest hwork => ?_⟩
  have hheld' : s.settleReports.held = false := s.settleReports_held.trans hheld
  have hsettled := State.settleReports_of_testDue htest hwork
  refine ⟨s.settleReports, exec_reportLoss_of_due hheld htest, ?changes, ?mode, ?rr, ?table, fun hhanded => ?report,
    fun hdue => ?expiry, fun hidle => ⟨?start, fun b => ?cycle⟩, fun lost hlost => ?lost⟩
  case changes =>
    rw [hsettled]
    exact s.changesOnly_cm_rr_fmu _ _ _
  case mode =>
    rw [hsettled]
    exact s.fmu.recordAll_mode _ _ _
  case rr => rw [hsettled]
  case table =>
    rw [hsettled]
    exact s.faultLost_table limit
  case report =>
    rw [exec_reportTaken hheld hhanded, exec_reportTaken hheld' (by rwa [State.settleReports_handed]),
      State.takeReport_of_settleReports hhanded]
  case expiry => rw [exec_takeExpiry hheld, exec_takeExpiry hheld', State.takeExpiry_of_settleReports hdue]
  case start =>
    rw [exec_cycleStart hheld, exec_cycleStart hheld']
    simp only [State.cyclePart, State.settle_of_settleReports hidle]
  case cycle =>
    rw [exec_cycleStart hheld, exec_cycleStart hheld']
    cases b <;> simp only [State.cyclePart, State.settle_of_settleReports hidle]
  case lost =>
    obtain rfl : lost = s.isLost limit := funext fun c => Bool.eq_iff_iff.mpr ((hlost c).trans State.isLost_iff.symm)
    rw [hsettled]
    refine ⟨fun c => ⟨s.faultLost_chan limit c, by simp⟩, ?_⟩
    dsimp only
    rw [FaultModeUnit.recordAll, State.losses, List.foldl_map]
    rfl

end Sys2Proof.Machine
end

