-- ==== Sys2Proof/Proofs/CaptureLaw.lean ====
section
/-! PROOFS. The capture buffer agrees with the capture state through every operation of the Capture Unit (R155 to R159).
-/

namespace Sys2Proof.Machine

/-! ### The law, state by state -/

section
variable {c : CaptureUnit}

theorem captureLaw_of_armed (h : c.state = .armed) :
    CaptureLaw c ↔ c.pPre ≤ 1023 ∧ c.buffer.length ≤ c.pPre ∧ c.trigPos = none ∧ c.trigPending = false := by
  simp only [CaptureLaw, h]

theorem captureLaw_of_pending (h : c.state = .triggered) (hp : c.trigPending = true) :
    CaptureLaw c ↔ c.pPre ≤ 1023 ∧ c.trigPos = none ∧ c.buffer.length ≤ c.pPre := by
  simp only [CaptureLaw, h, hp, true_and, Bool.true_eq_false, false_and, or_false]

theorem captureLaw_of_following (h : c.state = .triggered) (hp : c.trigPending = false) :
    CaptureLaw c ↔ c.pPre ≤ 1023 ∧ ∃ p, c.trigPos = some p ∧ p ≤ c.pPre ∧ p < c.buffer.length ∧
      c.buffer.length - p < Config.captureDepth - c.pPre := by
  simp only [CaptureLaw, h, hp, true_and, Bool.false_eq_true, false_and, false_or]

/-- From the trigger record on the buffer fills up, and the capture is complete when it has (R157). -/
theorem captureLaw_of_triggerRecord {p : Nat} (hpre : c.pPre ≤ 1023) (hpending : c.trigPending = false)
    (hpos : c.trigPos = some p) (hp : p ≤ c.pPre) (hlt : p < c.buffer.length)
    (hroom : c.buffer.length - p + c.pPre ≤ 1024)
    (hstate : c.state = if c.buffer.length - p + c.pPre < 1024 then .triggered else .complete) : CaptureLaw c := by
  by_cases hmore : c.buffer.length - p + c.pPre < 1024
  · rw [if_pos hmore] at hstate
    refine (captureLaw_of_following hstate hpending).mpr ⟨hpre, p, hpos, hp, hlt, ?_⟩
    simp only [Config.captureDepth]
    omega
  · rw [if_neg hmore] at hstate
    simp only [CaptureLaw, hstate]
    refine ⟨hpre, hpending, p, hpos, hp, ?_, hlt⟩
    simp only [Config.captureDepth]
    omega

/-- An empty buffer in IDLE. -/
theorem captureLaw_of_empty (hpre : c.pPre ≤ 1023) (hstate : c.state = .idle) (hbuffer : c.buffer = [])
    (hpos : c.trigPos = none) (hpending : c.trigPending = false) : CaptureLaw c := by
  simp only [CaptureLaw, hstate]
  exact ⟨hpre, hbuffer, hpos, hpending⟩

/-! ### The operations -/

/-- A trigger in ARMED waits for its record (R158); any other is only counted (R159). -/
theorem CaptureLaw.trigger (h : CaptureLaw c) (src : TriggerSource) : CaptureLaw (c.trigger src) := by
  by_cases harmed : c.state = .armed
  · obtain ⟨hpre, hlength, hpos, -⟩ := (captureLaw_of_armed harmed).mp h
    rw [CaptureUnit.trigger_of_armed src harmed]
    exact (captureLaw_of_pending rfl rfl).mpr ⟨hpre, hpos, hlength⟩
  · rw [CaptureUnit.trigger_of_not_armed src harmed]
    exact h

/-- The trigger record stands where the window ended (R157). -/
theorem captureLaw_of_window {w : CaptureUnit} (hpre : w.pPre ≤ 1023) (hpending : w.trigPending = false)
    (hpos : w.trigPos = some c.buffer.length) (hfit : c.buffer.length ≤ w.pPre)
    (hlength : w.buffer.length = c.buffer.length + 1)
    (hstate : w.state = if w.pPre < 1023 then .triggered else .complete) : CaptureLaw w := by
  have hone : w.buffer.length - c.buffer.length + w.pPre < 1024 ↔ w.pPre < 1023 := by omega
  refine captureLaw_of_triggerRecord hpre hpending hpos hfit (by omega) (by omega) ?_
  simp only [hone, hstate]

theorem CaptureLaw.takeRecord (h : CaptureLaw c) (r : CaptureRecord) (mark : Bool) :
    CaptureLaw (c.takeRecord r mark) := by
  cases hstate : c.state with
  | idle =>
    rw [CaptureUnit.takeRecord_of_discarding r mark (.inl hstate)]
    exact h
  | complete =>
    rw [CaptureUnit.takeRecord_of_discarding r mark (.inr hstate)]
    exact h
  | armed =>
    obtain ⟨hpre, hlength, hpos, hpending⟩ := (captureLaw_of_armed hstate).mp h
    cases hsag : mark && c.onSag with
    | true =>
      rw [CaptureUnit.takeRecord_of_sagTrigger r hstate hsag]
      exact captureLaw_of_window hpre rfl rfl hlength (by simp) rfl
    | false =>
      rw [CaptureUnit.takeRecord_of_window r hstate hsag]
      refine (captureLaw_of_armed (by exact hstate)).mpr ⟨hpre, ?_, hpos, hpending⟩
      dsimp only
      split
      · simpa using ‹c.buffer.length < c.pPre›
      · simpa using hlength
  | triggered =>
    cases hpending : c.trigPending with
    | true =>
      obtain ⟨hpre, -, hlength⟩ := (captureLaw_of_pending hstate hpending).mp h
      rw [CaptureUnit.takeRecord_of_pending r mark hstate hpending]
      exact captureLaw_of_window hpre rfl rfl hlength (by simp) rfl
    | false =>
      obtain ⟨hpre, p, hpos, hp, hlt, hroom⟩ := (captureLaw_of_following hstate hpending).mp h
      simp only [Config.captureDepth] at hroom
      rw [CaptureUnit.takeRecord_of_following_pos r mark hstate hpending hpos]
      refine captureLaw_of_triggerRecord hpre hpending hpos hp ?_ ?_ ?_ <;> dsimp only <;>
        rw [List.length_append, List.length_singleton]
      · omega
      · omega

/-- ARM begins an empty window (R156). -/
theorem CaptureLaw.arm (h : CaptureLaw c) : CaptureLaw c.arm :=
  (captureLaw_of_armed rfl).mpr ⟨h.1, Nat.zero_le _, rfl, rfl⟩

/-- A write of P_pre is taken in IDLE and in COMPLETE alone, and a new value discards a completed capture (R155). -/
theorem CaptureLaw.putPPre (h : CaptureLaw c) {v : Nat} (hv : v ≤ 1023)
    (hstate : c.state = .idle ∨ c.state = .complete) : CaptureLaw (c.putPPre v) := by
  unfold CaptureUnit.putPPre
  rcases hstate with hidle | hcomplete
  · rw [if_neg fun hc => by rw [hidle] at hc; cases hc.1]
    simp only [CaptureLaw, hidle] at h ⊢
    exact ⟨hv, h.2⟩
  · by_cases hnew : v = c.pPre
    · rw [if_neg fun hc => hc.2 hnew, hnew]
      exact h
    · simp only [CaptureLaw, hcomplete] at h
      rw [if_pos ⟨hcomplete, hnew⟩]
      exact captureLaw_of_empty hv rfl rfl rfl h.2.1

theorem CaptureLaw.restart (h : CaptureLaw c) : CaptureLaw c.restart := captureLaw_of_empty h.1 rfl rfl rfl rfl

end

end Sys2Proof.Machine
end

