-- ==== Sys2Proof/Proofs/PortLaws.lean ====
section
/-! PROOFS. The two transmitters keep their bounds through every hand-over and every end of a transmission (R179, R180,
R184 to R186). -/

namespace Sys2Proof.Machine

/-! ### Port U -/

/-- `q` meets the law of port U where `p` does, with the same link state and signal. -/
structure PortU.Keeps (p q : PortU) : Prop where
  law : PortULaw p → PortULaw q
  up : q.up = p.up
  signal : q.signal = p.signal

theorem portULaw_of_empty {p : PortU} (hsending : p.sending = none) (hslot : p.slot = none) (hreplies : p.replies = [])
    (hforwarding : p.forwarding = []) : PortULaw p := by
  refine ⟨?_, ?_, fun _ => hsending, fun _ => ⟨hslot, hreplies, hforwarding⟩⟩
  · rw [hreplies]; exact Nat.zero_le _
  · rw [hforwarding]; exact Nat.zero_le _

theorem PortU.serve_link (p : PortU) (clock : Nat) : (p.serve clock).up = p.up ∧ (p.serve clock).signal = p.signal :=
  PortU.serve_ind (P := fun q => q.up = p.up ∧ q.signal = p.signal) ⟨rfl, rfl⟩ (fun _ _ _ => ⟨rfl, rfl⟩)
    (fun _ _ _ _ _ => ⟨rfl, rfl⟩) fun _ _ _ _ _ _ => ⟨rfl, rfl⟩

/-- A transmitter that is UP takes a frame if one waits, so none waits beside a free one (R186). -/
theorem portULaw_serve {p : PortU} (clock : Nat) (hup : p.up = true) (hreplies : p.replies.length ≤ Config.replyDepth)
    (hforwarding : p.forwarding.length ≤ Config.forwardDepth) : PortULaw (p.serve clock) := by
  have hdown : ∀ t : Option Transmission, p.up = false → t = none := fun _ h => by rw [hup] at h; cases h
  unfold PortU.serve
  split
  case h_1 hsending =>
    exact ⟨hreplies, hforwarding, hdown _, fun h => by rw [hsending] at h; cases h⟩
  case h_2 => exact ⟨hreplies, hforwarding, hdown _, fun h => by cases h⟩
  case h_3 hqueue =>
    refine ⟨?_, hforwarding, hdown _, fun h => by cases h⟩
    rw [hqueue] at hreplies
    exact (Nat.le_succ _).trans hreplies
  case h_4 hqueue =>
    refine ⟨hreplies, ?_, hdown _, fun h => by cases h⟩
    rw [hqueue] at hforwarding
    exact (Nat.le_succ _).trans hforwarding
  case h_5 hsending hslot hr hf => exact portULaw_of_empty hsending hslot hr hf

/-- What a transmitter serves after a change `q` of `p` that leaves its link UP and its queues in bounds. -/
theorem PortU.keeps_serve {p q : PortU} (clock : Nat) (hup : q.up = p.up) (hsignal : q.signal = p.signal)
    (h : PortULaw p → p.up = true ∧ q.replies.length ≤ Config.replyDepth ∧ q.forwarding.length ≤ Config.forwardDepth) :
    p.Keeps (q.serve clock) where
  law hp := by
    obtain ⟨hpup, hreplies, hforwarding⟩ := h hp
    exact portULaw_serve clock (hup.trans hpup) hreplies hforwarding
  up := (q.serve_link clock).1.trans hup
  signal := (q.serve_link clock).2.trans hsignal

theorem PortU.keeps_handReply (p : PortU) (clock : Nat) (o : OutFrame) : p.Keeps (p.handReply clock o) := by
  cases hup : p.up with
  | false =>
    rw [PortU.handReply_down clock o hup]
    exact ⟨id, rfl, rfl⟩
  | true =>
    rcases Nat.lt_or_ge p.replies.length 4 with hroom | hfull
    · rw [PortU.handReply_room clock o hup hroom]
      refine PortU.keeps_serve clock rfl rfl fun ⟨_, hforwarding, _⟩ => ⟨hup, ?_, hforwarding⟩
      simpa [Config.replyDepth] using hroom
    · rw [PortU.handReply_full clock o hup hfull]
      exact ⟨id, rfl, rfl⟩

theorem PortU.keeps_handStatus (p : PortU) (clock : Nat) (f : Frame) : p.Keeps (p.handStatus clock f) := by
  cases hup : p.up with
  | false =>
    rw [PortU.handStatus_down clock f hup]
    exact ⟨id, rfl, rfl⟩
  | true =>
    rw [PortU.handStatus_up clock f hup]
    exact PortU.keeps_serve clock rfl rfl fun ⟨hreplies, hforwarding, _⟩ => ⟨hup, hreplies, hforwarding⟩

theorem PortU.keeps_handForward (p : PortU) (clock : Nat) (f : Frame) : p.Keeps (p.handForward clock f) := by
  cases hup : p.up with
  | false =>
    rw [PortU.handForward_down clock f hup]
    exact ⟨id, rfl, rfl⟩
  | true =>
    rcases Nat.lt_or_ge p.forwarding.length 32 with hroom | hfull
    · rw [PortU.handForward_room clock f hup hroom]
      refine PortU.keeps_serve clock rfl rfl fun ⟨hreplies, _⟩ => ⟨hup, hreplies, ?_⟩
      simpa [Config.forwardDepth] using hroom
    · rw [PortU.handForward_full clock f hup hfull]
      exact ⟨id, rfl, rfl⟩

/-- A port that is sending is UP (R180). -/
theorem PortULaw.up_of_sending {p : PortU} (h : PortULaw p) {t : Transmission} (ht : p.sending = some t) :
    p.up = true := by
  obtain ⟨-, -, hdown, -⟩ := h
  cases hup : p.up with
  | true => rfl
  | false => rw [hdown hup] at ht; cases ht

/-- The end of a transmission frees the transmitter for the next frame (R186). -/
theorem PortU.keeps_endSending {p : PortU} (clock : Nat) {t : Transmission} (ht : p.sending = some t)
    (tx : TxCounters) : p.Keeps (PortU.serve clock { p with sending := none, tx := tx }) :=
  PortU.keeps_serve clock rfl rfl fun h => ⟨h.up_of_sending ht, h.1, h.2.1⟩

theorem portULaw_flush (p : PortU) : PortULaw p.flush := portULaw_of_empty rfl rfl rfl rfl

/-! ### Port D -/

/-- `q` meets the law of port D where `p` does, with the same link state and signal. -/
structure PortD.Keeps (p q : PortD) : Prop where
  law : PortDLaw p → PortDLaw q
  up : q.up = p.up
  signal : q.signal = p.signal

theorem portDLaw_of_empty {p : PortD} (hsending : p.sending = none) (hslot : p.slot = none)
    (hpassThrough : p.passThrough = []) : PortDLaw p := by
  refine ⟨?_, fun _ => hsending, fun _ => ⟨hslot, hpassThrough⟩⟩
  rw [hpassThrough]
  exact Nat.zero_le _

theorem PortD.serve_link (p : PortD) (clock : Nat) : (p.serve clock).up = p.up ∧ (p.serve clock).signal = p.signal :=
  PortD.serve_ind (P := fun q => q.up = p.up ∧ q.signal = p.signal) ⟨rfl, rfl⟩ (fun _ _ _ => ⟨rfl, rfl⟩)
    fun _ _ _ _ _ => ⟨rfl, rfl⟩

/-- A transmitter that is UP takes a frame if one waits, so none waits beside a free one (R185). -/
theorem portDLaw_serve {p : PortD} (clock : Nat) (hup : p.up = true)
    (hpassThrough : p.passThrough.length ≤ Config.forwardDepth) : PortDLaw (p.serve clock) := by
  have hdown : ∀ t : Option Transmission, p.up = false → t = none := fun _ h => by rw [hup] at h; cases h
  unfold PortD.serve
  split
  case h_1 hsending => exact ⟨hpassThrough, hdown _, fun h => by rw [hsending] at h; cases h⟩
  case h_2 => exact ⟨hpassThrough, hdown _, fun h => by cases h⟩
  case h_3 hqueue =>
    refine ⟨?_, hdown _, fun h => by cases h⟩
    rw [hqueue] at hpassThrough
    exact (Nat.le_succ _).trans hpassThrough
  case h_4 hsending hslot hq => exact portDLaw_of_empty hsending hslot hq

/-- What a transmitter serves after a change `q` of `p` that leaves its link UP and its queue in bounds. -/
theorem PortD.keeps_serve {p q : PortD} (clock : Nat) (hup : q.up = p.up) (hsignal : q.signal = p.signal)
    (h : PortDLaw p → p.up = true ∧ q.passThrough.length ≤ Config.forwardDepth) : p.Keeps (q.serve clock) where
  law hp := by
    obtain ⟨hpup, hpassThrough⟩ := h hp
    exact portDLaw_serve clock (hup.trans hpup) hpassThrough
  up := (q.serve_link clock).1.trans hup
  signal := (q.serve_link clock).2.trans hsignal

theorem PortD.keeps_handSetpoint (p : PortD) (clock : Nat) (f : Frame) : p.Keeps (p.handSetpoint clock f) := by
  cases hup : p.up with
  | false =>
    rw [PortD.handSetpoint_down clock f hup]
    exact ⟨id, rfl, rfl⟩
  | true =>
    rw [PortD.handSetpoint_up clock f hup]
    exact PortD.keeps_serve clock rfl rfl fun ⟨hpassThrough, _⟩ => ⟨hup, hpassThrough⟩

theorem PortD.keeps_handPassThrough (p : PortD) (clock : Nat) (f : Frame) : p.Keeps (p.handPassThrough clock f) := by
  cases hup : p.up with
  | false =>
    rw [PortD.handPassThrough_down clock f hup]
    exact ⟨id, rfl, rfl⟩
  | true =>
    rcases Nat.lt_or_ge p.passThrough.length 32 with hroom | hfull
    · rw [PortD.handPassThrough_room clock f hup hroom]
      refine PortD.keeps_serve clock rfl rfl fun _ => ⟨hup, ?_⟩
      simpa [Config.forwardDepth] using hroom
    · rw [PortD.handPassThrough_full clock f hup hfull]
      exact ⟨id, rfl, rfl⟩

/-- A port that is sending is UP (R180). -/
theorem PortDLaw.up_of_sending {p : PortD} (h : PortDLaw p) {t : Transmission} (ht : p.sending = some t) :
    p.up = true := by
  obtain ⟨-, hdown, -⟩ := h
  cases hup : p.up with
  | true => rfl
  | false => rw [hdown hup] at ht; cases ht

/-- The end of a transmission frees the transmitter for the next frame (R185). -/
theorem PortD.keeps_endSending {p : PortD} (clock : Nat) {t : Transmission} (ht : p.sending = some t)
    (tx : TxCounters) : p.Keeps (PortD.serve clock { p with sending := none, tx := tx }) :=
  PortD.keeps_serve clock rfl rfl fun h => ⟨h.up_of_sending ht, h.1⟩

theorem portDLaw_flush (p : PortD) : PortDLaw p.flush := portDLaw_of_empty rfl rfl rfl

end Sys2Proof.Machine
end

