-- ==== Sys2Proof/Proofs/BoundsKept.lean ====
section
/-! PROOFS. The laws of the capture buffer and of the queues through every command (O60). -/

namespace Sys2Proof.Machine

/-! ### What keeps the two laws -/

/-- Going from `s` to `t` keeps each of the two laws; where `t` differs from `s` only in records that neither law reads,
both by `id`. -/
structure State.KeepsBounds (s t : State) : Prop where
  capture : CaptureLaw s.cu → CaptureLaw t.cu
  queues : QueueLaw s → QueueLaw t

/-- Going from `s` to `t` leaves what the law of the queues speaks of, apart from the ports. -/
structure State.SameQueues (s t : State) : Prop where
  queue : t.me.queue = s.me.queue
  held : t.held = s.held
  age : t.rr.age = s.rr.age

theorem State.KeepsBounds.refl (s : State) : s.KeepsBounds s := ⟨id, id⟩

theorem State.KeepsBounds.trans {s t u : State} (h : s.KeepsBounds t) (h' : t.KeepsBounds u) : s.KeepsBounds u :=
  ⟨h'.capture ∘ h.capture, h'.queues ∘ h.queues⟩

theorem State.KeepsBounds.after {s t u : State} (h : t.KeepsBounds u) (h' : s.KeepsBounds t) : s.KeepsBounds u :=
  h'.trans h

/-- A command that acts only where `p` holds. -/
theorem State.keepsBounds_ite {s t : State} {p : Prop} [Decidable p] (h : p → s.KeepsBounds t) :
    s.KeepsBounds (if p then t else s) := by
  split
  · exact h ‹p›
  · exact .refl s

/-- The ports keep their laws and links, and the Management Engine and the Report Receiver their bounds. -/
theorem State.keepsBounds_of_each {s t : State} (hcu : CaptureLaw s.cu → CaptureLaw t.cu) (hu : s.pu.u.Keeps t.pu.u)
    (hd : s.pu.d.Keeps t.pu.d) (hheld : t.held = s.held)
    (hqueue : s.me.queue.length ≤ Config.requestDepth → t.me.queue.length ≤ Config.requestDepth)
    (hage : (∀ c : Chan, s.rr.age[c] ≤ 255) → ∀ c : Chan, t.rr.age[c] ≤ 255) : s.KeepsBounds t := by
  refine ⟨hcu, fun ⟨hportU, hportD, hlength, hlinks, hages⟩ => ⟨hu.law hportU, hd.law hportD, hqueue hlength, ?_,
    hage hages⟩⟩
  rwa [hheld, hu.up, hu.signal, hd.up, hd.signal]

section
variable {s t : State}

theorem State.SameQueues.keeps (h : s.SameQueues t) (hcu : CaptureLaw s.cu → CaptureLaw t.cu)
    (hu : s.pu.u.Keeps t.pu.u) (hd : s.pu.d.Keeps t.pu.d) : s.KeepsBounds t :=
  State.keepsBounds_of_each hcu hu hd h.held (by rw [h.queue]; exact id) (by rw [h.age]; exact id)

theorem PortU.Keeps.of_eq {p q : PortU} (h : q = p) : p.Keeps q := by
  subst h
  exact ⟨id, rfl, rfl⟩

theorem PortD.Keeps.of_eq {p q : PortD} (h : q = p) : p.Keeps q := by
  subst h
  exact ⟨id, rfl, rfl⟩

theorem State.SameQueues.keeps_of_cu (h : s.SameQueues t) (hpu : t.pu = s.pu)
    (hcu : CaptureLaw s.cu → CaptureLaw t.cu) : s.KeepsBounds t :=
  h.keeps hcu (.of_eq (by rw [hpu])) (.of_eq (by rw [hpu]))

theorem State.SameQueues.keeps_of_same (h : s.SameQueues t) (hpu : t.pu = s.pu) (hcu : t.cu = s.cu) :
    s.KeepsBounds t :=
  h.keeps_of_cu hpu (by rw [hcu]; exact id)

/-- A change of the report ages alone, among what the laws speak of. -/
theorem State.keepsBounds_of_age (hcu : t.cu = s.cu) (hpu : t.pu = s.pu) (hheld : t.held = s.held)
    (hqueue : t.me.queue = s.me.queue) (hage : ∀ c : Chan, s.rr.age[c] ≤ 255 → t.rr.age[c] ≤ 255) :
    s.KeepsBounds t :=
  State.keepsBounds_of_each (by rw [hcu]; exact id) (.of_eq (by rw [hpu])) (.of_eq (by rw [hpu])) hheld
    (by rw [hqueue]; exact id) fun h c => hage c (h c)

end

theorem State.onU_keepsBounds (s : State) {f : PortU → PortU} (h : s.pu.u.Keeps (f s.pu.u)) :
    s.KeepsBounds (s.onU f) :=
  State.SameQueues.keeps ⟨rfl, rfl, rfl⟩ id h (.of_eq rfl)

theorem State.onD_keepsBounds (s : State) {f : PortD → PortD} (h : s.pu.d.Keeps (f s.pu.d)) :
    s.KeepsBounds (s.onD f) :=
  State.SameQueues.keeps ⟨rfl, rfl, rfl⟩ id (.of_eq rfl) h

theorem State.onG_keepsBounds (s : State) (f : PortG → PortG) : s.KeepsBounds (s.onG f) := ⟨id, id⟩

/-! ### The Capture Unit's work -/

theorem State.raise_cu_law (s : State) (r : Raising) (h : CaptureLaw s.cu) : CaptureLaw (s.raise r).cu := by
  by_cases hhalt : r.cls = .trip ∧ s.fmu.mode = .run
  · rw [State.raise_eq_halt hhalt.1 hhalt.2]
    exact h.trigger .halt
  · rw [State.raise_eq_record hhalt]
    exact h

/-- A raising reaches the two laws by the HALT trigger alone (R158). -/
theorem State.raise_keepsBounds (s : State) (r : Raising) : s.KeepsBounds (s.raise r) :=
  State.SameQueues.keeps_of_cu ⟨by simp, by simp, by simp⟩ (by simp) (s.raise_cu_law r)

theorem State.keepsBounds_raise {s t : State} {r : Raising} (h : s.KeepsBounds t) : s.KeepsBounds (t.raise r) :=
  h.trans (t.raise_keepsBounds r)

theorem State.raiseAll_keepsBounds (s : State) (l : List Raising) : s.KeepsBounds (s.raiseAll l) := by
  unfold State.raiseAll
  induction l generalizing s with
  | nil => exact .refl s
  | cons r l ih => exact (s.raise_keepsBounds r).trans (ih _)

theorem State.takeRaising_keepsBounds (s : State) (code : FaultCode) : s.KeepsBounds (s.takeRaising code) := by
  unfold State.takeRaising
  split
  · exact .refl s
  · exact State.keepsBounds_raise ⟨id, id⟩

theorem State.takeRaisings_keepsBounds (s : State) : s.KeepsBounds s.takeRaisings :=
  .after (State.raiseAll_keepsBounds { s with fmu := { s.fmu with handed := [] } } _) ⟨id, id⟩

theorem State.enterHalt_keepsBounds (s : State) : s.KeepsBounds s.enterHalt := ⟨fun h => h.trigger .halt, id⟩

theorem State.takeRecord_keepsBounds (s : State) (r : CaptureRecord) (mark : Bool) :
    s.KeepsBounds (s.takeRecord r mark) := ⟨fun h => h.takeRecord r mark, id⟩

theorem State.takeValidFrame_keepsBounds (s : State) (f : GridSample) (b held : Bool) :
    s.KeepsBounds (s.takeValidFrame f b held) := by
  have hnotice : s.KeepsBounds (s.afterNotice f) := ⟨id, id⟩
  rw [State.takeValidFrame_eq]
  refine hnotice.trans ?_
  split
  · split
    · exact (State.takeRecord_keepsBounds _ _ _).trans ⟨id, id⟩
    · split
      · exact (State.raise_keepsBounds _ _).trans (State.takeRecord_keepsBounds _ _ _)
      · exact (State.takeRecord_keepsBounds _ _ _).trans (State.raise_keepsBounds _ _)
  · exact State.takeRecord_keepsBounds _ _ _

theorem State.takeGridFrame_keepsBounds (s : State) (f : GridSample) (b held : Bool) :
    s.KeepsBounds (s.takeGridFrame f b held) := by
  unfold State.takeGridFrame
  split
  case h_1 | h_2 => exact s.onG_keepsBounds _
  case h_3 => exact .after (State.takeRecord_keepsBounds { s with gm := s.gm.takeInvalid f } _ _) ⟨id, id⟩
  case h_4 => exact s.takeValidFrame_keepsBounds f b held

theorem State.takeSample_keepsBounds (s : State) (b held : Bool) : s.KeepsBounds (s.takeSample b held) := by
  unfold State.takeSample
  split
  · exact .refl s
  · rename_i f rest _
    exact .after (State.takeGridFrame_keepsBounds { s with gm := { s.gm with handed := rest } } f b held) ⟨id, id⟩

/-! ### The Report Receiver's work -/

theorem State.handEvents_keepsBounds (s : State) : s.KeepsBounds s.handEvents := by
  unfold State.handEvents
  split <;> exact ⟨id, id⟩

theorem State.finishReport_keepsBounds (s : State) : s.KeepsBounds s.finishReport := by
  refine s.handEvents_keepsBounds.trans ?_
  unfold State.finishReport
  generalize s.handEvents = s
  simp only []
  split
  · exact .refl s
  · exact .refl s
  · rename_i faults forward _
    have hraises : s.KeepsBounds (s.reportsIdle.raiseAll faults) :=
      .after (s.reportsIdle.raiseAll_keepsBounds faults) ⟨id, id⟩
    cases forward with
    | none => exact hraises
    | some f => exact hraises.trans (State.onU_keepsBounds _ (PortU.keeps_handForward ..))

theorem State.decideLoss_keepsBounds (s : State) : s.KeepsBounds s.decideLoss := by
  unfold State.decideLoss
  split
  · exact .refl s
  · exact State.SameQueues.keeps_of_same ⟨rfl, rfl, rfl⟩ rfl rfl

theorem State.settleReports_keepsBounds (s : State) : s.KeepsBounds s.settleReports :=
  s.finishReport_keepsBounds.trans ((State.decideLoss_keepsBounds _).trans (State.finishReport_keepsBounds _))

/-- The ages advance to 255 at most (R124). -/
theorem State.takeExpiry_keepsBounds (s : State) : s.KeepsBounds s.takeExpiry := by
  unfold State.takeExpiry
  split
  · refine s.settleReports_keepsBounds.trans (State.keepsBounds_of_age rfl rfl rfl rfl fun c hc => ?_)
    dsimp only
    rw [ReportReceiver.ageAll_age]
    split
    · exact Nat.min_le_left _ _
    · exact hc
  · exact .refl s

/-- A report sets ages to 0 (R119). -/
theorem State.decideReport_keepsBounds (s : State) (r : Report) : s.KeepsBounds (s.decideReport r) := by
  refine State.keepsBounds_of_age rfl rfl rfl rfl fun c hc => ?_
  have hfill : (s.rr.fill s.cm.table r).age = s.rr.age := by
    unfold ReportReceiver.fill
    split <;> rfl
  unfold State.decideReport
  dsimp only
  rw [ReportReceiver.hear_age, hfill]
  split
  · exact Nat.zero_le _
  · exact hc

theorem State.takeReport_keepsBounds (s : State) : s.KeepsBounds s.takeReport := by
  unfold State.takeReport
  split
  · exact .refl s
  · exact s.settleReports_keepsBounds.trans (.after (State.decideReport_keepsBounds _ _) ⟨id, id⟩)

theorem State.endTrippingReport_keepsBounds (s : State) : s.KeepsBounds s.endTrippingReport :=
  State.keepsBounds_ite fun _ => s.finishReport_keepsBounds

/-! ### The Setpoint Engine's work -/

theorem State.closeCycle_keepsBounds (s : State) : s.KeepsBounds s.closeCycle :=
  State.SameQueues.keeps_of_same ⟨by simp, by simp, by simp⟩ (by simp) (by simp)

theorem State.handSetpointFrame_keepsBounds (s : State) : s.KeepsBounds s.handSetpointFrame := by
  refine s.closeCycle_keepsBounds.trans ?_
  unfold State.handSetpointFrame
  generalize s.closeCycle = s
  simp only []
  split
  · rename_i w _
    split
    · exact ⟨id, id⟩
    · exact .after (State.onD_keepsBounds (s.atWork (.building w .none)) (PortD.keeps_handSetpoint ..)) ⟨id, id⟩
  · exact .refl s

theorem State.lookAt_keepsBounds (s : State) (o : StatusOwner) : s.KeepsBounds (s.lookAt o) := by
  refine s.handSetpointFrame_keepsBounds.trans ?_
  unfold State.lookAt
  generalize s.handSetpointFrame = s
  simp only []
  split
  · exact ⟨id, id⟩
  · exact .refl s

theorem State.handStatusFrame_keepsBounds (s : State) : s.KeepsBounds s.handStatusFrame := by
  refine s.handSetpointFrame_keepsBounds.trans ?_
  unfold State.handStatusFrame
  generalize s.handSetpointFrame = s
  simp only []
  split
  · exact .after (State.onU_keepsBounds (s.atWork .idle) (PortU.keeps_handStatus ..)) ⟨id, id⟩
  · exact .refl s

theorem State.settle_keepsBounds (s : State) : s.KeepsBounds s.settle :=
  s.handStatusFrame_keepsBounds.trans
    ((State.takeExpiry_keepsBounds _).trans (State.settleReports_keepsBounds _))

theorem State.cyclePart_keepsBounds (s : State) (part : CyclePart) : s.KeepsBounds (s.cyclePart part) := by
  have hbegin : s.KeepsBounds s.settle.beginCycle := s.settle_keepsBounds.trans ⟨id, id⟩
  cases part with
  | whole reportsFirst =>
    cases reportsFirst with
    | true =>
      exact hbegin.trans ((State.takeExpiry_keepsBounds _).trans
        ((State.settleReports_keepsBounds _).trans (State.handStatusFrame_keepsBounds _)))
    | false => exact hbegin.trans ((State.handStatusFrame_keepsBounds _).trans (State.takeExpiry_keepsBounds _))
  | start => exact hbegin
  | demands | standing | voltage | request =>
    simp only [State.cyclePart]
    exact State.SameQueues.keeps_of_same ⟨by simp, by simp, by simp⟩ (by simp) (by simp)
  | close => exact s.closeCycle_keepsBounds
  | setpoint => exact s.handSetpointFrame_keepsBounds
  | look o => exact s.lookAt_keepsBounds o
  | status => exact s.handStatusFrame_keepsBounds
  | reports => exact s.takeExpiry_keepsBounds

/-! ### Frames and links -/

theorem State.storeEntry_keepsBounds (s : State) (e : DispatchEntry) : s.KeepsBounds (s.storeEntry e) := by
  unfold State.storeEntry
  split
  · exact .refl s
  · split
    · exact ⟨id, id⟩
    · split
      · exact ⟨id, id⟩
      · exact State.keepsBounds_raise ⟨id, id⟩

theorem State.foldl_storeEntry_keepsBounds (l : List DispatchEntry) (s : State) :
    s.KeepsBounds (l.foldl State.storeEntry s) := by
  induction l generalizing s with
  | nil => exact .refl s
  | cons e l ih => exact (s.storeEntry_keepsBounds e).trans (ih _)

theorem State.takeDispatch_keepsBounds (s : State) (f : Dispatch) : s.KeepsBounds (s.takeDispatch f) := by
  unfold State.takeDispatch
  split
  · exact ⟨id, id⟩
  · split
    · exact State.keepsBounds_raise ⟨id, id⟩
    · exact (State.foldl_storeEntry_keepsBounds f.entries s).trans ⟨id, id⟩

theorem State.onRx_keepsBounds (s : State) (p : Port) (g : RxCounters → RxCounters) : s.KeepsBounds (s.onRx p g) := by
  cases p <;> exact ⟨id, id⟩

theorem State.passOn_keepsBounds (s : State) (p : Port) (f : Frame) : s.KeepsBounds (s.passOn p f) := by
  cases p with
  | u => exact s.onD_keepsBounds (PortD.keeps_handPassThrough ..)
  | d => exact s.onU_keepsBounds (PortU.keeps_handForward ..)
  | g => exact .refl s

theorem State.deliver_keepsBounds (s : State) (p : Port) (f : Frame) : s.KeepsBounds (s.deliver p f) := by
  cases p with
  | u => simp only [State.deliver]; split <;> exact ⟨id, id⟩
  | d | g => exact ⟨id, id⟩

theorem State.receive_keepsBounds (s : State) (p : Port) (f : Frame) : s.KeepsBounds (s.receive p f) := by
  unfold State.receive
  split
  case h_1 => exact .refl s
  case h_2 | h_3 | h_4 => exact s.onRx_keepsBounds p _
  case h_5 => exact (s.onRx_keepsBounds p _).trans (State.passOn_keepsBounds _ p f)
  case h_6 => exact (s.onRx_keepsBounds p _).trans (State.deliver_keepsBounds _ p f)
  case h_7 => exact (s.onRx_keepsBounds p _).trans (State.onG_keepsBounds _ _)

/-- A link that is set UP has its signal, unless the part is held in reset, and a link that is set DOWN was DOWN
before (R179). -/
theorem State.setLink_keepsBounds {s : State} {p : Port} {up signal : Bool}
    (hup : s.held = false → up = true → signal = true) (hdown : up = false → s.linkUp p = false) :
    s.KeepsBounds (s.setLink p up signal) := by
  cases p with
  | u =>
    refine ⟨id, fun ⟨⟨hreplies, hforwarding, hsending, hfree⟩, hd, hqueue, hlinks, hage⟩ =>
      ⟨⟨hreplies, hforwarding, fun h => hsending (hdown h), hfree⟩, hd, hqueue, fun hheld => ?_, hage⟩⟩
    exact ⟨hup hheld, (hlinks hheld).2⟩
  | d =>
    refine ⟨id, fun ⟨hu, ⟨hpassThrough, hsending, hfree⟩, hqueue, hlinks, hage⟩ =>
      ⟨hu, ⟨hpassThrough, fun h => hsending (hdown h), hfree⟩, hqueue, fun hheld => ?_, hage⟩⟩
    exact ⟨(hlinks hheld).1, hup hheld⟩
  | g => exact ⟨id, id⟩

/-- A port whose signal is lost holds no frame once its transmitter is emptied (R179). -/
theorem State.flush_setLink_keepsBounds (s : State) (p : Port) :
    s.KeepsBounds ((s.setLink p false false).flushPort p) := by
  cases p with
  | u =>
    exact ⟨id, fun ⟨_, hd, hqueue, hlinks, hage⟩ =>
      ⟨portULaw_flush _, hd, hqueue, fun hheld => ⟨fun h => (by cases h), (hlinks hheld).2⟩, hage⟩⟩
  | d =>
    exact ⟨id, fun ⟨hu, _, hqueue, hlinks, hage⟩ =>
      ⟨hu, portDLaw_flush _, hqueue, fun hheld => ⟨(hlinks hheld).1, fun h => (by cases h)⟩, hage⟩⟩
  | g => exact ⟨id, id⟩

theorem State.flushPort_queue (s : State) (p : Port) : (s.flushPort p).me.queue = s.me.queue := by
  cases p <;> rfl

theorem State.flushPort_pu_congr {s t : State} (h : t.pu = s.pu) (p : Port) :
    (t.flushPort p).pu = (s.flushPort p).pu := by
  cases p <;> simp only [State.flushPort, State.onU, State.onD, h]

/-- The LINK DOWN raising falls between the loss of the signal and the emptying of the transmitter, and touches
neither (R179). -/
theorem State.loseSignal_keepsBounds (s : State) (p : Port) (cut : Bool) : s.KeepsBounds (s.loseSignal p cut) := by
  have hflushed : ((s.setLink p false false).flushPort p).KeepsBounds (s.loseSignal p false) := by
    unfold State.loseSignal
    simp only [Bool.false_eq_true, if_false]
    refine State.SameQueues.keeps_of_cu ⟨?_, by simp, by simp⟩ (State.flushPort_pu_congr (by simp) p) fun h => ?_
    · simp [State.flushPort_queue]
    · rw [State.flushPort_cu] at h ⊢
      exact State.raise_cu_law _ _ h
  have hlost := s.flush_setLink_keepsBounds p |>.trans hflushed
  cases cut with
  | false => exact hlost
  | true => exact hlost.trans (State.onRx_keepsBounds _ p RxCounters.countFcs)

/-! ### Requests and replies -/

/-- The request in service leaves the queue, and its reply enters port U's (R186, R190). -/
theorem State.answer_keepsBounds (s : State) (q : Request) (c : ReplyContent) : s.KeepsBounds (s.answer q c) := by
  refine (s.onU_keepsBounds (PortU.keeps_handReply _ s.clock (plainOut (s.replyFrame q c)))).trans ?_
  refine State.keepsBounds_of_each id (.of_eq rfl) (.of_eq rfl) rfl (fun h => ?_) id
  exact (List.length_tail (l := s.me.queue)).trans_le ((Nat.sub_le _ _).trans h)

/-- A request enters the queue only where there is room (R190). -/
theorem State.queueRequest_keepsBounds (s : State) (q : Request) : s.KeepsBounds (s.queueRequest q) := by
  unfold State.queueRequest
  split
  · exact s.raise_keepsBounds _
  · rename_i hroom
    refine State.keepsBounds_of_each id (.of_eq rfl) (.of_eq rfl) rfl (fun _ => ?_) id
    rw [List.length_append, List.length_singleton]
    omega

theorem State.acceptRestart_keepsBounds (s : State) (q : Request) : s.KeepsBounds (s.acceptRestart q) :=
  (s.onU_keepsBounds (PortU.keeps_handReply _ s.clock { frame := s.replyFrame q (q.done []), isRestart := true })).trans
    ⟨id, id⟩

/-! ### Counters and resets -/

theorem State.putCounter_keepsBounds (s : State) (n : CounterName) (v : Nat) : s.KeepsBounds (s.putCounter n v) := by
  cases n with
  | rx p n => cases p <;> exact ⟨id, id⟩
  | _ => exact ⟨id, id⟩

theorem State.foldl_putCounter_keepsBounds (l : List CounterName) (v : Nat) (s : State) :
    s.KeepsBounds (l.foldl (fun s n => s.putCounter n v) s) := by
  induction l generalizing s with
  | nil => exact .refl s
  | cons n l ih => exact (s.putCounter_keepsBounds n v).trans (ih _)

/-- A link that has lost its signal was DOWN before the restart, so nothing was being sent there (R189). -/
theorem State.restartNow_keepsBounds {s : State} (hheld : s.held = false) : s.KeepsBounds s.restartNow := by
  refine ⟨fun h => h.restart, ?_⟩
  rintro ⟨⟨-, -, hsendingU, -⟩, ⟨-, hsendingD, -⟩, -, hlinks, -⟩
  obtain ⟨hlinkU, hlinkD⟩ := hlinks hheld
  refine ⟨⟨Nat.zero_le _, Nat.zero_le _, fun h => hsendingU ?_, fun _ => ⟨rfl, rfl, rfl⟩⟩,
    ⟨Nat.zero_le _, fun h => hsendingD ?_, fun _ => ⟨rfl, rfl⟩⟩, Nat.zero_le _, fun _ => ⟨id, id⟩, fun c => ?_⟩
  · exact Bool.eq_false_iff.mpr fun hup => Bool.eq_false_iff.mp h (hlinkU hup)
  · exact Bool.eq_false_iff.mpr fun hup => Bool.eq_false_iff.mp h (hlinkD hup)
  · exact (ReportReceiver.reset_age c).trans_le (Nat.zero_le _)

/-- A power-on reset meets both laws, whatever the state before it and whether or not the part is then held (R203). -/
theorem State.powerOn_keepsBounds (s : State) (held : Bool) : s.KeepsBounds { s.powerOn with held := held } := by
  refine ⟨fun _ => captureLaw_reset, fun _ => ⟨portULaw_of_empty rfl rfl rfl rfl, portDLaw_of_empty rfl rfl rfl,
    Nat.zero_le _, fun _ => ⟨fun h => (by cases h), fun h => (by cases h)⟩, fun c => ?_⟩⟩
  exact (ReportReceiver.reset_age c).trans_le (Nat.zero_le _)

/-! ### Owners that decide a request -/

/-- Serving a request keeps the two laws. -/
def Service.KeepsBounds (f : Service) : Prop := ∀ (q : Request) (s : State), s.KeepsBounds (f q s).1

theorem decideFaultRead_keepsBounds : Service.KeepsBounds decideFaultRead := by
  intro q s
  unfold decideFaultRead
  split <;> exact .refl s

theorem decideAckHead_keepsBounds : Service.KeepsBounds decideAckHead := by
  intro q s
  unfold decideAckHead
  split <;> exact ⟨id, id⟩

theorem decideAckAll_keepsBounds : Service.KeepsBounds decideAckAll := by
  intro q s
  unfold decideAckAll
  exact State.SameQueues.keeps_of_same ⟨rfl, rfl, rfl⟩ rfl rfl

theorem decideAbort_keepsBounds : Service.KeepsBounds decideAbort := by
  intro q s
  unfold decideAbort
  split
  · exact .refl s
  · split <;> exact ⟨id, id⟩

theorem decideCounterWrite_keepsBounds : Service.KeepsBounds decideCounterWrite := by
  intro q s
  unfold decideCounterWrite
  simp only []
  split
  · exact State.foldl_putCounter_keepsBounds ..
  · exact .refl s

theorem decideRun_keepsBounds : Service.KeepsBounds decideRun := by
  intro q s
  unfold decideRun
  split
  · exact .refl s
  · split
    · exact .refl s
    · split
      · exact .refl s
      · exact State.SameQueues.keeps_of_same ⟨by simp, by simp, by simp⟩ (by simp) (by simp)

theorem decideHalt_keepsBounds : Service.KeepsBounds decideHalt := by
  intro q s
  unfold decideHalt
  split
  · exact .refl s
  · split
    · exact .refl s
    · exact s.enterHalt_keepsBounds

theorem decideResume_keepsBounds : Service.KeepsBounds decideResume := by
  intro q s
  unfold decideResume
  split
  · exact .refl s
  · split
    · exact .refl s
    · split
      · exact State.SameQueues.keeps_of_same ⟨by simp, by simp, by simp⟩ (by simp) (by simp)
      · exact .refl s

theorem State.enterLoad_keepsBounds (s : State) : s.KeepsBounds s.enterLoad :=
  State.SameQueues.keeps_of_same ⟨rfl, rfl, rfl⟩ rfl rfl

theorem decideLoad_keepsBounds : Service.KeepsBounds decideLoad := by
  intro q s
  unfold decideLoad
  split
  · exact .refl s
  · split
    · exact .refl s
    · exact s.endTrippingReport_keepsBounds.trans
        ((State.takeRaisings_keepsBounds _).trans (State.enterLoad_keepsBounds _))

theorem decideArm_keepsBounds : Service.KeepsBounds decideArm := fun _ _ => ⟨fun h => h.arm, id⟩

theorem decideTrigger_keepsBounds : Service.KeepsBounds decideTrigger := fun _ _ => ⟨fun h => h.trigger .request, id⟩

/-! ### Owners that decide an entry of a WRITE -/

/-- Accepting an entry keeps the two laws. -/
def EntryDecision.KeepsBounds (d : EntryDecision) : Prop :=
  ∀ (i : Nat) (data : List Byte) (s t : State), d i data s = .ok t → s.KeepsBounds t

theorem writeCounter_keepsBounds : EntryDecision.KeepsBounds writeCounter := by
  intro i data s t h
  unfold writeCounter at h
  split at h
  · cases h
  · split at h <;> cases h
    exact s.putCounter_keepsBounds ..

/-- A change of the enable field sets the channel's age to 0 (R126). -/
theorem State.putChannel_keepsBounds (s : State) (c : Chan) (e : ChannelEntry) : s.KeepsBounds (s.putChannel c e) := by
  refine State.keepsBounds_of_age (by simp) (by simp) (by simp) (by simp) fun d hd => ?_
  have hfresh : (s.rr.age.set c 0)[d] ≤ 255 := by
    rw [vector_set_getElem]
    split
    · exact Nat.zero_le _
    · exact hd
  unfold State.putChannel
  dsimp only
  split
  · exact hd
  · split <;> exact hfresh

theorem writeChannelEntry_keepsBounds : EntryDecision.KeepsBounds writeChannelEntry := by
  intro i data s t h
  unfold writeChannelEntry at h
  split at h
  · cases h
  · unfold State.writeChannel at h
    split at h
    · cases h
    · split at h
      · cases h
      · split at h <;> cases h
        exact s.putChannel_keepsBounds ..

theorem writeGroup_keepsBounds : EntryDecision.KeepsBounds writeGroup := by
  intro i data s t h
  unfold writeGroup at h
  split at h
  · cases h
  · split at h <;> cases h
    exact ⟨id, id⟩

theorem writeProfile_keepsBounds : EntryDecision.KeepsBounds writeProfile := by
  intro i data s t h
  unfold writeProfile at h
  split at h <;> cases h
  exact ⟨id, id⟩

theorem writeEnvelopeRow_keepsBounds : EntryDecision.KeepsBounds writeEnvelopeRow := by
  intro i data s t h
  unfold writeEnvelopeRow at h
  split at h
  · cases h
  · split at h <;> rw [State.decideEnvelope_eq_ok h] <;> exact ⟨id, id⟩

theorem writeSwell_keepsBounds : EntryDecision.KeepsBounds writeSwell := by
  intro i data s t h
  unfold writeSwell at h
  simp only [] at h
  split at h <;> cases h
  exact ⟨id, id⟩

/-- The settings of GLOBAL_WRITE are none that the laws speak of. -/
theorem writeGlobal_keepsBounds : EntryDecision.KeepsBounds writeGlobal := by
  intro i data s t h
  unfold writeGlobal State.writeSetting at h
  split at h
  case h_15 => cases h
  case h_1 | h_2 | h_3 | h_4 => rw [State.classA_eq_ok h]; exact ⟨id, id⟩
  all_goals rw [inRange_eq_ok h]; exact ⟨id, id⟩

theorem keepsBounds_of_classA {ok : List Byte → State → Bool} {w : List Byte → State → State}
    (hw : ∀ (data : List Byte) (s : State), s.KeepsBounds (w data s)) :
    EntryDecision.KeepsBounds fun _ data s => s.classA (ok data s) (w data s) := by
  intro i data s t h
  rw [State.classA_eq_ok h]
  exact hw data s

theorem keepsBounds_of_inRange {ok : List Byte → State → Bool} {w : List Byte → State → State}
    (hw : ∀ (data : List Byte) (s : State), s.KeepsBounds (w data s)) :
    EntryDecision.KeepsBounds fun _ data s => inRange (ok data s) (w data s) := by
  intro i data s t h
  rw [inRange_eq_ok h]
  exact hw data s

theorem writeMeasurementStation_keepsBounds : EntryDecision.KeepsBounds writeMeasurementStation :=
  keepsBounds_of_classA fun _ _ => ⟨id, id⟩

theorem writeTCyc_keepsBounds : EntryDecision.KeepsBounds writeTCyc := keepsBounds_of_classA fun _ _ => ⟨id, id⟩

theorem writeNRows_keepsBounds : EntryDecision.KeepsBounds writeNRows := keepsBounds_of_classA fun _ _ => ⟨id, id⟩

theorem writeVRecover_keepsBounds : EntryDecision.KeepsBounds writeVRecover := by
  intro i data s t h
  rw [State.decideEnvelope_eq_ok h]
  exact ⟨id, id⟩

theorem writeW_keepsBounds : EntryDecision.KeepsBounds writeW := keepsBounds_of_inRange fun _ _ => ⟨id, id⟩

theorem writeL_keepsBounds : EntryDecision.KeepsBounds writeL := keepsBounds_of_inRange fun _ _ => ⟨id, id⟩

theorem writeTriggerOnSag_keepsBounds : EntryDecision.KeepsBounds writeTriggerOnSag :=
  keepsBounds_of_inRange fun _ _ => ⟨id, id⟩

/-- P_pre is written in its range, in IDLE or COMPLETE (R155). -/
theorem writePPre_keepsBounds : EntryDecision.KeepsBounds writePPre := by
  intro i data s t h
  unfold writePPre at h
  split at h
  · cases h
  · rename_i hrange
    obtain ⟨-, hmax⟩ := between_eq_true_iff.mp (Bool.eq_true_of_not_eq_false hrange)
    split at h
    · cases h
    · rename_i hstate
      obtain ⟨harmed, htriggered⟩ := not_or.mp hstate
      cases h
      refine ⟨fun hlaw => hlaw.putPPre hmax ?_, id⟩
      cases hcu : s.cu.state with
      | idle => exact .inl rfl
      | complete => exact .inr rfl
      | armed => exact absurd hcu harmed
      | triggered => exact absurd hcu htriggered

/-! ### The control forms -/

/-- Whatever next state the outcome gives, reaching it from `s` keeps the two laws. -/
def BoundsKept (s : State) (o : Host.Outcome State Fault Refusal) : Prop := ∀ t, o = .next t → s.KeepsBounds t

theorem boundsKept_next {s t : State} (h : s.KeepsBounds t) : BoundsKept s (.next t) := by
  intro u hu; cases hu; exact h

/-- A command that a held part ignores. -/
theorem boundsKept_live {s : State} {f : State → State} (h : s.held = false → s.KeepsBounds (f s)) :
    BoundsKept s (.next (s.live f)) :=
  boundsKept_next (State.live_ind (P := s.KeepsBounds) (.refl s) h)

theorem boundsKept_serve {s : State} {op : Operation} {o : Object} {accepts : Request → Bool} {f : Service}
    (hf : f.KeepsBounds) : BoundsKept s (.next (s.live (State.serve op o accepts f))) :=
  boundsKept_live fun _ => State.serve_ind (P := s.KeepsBounds) (.refl s) fun q _ _ _ =>
    (hf q s).trans (State.answer_keepsBounds _ _ _)

theorem boundsKept_serveEntry {s : State} {o : Object} {owns : Nat → Bool} {d : EntryDecision}
    (hd : d.KeepsBounds) : BoundsKept s (.next (s.live (State.serveEntry o owns d))) :=
  boundsKept_live fun _ => State.serveEntry_ind (P := s.KeepsBounds) (.refl s)
    (fun _ _ _ => s.answer_keepsBounds _ _)
    fun _ t _ _ _ ht =>
      have h : s.KeepsBounds t := hd _ _ _ _ ht
      ⟨h.trans (t.answer_keepsBounds _ _), h.trans ⟨id, id⟩⟩

/-- The passage of time touches nothing that the laws speak of. -/
theorem State.onExpiry_keepsBounds {s : State} {t : Timer} {f : State → State}
    (h : ∀ w : State, w.KeepsBounds (f w)) : s.KeepsBounds (s.onExpiry t f) :=
  State.onExpiry_ind (P := s.KeepsBounds) (.refl s) fun m _ => .trans (t := s.advanceMs m) ⟨id, id⟩ (h _)

theorem State.tripOn_keepsBounds (s : State) (code : FaultCode) (t : Timer) (part : TripPart) :
    s.KeepsBounds (s.tripOn code t part) := by
  cases part with
  | whole =>
    unfold State.tripOn
    exact State.onExpiry_keepsBounds fun _ => State.keepsBounds_raise ⟨id, id⟩
  | trip =>
    unfold State.tripOn
    exact State.onExpiry_keepsBounds fun _ => ⟨id, id⟩
  | raise => exact s.takeRaising_keepsBounds code

/-! ### The commands that have a form of their own -/

section
variable (s : State)

theorem execResetAsserted_boundsKept (n : Nat) : BoundsKept s (execResetAsserted n s) :=
  boundsKept_next <| State.keepsBounds_ite fun _ =>
    ⟨id, fun ⟨hu, hd, hqueue, _, hage⟩ => ⟨hu, hd, hqueue, fun hheld => (by cases hheld), hage⟩⟩

theorem execResetReleased_boundsKept : BoundsKept s (execResetReleased s) :=
  boundsKept_next (State.keepsBounds_ite fun _ => s.powerOn_keepsBounds false)

theorem execLinkLoss_boundsKept (p : Port) (cut : Bool) : BoundsKept s (execLinkLoss p cut s) := by
  refine boundsKept_next ?_
  split
  · rename_i hheld
    exact State.setLink_keepsBounds (fun h => by rw [hheld] at h; cases h) id
  · split
    · exact s.loseSignal_keepsBounds p cut
    · rename_i hdown
      exact State.setLink_keepsBounds (fun _ => id) fun _ => Bool.eq_false_iff.mpr hdown

theorem execLinkUp_boundsKept (p : Port) : BoundsKept s (execLinkUp p s) := by
  refine boundsKept_next ?_
  split
  · exact State.setLink_keepsBounds (fun _ _ => rfl) id
  · exact State.setLink_keepsBounds (fun _ => id) fun h => by cases h

theorem execGridSampleTaken_boundsKept (b : Bool) (part : TripPart) : BoundsKept s (execGridSampleTaken b s part) := by
  refine boundsKept_live fun _ => ?_
  cases part with
  | whole => exact s.takeSample_keepsBounds b false
  | trip => exact s.takeSample_keepsBounds b true
  | raise => exact s.takeRaising_keepsBounds _

theorem execGridSilenceExpiry_boundsKept : BoundsKept s (execGridSilenceExpiry s) :=
  boundsKept_live fun _ => State.onExpiry_keepsBounds fun _ =>
    State.keepsBounds_raise (State.SameQueues.keeps_of_same ⟨rfl, rfl, rfl⟩ rfl rfl)

theorem execDispatchSilenceExpiry_boundsKept : BoundsKept s (execDispatchSilenceExpiry s) :=
  boundsKept_live fun _ => State.onExpiry_keepsBounds fun _ =>
    State.keepsBounds_raise (State.SameQueues.keeps_of_same ⟨rfl, rfl, rfl⟩ rfl rfl)

theorem execRecoveryHoldExpiry_boundsKept : BoundsKept s (execRecoveryHoldExpiry s) :=
  boundsKept_live fun _ => State.keepsBounds_ite fun _ =>
    State.onExpiry_keepsBounds fun _ => ⟨id, id⟩

theorem execRecoveryRampExpiry_boundsKept : BoundsKept s (execRecoveryRampExpiry s) :=
  boundsKept_live fun _ => State.keepsBounds_ite fun _ =>
    State.onExpiry_keepsBounds fun _ => ⟨id, id⟩

theorem execSagListEntryAged_boundsKept : BoundsKept s (execSagListEntryAged s) := by
  refine boundsKept_live fun _ => ?_
  split <;> exact ⟨id, id⟩

theorem execDispatchFrameTaken_boundsKept : BoundsKept s (execDispatchFrameTaken s) := by
  refine boundsKept_live fun _ => ?_
  split
  · exact .refl s
  · exact .after (State.takeDispatch_keepsBounds _ _) ⟨id, id⟩

theorem execStartTimerExpiry_boundsKept (c : Chan) : BoundsKept s (execStartTimerExpiry c s) :=
  boundsKept_live fun _ => State.keepsBounds_ite fun _ =>
    State.onExpiry_keepsBounds fun _ => State.keepsBounds_raise ⟨id, id⟩

theorem execParkTimerExpiry_boundsKept (c : Chan) : BoundsKept s (execParkTimerExpiry c s) :=
  boundsKept_live fun _ => State.keepsBounds_ite fun _ =>
    State.onExpiry_keepsBounds fun _ => State.keepsBounds_raise ⟨id, id⟩

theorem execReportTaken_boundsKept (part : ReportPart) : BoundsKept s (execReportTaken s part) := by
  refine boundsKept_live fun _ => ?_
  cases part with
  | whole =>
    dsimp only
    split
    · exact .refl s
    · exact s.takeReport_keepsBounds.trans (State.finishReport_keepsBounds _)
  | decide => exact s.takeReport_keepsBounds
  | hand => exact State.keepsBounds_ite fun _ => s.handEvents_keepsBounds
  | finish => exact State.keepsBounds_ite fun _ => s.finishReport_keepsBounds

theorem execReportLoss_boundsKept (part : ReportPart) : BoundsKept s (execReportLoss s part) := by
  refine boundsKept_live fun _ => ?_
  cases part with
  | whole => exact State.keepsBounds_ite fun _ => s.settleReports_keepsBounds
  | decide =>
    exact State.keepsBounds_ite fun _ => s.finishReport_keepsBounds.trans (State.decideLoss_keepsBounds _)
  | hand => exact State.keepsBounds_ite fun _ => s.handEvents_keepsBounds
  | finish => exact State.keepsBounds_ite fun _ => s.finishReport_keepsBounds

theorem execCycleStart_boundsKept (part : CyclePart) : BoundsKept s (execCycleStart part s) := by
  cases hheld : s.held with
  | true => exact boundsKept_live fun h => by rw [hheld] at h; cases h
  | false =>
    have hexec := exec_cycleStart hheld part
    intro t ht
    cases hexec.symm.trans ht
    exact s.cyclePart_keepsBounds part

theorem execTransmissionEndD_boundsKept : BoundsKept s (execTransmissionEndD s) := by
  refine boundsKept_live fun _ => ?_
  split
  · exact .refl s
  · rename_i t ht
    exact .trans (t := s.advanceTo t.endsAt) ⟨id, id⟩ (State.onD_keepsBounds _ (PortD.keeps_endSending _ ht _))

theorem execTransmissionEndU_boundsKept : BoundsKept s (execTransmissionEndU s) := by
  refine boundsKept_live fun _ => ?_
  split
  · exact .refl s
  · rename_i t ht
    have hend : (s.advanceTo t.endsAt).KeepsBounds ((s.advanceTo t.endsAt).onU fun u =>
        PortU.serve (s.advanceTo t.endsAt).clock { u with sending := none, tx := u.tx.sent t.out.frame }) :=
      State.onU_keepsBounds _ (PortU.keeps_endSending _ ht _)
    exact .trans (t := s.advanceTo t.endsAt) ⟨id, id⟩ (hend.trans ⟨id, id⟩)

theorem execMgmtRequestQueued_boundsKept : BoundsKept s (execMgmtRequestQueued s) := by
  refine boundsKept_live fun _ => ?_
  split
  · exact .refl s
  · exact .after (State.queueRequest_keepsBounds _ _) ⟨id, id⟩

theorem execMgmtRequestRefused_boundsKept : BoundsKept s (execMgmtRequestRefused s) := by
  refine boundsKept_live fun _ => ?_
  split
  · exact .refl s
  · split
    · exact .refl s
    · exact State.keepsBounds_ite fun _ => s.answer_keepsBounds _ _

theorem execRestart_boundsKept : BoundsKept s (execRestart s) := by
  refine boundsKept_live fun _ => ?_
  split
  · exact .refl s
  · exact State.keepsBounds_ite fun _ => s.acceptRestart_keepsBounds _

theorem execRestartTakesEffect_boundsKept : BoundsKept s (execRestartTakesEffect s) :=
  boundsKept_live fun hheld => State.keepsBounds_ite fun _ => State.restartNow_keepsBounds hheld

end

/-! ### Every command -/

theorem exec_boundsKept (c : Instr) (s : State) : BoundsKept s (exec c s) := by
  cases c with
  | supplyStart => exact boundsKept_next (s.powerOn_keepsBounds _)
  | resetReleased => exact execResetReleased_boundsKept s
  | resetAsserted n => exact execResetAsserted_boundsKept s n
  | linkLoss p cut => exact execLinkLoss_boundsKept s p cut
  | linkUp p => exact execLinkUp_boundsKept s p
  | frameReceived p f => exact boundsKept_live fun _ => s.receive_keepsBounds p f
  | gridSampleTaken b part => exact execGridSampleTaken_boundsKept s b part
  | gridSilenceExpiry => exact execGridSilenceExpiry_boundsKept s
  | dispatchSilenceExpiry => exact execDispatchSilenceExpiry_boundsKept s
  | envelopeExit row part => exact boundsKept_live fun _ => State.tripOn_keepsBounds ..
  | swellExit part => exact boundsKept_live fun _ => State.tripOn_keepsBounds ..
  | recoveryHoldExpiry => exact execRecoveryHoldExpiry_boundsKept s
  | recoveryRampExpiry => exact execRecoveryRampExpiry_boundsKept s
  | sagListEntryAged => exact execSagListEntryAged_boundsKept s
  | dispatchFrameTaken => exact execDispatchFrameTaken_boundsKept s
  | startTimerExpiry ch => exact execStartTimerExpiry_boundsKept s ch
  | parkTimerExpiry ch => exact execParkTimerExpiry_boundsKept s ch
  | reportTaken part => exact execReportTaken_boundsKept s part
  | cycleStart part => exact execCycleStart_boundsKept s part
  | reportLoss part => exact execReportLoss_boundsKept s part
  | transmissionEndD => exact execTransmissionEndD_boundsKept s
  | transmissionEndU => exact execTransmissionEndU_boundsKept s
  | mgmtRequestQueued => exact execMgmtRequestQueued_boundsKept s
  | mgmtRequestRefused => exact execMgmtRequestRefused_boundsKept s
  | restart => exact execRestart_boundsKept s
  | restartTakesEffect => exact execRestartTakesEffect_boundsKept s
  | arm => exact boundsKept_serve decideArm_keepsBounds
  | trigger => exact boundsKept_serve decideTrigger_keepsBounds
  | modeRun => exact boundsKept_serve decideRun_keepsBounds
  | modeHalt => exact boundsKept_serve decideHalt_keepsBounds
  | modeResume => exact boundsKept_serve decideResume_keepsBounds
  | modeLoad => exact boundsKept_serve decideLoad_keepsBounds
  | ackHead => exact boundsKept_serve decideAckHead_keepsBounds
  | ackAll => exact boundsKept_serve decideAckAll_keepsBounds
  | abort => exact boundsKept_serve decideAbort_keepsBounds
  | counterWrite => exact boundsKept_serve decideCounterWrite_keepsBounds
  | faultRead => exact boundsKept_serve decideFaultRead_keepsBounds
  | mask | captureRead | summaryRead | contentionRead | channelStateRead | saglistRead | globalRead
  | envelopeRead | swellRead | channelRead | groupRead | profileRead | counterRead =>
    exact boundsKept_serve fun _ _ => ⟨id, id⟩
  | channelWrite => exact boundsKept_serveEntry writeChannelEntry_keepsBounds
  | envelopeWrite => exact boundsKept_serveEntry writeEnvelopeRow_keepsBounds
  | swellWrite => exact boundsKept_serveEntry writeSwell_keepsBounds
  | groupWrite => exact boundsKept_serveEntry writeGroup_keepsBounds
  | profileWrite => exact boundsKept_serveEntry writeProfile_keepsBounds
  | counterObjectWrite => exact boundsKept_serveEntry writeCounter_keepsBounds
  | globalWrite => exact boundsKept_serveEntry writeGlobal_keepsBounds
  | measurementStationWrite => exact boundsKept_serveEntry writeMeasurementStation_keepsBounds
  | nRowsWrite => exact boundsKept_serveEntry writeNRows_keepsBounds
  | vRecoverWrite => exact boundsKept_serveEntry writeVRecover_keepsBounds
  | wWrite => exact boundsKept_serveEntry writeW_keepsBounds
  | tCycWrite => exact boundsKept_serveEntry writeTCyc_keepsBounds
  | lWrite => exact boundsKept_serveEntry writeL_keepsBounds
  | pPreWrite => exact boundsKept_serveEntry writePPre_keepsBounds
  | triggerOnSagWrite => exact boundsKept_serveEntry writeTriggerOnSag_keepsBounds

theorem State.tick_keepsBounds (s : State) : s.KeepsBounds s.tick := by
  unfold State.tick
  split
  · exact .refl s
  · exact ⟨id, id⟩

/-- Settles O60: the tick touches nothing that the laws speak of, and each command keeps them. -/
theorem captureAndQueueLawsKept : Obligations.CaptureAndQueueLawsKept := by
  unfold Obligations.CaptureAndQueueLawsKept
  intro s t h
  suffices hkeeps : s.KeepsBounds t from ⟨hkeeps.capture, hkeeps.queues⟩
  unfold step at h
  split at h
  case h_1 =>
    cases h
    exact s.tick_keepsBounds
  case h_2 c rest _ => exact .trans (t := { s with pending := rest }) ⟨id, id⟩ (exec_boundsKept c _ t h)

end Sys2Proof.Machine
end

