-- ==== Sys2Proof/Proofs/FaultsAndFlags.lean ====
section
/-! PROOFS. What becomes of a raising in the fault list (O43), and the event summary, its mask and the ALERT pin
(O47). -/

namespace Sys2Proof.Machine

/-! ### Entries that match a raising (R139) -/

theorem FaultEntry.matches_iff (e : FaultEntry) (r : Raising) :
    e.matches r = true ↔ e.code = r.code ∧ e.subject = r.subject := by
  simp [FaultEntry.matches]

/-- A raising that repeats no entry of the list matches none. -/
theorem any_matches_eq_false {l : List FaultEntry} {r : Raising}
    (h : ∀ x ∈ l, ¬(x.code = r.code ∧ x.subject = r.subject)) : l.any (fun e => e.matches r) = false :=
  List.any_eq_false.mpr fun x hx hm => h x hx ((x.matches_iff r).mp hm)

theorem map_repeated_of_ne {l : List FaultEntry} {r : Raising}
    (h : ∀ x ∈ l, ¬(x.code = r.code ∧ x.subject = r.subject)) :
    l.map (fun e => if e.matches r then e.repeated r else e) = l :=
  (List.map_congr_left fun x hx => if_neg fun hm => h x hx ((x.matches_iff r).mp hm)).trans (List.map_id l)

/-! ### What becomes of a raising in the list, case by case -/

/-- The entry that a raising makes of itself (R138). -/
def Raising.entry (r : Raising) (now : BitVec 32) (g : Option (BitVec 16)) : FaultEntry :=
  { code := r.code, cls := r.cls, subject := r.subject, time := now, gridSeq := g, count := 1 }

section
variable {f : FaultModeUnit} {r : Raising} (now : BitVec 32) (g : Option (BitVec 16))

/-- A repeat counts on its own entry (R139). -/
theorem FaultModeUnit.record_of_repeat {l1 l2 : List FaultEntry} {e : FaultEntry} (hlist : f.faults = l1 ++ e :: l2)
    (hrest : ∀ x ∈ l1 ++ l2, ¬(x.code = r.code ∧ x.subject = r.subject)) (hcode : e.code = r.code)
    (hsubject : e.subject = r.subject) :
    f.record r now g = { f with faults := l1 ++ e.repeated r :: l2 } := by
  have he : e.matches r = true := (e.matches_iff r).mpr ⟨hcode, hsubject⟩
  have h1 : l1.map (fun e => if e.matches r then e.repeated r else e) = l1 :=
    map_repeated_of_ne fun x hx => hrest x (List.mem_append_left _ hx)
  have h2 : l2.map (fun e => if e.matches r then e.repeated r else e) = l2 :=
    map_repeated_of_ne fun x hx => hrest x (List.mem_append_right _ hx)
  simp [FaultModeUnit.record, hlist, he, h1, h2]

variable (hnew : ∀ x ∈ f.faults, ¬(x.code = r.code ∧ x.subject = r.subject))
include hnew

/-- A new fault finds room (R138). -/
theorem FaultModeUnit.record_of_room (hroom : f.faults.length < 32) :
    f.record r now g =
      { f with faults := f.faults ++ [r.entry now g], summary := { f.summary with fault := true } } := by
  simp [FaultModeUnit.record, any_matches_eq_false hnew, Config.faultDepth, hroom, Raising.entry]

/-- A graver fault displaces the newest NOTE of a full list (R140). -/
theorem FaultModeUnit.record_displaces (hfull : 32 ≤ f.faults.length) (hgrave : r.cls ≠ .note) {l : List FaultEntry}
    (hnote : dropNewestNote f.faults = some l) :
    f.record r now g =
      { f with faults := l ++ [r.entry now g], summary := { f.summary with fault := true }
               dropped := f.dropped + 1 } := by
  simp [FaultModeUnit.record, any_matches_eq_false hnew, Config.faultDepth, hfull, (FaultClass.grave_iff _).mpr hgrave,
    hnote, Raising.entry]

/-- A graver fault finds a full list without a NOTE (R140, R141). -/
theorem FaultModeUnit.record_lost (hfull : 32 ≤ f.faults.length) (hgrave : r.cls ≠ .note)
    (hnone : ∀ x ∈ f.faults, x.cls ≠ .note) :
    f.record r now g =
      { f with dropped := f.dropped + 1, droppedTrip := f.droppedTrip || decide (r.cls = .trip) } := by
  simp [FaultModeUnit.record, any_matches_eq_false hnew, Config.faultDepth, hfull, (FaultClass.grave_iff _).mpr hgrave,
    (dropNewestNote_eq_none_iff _).mpr hnone]

/-- A NOTE finds a full list (R140). -/
theorem FaultModeUnit.record_of_note (hfull : 32 ≤ f.faults.length) (hcls : r.cls = .note) :
    f.record r now g = { f with dropped := f.dropped + 1 } := by
  simp [FaultModeUnit.record, any_matches_eq_false hnew, Config.faultDepth, hfull, hcls, FaultClass.grave]

end

/-! ### What a raising leaves of the list, in HALT or not -/

section
variable (s : State) (r : Raising)

@[simp] theorem State.raise_faults : (s.raise r).fmu.faults = (s.fmu.record r s.timeBase s.gm.seqState).faults := by
  unfold State.raise; split <;> rfl

@[simp] theorem State.raise_faultFlag :
    (s.raise r).fmu.summary.fault = (s.fmu.record r s.timeBase s.gm.seqState).summary.fault := by
  unfold State.raise; split <;> rfl

@[simp] theorem State.raise_dropped : (s.raise r).fmu.dropped = (s.fmu.record r s.timeBase s.gm.seqState).dropped := by
  unfold State.raise; split <;> rfl

@[simp] theorem State.raise_droppedTrip :
    (s.raise r).fmu.droppedTrip = (s.fmu.record r s.timeBase s.gm.seqState).droppedTrip := by
  unfold State.raise; split <;> rfl

end

theorem State.changesOnly_fmu (s : State) (f : FaultModeUnit) : s.changesOnly { s with fmu := f } [.fmu] := by
  intro p hp
  cases p with
  | fmu => simp at hp
  | held | clock | rtc | gm | di | cm | se | rr | cu | me | pu | pending => rfl

/-- Settles O43: one rule of the list for each case, and the HALT of a TRIP in RUN beside it. -/
theorem faultRaising : Obligations.FaultRaising := by
  unfold Obligations.FaultRaising
  rintro s r _ _ rfl rfl
  simp only [State.raise_faults, State.raise_faultFlag, State.raise_dropped, State.raise_droppedTrip]
  refine ⟨fun l1 l2 e hlist hrest hcode hsubject => ?repeats, fun hnew => ⟨fun hroom => ?room,
    fun hfull hgrave => ⟨fun l1 l2 e hlist hnote hlast => ?displaces, fun hnone => ?lost⟩, fun hfull hcls => ?note⟩,
    fun ⟨hcls, hrun⟩ => ?halts, fun hstays => ?stays⟩
  case repeats =>
    rw [FaultModeUnit.record_of_repeat _ _ hlist hrest hcode hsubject]
    exact ⟨_, rfl, rfl, FaultClass.graver_eq_trip_iff .., FaultClass.graver_eq_note_iff .., rfl, rfl, rfl⟩
  case room =>
    rw [FaultModeUnit.record_of_room _ _ hnew hroom]
    exact ⟨rfl, rfl, rfl, rfl⟩
  case displaces =>
    have hdrop : dropNewestNote s.fmu.faults = some (l1 ++ l2) := by
      rw [hlist, dropNewestNote_of_last _ _ _ hnote hlast]
    rw [FaultModeUnit.record_displaces _ _ hnew hfull hgrave hdrop]
    exact ⟨rfl, rfl, rfl, rfl⟩
  case lost =>
    rw [FaultModeUnit.record_lost _ _ hnew hfull hgrave hnone]
    exact ⟨rfl, rfl, rfl, rfl⟩
  case note =>
    rw [State.raise_eq_record fun h => by simp [hcls] at h]
    exact FaultModeUnit.record_of_note _ _ hnew hfull hcls
  case halts =>
    rw [State.raise_eq_halt hcls hrun]
    exact ⟨rfl, rfl, rfl, rfl⟩
  case stays =>
    rw [State.raise_eq_record hstays]
    exact ⟨FaultModeUnit.record_mode .., s.changesOnly_fmu _⟩

/-! ### The six flags and the ALERT pin (R147 to R150) -/

/-- The byte of six flags holds each at its own bit. -/
theorem EventFlags.ofByte_toByte (e : EventFlags) : EventFlags.ofByte e.toByte = e := by
  obtain ⟨sag, halt, contention, fault, capture, link⟩ := e
  revert sag halt contention fault capture link
  decide

theorem EventFlags.toByte_bits (e : EventFlags) :
    e.toByte[0] = e.sag ∧ e.toByte[1] = e.halt ∧ e.toByte[2] = e.contention ∧ e.toByte[3] = e.fault ∧
      e.toByte[4] = e.capture ∧ e.toByte[5] = e.link := by
  have h := e.ofByte_toByte
  exact ⟨congrArg sag h, congrArg halt h, congrArg contention h, congrArg fault h, congrArg capture h, congrArg link h⟩

/-- A flag is unmasked exactly when the two bytes share a bit (R150). -/
theorem EventFlags.unmasked_iff (e m : EventFlags) :
    e.unmasked m = true ↔ ∃ n : Fin 6, e.toByte.getLsbD n = true ∧ m.toByte.getLsbD n = true := by
  obtain ⟨hsag, hhalt, hcontention, hfault, hcapture, hlink⟩ := e.toByte_bits
  obtain ⟨msag, mhalt, mcontention, mfault, mcapture, mlink⟩ := m.toByte_bits
  simp only [EventFlags.unmasked, Bool.or_eq_true, Bool.and_eq_true, or_assoc, Fin.exists_fin_succ]
  simp [*]

theorem State.alertPin_low_iff {s : State} (h : s.held = false) : s.alertPin = .low ↔ s.fmu.alert = true := by
  simp [State.alertPin, h]

theorem State.alertPin_highZ {s : State} (h : s.fmu.summary = .clear) : s.alertPin = .highZ := by
  have halert : s.fmu.alert = false := by rw [FaultModeUnit.alert, h]; rfl
  simp [State.alertPin, halert]

/-- Settles O47: the owner clears the flags or writes the mask before the reply, and a flag byte holds each flag at its
own bit. -/
theorem summaryAndMask : Obligations.SummaryAndMask := by
  unfold Obligations.SummaryAndMask
  refine ⟨fun s q hserves => ?read, fun s q hserves => ?mask, fun s hheld => ?pin⟩
  case read =>
    have hreplies := State.serve_repliesTo (f := decideSummaryRead) hserves (accepts := anyRequest) rfl
    obtain ⟨hsame, -⟩ := id hreplies
    refine ⟨_, rfl, State.alertPin_highZ ?_, hreplies⟩
    exact congrArg FaultModeUnit.summary (hsame .fmu (by decide))
  case mask =>
    refine ⟨_, _, rfl, State.serve_repliesTo (f := decideMask) hserves (accepts := anyRequest) rfl, ?_⟩
    rintro _ _ rfl rfl
    exact ⟨rfl, rfl, rfl, rfl, rfl, rfl⟩
  case pin => exact (State.alertPin_low_iff hheld).trans (EventFlags.unmasked_iff ..)

end Sys2Proof.Machine
end

