-- ==== Sys2Proof/Proofs/Reads.lean ====
section
/-! PROOFS. The reads of tables, settings, channel states, faults and capture records (O50). -/

namespace Sys2Proof.Machine

/-! ### A run of a table's entries (R196) -/

/-- A run of a table's entries within its bounds is read in ascending index. -/
theorem tableBytes_eq_range' {n : Nat} (f : Nat → List Byte) {index count : Nat} (h : index + count ≤ n) :
    tableBytes (fun i : Fin n => f i) index count = (List.range' index count).flatMap f := by
  have hindices : (((List.finRange n).drop index).take count).map Fin.val = List.range' index count := by
    rw [List.map_take, List.map_drop, List.map_coe_finRange_eq_range]
    refine List.ext_getElem ?_ fun i _ _ => ?_
    · simp only [List.length_take, List.length_drop, List.length_range, List.length_range']
      omega
    · simp
  rw [← hindices, List.flatMap_map]
  rfl

/-! ### FAULT READ and CAPTURE READ by their outcome (R144, R161) -/

theorem decideFaultRead_of_le {s : State} {q : Request} (h : q.index ≤ s.fmu.faults.length) :
    decideFaultRead q s = (s, { q.done ((window s.fmu.faults q.index q.count).flatMap FaultEntry.bytes) with
      count := (window s.fmu.faults q.index q.count).length }) := if_pos h

theorem decideFaultRead_of_lt {s : State} {q : Request} (h : s.fmu.faults.length < q.index) :
    decideFaultRead q s = (s, { q.answered .badIndex with count := 0 }) := if_neg (Nat.not_le.mpr h)

/-- A CAPTURE READ that returns no record carries the summary all the same (R161). -/
theorem CaptureUnit.readReply_nil (c : CaptureUnit) (q : Request) (r : Result) :
    c.readReply q r [] = { q.done c.summaryBytes with result := r, count := 0 } := by
  simp [CaptureUnit.readReply, Request.done]

theorem decideCaptureRead_of_not_complete {s : State} {q : Request} (h : s.cu.state ≠ .complete) :
    decideCaptureRead q s = (s, { q.done s.cu.summaryBytes with result := .busy, count := 0 }) := by
  simp only [decideCaptureRead, h, if_false, CaptureUnit.readReply_nil]

theorem decideCaptureRead_of_lt {s : State} {q : Request} (hstate : s.cu.state = .complete)
    (h : s.cu.buffer.length < q.index) :
    decideCaptureRead q s = (s, { q.done s.cu.summaryBytes with result := .badIndex, count := 0 }) := by
  simp only [decideCaptureRead, hstate, if_true, if_neg (Nat.not_le.mpr h), CaptureUnit.readReply_nil]

theorem decideCaptureRead_of_le {s : State} {q : Request} (hstate : s.cu.state = .complete)
    (h : q.index ≤ s.cu.buffer.length) :
    decideCaptureRead q s = (s, s.cu.readReply q .done (window s.cu.buffer q.index q.count)) := by
  simp only [decideCaptureRead, hstate, if_true, if_pos h]

/-- Settles O50: an owner that reads leaves the state as it is, and its reply is the one of its outcome. -/
theorem reads : Obligations.Reads := by
  unfold Obligations.Reads
  refine ⟨fun s q => ⟨fun hserves => ?global, fun hserves => ?envelope, fun hserves => ?swell, fun hserves => ?channel,
    fun hserves => ?group, fun hserves => ?profile, fun hserves => ?channelState, fun hserves => ?sagList⟩,
    fun s q hserves => ?fault, fun s q hserves => ?capture⟩
  case global =>
    obtain ⟨-, hrun⟩ := runWithin_iff.mp hserves.itemsExist
    refine ⟨_, rfl, ?_⟩
    rw [← tableBytes_eq_range' _ hrun]
    exact State.serve_repliesTo hserves (accepts := anyRequest) rfl
  case envelope | swell | channel | group | profile | channelState | sagList =>
    exact ⟨_, rfl, State.serve_repliesTo hserves (accepts := anyRequest) rfl⟩
  case fault =>
    have hreplies := State.serve_repliesTo (f := decideFaultRead) hserves (accepts := anyRequest) rfl
    refine ⟨_, rfl, fun hbeyond => ?_, fun l hl hstart => ?_⟩
    · rw [decideFaultRead_of_lt hbeyond] at hreplies
      exact hreplies
    · subst hl
      rw [decideFaultRead_of_le hstart] at hreplies
      exact hreplies
  case capture =>
    have hreplies := State.serve_repliesTo (f := decideCaptureRead) hserves (accepts := anyRequest) rfl
    refine ⟨_, rfl, fun hstate => ?_, fun hstate hbeyond => ?_, fun l hl hstate hstart => ?_⟩
    · rw [decideCaptureRead_of_not_complete hstate] at hreplies
      exact hreplies
    · rw [decideCaptureRead_of_lt hstate hbeyond] at hreplies
      exact hreplies
    · subst hl
      rw [decideCaptureRead_of_le hstate hstart] at hreplies
      exact hreplies

end Sys2Proof.Machine
end

