-- ==== Sys2Proof/Proofs/PartMode.lean ====
section
/-! PROOFS. The part mode through every command (O3). Apart from the mode requests, the resets and the acknowledgements,
a command reaches the part mode and the fault list by raisings alone. -/

namespace Sys2Proof.Machine

/-! ### What raisings do to the part mode -/

/-- The part mode, the fault list and the dropped-trip flag are the same. -/
structure FaultModeUnit.SameFaults (f g : FaultModeUnit) : Prop where
  mode : g.mode = f.mode
  faults : g.faults = f.faults
  droppedTrip : g.droppedTrip = f.droppedTrip

/-- One change of the Fault and Mode Unit that touches its mode and its list by a raising at most. -/
inductive RaisingMove : FaultModeUnit → FaultModeUnit → Prop where
  /-- The flags, the mask, the counter and the raisings that wait. -/
  | keeps {f g : FaultModeUnit} (hsame : f.SameFaults g) : RaisingMove f g
  /-- A raising that is not a TRIP in RUN (R138 to R141). -/
  | records {f : FaultModeUnit} (r : Raising) (now : BitVec 32) (seq : Option (BitVec 16))
      (hstays : ¬(r.cls = .trip ∧ f.mode = .run)) : RaisingMove f (f.record r now seq)
  /-- A TRIP-class raising in RUN (R136, R137). -/
  | trips {f g : FaultModeUnit} (r : Raising) (now : BitVec 32) (seq : Option (BitVec 16)) (htrip : r.cls = .trip)
      (hrun : f.mode = .run) (hhalt : g.mode = .halt) (hfaults : g.faults = (f.record r now seq).faults)
      (hlost : g.droppedTrip = (f.record r now seq).droppedTrip) : RaisingMove f g

theorem FaultModeUnit.barred_iff (f : FaultModeUnit) :
    f.barred = true ↔ (∃ e ∈ f.faults, e.cls = .trip) ∨ f.droppedTrip = true := by
  simp [FaultModeUnit.barred, FaultModeUnit.holdsTrip]

theorem FaultModeUnit.barred_congr {f g : FaultModeUnit} (hfaults : g.faults = f.faults)
    (hlost : g.droppedTrip = f.droppedTrip) : g.barred = f.barred := by
  rw [FaultModeUnit.barred, FaultModeUnit.holdsTrip, hfaults, hlost, FaultModeUnit.barred, FaultModeUnit.holdsTrip]

/-- The entry that leaves a full list is a NOTE, so a TRIP stays. -/
theorem mem_of_dropNewestNote {l l' : List FaultEntry} (h : dropNewestNote l = some l') {e : FaultEntry} (he : e ∈ l)
    (hcls : e.cls ≠ .note) : e ∈ l' := by
  induction l generalizing l' with
  | nil => cases he
  | cons x l ih =>
    unfold dropNewestNote at h
    split at h
    · rename_i l2 h2
      cases h
      obtain rfl | he := List.mem_cons.mp he
      · exact List.mem_cons_self
      · exact List.mem_cons_of_mem _ (ih h2 he)
    · split at h
      · rename_i hnote
        cases h
        obtain rfl | he := List.mem_cons.mp he
        · exact absurd hnote hcls
        · exact he
      · cases h

/-- A recorded raising lifts no bar from RUN: no TRIP-class entry leaves the list or loses its class (R139 to R141). -/
theorem FaultModeUnit.barred_record {f : FaultModeUnit} (r : Raising) (now : BitVec 32) (seq : Option (BitVec 16))
    (h : f.barred = true) : (f.record r now seq).barred = true := by
  rw [barred_iff] at h
  apply FaultModeUnit.record_cases f r now seq (P := fun g => g.barred = true) <;> intros <;> rw [barred_iff]
  case hrep =>
    refine h.imp_left fun ⟨e, he, htrip⟩ => ⟨_, List.mem_map_of_mem he, ?_⟩
    split
    · exact (FaultClass.graver_eq_trip_iff ..).mpr (.inl htrip)
    · exact htrip
  case hnew => exact h.imp_left fun ⟨e, he, htrip⟩ => ⟨e, List.mem_append_left _ he, htrip⟩
  case hdis hdrop =>
    exact h.imp_left fun ⟨e, he, htrip⟩ =>
      ⟨e, List.mem_append_left _ (mem_of_dropNewestNote hdrop he (by rw [htrip]; decide)), htrip⟩
  case hlost => exact h.imp_right fun hlost => Bool.or_eq_true_iff.mpr (.inl hlost)
  case hnote => exact h

/-- A recorded TRIP bars RUN, whatever becomes of its entry (R137, R141). -/
theorem FaultModeUnit.barred_record_trip (f : FaultModeUnit) {r : Raising} (now : BitVec 32)
    (seq : Option (BitVec 16)) (htrip : r.cls = .trip) : (f.record r now seq).barred = true := by
  apply FaultModeUnit.record_cases f r now seq (P := fun g => g.barred = true) <;> intros <;> rw [barred_iff]
  case hrep hany =>
    obtain ⟨e, he, hmatch⟩ := List.any_eq_true.mp hany
    refine .inl ⟨_, List.mem_map_of_mem he, ?_⟩
    rw [if_pos hmatch]
    exact (FaultClass.graver_eq_trip_iff ..).mpr (.inr htrip)
  case hnew | hdis => exact .inl ⟨_, List.mem_append_right _ (List.mem_singleton_self _), htrip⟩
  case hlost => exact .inr (by simp [htrip])
  case hnote hcls => rw [htrip] at hcls; cases hcls

/-- Going from `f` to `g` the part mode stays, or a TRIP has put the part from RUN into HALT. -/
def FaultModeUnit.ModeKeptOrTripped (f g : FaultModeUnit) : Prop :=
  g.mode = f.mode ∨ (f.mode = .run ∧ g.mode = .halt ∧ g.barred = true)

theorem RaisingMove.barred {f g : FaultModeUnit} (h : RaisingMove f g) (hf : f.barred = true) : g.barred = true := by
  cases h with
  | keeps hsame => rw [FaultModeUnit.barred_congr hsame.faults hsame.droppedTrip]; exact hf
  | records r now seq _ => exact FaultModeUnit.barred_record r now seq hf
  | trips r now seq _ _ _ hfaults hlost =>
    rw [FaultModeUnit.barred_congr hfaults hlost]
    exact FaultModeUnit.barred_record r now seq hf

theorem RaisingMove.modeKeptOrTripped {f g : FaultModeUnit} (h : RaisingMove f g) : f.ModeKeptOrTripped g := by
  cases h with
  | keeps hsame => exact .inl hsame.mode
  | records r now seq _ => exact .inl (FaultModeUnit.record_mode ..)
  | trips r now seq htrip hrun hhalt hfaults hlost =>
    refine .inr ⟨hrun, hhalt, ?_⟩
    rw [FaultModeUnit.barred_congr hfaults hlost]
    exact f.barred_record_trip now seq htrip

/-- A part that a TRIP has halted stays halted, and barred from RUN, through the raisings after it. -/
theorem modeKeptOrTripped_of_moves {f g : FaultModeUnit} (h : Relation.ReflTransGen RaisingMove f g) :
    f.ModeKeptOrTripped g := by
  induction h with
  | refl => exact .inl rfl
  | tail _ hmove ih =>
    obtain hkept | ⟨hrun, hhalt, hbarred⟩ := ih
    · obtain hkept' | ⟨hrun', htripped⟩ := hmove.modeKeptOrTripped
      · exact .inl (hkept'.trans hkept)
      · exact .inr ⟨hkept.symm.trans hrun', htripped⟩
    · obtain hkept' | ⟨hrun', -⟩ := hmove.modeKeptOrTripped
      · exact .inr ⟨hrun, hkept'.trans hhalt, hmove.barred hbarred⟩
      · rw [hhalt] at hrun'
        cases hrun'

/-! ### Going from state to state by raisings alone -/

/-- Going from `s` to `t` the part mode and the fault list change by raisings alone. -/
def State.OnlyRaises (s t : State) : Prop := Relation.ReflTransGen RaisingMove s.fmu t.fmu

theorem State.OnlyRaises.refl (s : State) : s.OnlyRaises s := Relation.ReflTransGen.refl

theorem State.OnlyRaises.trans {s t u : State} (h : s.OnlyRaises t) (h' : t.OnlyRaises u) : s.OnlyRaises u :=
  Relation.ReflTransGen.trans h h'

theorem State.onlyRaises_of_same {s t : State} (h : s.fmu.SameFaults t.fmu) : s.OnlyRaises t :=
  Relation.ReflTransGen.single (.keeps h)

/-- The Fault and Mode Unit is left alone. -/
theorem State.onlyRaises_of_eq {s t : State} (h : t.fmu = s.fmu) : s.OnlyRaises t :=
  State.onlyRaises_of_same (by rw [h]; exact ⟨rfl, rfl, rfl⟩)

theorem State.OnlyRaises.of_eq {s t u : State} (h : t.OnlyRaises u) (hfmu : t.fmu = s.fmu) : s.OnlyRaises u :=
  (State.onlyRaises_of_eq hfmu).trans h

/-- A command that acts only where `p` holds. -/
theorem State.onlyRaises_ite {s t : State} {p : Prop} [Decidable p] (h : p → s.OnlyRaises t) :
    s.OnlyRaises (if p then t else s) := by
  split
  · exact h ‹p›
  · exact .refl s

theorem State.raise_onlyRaises (s : State) (r : Raising) : s.OnlyRaises (s.raise r) := by
  refine Relation.ReflTransGen.single ?_
  by_cases htrip : r.cls = .trip ∧ s.fmu.mode = .run
  · rw [State.raise_eq_halt htrip.1 htrip.2]
    exact .trips r s.timeBase s.gm.seqState htrip.1 htrip.2 rfl rfl rfl
  · rw [State.raise_eq_record htrip]
    exact .records r s.timeBase s.gm.seqState htrip

/-- A raising after a change that leaves the mode and the list alone. -/
theorem State.onlyRaises_raise {s t : State} {r : Raising} (h : s.fmu.SameFaults t.fmu) : s.OnlyRaises (t.raise r) :=
  (State.onlyRaises_of_same h).trans (t.raise_onlyRaises r)

theorem State.raiseAll_onlyRaises (s : State) (l : List Raising) : s.OnlyRaises (s.raiseAll l) := by
  unfold State.raiseAll
  induction l generalizing s with
  | nil => exact .refl s
  | cons r l ih => exact (s.raise_onlyRaises r).trans (ih _)

theorem State.takeRaising_onlyRaises (s : State) (code : FaultCode) : s.OnlyRaises (s.takeRaising code) := by
  unfold State.takeRaising
  split
  · exact .refl s
  · exact State.onlyRaises_raise ⟨rfl, rfl, rfl⟩

theorem State.takeRecord_onlyRaises (s : State) (r : CaptureRecord) (mark : Bool) :
    s.OnlyRaises (s.takeRecord r mark) := State.onlyRaises_of_same ⟨rfl, rfl, rfl⟩

theorem State.handRaising_onlyRaises (s : State) (r : Raising) : s.OnlyRaises (s.handRaising r) :=
  State.onlyRaises_of_same ⟨rfl, rfl, rfl⟩

/-! ### The Report Receiver's work -/

theorem State.finishReport_onlyRaises (s : State) : s.OnlyRaises s.finishReport := by
  refine .trans (t := s.handEvents) (State.onlyRaises_of_eq s.handEvents_fmu) ?_
  unfold State.finishReport
  generalize s.handEvents = s
  simp only []
  split
  · exact .refl s
  · exact .refl s
  · rename_i faults forward _
    have hraises : s.OnlyRaises (s.reportsIdle.raiseAll faults) := s.reportsIdle.raiseAll_onlyRaises faults
    cases forward with
    | none => exact hraises
    | some f => exact hraises

theorem State.settleReports_onlyRaises (s : State) : s.OnlyRaises s.settleReports :=
  s.finishReport_onlyRaises.trans
    (.trans (t := s.finishReport.decideLoss) (State.onlyRaises_of_eq (State.decideLoss_fmu _))
      (State.finishReport_onlyRaises _))

theorem State.takeExpiry_onlyRaises (s : State) : s.OnlyRaises s.takeExpiry := by
  unfold State.takeExpiry
  split
  · exact s.settleReports_onlyRaises.trans (State.onlyRaises_of_eq rfl)
  · exact .refl s

theorem State.takeReport_onlyRaises (s : State) : s.OnlyRaises s.takeReport := by
  unfold State.takeReport
  split
  · exact .refl s
  · exact s.settleReports_onlyRaises

/-! ### The Setpoint Engine's work -/

/-- The closing of a cycle may set the CONTENTION flag (R102). -/
theorem State.closeCycle_onlyRaises (s : State) : s.OnlyRaises s.closeCycle := by
  refine .trans (t := s.readVoltage.requestChannels) (State.onlyRaises_of_eq (by simp)) ?_
  unfold State.closeCycle
  generalize s.readVoltage.requestChannels = s
  simp only []
  split
  · exact .refl s
  · exact State.onlyRaises_of_same ⟨rfl, rfl, rfl⟩

theorem State.handSetpointFrame_onlyRaises (s : State) : s.OnlyRaises s.handSetpointFrame := by
  refine s.closeCycle_onlyRaises.trans ?_
  unfold State.handSetpointFrame
  generalize s.closeCycle = s
  simp only []
  split
  · split <;> exact State.onlyRaises_of_eq rfl
  · exact .refl s

theorem State.lookAt_onlyRaises (s : State) (o : StatusOwner) : s.OnlyRaises (s.lookAt o) := by
  refine s.handSetpointFrame_onlyRaises.trans ?_
  unfold State.lookAt
  generalize s.handSetpointFrame = s
  simp only []
  split <;> exact State.onlyRaises_of_eq rfl

theorem State.handStatusFrame_onlyRaises (s : State) : s.OnlyRaises s.handStatusFrame := by
  refine s.handSetpointFrame_onlyRaises.trans ?_
  unfold State.handStatusFrame
  generalize s.handSetpointFrame = s
  simp only []
  split <;> exact State.onlyRaises_of_eq rfl

theorem State.settle_onlyRaises (s : State) : s.OnlyRaises s.settle :=
  s.handStatusFrame_onlyRaises.trans ((State.takeExpiry_onlyRaises _).trans (State.settleReports_onlyRaises _))

theorem State.cyclePart_onlyRaises (s : State) (part : CyclePart) : s.OnlyRaises (s.cyclePart part) := by
  have hbegin : s.OnlyRaises s.settle.beginCycle := s.settle_onlyRaises
  cases part with
  | whole reportsFirst =>
    cases reportsFirst with
    | true =>
      exact hbegin.trans ((State.takeExpiry_onlyRaises _).trans
        ((State.settleReports_onlyRaises _).trans (State.handStatusFrame_onlyRaises _)))
    | false => exact hbegin.trans ((State.handStatusFrame_onlyRaises _).trans (State.takeExpiry_onlyRaises _))
  | start => exact hbegin
  | demands | standing | voltage | request => exact State.onlyRaises_of_eq (by simp [State.cyclePart])
  | close => exact s.closeCycle_onlyRaises
  | setpoint => exact s.handSetpointFrame_onlyRaises
  | look o => exact s.lookAt_onlyRaises o
  | status => exact s.handStatusFrame_onlyRaises
  | reports => exact s.takeExpiry_onlyRaises

/-! ### Frames, links and counters -/

/-- A valid frame may set the SAG and the CAPTURE flag, and its trip is raised or handed over (R29, R37, R157). -/
theorem State.takeValidFrame_onlyRaises (s : State) (f : GridSample) (b held : Bool) :
    s.OnlyRaises (s.takeValidFrame f b held) := by
  have hnotice : s.OnlyRaises (s.afterNotice f) := State.onlyRaises_of_same ⟨rfl, rfl, rfl⟩
  rw [State.takeValidFrame_eq]
  refine hnotice.trans ?_
  split
  · split
    · exact (State.takeRecord_onlyRaises _ _ _).trans (State.handRaising_onlyRaises _ _)
    · split
      · exact (State.raise_onlyRaises _ _).trans (State.takeRecord_onlyRaises _ _ _)
      · exact (State.takeRecord_onlyRaises _ _ _).trans (State.raise_onlyRaises _ _)
  · exact State.takeRecord_onlyRaises _ _ _

theorem State.takeGridFrame_onlyRaises (s : State) (f : GridSample) (b held : Bool) :
    s.OnlyRaises (s.takeGridFrame f b held) := by
  unfold State.takeGridFrame
  split
  case h_1 | h_2 => exact State.onlyRaises_of_eq rfl
  case h_3 => exact State.takeRecord_onlyRaises { s with gm := s.gm.takeInvalid f } _ _
  case h_4 => exact s.takeValidFrame_onlyRaises f b held

theorem State.takeSample_onlyRaises (s : State) (b held : Bool) : s.OnlyRaises (s.takeSample b held) := by
  unfold State.takeSample
  split
  · exact .refl s
  · rename_i f rest _
    exact State.takeGridFrame_onlyRaises { s with gm := { s.gm with handed := rest } } f b held

theorem State.storeEntry_onlyRaises (s : State) (e : DispatchEntry) : s.OnlyRaises (s.storeEntry e) := by
  unfold State.storeEntry
  split
  · exact .refl s
  · split
    · exact State.onlyRaises_of_eq rfl
    · split
      · exact State.onlyRaises_of_eq rfl
      · exact State.onlyRaises_raise ⟨rfl, rfl, rfl⟩

theorem State.foldl_storeEntry_onlyRaises (l : List DispatchEntry) (s : State) :
    s.OnlyRaises (l.foldl State.storeEntry s) := by
  induction l generalizing s with
  | nil => exact .refl s
  | cons e l ih => exact (s.storeEntry_onlyRaises e).trans (ih _)

theorem State.takeDispatch_onlyRaises (s : State) (f : Dispatch) : s.OnlyRaises (s.takeDispatch f) := by
  unfold State.takeDispatch
  split
  · exact State.onlyRaises_of_eq rfl
  · split
    · exact State.onlyRaises_raise ⟨rfl, rfl, rfl⟩
    · exact State.foldl_storeEntry_onlyRaises f.entries s

theorem State.receive_onlyRaises (s : State) (p : Port) (f : Frame) : s.OnlyRaises (s.receive p f) := by
  unfold State.receive
  split <;> exact State.onlyRaises_of_eq (by simp)

/-- A lost signal sets the LINK flag and raises LINK DOWN (R179). -/
theorem State.loseSignal_onlyRaises (s : State) (p : Port) (cut : Bool) : s.OnlyRaises (s.loseSignal p cut) := by
  unfold State.loseSignal
  simp only []
  refine .trans (State.onlyRaises_raise (r := { code := .linkDown, cls := .hold, subject := .port p })
    (t := { s.setLink p false false with fmu := { s.fmu with summary := { s.fmu.summary with link := true } } })
    ⟨rfl, rfl, rfl⟩) ?_
  rw [State.setLink_fmu]
  split <;> exact State.onlyRaises_of_eq (by simp)

theorem State.queueRequest_onlyRaises (s : State) (q : Request) : s.OnlyRaises (s.queueRequest q) := by
  unfold State.queueRequest
  split
  · exact s.raise_onlyRaises _
  · exact State.onlyRaises_of_eq rfl

/-- Of the counters the Fault and Mode Unit owns the faults dropped (R198). -/
theorem State.putCounter_sameFaults (s : State) (n : CounterName) (v : Nat) :
    s.fmu.SameFaults (s.putCounter n v).fmu := by
  cases n with
  | rx p n => simp only [State.putCounter, State.putRx_fmu]; exact ⟨rfl, rfl, rfl⟩
  | _ => exact ⟨rfl, rfl, rfl⟩

theorem State.foldl_putCounter_onlyRaises (l : List CounterName) (v : Nat) (s : State) :
    s.OnlyRaises (l.foldl (fun s n => s.putCounter n v) s) := by
  induction l generalizing s with
  | nil => exact .refl s
  | cons n l ih => exact (State.onlyRaises_of_same (s.putCounter_sameFaults n v)).trans (ih _)

/-! ### Owners that decide an entry of a WRITE -/

/-- Accepting an entry leaves the part mode and the fault list alone. -/
def EntryDecision.KeepsFaults (d : EntryDecision) : Prop :=
  ∀ (i : Nat) (data : List Byte) (s t : State), d i data s = .ok t → s.fmu.SameFaults t.fmu

theorem FaultModeUnit.SameFaults.of_eq {f g : FaultModeUnit} (h : g = f) : f.SameFaults g := by
  subst h
  exact ⟨rfl, rfl, rfl⟩

theorem writeCounter_keepsFaults : EntryDecision.KeepsFaults writeCounter := by
  intro i data s t h
  unfold writeCounter at h
  split at h
  · cases h
  · split at h <;> cases h
    exact s.putCounter_sameFaults ..

theorem writeChannelEntry_keepsFaults : EntryDecision.KeepsFaults writeChannelEntry := by
  intro i data s t h
  unfold writeChannelEntry at h
  split at h
  · cases h
  · unfold State.writeChannel at h
    split at h
    · cases h
    · split at h
      · cases h
      · split at h <;> cases h
        exact .of_eq (s.putChannel_fmu ..)

theorem writeGroup_keepsFaults : EntryDecision.KeepsFaults writeGroup := by
  intro i data s t h
  unfold writeGroup at h
  split at h
  · cases h
  · split at h <;> cases h
    exact .of_eq rfl

theorem writeProfile_keepsFaults : EntryDecision.KeepsFaults writeProfile := by
  intro i data s t h
  unfold writeProfile at h
  split at h <;> cases h
  exact .of_eq rfl

theorem writeEnvelopeRow_keepsFaults : EntryDecision.KeepsFaults writeEnvelopeRow := by
  intro i data s t h
  unfold writeEnvelopeRow at h
  split at h
  · cases h
  · split at h <;> exact .of_eq (by rw [State.decideEnvelope_eq_ok h])

theorem writeSwell_keepsFaults : EntryDecision.KeepsFaults writeSwell := by
  intro i data s t h
  unfold writeSwell at h
  simp only [] at h
  split at h <;> cases h
  exact .of_eq rfl

theorem writePPre_keepsFaults : EntryDecision.KeepsFaults writePPre := by
  intro i data s t h
  unfold writePPre at h
  split at h
  · cases h
  · split at h <;> cases h
    exact .of_eq rfl

theorem writeVRecover_keepsFaults : EntryDecision.KeepsFaults writeVRecover :=
  fun _ _ _ _ h => .of_eq (by rw [State.decideEnvelope_eq_ok h])

theorem writeGlobal_keepsFaults : EntryDecision.KeepsFaults writeGlobal := by
  intro i data s t h
  unfold writeGlobal State.writeSetting at h
  split at h
  case h_15 => cases h
  case h_1 | h_2 | h_3 | h_4 => exact .of_eq (by rw [State.classA_eq_ok h])
  all_goals exact .of_eq (by rw [inRange_eq_ok h])

theorem keepsFaults_of_classA {ok : List Byte → State → Bool} {w : List Byte → State → State}
    (hw : ∀ data s, (w data s).fmu = s.fmu) :
    EntryDecision.KeepsFaults fun _ data s => s.classA (ok data s) (w data s) :=
  fun _ data s _ h => .of_eq ((congrArg State.fmu (State.classA_eq_ok h)).trans (hw data s))

theorem keepsFaults_of_inRange {ok : List Byte → State → Bool} {w : List Byte → State → State}
    (hw : ∀ data s, (w data s).fmu = s.fmu) :
    EntryDecision.KeepsFaults fun _ data s => inRange (ok data s) (w data s) :=
  fun _ data s _ h => .of_eq ((congrArg State.fmu (inRange_eq_ok h)).trans (hw data s))

/-! ### Everything a command can do to the part mode -/

/-- Everything that command `c` can do to the part mode, going from `f` to `g`. -/
inductive ModeChange (c : Instr) (f g : FaultModeUnit) : Prop where
  /-- Raisings (R136 to R141). -/
  | raises (hmoves : Relation.ReflTransGen RaisingMove f g) : ModeChange c f g
  /-- A request that is answered without a change of mode. -/
  | keeps (hmode : g.mode = f.mode) : ModeChange c f g
  /-- RUN (R131, R132). -/
  | runs (hc : c = .modeRun) (hload : f.mode = .load) (hrun : g.mode = .run) : ModeChange c f g
  /-- HALT (R131, R133). -/
  | halts (hc : c = .modeHalt) (hrun : f.mode = .run) (hhalt : g.mode = .halt) : ModeChange c f g
  /-- RESUME (R131, R134). -/
  | resumes (hc : c = .modeResume) (hhalt : f.mode = .halt) (hrun : g.mode = .run) : ModeChange c f g
  /-- LOAD (R131, R135). -/
  | loads (hc : c = .modeLoad) (hhalt : f.mode = .halt) (hload : g.mode = .load) : ModeChange c f g
  /-- A RESTART or a power-on reset (R200, R203). -/
  | resets (hc : c = .restartTakesEffect ∨ c = .supplyStart ∨ c = .resetReleased) (hload : g.mode = .load) :
      ModeChange c f g

/-- Whatever next state the outcome of `c` gives, its part mode is one that `c` can lead to. -/
def ModeChangesTo (c : Instr) (s : State) (o : Host.Outcome State Fault Refusal) : Prop :=
  ∀ t, o = .next t → ModeChange c s.fmu t.fmu

section
variable {c : Instr} {s t : State}

theorem modeChangesTo_next (h : ModeChange c s.fmu t.fmu) : ModeChangesTo c s (.next t) := by
  intro u hu; cases hu; exact h

theorem modeChangesTo_raises (h : s.OnlyRaises t) : ModeChangesTo c s (.next t) := modeChangesTo_next (.raises h)

/-- A command that a held part ignores. -/
theorem modeChangesTo_live {f : State → State} (h : s.OnlyRaises (f s)) : ModeChangesTo c s (.next (s.live f)) :=
  modeChangesTo_raises (State.live_ind (P := s.OnlyRaises) (.refl s) fun _ => h)

theorem modeChangesTo_serve {op : Operation} {o : Object} {accepts : Request → Bool} {f : Service}
    (hf : ∀ q, ModeChange c s.fmu (f q s).1.fmu) : ModeChangesTo c s (.next (s.live (State.serve op o accepts f))) :=
  modeChangesTo_next <| State.live_ind (P := fun t => ModeChange c s.fmu t.fmu) (.keeps rfl) fun _ =>
    State.serve_ind (P := fun t => ModeChange c s.fmu t.fmu) (.keeps rfl) fun q _ _ _ => hf q

theorem modeChangesTo_serveEntry {o : Object} {owns : Nat → Bool} {d : EntryDecision} (hd : d.KeepsFaults) :
    ModeChangesTo c s (.next (s.live (State.serveEntry o owns d))) :=
  modeChangesTo_live <| State.serveEntry_ind (P := s.OnlyRaises) (.refl s) (fun _ _ _ => State.onlyRaises_of_eq rfl)
    fun _ t _ _ _ ht =>
      have h : s.OnlyRaises t := State.onlyRaises_of_same (hd _ _ _ _ ht)
      ⟨h, h⟩

end

/-! ### Owners that decide a request -/

section
variable (q : Request) (s : State)

theorem decideRun_modeChange : ModeChange .modeRun s.fmu (decideRun q s).1.fmu := by
  unfold decideRun
  split
  · exact .keeps rfl
  · split
    · exact .keeps rfl
    · rename_i hload
      split
      · exact .keeps rfl
      · refine .runs rfl (not_not.mp hload) ?_
        unfold State.enterRunFromLoad
        simp only []
        split <;> rfl

theorem decideHalt_modeChange : ModeChange .modeHalt s.fmu (decideHalt q s).1.fmu := by
  unfold decideHalt
  split
  · exact .keeps rfl
  · split
    · exact .keeps rfl
    · rename_i hrun
      exact .halts rfl (not_not.mp hrun) rfl

theorem decideResume_modeChange : ModeChange .modeResume s.fmu (decideResume q s).1.fmu := by
  unfold decideResume
  split
  · exact .keeps rfl
  · split
    · exact .keeps rfl
    · rename_i hhalt
      split
      · refine .resumes rfl (not_not.mp hhalt) ?_
        unfold State.enterRunFromHalt
        simp only []
        split <;> rfl
      · exact .keeps rfl

theorem decideLoad_modeChange : ModeChange .modeLoad s.fmu (decideLoad q s).1.fmu := by
  unfold decideLoad
  split
  · exact .keeps rfl
  · split
    · exact .keeps rfl
    · rename_i hhalt
      exact .loads rfl (not_not.mp hhalt) rfl

theorem decideAckHead_mode : (decideAckHead q s).1.fmu.mode = s.fmu.mode := by
  unfold decideAckHead
  split <;> rfl

theorem decideFaultRead_fmu : (decideFaultRead q s).1.fmu = s.fmu := by
  unfold decideFaultRead
  split <;> rfl

theorem decideAbort_fmu : (decideAbort q s).1.fmu = s.fmu := by
  unfold decideAbort
  split
  · rfl
  · split <;> rfl

theorem decideCounterWrite_onlyRaises : s.OnlyRaises (decideCounterWrite q s).1 := by
  unfold decideCounterWrite
  simp only []
  split
  · exact State.foldl_putCounter_onlyRaises ..
  · exact .refl s

end

/-! ### The commands that have a form of their own -/

theorem State.onExpiry_onlyRaises {s : State} {t : Timer} {f : State → State}
    (h : ∀ w : State, w.OnlyRaises (f w)) : s.OnlyRaises (s.onExpiry t f) :=
  State.onExpiry_ind (P := s.OnlyRaises) (.refl s) fun m _ => h (s.advanceMs m)

theorem State.tripOn_onlyRaises (s : State) (code : FaultCode) (t : Timer) (part : TripPart) :
    s.OnlyRaises (s.tripOn code t part) := by
  cases part with
  | whole =>
    unfold State.tripOn
    exact State.onExpiry_onlyRaises fun _ => State.onlyRaises_raise ⟨rfl, rfl, rfl⟩
  | trip =>
    unfold State.tripOn
    exact State.onExpiry_onlyRaises fun _ => State.onlyRaises_of_same ⟨rfl, rfl, rfl⟩
  | raise => exact s.takeRaising_onlyRaises code

section
variable {c : Instr} (s : State)

theorem execLinkLoss_modeChangesTo (p : Port) (cut : Bool) : ModeChangesTo c s (execLinkLoss p cut s) := by
  refine modeChangesTo_raises ?_
  split
  · exact State.onlyRaises_of_eq (by simp)
  · split
    · exact s.loseSignal_onlyRaises p cut
    · exact State.onlyRaises_of_eq (by simp)

theorem execLinkUp_modeChangesTo (p : Port) : ModeChangesTo c s (execLinkUp p s) := by
  refine modeChangesTo_raises ?_
  split <;> exact State.onlyRaises_of_eq (by simp)

theorem execGridSampleTaken_modeChangesTo (b : Bool) (part : TripPart) :
    ModeChangesTo c s (execGridSampleTaken b s part) := by
  refine modeChangesTo_live ?_
  cases part with
  | whole => exact s.takeSample_onlyRaises b false
  | trip => exact s.takeSample_onlyRaises b true
  | raise => exact s.takeRaising_onlyRaises _

theorem execDispatchFrameTaken_modeChangesTo : ModeChangesTo c s (execDispatchFrameTaken s) := by
  refine modeChangesTo_live ?_
  split
  · exact .refl s
  · exact .of_eq (State.takeDispatch_onlyRaises _ _) rfl

theorem execReportTaken_modeChangesTo (part : ReportPart) : ModeChangesTo c s (execReportTaken s part) := by
  refine modeChangesTo_live ?_
  cases part with
  | whole =>
    dsimp only
    split
    · exact .refl s
    · exact s.takeReport_onlyRaises.trans (State.finishReport_onlyRaises _)
  | decide => exact s.takeReport_onlyRaises
  | hand => exact State.onlyRaises_ite fun _ => State.onlyRaises_of_eq s.handEvents_fmu
  | finish => exact State.onlyRaises_ite fun _ => s.finishReport_onlyRaises

theorem execReportLoss_modeChangesTo (part : ReportPart) : ModeChangesTo c s (execReportLoss s part) := by
  refine modeChangesTo_live ?_
  cases part with
  | whole => exact State.onlyRaises_ite fun _ => s.settleReports_onlyRaises
  | decide =>
    exact State.onlyRaises_ite fun _ =>
      s.finishReport_onlyRaises.trans (State.onlyRaises_of_eq (State.decideLoss_fmu _))
  | hand => exact State.onlyRaises_ite fun _ => State.onlyRaises_of_eq s.handEvents_fmu
  | finish => exact State.onlyRaises_ite fun _ => s.finishReport_onlyRaises

theorem execCycleStart_modeChangesTo (part : CyclePart) : ModeChangesTo c s (execCycleStart part s) :=
  modeChangesTo_live (s.cyclePart_onlyRaises part)

theorem execMgmtRequestQueued_modeChangesTo : ModeChangesTo c s (execMgmtRequestQueued s) := by
  refine modeChangesTo_live ?_
  split
  · exact .refl s
  · exact .of_eq (State.queueRequest_onlyRaises _ _) rfl

theorem execMgmtRequestRefused_modeChangesTo : ModeChangesTo c s (execMgmtRequestRefused s) := by
  refine modeChangesTo_live ?_
  split
  · exact .refl s
  · split
    · exact .refl s
    · exact State.onlyRaises_ite fun _ => State.onlyRaises_of_eq rfl

theorem execRestart_modeChangesTo : ModeChangesTo c s (execRestart s) := by
  refine modeChangesTo_live ?_
  split
  · exact .refl s
  · exact State.onlyRaises_ite fun _ => State.onlyRaises_of_eq rfl

theorem execTransmissionEndD_modeChangesTo : ModeChangesTo c s (execTransmissionEndD s) := by
  refine modeChangesTo_live ?_
  split <;> exact State.onlyRaises_of_eq rfl

theorem execTransmissionEndU_modeChangesTo : ModeChangesTo c s (execTransmissionEndU s) := by
  refine modeChangesTo_live ?_
  split <;> exact State.onlyRaises_of_eq rfl

theorem execSagListEntryAged_modeChangesTo : ModeChangesTo c s (execSagListEntryAged s) := by
  refine modeChangesTo_live ?_
  split <;> exact State.onlyRaises_of_eq rfl

theorem execResetReleased_modeChangesTo : ModeChangesTo .resetReleased s (execResetReleased s) := by
  refine modeChangesTo_next ?_
  split
  · exact .resets (.inr (.inr rfl)) rfl
  · exact .keeps rfl

theorem execRestartTakesEffect_modeChangesTo : ModeChangesTo .restartTakesEffect s (execRestartTakesEffect s) := by
  refine modeChangesTo_next (State.live_ind (P := fun t => ModeChange _ s.fmu t.fmu) (.keeps rfl) fun _ => ?_)
  split
  · exact .resets (.inl rfl) rfl
  · exact .keeps rfl

end

/-! ### Every command -/

theorem exec_modeChangesTo (c : Instr) (s : State) : ModeChangesTo c s (exec c s) := by
  cases c with
  | supplyStart => exact modeChangesTo_next (.resets (.inr (.inl rfl)) rfl)
  | resetReleased => exact execResetReleased_modeChangesTo s
  | restartTakesEffect => exact execRestartTakesEffect_modeChangesTo s
  | modeRun => exact modeChangesTo_serve fun q => decideRun_modeChange q s
  | modeHalt => exact modeChangesTo_serve fun q => decideHalt_modeChange q s
  | modeResume => exact modeChangesTo_serve fun q => decideResume_modeChange q s
  | modeLoad => exact modeChangesTo_serve fun q => decideLoad_modeChange q s
  | ackHead => exact modeChangesTo_serve fun q => .keeps (decideAckHead_mode q s)
  | ackAll => exact modeChangesTo_serve fun q => .keeps rfl
  | resetAsserted n => exact modeChangesTo_raises (State.onlyRaises_ite fun _ => State.onlyRaises_of_eq rfl)
  | linkLoss p cut => exact execLinkLoss_modeChangesTo s p cut
  | linkUp p => exact execLinkUp_modeChangesTo s p
  | frameReceived p f => exact modeChangesTo_live (s.receive_onlyRaises p f)
  | gridSampleTaken b part => exact execGridSampleTaken_modeChangesTo s b part
  | gridSilenceExpiry | dispatchSilenceExpiry =>
    exact modeChangesTo_live (State.onExpiry_onlyRaises fun _ => State.onlyRaises_raise ⟨rfl, rfl, rfl⟩)
  | envelopeExit row part => exact modeChangesTo_live (State.tripOn_onlyRaises ..)
  | swellExit part => exact modeChangesTo_live (State.tripOn_onlyRaises ..)
  | recoveryHoldExpiry | recoveryRampExpiry =>
    exact modeChangesTo_live (State.onlyRaises_ite fun _ =>
      State.onExpiry_onlyRaises fun _ => State.onlyRaises_of_eq rfl)
  | sagListEntryAged => exact execSagListEntryAged_modeChangesTo s
  | dispatchFrameTaken => exact execDispatchFrameTaken_modeChangesTo s
  | startTimerExpiry ch | parkTimerExpiry ch =>
    exact modeChangesTo_live (State.onlyRaises_ite fun _ =>
      State.onExpiry_onlyRaises fun _ => State.onlyRaises_raise ⟨rfl, rfl, rfl⟩)
  | reportTaken part => exact execReportTaken_modeChangesTo s part
  | cycleStart part => exact execCycleStart_modeChangesTo s part
  | reportLoss part => exact execReportLoss_modeChangesTo s part
  | transmissionEndD => exact execTransmissionEndD_modeChangesTo s
  | transmissionEndU => exact execTransmissionEndU_modeChangesTo s
  | mgmtRequestQueued => exact execMgmtRequestQueued_modeChangesTo s
  | mgmtRequestRefused => exact execMgmtRequestRefused_modeChangesTo s
  | restart => exact execRestart_modeChangesTo s
  | abort => exact modeChangesTo_serve fun q => .keeps (congrArg FaultModeUnit.mode (decideAbort_fmu q s))
  | faultRead => exact modeChangesTo_serve fun q => .keeps (congrArg FaultModeUnit.mode (decideFaultRead_fmu q s))
  | counterWrite => exact modeChangesTo_serve fun q => .raises (decideCounterWrite_onlyRaises q s)
  | arm | trigger | mask | captureRead | summaryRead | contentionRead | channelStateRead | saglistRead | globalRead
  | envelopeRead | swellRead | channelRead | groupRead | profileRead | counterRead =>
    exact modeChangesTo_serve fun _ => .keeps rfl
  | channelWrite => exact modeChangesTo_serveEntry writeChannelEntry_keepsFaults
  | envelopeWrite => exact modeChangesTo_serveEntry writeEnvelopeRow_keepsFaults
  | swellWrite => exact modeChangesTo_serveEntry writeSwell_keepsFaults
  | groupWrite => exact modeChangesTo_serveEntry writeGroup_keepsFaults
  | profileWrite => exact modeChangesTo_serveEntry writeProfile_keepsFaults
  | counterObjectWrite => exact modeChangesTo_serveEntry writeCounter_keepsFaults
  | globalWrite => exact modeChangesTo_serveEntry writeGlobal_keepsFaults
  | measurementStationWrite | nRowsWrite | tCycWrite =>
    exact modeChangesTo_serveEntry (keepsFaults_of_classA fun _ _ => rfl)
  | wWrite | lWrite | triggerOnSagWrite => exact modeChangesTo_serveEntry (keepsFaults_of_inRange fun _ _ => rfl)
  | vRecoverWrite => exact modeChangesTo_serveEntry writeVRecover_keepsFaults
  | pPreWrite => exact modeChangesTo_serveEntry writePPre_keepsFaults

/-- Settles O3: each way in which a command can change the part mode leads from the modes that R131 names, and raisings
lead from RUN to HALT alone, by a TRIP that then stands. -/
theorem modeTransitions : Obligations.ModeTransitions := by
  unfold Obligations.ModeTransitions
  intro c s t hexec
  simp only [← FaultModeUnit.barred_iff]
  cases exec_modeChangesTo c s t hexec with
  | raises hmoves =>
    obtain hkept | ⟨hrun, hhalt, hbarred⟩ := modeKeptOrTripped_of_moves hmoves
    · cases hmode : s.fmu.mode <;> simp [hkept, hmode]
    · simp [hrun, hhalt, hbarred]
  | keeps hkept => cases hmode : s.fmu.mode <;> simp [hkept, hmode]
  | runs hc hload hrun => simp [hc, hload, hrun]
  | halts hc hrun hhalt => simp [hc, hrun, hhalt]
  | resumes hc hhalt hrun => simp [hc, hhalt, hrun]
  | loads hc hhalt hload => simp [hc, hhalt, hload]
  | resets hc hload => simp [hc, hload]

end Sys2Proof.Machine
end

