-- ==== Sys2Proof/Proofs/CaptureRequests.lean ====
section
/-! PROOFS. The Capture Unit's requests ARM and TRIGGER (O48). -/

namespace Sys2Proof.Machine

/-! ### TRIGGER by the capture state (R158 to R160) -/

theorem decideTrigger_of_armed {s : State} {q : Request} (h : s.cu.state = .armed) :
    decideTrigger q s =
      ({ s with cu := { s.cu with state := .triggered, source := .request, trigPending := true } },
        q.answered .done) := by
  rw [decideTrigger, CaptureUnit.trigger_of_armed .request h, if_pos h]

theorem decideTrigger_of_not_armed {s : State} {q : Request} (h : s.cu.state ≠ .armed) :
    decideTrigger q s = ({ s with cu := { s.cu with ignored := s.cu.ignored + 1 } }, q.answered .busy) := by
  rw [decideTrigger, CaptureUnit.trigger_of_not_armed .request h, if_neg h]

/-- Settles O48: ARM makes no distinction of capture states, and TRIGGER distinguishes ARMED from all the others. -/
theorem armAndTrigger : Obligations.ArmAndTrigger := by
  unfold Obligations.ArmAndTrigger
  refine ⟨fun s q hserves => ?arm, fun s q hserves => ?trigger⟩
  case arm => exact ⟨_, rfl, State.serve_repliesTo (f := decideArm) hserves (accepts := anyRequest) rfl⟩
  case trigger =>
    have hreplies := State.serve_repliesTo (f := decideTrigger) hserves (accepts := anyRequest) rfl
    refine ⟨_, rfl, fun harmed => ?_, fun hother => ?_⟩
    · rw [decideTrigger_of_armed harmed] at hreplies
      exact hreplies
    · rw [decideTrigger_of_not_armed hother] at hreplies
      exact hreplies

end Sys2Proof.Machine
end

