-- ==== Sys2Proof/Proofs/RestartReply.lean ====
section
/-! PROOFS. The answer to a RESTART (O7): port U drops its reply or holds it, and the restart waits while it is held. -/

namespace Sys2Proof.Machine

theorem State.changesOnly_me_pu (s : State) (m : ManagementEngine) (p : PortUnits) :
    s.changesOnly { s with me := m, pu := p } [.me, .pu] := by
  intro q hq
  cases q with
  | me | pu => simp at hq
  | held | clock | gm | rtc | di | cm | se | rr | fmu | cu | pending => rfl

/-- The RESTART in service is answered (R200). -/
theorem exec_restart_of_serves {s : State} {q : Request} (h : s.serves q .restart .none) :
    exec .restart s = .next (s.acceptRestart q) := by
  obtain ⟨hheld, hrestart, hhead, hfor⟩ := h
  obtain ⟨rest, hqueue⟩ := List.head?_eq_some_iff.mp hhead
  refine congrArg Host.Outcome.next ((State.live_of_not_held hheld).trans ?_)
  simp only [hqueue]
  exact if_pos ⟨hrestart, hfor⟩

theorem PortU.dropsReply_eq_false_iff (p : PortU) :
    p.dropsReply = false ↔ p.up = true ∧ p.replies.length < 4 := by
  rw [PortU.dropsReply, Bool.or_eq_false_iff, Bool.not_eq_false', decide_eq_false_iff_not, not_le]
  exact Iff.rfl

theorem PortU.holdsRestart_of_mem {p : PortU} {o : OutFrame} (ho : o.isRestart = true) (hmem : o ∈ p.replies) :
    p.holdsRestart = true := by
  have hany : p.replies.any OutFrame.isRestart = true := List.any_eq_true.mpr ⟨o, hmem, ho⟩
  rw [PortU.holdsRestart, hany, Bool.or_true]

/-- The transmitter sends the reply it takes, so a reply that waits is still held after the transmitter is served. -/
theorem PortU.holdsRestart_serve {p : PortU} (clock : Nat) {o : OutFrame} (ho : o.isRestart = true)
    (hmem : o ∈ p.replies) : (p.serve clock).holdsRestart = true := by
  refine PortU.serve_ind (P := fun u => u.holdsRestart = true) (holdsRestart_of_mem ho hmem)
    (fun _ _ _ => holdsRestart_of_mem ho hmem) (fun x rest _ _ hreplies => ?reply)
    (fun _ _ _ _ _ _ => holdsRestart_of_mem ho hmem)
  case reply =>
    rw [hreplies] at hmem
    rcases List.mem_cons.mp hmem with rfl | hrest
    · simp [PortU.holdsRestart, beginSending, ho]
    · exact holdsRestart_of_mem ho hrest

theorem PortU.holdsRestart_handReply {p : PortU} (clock : Nat) {o : OutFrame} (ho : o.isRestart = true)
    (hup : p.up = true) (hroom : p.replies.length < 4) : (p.handReply clock o).holdsRestart = true := by
  rw [PortU.handReply_room clock o hup hroom]
  exact PortU.holdsRestart_serve clock ho (List.mem_append_right _ (List.mem_singleton_self o))

/-- Settles O7: the restart waits exactly when port U does not drop its reply, and then port U holds it. -/
theorem restartAnswered : Obligations.RestartAnswered := by
  unfold Obligations.RestartAnswered
  intro s q hserves
  refine ⟨_, exec_restart_of_serves hserves, s.changesOnly_me_pu _ _, rfl, ?_, rfl, PortU.handReply_takes ..,
    PortU.holdsRestart_handReply _ rfl⟩
  change (if s.pu.u.dropsReply then RestartPhase.due else .waiting) = _
  by_cases hkept : s.pu.u.up = true ∧ s.pu.u.replies.length < 4
  · rw [if_pos hkept, (PortU.dropsReply_eq_false_iff _).mpr hkept]
    rfl
  · rw [if_neg hkept, if_pos]
    exact Bool.eq_true_of_not_eq_false (mt (PortU.dropsReply_eq_false_iff _).mp hkept)

end Sys2Proof.Machine
end

