-- ==== Sys2Proof/Proofs/FrameFields.lean ====
section
/-! PROOFS. Where the part reads each field of a received frame (O10): fields of a part of a frame are fields of the
frame, and a frame that passes the header checks holds its declared payload right behind its header. -/

namespace Sys2Proof.Machine

/-! ### Fields of a part of the bytes -/

theorem byteAt_drop (l : List Byte) (n i : Nat) : byteAt (l.drop n) i = byteAt l (n + i) := by
  simp [byteAt, List.getD_eq_getElem?_getD]

theorem field_drop (l : List Byte) (n off size : Nat) : field (l.drop n) off size = field l (n + off) size := by
  simp [field]

theorem word16_drop (l : List Byte) (n off : Nat) : word16 (l.drop n) off = word16 l (n + off) := by
  simp [word16, field_drop]

theorem byteAt_take {n i : Nat} (h : i < n) (l : List Byte) : byteAt (l.take n) i = byteAt l i := by
  simp [byteAt, List.getD_eq_getElem?_getD, List.getElem?_take_of_lt h]

theorem field_take {n off size : Nat} (h : off + size ≤ n) (l : List Byte) :
    field (l.take n) off size = field l off size := by
  have hsize : size ≤ n - off := by omega
  rw [field, List.drop_take, List.take_take, min_eq_left hsize, field]

/-! ### Tags and header (R165, R166) -/

theorem isVlanTag_iff (v : Nat) : isVlanTag v = true ↔ v = 0x8100 ∨ v = 0x88A8 := by
  simp [isVlanTag]

theorem vlanTags_le_two (f : Frame) : vlanTags f ≤ 2 := by
  unfold vlanTags
  split
  · split <;> omega
  · omega

theorem one_le_vlanTags_iff (f : Frame) : 1 ≤ vlanTags f ↔ isVlanTag (field f 12 2) = true := by
  unfold vlanTags
  split
  case isTrue h => simp only [h, iff_true]; split <;> omega
  case isFalse h => simp [h]

theorem vlanTags_eq_two_iff (f : Frame) :
    vlanTags f = 2 ↔ isVlanTag (field f 12 2) = true ∧ isVlanTag (field f 16 2) = true := by
  unfold vlanTags
  split
  case isTrue h => simp only [h, true_and]; split <;> simp_all
  case isFalse h => simp [h]

theorem headerOf_eq (f : Frame) :
    headerOf f =
      { version := byteAt f (headerStart f), kind := byteAt f (headerStart f + 1)
        length := field f (headerStart f + 2) 2, source := byteAt f (headerStart f + 4)
        dest := byteAt f (headerStart f + 5), seq := word16 f (headerStart f + 6) } := by
  simp only [headerOf, byteAt_drop, field_drop, word16_drop, Nat.add_zero]

/-! ### The declared payload -/

/-- What stands between the header and the FCS. -/
theorem length_afterHeader (f : Frame) : (afterHeader f).length = f.length - (26 + 4 * vlanTags f) := by
  simp only [afterHeader, headerStart, List.length_take, List.length_drop]
  omega

theorem lengthAllowed_gridSample {n : Nat} : LengthAllowed 0x10 n ↔ n = 12 := by simp [LengthAllowed]

theorem lengthAllowed_dispatch {n : Nat} : LengthAllowed 0x20 n ↔ ∃ k, 1 ≤ k ∧ k ≤ 16 ∧ n = 4 + 4 * k := by
  simp [LengthAllowed]

theorem lengthAllowed_report {n : Nat} : LengthAllowed 0x40 n ↔ 6 ≤ n := by simp [LengthAllowed]

theorem lengthAllowed_request {n : Nat} : LengthAllowed 0x60 n ↔ 8 ≤ n := by simp [LengthAllowed]

section
variable {p : Port} {f : Frame} (h : PassesHeaderChecks p f)
include h

/-- The declared payload of a frame that passes the header checks lies whole before the FCS. -/
theorem PassesHeaderChecks.payloadOf_eq : payloadOf f = (f.drop (headerStart f + 8)).take (headerOf f).length := by
  obtain ⟨n, rfl, -, -, hfits, -⟩ := h
  have hpresent : (headerOf f).length ≤ f.length - (headerStart f + 8) - 4 := by
    unfold headerStart
    omega
  rw [payloadOf, afterHeader, List.take_take, min_eq_left hpresent]

theorem PassesHeaderChecks.byteAt_payload {i : Nat} (hi : i < (headerOf f).length) :
    byteAt (payloadOf f) i = byteAt f (headerStart f + 8 + i) := by
  rw [h.payloadOf_eq, byteAt_take hi, byteAt_drop]

theorem PassesHeaderChecks.field_payload {off size : Nat} (hi : off + size ≤ (headerOf f).length) :
    field (payloadOf f) off size = field f (headerStart f + 8 + off) size := by
  rw [h.payloadOf_eq, field_take hi, field_drop]

theorem PassesHeaderChecks.word16_payload {off : Nat} (hi : off + 2 ≤ (headerOf f).length) :
    word16 (payloadOf f) off = word16 f (headerStart f + 8 + off) := by
  rw [word16, h.field_payload hi, word16]

theorem PassesHeaderChecks.drop_payload (n : Nat) :
    (payloadOf f).drop n = (f.drop (headerStart f + 8 + n)).take ((headerOf f).length - n) := by
  rw [h.payloadOf_eq, List.drop_take, List.drop_drop]

theorem PassesHeaderChecks.lengthAllowed : LengthAllowed (headerOf f).kind (headerOf f).length := by
  obtain ⟨_, -, -, -, -, -, hlength⟩ := h
  exact hlength

theorem PassesHeaderChecks.kindAtPort : KindAtPort p (headerOf f).kind := by
  obtain ⟨_, -, -, hkind, -⟩ := h
  exact hkind

end

/-! ### The payload of each kind (R171, R172, R174, R176) -/

theorem PassesHeaderChecks.gridSampleOf_eq {f : Frame} (h : PassesHeaderChecks .g f) :
    gridSampleOf f =
      { source := (headerOf f).source, seq := (headerOf f).seq, quality := word16 f (headerStart f + 8)
        vab := field f (headerStart f + 10) 2, vbc := field f (headerStart f + 12) 2
        vca := field f (headerStart f + 14) 2, freq := field f (headerStart f + 16) 4 } := by
  have hkind : (headerOf f).kind = 0x10 := h.kindAtPort
  have hlength := h.lengthAllowed
  rw [hkind, lengthAllowed_gridSample] at hlength
  simp only [gridSampleOf]
  rw [h.word16_payload (by omega), h.field_payload (by omega), h.field_payload (by omega),
    h.field_payload (by omega), h.field_payload (by omega)]

theorem PassesHeaderChecks.reportOf_eq {f : Frame} (h : PassesHeaderChecks .d f) :
    reportOf f =
      { raw := f, source := (headerOf f).source, state := byteAt f (headerStart f + 8)
        reserved := byteAt f (headerStart f + 9), status := word16 f (headerStart f + 10)
        current := field f (headerStart f + 12) 2 } := by
  have hkind : (headerOf f).kind = 0x40 := h.kindAtPort
  have hlength := h.lengthAllowed
  rw [hkind, lengthAllowed_report] at hlength
  simp only [reportOf]
  rw [h.byteAt_payload (by omega), h.byteAt_payload (by omega), h.word16_payload (by omega),
    h.field_payload (by omega)]

theorem PassesHeaderChecks.requestOf_eq {f : Frame} (h : PassesHeaderChecks .u f) (hkind : (headerOf f).kind = 0x60) :
    requestOf f =
      { source := (headerOf f).source, seq := (headerOf f).seq, id := word16 f (headerStart f + 8)
        op := byteAt f (headerStart f + 10), object := byteAt f (headerStart f + 11)
        index := field f (headerStart f + 12) 2, count := field f (headerStart f + 14) 2
        data := (f.drop (headerStart f + 16)).take ((headerOf f).length - 8) } := by
  have hlength := h.lengthAllowed
  rw [hkind, lengthAllowed_request] at hlength
  simp only [requestOf]
  rw [h.word16_payload (by omega), h.byteAt_payload (by omega), h.byteAt_payload (by omega),
    h.field_payload (by omega), h.field_payload (by omega), h.drop_payload]

theorem length_dispatchEntries (p : List Byte) (i k : Nat) : (dispatchEntries p i k).length = k := by
  induction k generalizing i with
  | zero => rfl
  | succ k ih => rw [dispatchEntries, List.length_cons, ih]

theorem getElem?_dispatchEntries (p : List Byte) (i : Nat) {j k : Nat} (h : j < k) :
    (dispatchEntries p i k)[j]? =
      some { channel := (byteAt p (4 + 4 * (i + j))).toNat, demand := field p (6 + 4 * (i + j)) 2 } := by
  induction k generalizing i j with
  | zero => omega
  | succ k ih =>
    cases j with
    | zero => rfl
    | succ j =>
      have hnext : i + 1 + j = i + (j + 1) := by omega
      rw [dispatchEntries, List.getElem?_cons_succ, ih (i + 1) (by omega), hnext]

section
variable {f : Frame} (h : PassesHeaderChecks .u f) (hkind : (headerOf f).kind = 0x20)
include h hkind

/-- The entries of a good DISPATCH frame fill its declared payload (R169). -/
theorem PassesHeaderChecks.dispatch_length : (headerOf f).length = 4 + 4 * (dispatchOf f).entries.length := by
  have hlength := h.lengthAllowed
  rw [hkind, lengthAllowed_dispatch] at hlength
  obtain ⟨k, -, -, hk⟩ := hlength
  have hentries : (dispatchOf f).entries.length = ((headerOf f).length - 4) / 4 := length_dispatchEntries ..
  omega

theorem PassesHeaderChecks.dispatchOf_eq :
    dispatchOf f =
      { source := (headerOf f).source, length := (headerOf f).length, tag := word16 f (headerStart f + 8)
        count := (byteAt f (headerStart f + 10)).toNat, entries := (dispatchOf f).entries } := by
  have hlength := h.dispatch_length hkind
  simp only [dispatchOf]
  rw [h.word16_payload (by omega), h.byteAt_payload (by omega)]

theorem PassesHeaderChecks.dispatch_entry {j : Nat} (hj : j < (dispatchOf f).entries.length) :
    (dispatchOf f).entries[j]? =
      some { channel := (byteAt f (headerStart f + 8 + (4 + 4 * j))).toNat
             demand := field f (headerStart f + 8 + (6 + 4 * j)) 2 } := by
  have hlength := h.dispatch_length hkind
  have hj' : j < ((headerOf f).length - 4) / 4 := by omega
  have hentry := getElem?_dispatchEntries (payloadOf f) 0 hj'
  rw [Nat.zero_add, h.byteAt_payload (by omega), h.field_payload (by omega)] at hentry
  exact hentry

end

/-- Settles O10: the header starts 8 bytes before the payload, and each kind's fields are those of the payload. -/
theorem headersAndPayloadsRead : Obligations.HeadersAndPayloadsRead := by
  unfold Obligations.HeadersAndPayloadsRead
  rintro f tag _ b htag rfl hb
  have hvlan (o : Nat) : isVlanTag (field f o 2) = true ↔ tag o := (isVlanTag_iff _).trans (htag o).symm
  obtain rfl : b = headerStart f + 8 := by rw [hb, headerStart]; omega
  have hkind : (headerOf f).kind = byteAt f (headerStart f + 1) := by rw [headerOf_eq]
  have hlength : (headerOf f).length = field f (headerStart f + 2) 2 := by rw [headerOf_eq]
  have hsource : (headerOf f).source = byteAt f (headerStart f + 4) := by rw [headerOf_eq]
  have hseq : (headerOf f).seq = word16 f (headerStart f + 6) := by rw [headerOf_eq]
  simp only [Nat.reduceSubDiff, Nat.add_sub_cancel]
  refine ⟨vlanTags_le_two f, (one_le_vlanTags_iff f).trans (hvlan 12), ?tags, rfl, headerOf_eq f, ?payloads⟩
  case tags => rw [vlanTags_eq_two_iff, hvlan, hvlan]
  case payloads =>
    simp only [← hkind, ← hlength, ← hsource, ← hseq]
    refine ⟨fun h => h.gridSampleOf_eq, fun h hdispatch => ?dispatch, fun h => h.reportOf_eq,
      fun h hrequest => h.requestOf_eq hrequest⟩
    case dispatch =>
      refine ⟨h.dispatchOf_eq hdispatch, (h.dispatch_length hdispatch).symm, fun j hj => ?_⟩
      rw [h.dispatch_entry hdispatch hj, ← Nat.add_assoc, ← Nat.add_assoc]

end Sys2Proof.Machine
end

