-- ==== Sys2Proof/Proofs/FrameReception.lean ====
section
/-! PROOFS. The reception of a frame: what the header checks decide, the fate of a frame at each failed check, a frame
that a block takes (O9), and a frame that passes on to the other port (O11). -/

namespace Sys2Proof.Machine

/-! ### The header checks (R168, R169) -/

theorem lengthOk_iff (f : Frame) : lengthOk f = true ↔ 64 ≤ f.length ∧ f.length ≤ 1518 + 4 * vlanTags f := by
  simp [lengthOk]

theorem kindKnown_iff (p : Port) (kind : Byte) : kindKnown p kind = true ↔ KindAtPort p kind := by
  cases p <;> simp [kindKnown, KindAtPort, kindDispatch, kindRequest, kindReport, kindGridSample]

theorem allowedLength_iff (kind : Byte) (n : Nat) : allowedLength kind n = true ↔ LengthAllowed kind n := by
  unfold allowedLength kindGridSample kindDispatch kindReport kindRequest
  split_ifs with hgrid hdispatch hreport hrequest
  · rw [hgrid, lengthAllowed_gridSample, beq_iff_eq]
  · rw [hdispatch, lengthAllowed_dispatch]
    simp only [Bool.and_eq_true, decide_eq_true_eq, beq_iff_eq]
    constructor
    · rintro ⟨⟨hlow, hhigh⟩, hmod⟩
      exact ⟨(n - 4) / 4, by omega, by omega, by omega⟩
    · rintro ⟨k, hone, hsixteen, rfl⟩
      omega
  · rw [hreport, lengthAllowed_report, decide_eq_true_eq]
  · rw [hrequest, lengthAllowed_request, decide_eq_true_eq]
  · simp only [LengthAllowed, hgrid, hdispatch, hreport, hrequest, false_and, or_self]

theorem passesHeaderChecks_iff (p : Port) (f : Frame) :
    PassesHeaderChecks p f ↔ (headerOf f).version = 1 ∧ kindKnown p (headerOf f).kind = true ∧
      (headerOf f).length ≤ (afterHeader f).length ∧
      ((headerOf f).length < (afterHeader f).length → f.length = 64) ∧
      allowedLength (headerOf f).kind (headerOf f).length = true := by
  rw [PassesHeaderChecks, exists_eq_left, length_afterHeader, kindKnown_iff, allowedLength_iff]

theorem sentOnAtD_iff (p : Port) (f : Frame) :
    SentOnAtD p f ↔ p = .d ∧ (headerOf f).version = 1 ∧ kindKnown .d (headerOf f).kind = false := by
  rw [SentOnAtD, ← kindKnown_iff, Bool.not_eq_true]

theorem headerVerdict_deliver {p : Port} {f : Frame} (h : PassesHeaderChecks p f) : headerVerdict p f = .deliver := by
  obtain ⟨hversion, hkind, hfits, hpadding, hlength⟩ := (passesHeaderChecks_iff p f).mp h
  have hnopad : ¬((headerOf f).length < (afterHeader f).length ∧ f.length ≠ 64) := fun ⟨hlt, hne⟩ => hne (hpadding hlt)
  simp [headerVerdict, hversion, hkind, hfits, hnopad, hlength]

theorem headerVerdict_forward {p : Port} {f : Frame} (h : SentOnAtD p f) : headerVerdict p f = .forward := by
  obtain ⟨rfl, hversion, hkind⟩ := (sentOnAtD_iff p f).mp h
  simp [headerVerdict, hversion, hkind]

theorem headerVerdict_error {p : Port} {f : Frame} (hfails : ¬PassesHeaderChecks p f) (hstays : ¬SentOnAtD p f) :
    headerVerdict p f = .error := by
  rw [passesHeaderChecks_iff] at hfails
  rw [sentOnAtD_iff] at hstays
  simp only [headerVerdict]
  split_ifs with hversion hsent hkind hshort hpadding hlength
  · rfl
  · obtain ⟨rfl, hunknown⟩ := hsent
    exact absurd ⟨rfl, not_not.mp hversion, hunknown⟩ hstays
  · rfl
  · rfl
  · rfl
  · rfl
  · refine absurd ⟨not_not.mp hversion, Bool.eq_true_of_not_eq_false hkind, not_lt.mp hshort, fun hlt => ?_,
      Bool.eq_true_of_not_eq_false hlength⟩ hfails
    exact not_not.mp fun hne => hpadding ⟨hlt, hne⟩

/-! ### The fate of a frame (R167, R168, R180 to R183) -/

theorem exec_frameReceived {s : State} (hheld : s.held = false) (p : Port) (f : Frame) :
    exec (.frameReceived p f) s = .next (s.receive p f) :=
  congrArg Host.Outcome.next (State.live_of_not_held hheld)

theorem State.onRx_eq_putRx (s : State) (p : Port) (g : RxCounters → RxCounters) :
    s.onRx p g = s.putRx p (g (s.rxOf p)) := by
  cases p <;> rfl

theorem State.givesHeaderChecks_iff (s : State) (p : Port) (f : Frame) :
    s.givesHeaderChecks p f = true ↔ p = .g ∨ (headerOf f).dest = s.pu.ownStation := by
  simp [State.givesHeaderChecks]

section
variable {s : State} {p : Port} {f : Frame}

theorem State.receive_of_down (hdown : s.linkUp p = false) : s.receive p f = s := by
  simp [State.receive, State.reception, hdown]

section
variable (hup : s.linkUp p = true)
include hup

theorem State.receive_of_badFcs (hfcs : fcsMatches f = false) :
    s.receive p f = s.putRx p { s.rxOf p with fcs := (s.rxOf p).fcs + 1 } := by
  have hfate : s.reception p f = .badFcs := by simp [State.reception, hup, hfcs]
  rw [State.receive, hfate]
  exact s.onRx_eq_putRx p _

variable (hfcs : fcsMatches f = true)
include hfcs

theorem State.receive_of_badLength (hlength : lengthOk f = false) :
    s.receive p f = s.putRx p { s.rxOf p with length := (s.rxOf p).length + 1 } := by
  have hfate : s.reception p f = .badLength := by simp [State.reception, hup, hfcs, hlength]
  rw [State.receive, hfate]
  exact s.onRx_eq_putRx p _

variable (hlength : lengthOk f = true)
include hlength

/-- A frame of another type or for another station passes on, and so does one that check 2 of R168 sends on at port D
(R168, R181, R182). -/
theorem State.reception_pass (hport : p ≠ .g)
    (hforeign : typeField f ≠ s.pu.typeValue ∨ (headerOf f).dest ≠ s.pu.ownStation ∨ SentOnAtD p f) :
    s.reception p f = .pass := by
  by_cases htype : typeField f = s.pu.typeValue
  · by_cases hdest : (headerOf f).dest = s.pu.ownStation
    · have hsent : SentOnAtD p f := (hforeign.resolve_left (not_not.mpr htype)).resolve_left (not_not.mpr hdest)
      simp [State.reception, hup, hfcs, hlength, htype, State.givesHeaderChecks, hdest, headerVerdict_forward hsent]
    · simp [State.reception, hup, hfcs, hlength, htype, State.givesHeaderChecks, hdest, hport]
  · simp [State.reception, hup, hfcs, hlength, htype, hport]

theorem State.receive_foreign_g (hport : p = .g) (htype : typeField f ≠ s.pu.typeValue) :
    s.receive p f = (s.onRx .g (.countGood f)).onG fun q => { q with foreign := q.foreign + 1 } := by
  subst hport
  have hfate : s.reception .g f = .foreign := by simp [State.reception, hup, hfcs, hlength, htype]
  rw [State.receive, hfate]

variable (htype : typeField f = s.pu.typeValue) (hours : p = .g ∨ (headerOf f).dest = s.pu.ownStation)
include htype hours

/-- A Feed Link frame for the own station, or any at port G, fares as its header checks decide (R168). -/
theorem State.receive_of_badHeader (hfails : ¬PassesHeaderChecks p f) (hstays : ¬SentOnAtD p f) :
    s.receive p f = s.putRx p { s.rxOf p with header := (s.rxOf p).header + 1 } := by
  have hchecked := (s.givesHeaderChecks_iff p f).mpr hours
  have hfate : s.reception p f = .badHeader := by
    simp [State.reception, hup, hfcs, hlength, htype, hchecked, headerVerdict_error hfails hstays]
  rw [State.receive, hfate]
  exact s.onRx_eq_putRx p _

theorem State.receive_delivered (hpasses : PassesHeaderChecks p f) :
    s.receive p f = (s.onRx p (.countGood f)).deliver p f := by
  have hchecked := (s.givesHeaderChecks_iff p f).mpr hours
  have hfate : s.reception p f = .deliver := by
    simp [State.reception, hup, hfcs, hlength, htype, hchecked, headerVerdict_deliver hpasses]
  rw [State.receive, hfate]

end
end

/-! ### A frame that a block takes (R168, R181 to R183) -/

theorem State.changesOnly_pu (s : State) (p : PortUnits) : s.changesOnly { s with pu := p } [.pu] := by
  intro q hq
  cases q with
  | pu => simp at hq
  | held | clock | gm | rtc | di | cm | se | rr | fmu | cu | me | pending => rfl

theorem State.changesOnly_gm_pu (s : State) (g : GridMonitor) (p : PortUnits) :
    s.changesOnly { s with gm := g, pu := p } [.gm, .pu] := by
  intro q hq
  cases q with
  | gm | pu => simp at hq
  | held | clock | rtc | di | cm | se | rr | fmu | cu | me | pending => rfl

theorem State.changesOnly_rr_pu (s : State) (r : ReportReceiver) (p : PortUnits) :
    s.changesOnly { s with rr := r, pu := p } [.rr, .pu] := by
  intro q hq
  cases q with
  | rr | pu => simp at hq
  | held | clock | gm | rtc | di | cm | se | fmu | cu | me | pending => rfl

theorem State.changesOnly_di_pu (s : State) (d : DemandIntake) (p : PortUnits) :
    s.changesOnly { s with di := d, pu := p } [.di, .pu] := by
  intro q hq
  cases q with
  | di | pu => simp at hq
  | held | clock | gm | rtc | cm | se | rr | fmu | cu | me | pending => rfl

theorem State.deliver_dispatch (s : State) {f : Frame} (hkind : (headerOf f).kind = 0x20) :
    s.deliver .u f = { s with di := { s.di with handed := s.di.handed ++ [dispatchOf f] } } :=
  if_pos hkind

theorem State.deliver_request (s : State) {f : Frame} (hkind : (headerOf f).kind = 0x60) :
    s.deliver .u f = { s with me := { s.me with handed := s.me.handed ++ [requestOf f] } } :=
  if_neg (by rw [hkind]; decide)

/-- Settles O9: one rule for each check of R167 and R168 that fails, and the block that takes a good frame. -/
theorem frameReceived : Obligations.FrameReceived := by
  unfold Obligations.FrameReceived
  intro p f s hheld
  rw [exec_frameReceived hheld]
  refine ⟨fun hdown => ?down, fun hup => ⟨_, rfl, State.receive_of_badFcs hup, fun hfcs hbad => ?length,
    fun hfcs hlow hhigh htype hours => ?checked, fun hfcs hlow hhigh htype hport => ?foreign⟩⟩
  case down => rw [State.receive_of_down hdown]
  case length =>
    refine State.receive_of_badLength hup hfcs (Bool.eq_false_of_not_eq_true fun hok => ?_)
    obtain ⟨hlow, hhigh⟩ := (lengthOk_iff f).mp hok
    omega
  case checked =>
    have hlength := (lengthOk_iff f).mpr ⟨hlow, hhigh⟩
    refine ⟨State.receive_of_badHeader hup hfcs hlength htype hours, fun hpasses => ?_⟩
    rw [State.receive_delivered hup hfcs hlength htype hours hpasses]
    refine ⟨?pu, ?grid, ?report, ?dispatch, ?request⟩
    case pu =>
      rw [State.deliver_pu, State.onRx_eq_putRx]
      rfl
    case grid =>
      rintro rfl
      exact ⟨rfl, s.changesOnly_gm_pu _ _⟩
    case report =>
      rintro rfl
      exact ⟨rfl, s.changesOnly_rr_pu _ _⟩
    case dispatch =>
      rintro rfl hkind
      rw [State.deliver_dispatch _ hkind]
      exact ⟨rfl, s.changesOnly_di_pu _ _⟩
    case request =>
      rintro rfl hkind
      rw [State.deliver_request _ hkind]
      exact ⟨rfl, s.changesOnly_me_pu _ _⟩
  case foreign =>
    rw [State.receive_foreign_g hup hfcs ((lengthOk_iff f).mpr ⟨hlow, hhigh⟩) hport htype]
    exact ⟨s.changesOnly_pu _, rfl⟩

/-! ### A frame that passes on (R168, R181, R182) -/

/-- Settles O11: a frame that passes is counted at its port and handed to the other port, which takes it as it is. -/
theorem foreignTrafficPasses : Obligations.ForeignTrafficPasses := by
  unfold Obligations.ForeignTrafficPasses
  intro p f s hheld hup hfcs hlength hport hforeign
  refine ⟨_, exec_frameReceived hheld p f, ?_⟩
  rw [State.receive, State.reception_pass hup hfcs hlength hport hforeign]
  cases p with
  | u =>
    exact ⟨s.changesOnly_pu _, rfl, rfl, fun _ => ⟨rfl, PortD.handPassThrough_takes ..⟩, fun h => by cases h⟩
  | d =>
    exact ⟨s.changesOnly_pu _, rfl, rfl, fun h => (by cases h), fun _ => ⟨rfl, PortU.handForward_takes ..⟩⟩
  | g => exact absurd rfl hport

end Sys2Proof.Machine
end

