-- ==== Sys2Proof/Proofs/LinkState.lean ====
section
/-! PROOFS. A loss of signal and its return at each port (O8): what the emptied transmitter counts, what the Fault and
Mode Unit keeps of the loss, and what a port's change of state leaves of the other ports. -/

namespace Sys2Proof.Machine

/-! ### The emptied transmitter (R179) -/

theorem countOf_isSome {α : Type} (o : Option α) : countOf o.isSome = o.toList.length := by cases o <;> rfl

theorem PortU.flush_eq (p : PortU) :
    p.flush = { p with
      sending := none, slot := none, replies := [], forwarding := []
      tx := { p.tx with discards := p.tx.discards + BitVec.ofNat 32 (p.sending.toList.length + p.slot.toList.length +
        p.replies.length + p.forwarding.length) } } := by
  rw [PortU.flush, countOf_isSome, countOf_isSome, TxCounters.discard]

theorem PortD.flush_eq (p : PortD) :
    p.flush = { p with
      sending := none, slot := none, passThrough := []
      tx := { p.tx with discards := p.tx.discards + BitVec.ofNat 32 (p.sending.toList.length + p.slot.toList.length +
        p.passThrough.length) } } := by
  rw [PortD.flush, countOf_isSome, countOf_isSome, TxCounters.discard]

/-! ### The loss of signal (R179) -/

/-- A raising leaves the LINK flag as it is (R147). -/
theorem FaultModeUnit.record_summary_link (f : FaultModeUnit) (r : Raising) (now : BitVec 32)
    (g : Option (BitVec 16)) : (f.record r now g).summary.link = f.summary.link := by
  apply FaultModeUnit.record_cases f r now g (P := fun m => m.summary.link = f.summary.link) <;> intros <;> rfl

/-- What the Fault and Mode Unit makes of a loss of signal at port `p`: the LINK flag and LINK DOWN (R147, R179). -/
def State.linkDownRecorded (s : State) (p : Port) : FaultModeUnit :=
  FaultModeUnit.record { s.fmu with summary := { s.fmu.summary with link := true } }
    { code := .linkDown, cls := .hold, subject := .port p } s.timeBase s.gm.seqState

theorem State.onRx_countFcs_if (s : State) (p : Port) (cut : Bool) :
    (if cut then s.onRx p RxCounters.countFcs else s) =
      s.onRx p fun r => { r with fcs := r.fcs + if cut then 1 else 0 } := by
  cases cut with
  | true => rfl
  | false => cases p <;> simp [State.onRx, State.onU, State.onD, State.onG]

/-- LINK DOWN is no TRIP-class fault, so a loss of signal is the port's change of state and a record of it. -/
theorem State.loseSignal_eq (s : State) (p : Port) (cut : Bool) :
    s.loseSignal p cut =
      (State.flushPort p { s.setLink p false false with fmu := s.linkDownRecorded p }).onRx p
        fun r => { r with fcs := r.fcs + if cut then 1 else 0 } := by
  rw [← State.onRx_countFcs_if, State.loseSignal]
  simp only [State.raise_eq_record (r := { code := .linkDown, cls := .hold, subject := .port p })
    fun h => FaultClass.noConfusion h.1, State.linkDownRecorded, State.timeBase, State.ms, State.setLink_clock,
    State.setLink_gm, State.setLink_fmu]

theorem State.changesOnly_loseSignal (s : State) (p : Port) (cut : Bool) :
    s.changesOnly (s.loseSignal p cut) [.fmu, .pu, .me] := by
  intro q hq
  cases q with
  | fmu | pu | me => simp at hq
  | held | clock | gm | rtc | di | cm | se | rr | cu | pending => simp [State.agrees, State.loseSignal_eq]

theorem State.loseSignal_fmu (s : State) (p : Port) (cut : Bool) :
    (s.loseSignal p cut).fmu = s.linkDownRecorded p := by
  simp [State.loseSignal_eq]

/-- At port U the loss empties the transmitter, and a discarded RESTART reply makes the restart due (R179, R200). -/
theorem State.loseSignal_u (s : State) (cut : Bool) :
    (s.loseSignal .u cut).pu = { s.pu with u := { PortU.flush { s.pu.u with up := false, signal := false } with
        rx := { s.pu.u.rx with fcs := s.pu.u.rx.fcs + if cut then 1 else 0 } } } ∧
      (s.loseSignal .u cut).me =
        { s.me with restart := if s.pu.u.holdsRestart then .due else s.me.restart } := by
  rw [State.loseSignal_eq]
  exact ⟨rfl, rfl⟩

theorem State.loseSignal_d (s : State) (cut : Bool) :
    (s.loseSignal .d cut).pu = { s.pu with d := { PortD.flush { s.pu.d with up := false, signal := false } with
        rx := { s.pu.d.rx with fcs := s.pu.d.rx.fcs + if cut then 1 else 0 } } } ∧
      (s.loseSignal .d cut).me = s.me := by
  rw [State.loseSignal_eq]
  exact ⟨rfl, rfl⟩

theorem State.loseSignal_g (s : State) (cut : Bool) :
    (s.loseSignal .g cut).pu = { s.pu with g := { s.pu.g with
        up := false, signal := false
        rx := { s.pu.g.rx with fcs := s.pu.g.rx.fcs + if cut then 1 else 0 } } } ∧
      (s.loseSignal .g cut).me = s.me := by
  rw [State.loseSignal_eq]
  exact ⟨rfl, rfl⟩

/-! ### A port's link state and signal set -/

theorem State.changesOnly_setLink (s : State) (p : Port) (up signal : Bool) :
    s.changesOnly (s.setLink p up signal) [.pu] := by
  cases p <;> exact s.changesOnly_pu _

/-- With the link state as it stands, only the signal changes. -/
theorem State.setLink_linkUp_pu (s : State) (p : Port) (signal : Bool) :
    (p = .u → (s.setLink p (s.linkUp p) signal).pu = { s.pu with u := { s.pu.u with signal := signal } }) ∧
    (p = .d → (s.setLink p (s.linkUp p) signal).pu = { s.pu with d := { s.pu.d with signal := signal } }) ∧
    (p = .g → (s.setLink p (s.linkUp p) signal).pu = { s.pu with g := { s.pu.g with signal := signal } }) :=
  ⟨fun h => by subst h; rfl, fun h => by subst h; rfl, fun h => by subst h; rfl⟩

/-! ### The two commands -/

theorem exec_linkLoss_of_up {s : State} {p : Port} (hheld : s.held = false) (hup : s.linkUp p = true) (cut : Bool) :
    exec (.linkLoss p cut) s = .next (s.loseSignal p cut) := by
  change execLinkLoss p cut s = _
  simp [execLinkLoss, hheld, hup]

/-- A held part, and a port that is DOWN, take nothing of a loss but the signal (R203). -/
theorem exec_linkLoss_signal {s : State} {p : Port} (h : s.held = true ∨ s.linkUp p = false) (cut : Bool) :
    exec (.linkLoss p cut) s = .next (s.setLink p (s.linkUp p) false) := by
  change execLinkLoss p cut s = _
  cases hheld : s.held with
  | true => simp [execLinkLoss, hheld]
  | false =>
    have hdown : s.linkUp p = false := h.resolve_left (by simp [hheld])
    simp [execLinkLoss, hheld, hdown]

theorem exec_linkUp_of_not_held {s : State} (hheld : s.held = false) (p : Port) :
    exec (.linkUp p) s = .next (s.setLink p true true) := by
  change execLinkUp p s = _
  simp [execLinkUp, hheld]

theorem exec_linkUp_of_held {s : State} (hheld : s.held = true) (p : Port) :
    exec (.linkUp p) s = .next (s.setLink p (s.linkUp p) true) := by
  change execLinkUp p s = _
  simp [execLinkUp, hheld]

/-- Settles O8: a loss at a port that is UP is the loss of R179, port by port; every other case sets the port's signal,
with its link state UP or as it stands. -/
theorem linkChanges : Obligations.LinkChanges := by
  unfold Obligations.LinkChanges
  refine ⟨fun p cut s hheld hup => ?loss, fun p s hheld => ?detected, fun p cut s c signal hc => ?signalAlone⟩
  case loss =>
    refine ⟨_, exec_linkLoss_of_up hheld hup cut, s.changesOnly_loseSignal p cut, ?_⟩
    rw [State.loseSignal_fmu]
    refine ⟨FaultModeUnit.record_summary_link .., rfl, FaultModeUnit.record_mode .., ?_⟩
    cases p with
    | u =>
      obtain ⟨hpu, hme⟩ := s.loseSignal_u cut
      rw [hpu, hme, PortU.flush_eq]
      exact ⟨rfl, fun h => absurd rfl h, fun _ => rfl, fun _ => rfl, fun _ => ⟨rfl, rfl⟩, nofun, nofun⟩
    | d =>
      obtain ⟨hpu, hme⟩ := s.loseSignal_d cut
      rw [hpu, hme, PortD.flush_eq]
      exact ⟨rfl, fun _ => ⟨rfl, rfl⟩, fun h => absurd rfl h, fun _ => rfl, nofun, fun _ => rfl, nofun⟩
    | g =>
      obtain ⟨hpu, hme⟩ := s.loseSignal_g cut
      rw [hpu, hme]
      exact ⟨rfl, fun _ => ⟨rfl, rfl⟩, fun _ => rfl, fun h => absurd rfl h, nofun, nofun, fun _ => rfl⟩
  case detected =>
    refine ⟨_, exec_linkUp_of_not_held hheld p, s.changesOnly_setLink p true true, ?_⟩
    exact ⟨fun h => by subst h; rfl, fun h => by subst h; rfl, fun h => by subst h; rfl⟩
  case signalAlone =>
    refine ⟨_, ?_, s.changesOnly_setLink p (s.linkUp p) signal, s.setLink_linkUp_pu p signal⟩
    rcases hc with ⟨rfl, rfl, hstays⟩ | ⟨rfl, rfl, hheld⟩
    · exact exec_linkLoss_signal hstays cut
    · exact exec_linkUp_of_held hheld p

end Sys2Proof.Machine
end

