-- ==== Sys2Proof/Proofs/TransmissionEnds.lean ====
section
/-! PROOFS. The ends of transmissions (O12): the frame that a free transmitter takes next, in the priority of R185 and
R186, and the time that passes until the frame before it has held its link. -/

namespace Sys2Proof.Machine

/-! ### The frame that is sent next (R185, R186) -/

theorem some_beginSending (clock : Nat) (o : OutFrame) : some (beginSending clock o) = sendingFrom clock o := by
  rw [beginSending, holdClocks_eq, sendingFrom]

/-- From `d` with its transmitter free, port D becomes `d'`: the setpoint slot goes before the queue (R185). -/
def PortD.SendsNext (d : PortD) (clock : Nat) (d' : PortD) : Prop :=
  (∀ f, d.slot = some f →
    d' = { d with slot := none, sending := sendingFrom clock { frame := f, isRestart := false } }) ∧
  (∀ f r, d.slot = none → d.passThrough = f :: r →
    d' = { d with passThrough := r, sending := sendingFrom clock { frame := f, isRestart := false } }) ∧
  (d.slot = none → d.passThrough = [] → d' = { d with sending := none })

/-- From `u` with its transmitter free, port U becomes `u'`: the status slot goes before the replies, and these before
the forwarded frames (R186). -/
def PortU.SendsNext (u : PortU) (clock : Nat) (u' : PortU) : Prop :=
  (∀ f, u.slot = some f →
    u' = { u with slot := none, sending := sendingFrom clock { frame := f, isRestart := false } }) ∧
  (∀ o r, u.slot = none → u.replies = o :: r → u' = { u with replies := r, sending := sendingFrom clock o }) ∧
  (∀ f r, u.slot = none → u.replies = [] → u.forwarding = f :: r →
    u' = { u with forwarding := r, sending := sendingFrom clock { frame := f, isRestart := false } }) ∧
  (u.slot = none → u.replies = [] → u.forwarding = [] → u' = { u with sending := none })

theorem PortD.serve_sendsNext (d : PortD) (clock : Nat) :
    d.SendsNext clock (PortD.serve clock { d with sending := none }) := by
  refine ⟨fun f hslot => ?_, fun f r hslot hqueue => ?_, fun hslot hqueue => ?_⟩
  · rw [← some_beginSending]
    exact PortD.serve_of_slot clock rfl hslot
  · rw [← some_beginSending]
    exact PortD.serve_of_passThrough clock rfl hslot hqueue
  · exact PortD.serve_of_empty clock hslot hqueue

theorem PortU.serve_sendsNext (u : PortU) (clock : Nat) :
    u.SendsNext clock (PortU.serve clock { u with sending := none }) := by
  refine ⟨fun f hslot => ?_, fun o r hslot hreplies => ?_, fun f r hslot hreplies hqueue => ?_,
    fun hslot hreplies hqueue => ?_⟩
  · rw [← some_beginSending]
    exact PortU.serve_of_slot clock rfl hslot
  · rw [← some_beginSending]
    exact PortU.serve_of_reply clock rfl hslot hreplies
  · rw [← some_beginSending]
    exact PortU.serve_of_forwarding clock rfl hslot hreplies hqueue
  · exact PortU.serve_of_empty clock hslot hreplies hqueue

/-! ### Time until the end (R30, R185) -/

theorem State.advanceTo_agesSags (s : State) (t : Nat) : s.agesSags (s.advanceTo t) := ⟨rfl, rfl⟩

theorem State.changesOnly_clock_rtc_pu (s : State) (t : Nat) (p : PortUnits) :
    s.changesOnly { s.advanceTo t with pu := p } [.clock, .rtc, .pu] := by
  intro q hq
  cases q with
  | clock | rtc | pu => simp at hq
  | held | gm | di | cm | se | rr | fmu | cu | me | pending => rfl

theorem State.changesOnly_clock_rtc_pu_me (s : State) (t : Nat) (p : PortUnits) (m : ManagementEngine) :
    s.changesOnly { s.advanceTo t with pu := p, me := m } [.clock, .rtc, .pu, .me] := by
  intro q hq
  cases q with
  | clock | rtc | pu | me => simp at hq
  | held | gm | di | cm | se | rr | fmu | cu | pending => rfl

/-! ### The two commands -/

theorem exec_transmissionEndD {s : State} {x : Transmission} (hheld : s.held = false)
    (hsending : s.pu.d.sending = some x) :
    exec .transmissionEndD s = .next ((s.advanceTo x.endsAt).onD fun d =>
      PortD.serve (max s.clock x.endsAt) { d with sending := none, tx := d.tx.sent x.out.frame }) := by
  refine congrArg Host.Outcome.next ((State.live_of_not_held hheld).trans ?_)
  simp only [hsending, State.advanceTo_clock]

theorem exec_transmissionEndU {s : State} {x : Transmission} (hheld : s.held = false)
    (hsending : s.pu.u.sending = some x) :
    exec .transmissionEndU s = .next
      { (s.advanceTo x.endsAt).onU fun u =>
          PortU.serve (max s.clock x.endsAt) { u with sending := none, tx := u.tx.sent x.out.frame } with
        me := { s.me with restart := if x.out.isRestart then .due else s.me.restart } } := by
  refine congrArg Host.Outcome.next ((State.live_of_not_held hheld).trans ?_)
  simp only [hsending, State.advanceTo_clock]
  rfl

/-- Settles O12: time passes to the end of the frame, the frame is counted, and the freed transmitter takes the next. -/
theorem transmissionEnds : Obligations.TransmissionEnds := by
  unfold Obligations.TransmissionEnds
  refine ⟨fun s x hheld hsending => ?portD, fun s x hheld hsending => ?portU⟩
  case portD =>
    refine ⟨_, exec_transmissionEndD hheld hsending, s.changesOnly_clock_rtc_pu _ _, rfl, s.advanceTo_agesSags _, rfl,
      fun d hd => ?_⟩
    subst hd
    exact PortD.serve_sendsNext { s.pu.d with tx := s.pu.d.tx.sent x.out.frame } _
  case portU =>
    refine ⟨_, exec_transmissionEndU hheld hsending, s.changesOnly_clock_rtc_pu_me _ _ _, rfl,
      s.advanceTo_agesSags _, rfl, rfl, fun u hu => ?_⟩
    subst hu
    exact PortU.serve_sendsNext { s.pu.u with tx := s.pu.u.tx.sent x.out.frame } _

end Sys2Proof.Machine
end

