-- ==== Sys2Proof/Proofs/CounterRequests.lean ====
section
/-! PROOFS. The requests of the COUNTER object (O51): what a written count reads back as, what it leaves of the other
counters and of the part, and which index names a counter. -/

namespace Sys2Proof.Machine

/-! ### A written count reads back (R188, R198) -/

theorem RxCounters.get_put_same {n : RxName} {v : Nat} (h : v < 2 ^ n.width) (r : RxCounters) :
    (r.put n v).get n = v := by
  cases n <;> exact Nat.mod_eq_of_lt h

theorem RxCounters.get_put_of_ne {m n : RxName} (h : m ≠ n) (r : RxCounters) (v : Nat) :
    (r.put n v).get m = r.get m := by
  cases n <;> cases m <;> first | rfl | exact absurd rfl h

theorem TxCounters.get_put_same {n : TxName} {v : Nat} (h : v < 2 ^ n.width) (t : TxCounters) :
    (t.put n v).get n = v := by
  cases n <;> exact Nat.mod_eq_of_lt h

theorem TxCounters.get_put_of_ne {m n : TxName} (h : m ≠ n) (t : TxCounters) (v : Nat) :
    (t.put n v).get m = t.get m := by
  cases n <;> cases m <;> first | rfl | exact absurd rfl h

theorem State.rxOf_putRx_same (s : State) (p : Port) (r : RxCounters) : (s.putRx p r).rxOf p = r := by
  cases p <;> rfl

theorem State.rxOf_putRx_of_ne {p q : Port} (h : q ≠ p) (s : State) (r : RxCounters) :
    (s.putRx p r).rxOf q = s.rxOf q := by
  cases p <;> cases q <;> first | rfl | exact absurd rfl h

theorem State.counter_putCounter_same {n : CounterName} {v : Nat} (h : v < 2 ^ n.width) (s : State) :
    (s.putCounter n v).counter n = v := by
  cases n with
  | rx p n =>
    change ((s.putRx p ((s.rxOf p).put n v)).rxOf p).get n = v
    rw [State.rxOf_putRx_same, RxCounters.get_put_same h]
  | txU n => exact TxCounters.get_put_same h _
  | txD n => exact TxCounters.get_put_same h _
  | _ => exact Nat.mod_eq_of_lt h

/-- The receive counters of a port stand apart from every other counter. -/
theorem State.counter_putRx_of_ne {m : CounterName} {p : Port} {n : RxName} (h : m ≠ .rx p n) (s : State) (v : Nat) :
    (s.putRx p ((s.rxOf p).put n v)).counter m = s.counter m := by
  cases m with
  | rx q k =>
    change ((s.putRx p ((s.rxOf p).put n v)).rxOf q).get k = (s.rxOf q).get k
    by_cases hport : q = p
    · subst hport
      have hname : k ≠ n := fun hk => h (by rw [hk])
      rw [State.rxOf_putRx_same, RxCounters.get_put_of_ne hname]
    · rw [State.rxOf_putRx_of_ne hport]
  | _ => cases p <;> rfl

theorem State.counter_putCounter_of_ne {m n : CounterName} (h : m ≠ n) (s : State) (v : Nat) :
    (s.putCounter n v).counter m = s.counter m := by
  cases n with
  | rx p n => exact State.counter_putRx_of_ne h s v
  | txU n =>
    cases m with
    | txU k => exact TxCounters.get_put_of_ne (fun hk => h (by rw [hk])) _ v
    | rx p k => cases p <;> rfl
    | _ => rfl
  | txD n =>
    cases m with
    | txD k => exact TxCounters.get_put_of_ne (fun hk => h (by rw [hk])) _ v
    | rx p k => cases p <;> rfl
    | _ => rfl
  | _ =>
    cases m with
    | rx p k => cases p <;> rfl
    | _ => first | rfl | exact absurd rfl h

/-! ### A written count changes counters only -/

theorem State.countersOnly.trans {s w x : State} (h : s.countersOnly w) (h' : w.countersOnly x) :
    s.countersOnly x := by
  unfold State.countersOnly at h h' ⊢
  rw [h] at h'
  exact h'

theorem State.countersOnly_putCounter (s : State) (n : CounterName) (v : Nat) :
    s.countersOnly (s.putCounter n v) := by
  cases n with
  | rx p n => cases p <;> rfl
  | _ => rfl

/-! ### One value for a run of counters -/

/-- The state with each count of a run replaced by one value (R198). -/
def State.putCounters (s : State) (names : List CounterName) (v : Nat) : State :=
  names.foldl (fun s n => s.putCounter n v) s

theorem State.putCounters_cons (s : State) (n : CounterName) (names : List CounterName) (v : Nat) :
    s.putCounters (n :: names) v = (s.putCounter n v).putCounters names v := rfl

theorem State.countersOnly_putCounters (s : State) (names : List CounterName) (v : Nat) :
    s.countersOnly (s.putCounters names v) := by
  induction names generalizing s with
  | nil => rfl
  | cons n names ih => exact (s.countersOnly_putCounter n v).trans (ih _)

theorem State.counter_putCounters_of_not_mem {names : List CounterName} {m : CounterName} (h : m ∉ names) (s : State)
    (v : Nat) : (s.putCounters names v).counter m = s.counter m := by
  induction names generalizing s with
  | nil => rfl
  | cons n names ih =>
    rw [State.putCounters_cons, ih (List.not_mem_of_not_mem_cons h),
      State.counter_putCounter_of_ne (List.ne_of_not_mem_cons h)]

theorem State.counter_putCounters_of_mem {names : List CounterName} {v : Nat} (hfits : ∀ n ∈ names, v < 2 ^ n.width)
    {m : CounterName} (h : m ∈ names) (s : State) : (s.putCounters names v).counter m = v := by
  induction names generalizing s with
  | nil => cases h
  | cons n names ih =>
    rw [State.putCounters_cons]
    by_cases hrest : m ∈ names
    · exact ih (fun k hk => hfits k (List.mem_cons_of_mem n hk)) hrest _
    · obtain rfl : m = n := (List.mem_cons.mp h).resolve_right hrest
      rw [State.counter_putCounters_of_not_mem hrest, State.counter_putCounter_same (hfits m h)]

/-! ### The owner's decisions (R198) -/

theorem decideCounterWrite_of_fits {s : State} {q : Request}
    (h : ∀ n ∈ counterNames q.index q.count, ofBe q.data < 2 ^ n.width) :
    decideCounterWrite q s = (s.putCounters (counterNames q.index q.count) (ofBe q.data), q.answered .done) :=
  if_pos (List.all_eq_true.mpr fun n hn => decide_eq_true (h n hn))

theorem decideCounterWrite_of_too_wide {s : State} {q : Request} {n : CounterName}
    (hn : n ∈ counterNames q.index q.count) (h : 2 ^ n.width ≤ ofBe q.data) :
    decideCounterWrite q s = (s, q.answered .badValue) :=
  if_neg fun hall => (of_decide_eq_true (List.all_eq_true.mp hall n hn)).not_ge h

theorem writeCounter_of_fits {s : State} {i : Nat} {n : CounterName} {data : List Byte} (hi : counterAt i = some n)
    (h : ofBe data < 2 ^ n.width) : writeCounter i data s = .ok (s.putCounter n (ofBe data)) := by
  simp only [writeCounter, hi, if_pos h]

theorem writeCounter_of_too_wide {s : State} {i : Nat} {n : CounterName} {data : List Byte}
    (hi : counterAt i = some n) (h : 2 ^ n.width ≤ ofBe data) : writeCounter i data s = .error .badValue := by
  simp only [writeCounter, hi, if_neg h.not_gt]

/-! ### The indices that exist (R194, R198) -/

/-- An index that exists names a counter: the ranges of R198 and its table say the same. -/
theorem counterAt_isSome_of_exists : ∀ i, i < 0x36 → counterExists i = true → (counterAt i).isSome = true := by
  decide

theorem counterAt_of_counterRun {index count i : Nat} (h : counterRun index count = true) (hlow : index ≤ i)
    (hhigh : i < index + count) : ∃ n, counterAt i = some n := by
  obtain ⟨hwithin, hall⟩ := Bool.and_eq_true_iff.mp h
  obtain ⟨-, hend⟩ := runWithin_iff.mp hwithin
  have hi : i < 0x36 := by omega
  have hexists : counterExists i = true := by
    simpa [hlow, hhigh] using List.all_eq_true.mp hall i (List.mem_range.mpr hi)
  exact Option.isSome_iff_exists.mp (counterAt_isSome_of_exists i hi hexists)

/-- Settles O51: the value decides the write by the widths of the counters it names, and a count that is written reads
back while the others keep theirs. -/
theorem counterRequests : Obligations.CounterRequests := by
  unfold Obligations.CounterRequests
  refine ⟨fun s q hserves => ?read, fun s q hserves => ?run, fun s q hserves hacc => ?entry⟩
  case read => exact ⟨_, rfl, State.serve_repliesTo hserves (accepts := anyRequest) rfl⟩
  case run =>
    have hreplies := State.serve_repliesTo (f := decideCounterWrite) hserves (accepts := anyRequest) rfl
    refine ⟨_, rfl, fun names hnames => ?_⟩
    subst hnames
    refine ⟨fun ⟨n, hn, hwide⟩ => ?_, fun hfits => ?_⟩
    · rw [decideCounterWrite_of_too_wide hn hwide] at hreplies
      exact hreplies
    · rw [decideCounterWrite_of_fits hfits] at hreplies
      exact ⟨_, hreplies, s.countersOnly_putCounters _ _, fun n hn => State.counter_putCounters_of_mem hfits hn s,
        fun n hn => State.counter_putCounters_of_not_mem hn s _⟩
  case entry =>
    obtain ⟨n, hn⟩ : ∃ n, counterAt (q.index + s.me.accepted) = some n :=
      counterAt_of_counterRun hserves.itemsExist (Nat.le_add_right ..) (Nat.add_lt_add_left hacc _)
    obtain ⟨hrefused, htaken⟩ := State.serveEntry_entry (owns := anyEntry) (d := writeCounter) hserves rfl
    refine ⟨n, _, hn, rfl, fun hwide => hrefused _ (writeCounter_of_too_wide hn hwide), fun hfits => ?_⟩
    exact ⟨_, htaken _ (writeCounter_of_fits hn hfits) (by rw [State.putCounter_me]), s.countersOnly_putCounter _ _,
      State.counter_putCounter_same hfits s, fun m hm => State.counter_putCounter_of_ne hm s _⟩

end Sys2Proof.Machine
end

