-- ==== Sys2Proof/Proofs/RequestQueue.lean ====
section
/-! PROOFS. The request queue and the requests that the Management Engine's own checks refuse (O49): each check that
fails gives its result, and the reply is handed with nothing else changed. -/

namespace Sys2Proof.Machine

/-! ### The result of the first check that fails (R193) -/

theorem Request.refusal_of_unknown_operation {q : Request} (h : ∀ op : Operation, op.code ≠ q.op) :
    q.refusal = some .badObject := by
  rw [Request.refusal, (operation?_eq_none_iff q.op).mpr h]

theorem Request.refusal_of_object_not_allowed {q : Request} {op : Operation} (hop : op.code = q.op)
    (h : ∀ o : Object, o.code = q.object → allowsObject op o = false) : q.refusal = some .badObject := by
  rw [Request.refusal, (operation?_eq_some_iff q.op op).mpr hop]
  cases hobject : object? q.object with
  | none => rfl
  | some o => exact if_pos (h o ((object?_eq_some_iff q.object o).mp hobject))

/-- The last two checks decide a request of an operation for an object that it allows. -/
theorem Request.refusal_of_allowed {q : Request} {op : Operation} {o : Object} (hop : op.code = q.op)
    (ho : o.code = q.object) (hallowed : allowsObject op o = true) :
    q.refusal =
      if itemsExist op o q.index q.count = false then some .badIndex
      else if q.data.length ≠ dataLength op o q.count then some .badLength
      else none := by
  rw [Request.refusal, (operation?_eq_some_iff q.op op).mpr hop, (object?_eq_some_iff q.object o).mpr ho]
  exact if_neg (by simp [hallowed])

/-! ### The queue of four (R190, R191) -/

theorem State.queueRequest_of_room {s : State} {q : Request} (h : s.me.queue.length < 4) :
    s.queueRequest q = { s with me := { s.me with queue := s.me.queue ++ [q] } } :=
  if_neg (not_le.mpr h)

/-- An overrun is a NOTE, so that it only records. -/
theorem State.queueRequest_of_full {s : State} {q : Request} (h : 4 ≤ s.me.queue.length) :
    s.queueRequest q = { s with
      fmu := s.fmu.record { code := .managementOverrun, cls := .note, subject := .none } s.timeBase
        s.gm.seqState } :=
  (if_pos h).trans (State.raise_eq_record (by simp))

/-! ### The two commands -/

theorem exec_mgmtRequestQueued {s : State} {q : Request} {rest : List Request} (hheld : s.held = false)
    (hhanded : s.me.handed = q :: rest) :
    exec .mgmtRequestQueued s =
      .next (State.queueRequest q { s with me := { s.me with handed := rest } }) := by
  refine congrArg Host.Outcome.next ((State.live_of_not_held hheld).trans ?_)
  simp only [hhanded]

theorem exec_mgmtRequestRefused {s : State} {q : Request} {r : Result} (hheld : s.held = false)
    (hrestart : s.me.restart = .none) (hhead : s.me.queue.head? = some q) (hrefusal : q.refusal = some r) :
    exec .mgmtRequestRefused s = .next (s.answer q (q.turnedAway r)) := by
  obtain ⟨rest, hqueue⟩ := List.head?_eq_some_iff.mp hhead
  refine congrArg Host.Outcome.next ((State.live_of_not_held hheld).trans ?_)
  simp only [hqueue, hrefusal]
  exact if_pos hrestart

/-- Settles O49: the depth of the queue decides a handed request, and the first check that fails decides a refused
one. -/
theorem requestQueue : Obligations.RequestQueue := by
  unfold Obligations.RequestQueue
  refine ⟨fun s q rest hheld hhanded => ?queued, fun s q r hheld hrestart hhead hfails => ?refused⟩
  case queued =>
    refine ⟨_, exec_mgmtRequestQueued hheld hhanded, fun hroom => State.queueRequest_of_room hroom, fun hfull => ?_⟩
    have hoverrun := State.queueRequest_of_full (q := q) (s := { s with me := { s.me with handed := rest } }) hfull
    exact ⟨hoverrun, (congrArg (fun t => t.fmu.mode) hoverrun).trans (FaultModeUnit.record_mode ..)⟩
  case refused =>
    have hrefusal : q.refusal = some r := by
      rcases hfails with
        ⟨hunknown, rfl⟩ | ⟨op, hop, ⟨hnone, rfl⟩ | ⟨o, ho, hallowed, ⟨habsent, rfl⟩ | ⟨hexist, hlength, rfl⟩⟩⟩
      · exact Request.refusal_of_unknown_operation hunknown
      · exact Request.refusal_of_object_not_allowed hop hnone
      · rw [Request.refusal_of_allowed hop ho hallowed, if_pos habsent]
      · rw [Request.refusal_of_allowed hop ho hallowed, if_neg (by simp [hexist]), if_pos hlength]
    exact ⟨_, exec_mgmtRequestRefused hheld hrestart hhead hrefusal, State.answer_repliesTo q _ s⟩

end Sys2Proof.Machine
end

