-- ==== Sys2Proof/Proofs/FrontCommand.lean ====
section
/-! PROOFS. The command at the front of the queue (O1), and the few commands that act on a part held in reset (O4). -/

namespace Sys2Proof.Machine

/-- Settles O1: the queue of commands is not empty. -/
theorem stepTakesFront : Obligations.StepTakesFront := by
  unfold Obligations.StepTakesFront
  intro c rest s hpending
  rw [step, hpending]

/-! ### The RESET input (R203) -/

theorem exec_resetAsserted_of_short {n : Nat} (h : n < 10000) (s : State) : exec (.resetAsserted n) s = .next s :=
  congrArg Host.Outcome.next (if_neg (not_le.mpr h))

theorem exec_resetAsserted_of_long {n : Nat} (h : 10000 ≤ n) (s : State) :
    exec (.resetAsserted n) s = .next { s with held := true, me := { s.me with restart := .none } } :=
  congrArg Host.Outcome.next (if_pos h)

theorem State.changesOnly_held_me (s : State) (b : Bool) (m : ManagementEngine) :
    s.changesOnly { s with held := b, me := m } [.held, .me] := by
  intro p hp
  cases p with
  | held | me => simp at hp
  | clock | gm | rtc | di | cm | se | rr | fmu | cu | pu | pending => rfl

theorem State.alertPin_of_held {s : State} (h : s.held = true) : s.alertPin = .highZ := if_pos h

theorem State.tripRequestPin_of_held {s : State} (h : s.held = true) : s.tripRequestPin = .low := if_pos h

/-! ### A part held in reset -/

/-- But for the resets and the signals at the ports, every command is a change that only a live part makes. -/
theorem exec_eq_live {c : Instr} (hsupply : c ≠ .supplyStart) (hreleased : c ≠ .resetReleased)
    (hasserted : ∀ n, c ≠ .resetAsserted n) (hloss : ∀ p cut, c ≠ .linkLoss p cut) (hup : ∀ p, c ≠ .linkUp p) :
    ∃ f, ∀ s, exec c s = .next (s.live f) := by
  cases c with
  | supplyStart => exact absurd rfl hsupply
  | resetReleased => exact absurd rfl hreleased
  | resetAsserted n => exact absurd rfl (hasserted n)
  | linkLoss p cut => exact absurd rfl (hloss p cut)
  | linkUp p => exact absurd rfl (hup p)
  | _ => exact ⟨_, fun _ => rfl⟩

theorem exec_resetReleased_of_not_held {s : State} (h : s.held = false) : exec .resetReleased s = .next s :=
  congrArg Host.Outcome.next (if_neg (by simp [h]))

/-- Settles O4: the length of the low level decides a reset, and a held part takes no change of a live one. -/
theorem resetHoldsPart : Obligations.ResetHoldsPart := by
  unfold Obligations.ResetHoldsPart
  refine ⟨fun n s => ⟨fun hshort => exec_resetAsserted_of_short hshort s, fun hlong => ?long⟩,
    fun c s hheld hsupply hreleased hasserted hloss hup => ?held,
    fun s => ⟨fun hheld => ?supply, exec_resetReleased_of_not_held⟩⟩
  case long =>
    exact ⟨_, exec_resetAsserted_of_long hlong s, rfl, rfl, State.alertPin_of_held rfl,
      State.tripRequestPin_of_held rfl, s.changesOnly_held_me _ _, rfl⟩
  case held =>
    obtain ⟨f, hexec⟩ := exec_eq_live hsupply hreleased hasserted hloss hup
    rw [hexec, State.live_of_held hheld]
  case supply =>
    obtain ⟨b, hsupply, hsame, -⟩ := exec_powerOn (s := s) (.inl rfl)
    have hb : b = true := (hsame rfl).trans hheld
    obtain ⟨b', hreleased, -, hfree⟩ := exec_powerOn (s := { s.powerOn with held := b }) (.inr ⟨rfl, hb⟩)
    exact ⟨_, _, hsupply, hb, State.alertPin_of_held hb, State.tripRequestPin_of_held hb, hreleased, hfree rfl⟩

end Sys2Proof.Machine
end

