-- ==== Sys2Proof/Proofs/ControllerLaw.lean ====
section
/-! PROOFS. The law of the Ride-Through Controller through each of its own changes of state: notices, expiries, trips,
the loss of the grid, the entries to LOAD and RUN, and the writes of its tables (R21 to R41). -/

namespace Sys2Proof.Machine

/-! ### Standings and the active row (R25) -/

theorem RideThrough.standings_iff {r : RideThrough} {v : Nat} {i : Row} :
    (r.standings v)[i] = true ↔ i.val < r.nRows ∧ v < (r.rows[i]).threshold := by
  simp [RideThrough.standings]

@[simp] theorem noStandings_getElem (i : Row) : noStandings[i] = false := by simp [noStandings]

@[simp] theorem noDwell_getElem (i : Row) : noDwell[i] = none := by simp [noDwell]

/-- A dwell timer that runs after a change of the standings belongs to a row that is below (R26). -/
theorem RideThrough.below_of_dwellAfter_isSome {r : RideThrough} {ms : Nat} {old new : Vector Bool 8} {i : Row}
    (h : ((r.dwellAfter ms old new)[i]).isSome = true) : new[i] = true := by
  by_contra hnew
  rw [Bool.not_eq_true] at hnew
  simp only [Fin.getElem_fin] at hnew
  simp [RideThrough.dwellAfter, hnew] at h

/-! ### The law, field by field -/

/-- What `RideThroughLaw` asks of the rows: their dwell timers, their standings and the active row (R25, R26). -/
def RideThrough.RowsAgree (r : RideThrough) : Prop :=
  (∀ i : Row, (r.dwellTimers[i]).isSome = true → (r.state = .sag ∨ r.state = .gridLost) ∧ r.below[i] = true) ∧
  (∀ i : Row, r.below[i] = true → i.val < r.nRows) ∧
  r.active = activeRow r.below ∧
  (r.state = .normal ∨ r.state = .tripped → ∀ i : Row, r.below[i] = false)

/-- What `RideThroughLaw` asks of the swell standing (R36, R40). -/
def RideThrough.SwellAgrees (r : RideThrough) : Prop :=
  r.swellTimer.isSome = r.swellAbove ∧ (r.state = .tripped → r.swellAbove = false)

/-- What `RideThroughLaw` asks of the recovery timer and of the prior state (R34, R38). -/
def RideThrough.StateAgrees (r : RideThrough) : Prop :=
  (r.recovery.isSome = true ↔ r.state = .recover) ∧ (r.prior.isSome = true ↔ r.state = .gridLost)

theorem rideThroughLaw_iff {r : RideThrough} {m : PartMode} :
    RideThroughLaw r m ↔
      (m = .load → r.state = .normal ∧ r.swellAbove = false) ∧ r.RowsAgree ∧ r.SwellAgrees ∧ r.StateAgrees := by
  unfold RideThroughLaw RideThrough.RowsAgree RideThrough.SwellAgrees RideThrough.StateAgrees
  constructor
  · rintro ⟨hload, hdwell, hbelow, hactive, hrecovery, hswell, hprior, hnone, htripped⟩
    exact ⟨hload, ⟨hdwell, hbelow, hactive, hnone⟩, ⟨hswell, htripped⟩, hrecovery, hprior⟩
  · rintro ⟨hload, ⟨hdwell, hbelow, hactive, hnone⟩, ⟨hswell, htripped⟩, hrecovery, hprior⟩
    exact ⟨hload, hdwell, hbelow, hactive, hrecovery, hswell, hprior, hnone, htripped⟩

/-- Outside LOAD the law is the agreement of the records. -/
theorem rideThroughLaw_iff_of_not_load {r : RideThrough} {m : PartMode} (hm : m ≠ .load) :
    RideThroughLaw r m ↔ r.RowsAgree ∧ r.SwellAgrees ∧ r.StateAgrees := by
  rw [rideThroughLaw_iff]
  exact and_iff_right fun h => absurd h hm

/-- Cleared rows agree with every state (R25, R26). -/
theorem RideThrough.rowsAgree_of_cleared {r : RideThrough} (hbelow : r.below = noStandings) (hactive : r.active = none)
    (hdwell : r.dwellTimers = noDwell) : r.RowsAgree := by
  refine ⟨fun i h => ?_, fun i h => ?_, ?_, fun _ i => ?_⟩
  · rw [hdwell, noDwell_getElem] at h
    cases h
  · rw [hbelow, noStandings_getElem] at h
    cases h
  · rw [hactive, hbelow, activeRow_noStandings]
  · rw [hbelow, noStandings_getElem]

/-- Standings freshly formed, in SAG (R25, R26). -/
theorem RideThrough.rowsAgree_classify (r : RideThrough) (ms v : Nat) :
    RideThrough.RowsAgree { r.classify ms v with state := .sag, prior := none } := by
  refine ⟨fun i h => ⟨.inl rfl, ?_⟩, fun i h => ?_, rfl, ?_⟩
  · exact RideThrough.below_of_dwellAfter_isSome h
  · exact (RideThrough.standings_iff.mp h).1
  · simp

/-- Standings freshly formed, with no dwell timer, in RECOVER (R25, R33). -/
theorem RideThrough.rowsAgree_stayInRecover {r : RideThrough} (h : r.RowsAgree) (hst : r.state = .recover) (v : Nat) :
    (r.stayInRecover v).RowsAgree := by
  obtain ⟨hdwell, -⟩ := h
  refine ⟨fun i hi => ?_, fun i hi => (RideThrough.standings_iff.mp hi).1, rfl, ?_⟩
  · obtain ⟨hlate, -⟩ := hdwell i hi
    simp [hst] at hlate
  · simp [RideThrough.stayInRecover, hst]

/-! ### Entries to a state -/

/-- A state entered with everything stopped and cleared: NORMAL or TRIPPED (R24, R40, R41). -/
theorem rideThroughLaw_of_cleared {r : RideThrough} {m : PartMode} (hload : m = .load → r.state = .normal)
    (hst : r.state = .normal ∨ r.state = .tripped) (hrows : r.RowsAgree) (hswell : r.swellTimer = none)
    (habove : r.swellAbove = false) (hrecovery : r.recovery = none) (hprior : r.prior = none) : RideThroughLaw r m := by
  refine rideThroughLaw_iff.mpr ⟨fun h => ⟨hload h, habove⟩, hrows, ⟨by simp [hswell, habove], fun _ => habove⟩, ?_, ?_⟩
  · rcases hst with h | h <;> simp [hrecovery, h]
  · rcases hst with h | h <;> simp [hprior, h]

theorem rideThroughLaw_enterLoad (r : RideThrough) (m : PartMode) : RideThroughLaw r.enterLoad m :=
  rideThroughLaw_of_cleared (fun _ => rfl) (.inl rfl) (RideThrough.rowsAgree_of_cleared rfl rfl rfl) rfl rfl rfl rfl

theorem rideThroughLaw_untrip (r : RideThrough) (m : PartMode) : RideThroughLaw r.untrip m :=
  rideThroughLaw_of_cleared (fun _ => rfl) (.inl rfl) (RideThrough.rowsAgree_of_cleared rfl rfl rfl) rfl rfl rfl rfl

theorem rideThroughLaw_enterTripped (r : RideThrough) {m : PartMode} (hm : m ≠ .load) :
    RideThroughLaw r.enterTripped m :=
  rideThroughLaw_of_cleared (fun h => absurd h hm) (.inr rfl) (RideThrough.rowsAgree_of_cleared rfl rfl rfl) rfl rfl rfl
    rfl

theorem rideThroughLaw_restart (r : RideThrough) (m : PartMode) : RideThroughLaw r.restart m :=
  rideThroughLaw_of_cleared (fun _ => rfl) (.inl rfl) (RideThrough.rowsAgree_of_cleared rfl rfl rfl) rfl rfl rfl rfl

section
variable {r : RideThrough} {m : PartMode} (ms v : Nat)

theorem RideThrough.SwellAgrees.of_not_tripped (h : r.SwellAgrees) {t : RideThrough}
    (htimer : t.swellTimer = r.swellTimer) (habove : t.swellAbove = r.swellAbove) (hst : t.state ≠ .tripped) :
    t.SwellAgrees :=
  ⟨by rw [htimer, habove]; exact h.1, fun hn => absurd hn hst⟩

/-- NORMAL entered from another state (R25, R26). -/
theorem RideThroughLaw.enterNormal (h : RideThroughLaw r m) : RideThroughLaw r.enterNormal m := by
  obtain ⟨hload, -, hswell, -⟩ := rideThroughLaw_iff.mp h
  refine rideThroughLaw_iff.mpr ⟨fun hm => ⟨rfl, (hload hm).2⟩, RideThrough.rowsAgree_of_cleared rfl rfl rfl,
    hswell.of_not_tripped rfl rfl (by simp [RideThrough.enterNormal]), ?_, ?_⟩ <;> simp [RideThrough.enterNormal]

/-- What the step of a hold expiry does to the recovery timer, it does whatever the timer was. -/
theorem RideThrough.endHold_withRecovery (t : Timer) :
    ({ r with recovery := t } : RideThrough).endHold ms = r.endHold ms := by
  unfold RideThrough.endHold
  simp only []
  split <;> rfl

/-- The step of a hold expiry: NORMAL, or the ramp (R34). -/
theorem RideThroughLaw.endHold (h : RideThroughLaw r m) (hst : r.state = .recover) :
    RideThroughLaw (r.endHold ms) m := by
  unfold RideThrough.endHold
  split
  · exact h.enterNormal
  · obtain ⟨hload, hrows, hswell, -, hprior⟩ := rideThroughLaw_iff.mp h
    exact rideThroughLaw_iff.mpr ⟨hload, hrows, hswell, by simp [startTimer, hst], hprior⟩

/-- RECOVER entered, with a hold or by its step (R32). -/
theorem RideThrough.SwellAgrees.enterRecover (h : r.SwellAgrees) (hm : m ≠ .load) :
    RideThroughLaw (r.enterRecover ms) m := by
  have hheld : RideThroughLaw { r.clearRows with
      state := .recover, prior := none, phase := .hold, recovery := startTimer ms r.hold } m :=
    (rideThroughLaw_iff_of_not_load hm).mpr ⟨RideThrough.rowsAgree_of_cleared rfl rfl rfl,
      h.of_not_tripped rfl rfl (by simp), by simp [startTimer], by simp⟩
  unfold RideThrough.enterRecover
  simp only []
  split
  · have hstep := hheld.endHold ms rfl
    rwa [← RideThrough.endHold_withRecovery ms none] at hstep
  · exact hheld

/-! ### Notices (R28 to R33, R36, R38, R39) -/

theorem RideThrough.SwellAgrees.beginSag (h : r.SwellAgrees) (hm : m ≠ .load) :
    RideThroughLaw (r.beginSag ms v).rtc m := by
  unfold RideThrough.beginSag
  simp only []
  split
  · exact rideThroughLaw_enterTripped _ hm
  · exact (rideThroughLaw_iff_of_not_load hm).mpr ⟨RideThrough.rowsAgree_classify _ ms v,
      h.of_not_tripped rfl rfl (by simp), by simp, by simp⟩

theorem RideThroughLaw.continueSag (h : RideThroughLaw r m) (hm : m ≠ .load)
    (hst : r.state = .sag ∨ r.state = .gridLost) : RideThroughLaw (r.continueSag ms v) m := by
  obtain ⟨-, hswell, hrecovery, -⟩ := (rideThroughLaw_iff_of_not_load hm).mp h
  have hstopped : r.recovery.isSome ≠ true := fun hs => by
    rcases hst with h | h <;> rw [hrecovery.mp hs] at h <;> cases h
  unfold RideThrough.continueSag
  simp only []
  split
  · have hsag : ∀ p, RideThrough.SwellAgrees { r.classify ms v with state := .sag, prior := none, pLow := p } :=
      fun _ => hswell.of_not_tripped rfl rfl (by simp)
    exact (hsag _).enterRecover ms hm
  · refine (rideThroughLaw_iff_of_not_load hm).mpr ⟨RideThrough.rowsAgree_classify r ms v,
      hswell.of_not_tripped rfl rfl (by simp), ?_, by simp⟩
    simpa [RideThrough.classify] using hstopped

theorem RideThroughLaw.leaveGridLost (h : RideThroughLaw r m) (hm : m ≠ .load) (hst : r.state = .gridLost) :
    RideThroughLaw (r.leaveGridLost ms v).rtc m := by
  obtain ⟨-, hswell, -⟩ := (rideThroughLaw_iff_of_not_load hm).mp h
  have hsag : RideThroughLaw (quiet (if r.vRecover ≤ v then r.enterRecover ms else r.continueSag ms v)).rtc m := by
    unfold quiet
    split
    · exact hswell.enterRecover ms hm
    · exact h.continueSag ms v hm (.inr hst)
  have hnormal :
      RideThroughLaw (if r.belowRow0 v then r.beginSag ms v else quiet r.enterNormal : NoticeResult).rtc m := by
    split
    · exact hswell.beginSag ms v hm
    · exact h.enterNormal
  unfold RideThrough.leaveGridLost
  split
  case h_1 | h_2 => exact hsag
  case h_3 | h_4 => exact hnormal

theorem RideThroughLaw.handleNotice (h : RideThroughLaw r m) (hm : m ≠ .load) :
    RideThroughLaw (r.handleNotice ms v).rtc m := by
  obtain ⟨hrows, hswell, hstate⟩ := (rideThroughLaw_iff_of_not_load hm).mp h
  unfold RideThrough.handleNotice
  split
  case h_1 =>
    split
    · exact hswell.beginSag ms v hm
    · exact h
  case h_2 hst => exact h.continueSag ms v hm (.inl hst)
  case h_3 hst =>
    split
    · exact hswell.beginSag ms v hm
    · exact (rideThroughLaw_iff_of_not_load hm).mpr ⟨RideThrough.rowsAgree_stayInRecover hrows hst v, hswell, hstate⟩
  case h_4 hst => exact h.leaveGridLost ms v hm hst
  case h_5 => exact h

theorem RideThroughLaw.swellCheck (h : RideThroughLaw r m) (hm : m ≠ .load) : RideThroughLaw (r.swellCheck ms v) m := by
  obtain ⟨hrows, hswell, hstate⟩ := (rideThroughLaw_iff_of_not_load hm).mp h
  unfold RideThrough.swellCheck
  split
  · exact h
  · rename_i hst
    split
    · split
      · exact h
      · exact (rideThroughLaw_iff_of_not_load hm).mpr ⟨hrows, ⟨rfl, fun hn => absurd hn hst⟩, hstate⟩
    · exact (rideThroughLaw_iff_of_not_load hm).mpr ⟨hrows, ⟨rfl, fun _ => rfl⟩, hstate⟩

theorem RideThroughLaw.notice (h : RideThroughLaw r m) (hm : m ≠ .load) (vMax : Nat) :
    RideThroughLaw (r.notice ms v vMax).rtc m :=
  (h.handleNotice ms v hm).swellCheck ms vMax hm

/-- GRID_LOST entered from NORMAL, SAG or RECOVER: the standings and the dwell timers go on (R38). -/
theorem RideThroughLaw.loseGrid (h : RideThroughLaw r m) {m' : PartMode} (hm : m' ≠ .load)
    (p : PriorState) (now : BitVec 32) : RideThroughLaw (r.loseGrid p now) m' := by
  obtain ⟨-, ⟨hdwell, hbelow, hactive, -⟩, hswell, -⟩ := rideThroughLaw_iff.mp h
  refine (rideThroughLaw_iff_of_not_load hm).mpr ⟨⟨fun i hi => ⟨.inr rfl, (hdwell i hi).2⟩, hbelow, hactive, ?_⟩,
    hswell.of_not_tripped rfl rfl ?_, ?_, ?_⟩ <;> simp [RideThrough.loseGrid]

theorem RideThroughLaw.gridLostNotice (h : RideThroughLaw r m) (hm : m ≠ .load) (now : BitVec 32) :
    RideThroughLaw (r.gridLostNotice now) m := by
  unfold RideThrough.gridLostNotice
  split
  case h_1 | h_2 | h_3 => exact h.loseGrid hm _ now
  case h_4 | h_5 => exact h

/-! ### Writes of the tables (R21, R23) -/

theorem RideThroughLaw.putRow (h : RideThroughLaw r m) (i : Row) (row : EnvelopeRow) :
    RideThroughLaw (r.putRow i row) m := by
  obtain ⟨hload, ⟨hdwell, hrest⟩, hswell, hstate⟩ := rideThroughLaw_iff.mp h
  refine rideThroughLaw_iff.mpr ⟨hload, ⟨fun j hj => hdwell j ?_, hrest⟩, hswell, hstate⟩
  unfold RideThrough.putRow at hj
  simp only [] at hj
  split at hj
  · rw [vector_set_getElem] at hj
    split at hj
    · cases hj
    · exact hj
  · exact hj

theorem RideThroughLaw.putSwell (h : RideThroughLaw r m) (t : Nat) : RideThroughLaw (r.putSwell v t) m := by
  unfold RideThrough.putSwell
  split
  · obtain ⟨hload, hrows, -, hstate⟩ := rideThroughLaw_iff.mp h
    exact rideThroughLaw_iff.mpr ⟨fun hm => ⟨(hload hm).1, rfl⟩, hrows, ⟨rfl, fun _ => rfl⟩, hstate⟩
  · exact h

theorem RideThroughLaw.putNRows (h : RideThroughLaw r m) (n : Nat) : RideThroughLaw (r.putNRows n) m := by
  obtain ⟨hload, ⟨hdwell, -, -, hnone⟩, hswell, hstate⟩ := rideThroughLaw_iff.mp h
  have hbelow : ∀ i : Row, (r.putNRows n).below[i] = (decide (i.val < n) && r.below[i]) := fun i => by
    simp [RideThrough.putNRows]
  have htimers : ∀ i : Row, (r.putNRows n).dwellTimers[i] = if i.val < n then r.dwellTimers[i] else none := fun i => by
    simp [RideThrough.putNRows]
  refine rideThroughLaw_iff.mpr ⟨hload, ⟨fun i hi => ?_, fun i hi => ?_, rfl, fun hst i => ?_⟩, hswell, hstate⟩
  · rw [htimers] at hi
    split at hi
    · obtain ⟨hlate, hlow⟩ := hdwell i hi
      exact ⟨hlate, by rw [hbelow]; simp [*]⟩
    · cases hi
  · rw [hbelow, Bool.and_eq_true, decide_eq_true_eq] at hi
    exact hi.1
  · rw [hbelow, hnone hst i, Bool.and_false]

end

end Sys2Proof.Machine
end

