-- ==== Sys2Proof/Proofs/ControllerKept.lean ====
section
/-! PROOFS. The law of the Ride-Through Controller through every command (O58): most commands leave the controller but
for the ageing of its recent-sag list, of which the law does not speak. -/

namespace Sys2Proof.Machine

/-! ### What a command does to the controller -/

/-- Whatever next state the outcome gives, its controller meets the law in the part mode that `s` had. -/
def ControllerKept (s : State) (o : Host.Outcome State Fault Refusal) : Prop :=
  ∀ t, o = .next t → RideThroughLaw s.rtc s.fmu.mode → RideThroughLaw t.rtc s.fmu.mode

section
variable {s t : State}

theorem controllerKept_next (h : RideThroughLaw s.rtc s.fmu.mode → RideThroughLaw t.rtc s.fmu.mode) :
    ControllerKept s (.next t) := by
  intro u hu; cases hu; exact h

theorem controllerKept_of_eq (h : t.rtc = s.rtc) : ControllerKept s (.next t) :=
  controllerKept_next fun hlaw => by rwa [h]

/-- A command that a held part ignores. -/
theorem controllerKept_live {f : State → State}
    (h : RideThroughLaw s.rtc s.fmu.mode → RideThroughLaw (f s).rtc s.fmu.mode) : ControllerKept s (.next (s.live f)) :=
  controllerKept_next fun hlaw =>
    State.live_ind (P := fun t => RideThroughLaw t.rtc s.fmu.mode) hlaw fun _ => h hlaw

theorem controllerKept_live_of_eq {f : State → State} (h : (f s).rtc = s.rtc) : ControllerKept s (.next (s.live f)) :=
  controllerKept_live fun hlaw => by rwa [h]

/-- An expiry acts after the recent-sag list has aged. -/
theorem rideThroughLaw_onExpiry {timer : Timer} {f : State → State} (hlaw : RideThroughLaw s.rtc s.fmu.mode)
    (h : ∀ m, timer = some m → RideThroughLaw (s.advanceMs m).rtc s.fmu.mode →
      RideThroughLaw (f (s.advanceMs m)).rtc s.fmu.mode) : RideThroughLaw (s.onExpiry timer f).rtc s.fmu.mode :=
  State.onExpiry_ind (P := fun t => RideThroughLaw t.rtc s.fmu.mode) hlaw fun m hm => h m hm hlaw

theorem controllerKept_serve {op : Operation} {o : Object} {accepts : Request → Bool} {f : Service}
    (hf : ∀ q, RideThroughLaw s.rtc s.fmu.mode → RideThroughLaw (f q s).1.rtc s.fmu.mode) :
    ControllerKept s (.next (s.live (State.serve op o accepts f))) :=
  controllerKept_live fun hlaw =>
    State.serve_ind (P := fun t => RideThroughLaw t.rtc s.fmu.mode) hlaw fun q _ _ _ => hf q hlaw

theorem controllerKept_serve_of_eq {op : Operation} {o : Object} {accepts : Request → Bool} {f : Service}
    (hf : ∀ q, (f q s).1.rtc = s.rtc) : ControllerKept s (.next (s.live (State.serve op o accepts f))) :=
  controllerKept_serve fun q hlaw => by rwa [hf q]

end

/-- Accepting an entry keeps the law. -/
def EntryDecision.KeepsController (d : EntryDecision) : Prop :=
  ∀ (i : Nat) (data : List Byte) (s t : State), d i data s = .ok t →
    ∀ m, RideThroughLaw s.rtc m → RideThroughLaw t.rtc m

theorem controllerKept_serveEntry {s : State} {o : Object} {owns : Nat → Bool} {d : EntryDecision}
    (hd : d.KeepsController) : ControllerKept s (.next (s.live (State.serveEntry o owns d))) :=
  controllerKept_live fun hlaw =>
    State.serveEntry_ind (P := fun t => RideThroughLaw t.rtc s.fmu.mode) hlaw (fun _ _ _ => hlaw)
      fun _ _ _ _ _ ht => ⟨hd _ _ _ _ ht _ hlaw, hd _ _ _ _ ht _ hlaw⟩

/-! ### Owners that decide an entry of a WRITE -/

theorem keepsController_of_eq {d : EntryDecision} (h : ∀ i data s t, d i data s = .ok t → t.rtc = s.rtc) :
    d.KeepsController := fun i data s t hd m hlaw => by rwa [h i data s t hd]

theorem keepsController_of_classA {ok : List Byte → State → Bool} {w : List Byte → State → State}
    (hw : ∀ data s m, RideThroughLaw s.rtc m → RideThroughLaw (w data s).rtc m) :
    EntryDecision.KeepsController fun _ data s => s.classA (ok data s) (w data s) := by
  intro i data s t h m hlaw
  rw [State.classA_eq_ok h]
  exact hw data s m hlaw

theorem keepsController_of_inRange {ok : List Byte → State → Bool} {w : List Byte → State → State}
    (hw : ∀ data s m, RideThroughLaw s.rtc m → RideThroughLaw (w data s).rtc m) :
    EntryDecision.KeepsController fun _ data s => inRange (ok data s) (w data s) := by
  intro i data s t h m hlaw
  rw [inRange_eq_ok h]
  exact hw data s m hlaw

theorem writeChannelEntry_keepsController : EntryDecision.KeepsController writeChannelEntry := by
  refine keepsController_of_eq fun i data s t h => ?_
  unfold writeChannelEntry at h
  split at h
  · cases h
  · unfold State.writeChannel at h
    split at h
    · cases h
    · split at h
      · cases h
      · split at h <;> cases h
        exact s.putChannel_rtc _ _

theorem writeGroup_keepsController : EntryDecision.KeepsController writeGroup := by
  refine keepsController_of_eq fun i data s t h => ?_
  unfold writeGroup at h
  split at h
  · cases h
  · split at h <;> cases h
    rfl

theorem writeProfile_keepsController : EntryDecision.KeepsController writeProfile := by
  refine keepsController_of_eq fun i data s t h => ?_
  unfold writeProfile at h
  split at h <;> cases h
  rfl

theorem writeCounter_keepsController : EntryDecision.KeepsController writeCounter := by
  refine keepsController_of_eq fun i data s t h => ?_
  unfold writeCounter at h
  split at h
  · cases h
  · split at h <;> cases h
    exact s.putCounter_rtc _ _

theorem writePPre_keepsController : EntryDecision.KeepsController writePPre := by
  refine keepsController_of_eq fun i data s t h => ?_
  unfold writePPre at h
  split at h
  · cases h
  · split at h <;> cases h
    rfl

theorem writeEnvelopeRow_keepsController : EntryDecision.KeepsController writeEnvelopeRow := by
  intro i data s t h m hlaw
  unfold writeEnvelopeRow at h
  split at h
  · cases h
  · split at h
    · rw [State.decideEnvelope_eq_ok h]
      exact hlaw
    · rw [State.decideEnvelope_eq_ok h]
      exact hlaw.putRow _ _

theorem writeSwell_keepsController : EntryDecision.KeepsController writeSwell := by
  intro i data s t h m hlaw
  unfold writeSwell at h
  simp only [] at h
  split at h <;> cases h
  exact hlaw.putSwell _ _

theorem writeVRecover_keepsController : EntryDecision.KeepsController writeVRecover := by
  intro i data s t h m hlaw
  rw [State.decideEnvelope_eq_ok h]
  exact hlaw

/-- The law speaks of none of the settings of GLOBAL_WRITE. -/
theorem writeGlobal_keepsController : EntryDecision.KeepsController writeGlobal := by
  intro i data s t h m hlaw
  unfold writeGlobal State.writeSetting at h
  split at h
  case h_15 => cases h
  case h_1 | h_2 | h_3 | h_4 => rw [State.classA_eq_ok h]; exact hlaw
  all_goals rw [inRange_eq_ok h]; exact hlaw

/-! ### The commands that change the controller -/

theorem execGridSampleTaken_controllerKept (b : Bool) (s : State) (part : TripPart) :
    ControllerKept s (execGridSampleTaken b s part) := by
  have htake : ∀ held, RideThroughLaw s.rtc s.fmu.mode → RideThroughLaw (s.takeSample b held).rtc s.fmu.mode := by
    intro held hlaw
    unfold State.takeSample
    split
    · exact hlaw
    · unfold State.takeGridFrame
      split
      case h_4 =>
        rw [State.takeValidFrame_rtc]
        unfold State.noticeResult
        split
        · exact hlaw
        · rename_i hm
          exact RideThroughLaw.notice _ _ hlaw hm _
      all_goals exact hlaw
  refine controllerKept_live fun hlaw => ?_
  cases part with
  | whole => exact htake false hlaw
  | trip => exact htake true hlaw
  | raise => dsimp only; rwa [State.takeRaising_rtc]

theorem execGridSilenceExpiry_controllerKept (s : State) : ControllerKept s (execGridSilenceExpiry s) := by
  refine controllerKept_live fun hlaw => rideThroughLaw_onExpiry hlaw fun m _ hlaw => ?_
  rw [State.raise_rtc]
  dsimp only
  split
  · exact hlaw
  · rename_i hm
    exact hlaw.gridLostNotice hm _

/-- In LOAD no dwell timer and no swell timer runs, so no trip falls there (R24). -/
theorem State.tripOn_rideThroughLaw {s : State} {code : FaultCode} {t : Timer} {part : TripPart}
    (ht : t.isSome = true → s.fmu.mode ≠ .load) (hlaw : RideThroughLaw s.rtc s.fmu.mode) :
    RideThroughLaw (s.tripOn code t part).rtc s.fmu.mode := by
  have hexpiry : ∀ f : State → State, (∀ w : State, (f w).rtc = w.rtc.enterTripped) →
      RideThroughLaw (s.onExpiry t f).rtc s.fmu.mode := fun f hf =>
    rideThroughLaw_onExpiry hlaw fun m hm _ => by
      rw [hf]
      exact rideThroughLaw_enterTripped _ (ht (by rw [hm]; rfl))
  cases part with
  | whole => exact hexpiry _ fun w => State.raise_rtc ..
  | trip => exact hexpiry _ fun w => rfl
  | raise => rwa [State.tripOn, State.takeRaising_rtc]

theorem RideThroughLaw.not_load_of_dwell {r : RideThrough} {m : PartMode} (h : RideThroughLaw r m) {i : Row}
    (hi : (r.dwellTimers[i]).isSome = true) : m ≠ .load := by
  obtain ⟨hload, ⟨hdwell, -⟩, -⟩ := rideThroughLaw_iff.mp h
  intro hm
  obtain ⟨hlate, -⟩ := hdwell i hi
  simp [(hload hm).1] at hlate

theorem RideThroughLaw.not_load_of_swell {r : RideThrough} {m : PartMode} (h : RideThroughLaw r m)
    (ht : r.swellTimer.isSome = true) : m ≠ .load := by
  obtain ⟨hload, -, ⟨hswell, -⟩, -⟩ := rideThroughLaw_iff.mp h
  intro hm
  rw [hswell, (hload hm).2] at ht
  cases ht

theorem RideThroughLaw.recover_of_running {r : RideThrough} {m : PartMode} (h : RideThroughLaw r m)
    (ht : r.recovery.isSome = true) : r.state = .recover := by
  obtain ⟨-, -, -, hrecovery, -⟩ := rideThroughLaw_iff.mp h
  exact hrecovery.mp ht

theorem execRecoveryHoldExpiry_controllerKept (s : State) : ControllerKept s (execRecoveryHoldExpiry s) := by
  refine controllerKept_live fun hlaw => ?_
  split
  · refine rideThroughLaw_onExpiry hlaw fun m hm hlaw => ?_
    have hruns : (s.advanceMs m).rtc.recovery.isSome = true := Option.isSome_iff_exists.mpr ⟨m, hm⟩
    have hst := hlaw.recover_of_running hruns
    rw [RideThrough.endHold_withRecovery]
    exact hlaw.endHold _ hst
  · exact hlaw

theorem execRecoveryRampExpiry_controllerKept (s : State) : ControllerKept s (execRecoveryRampExpiry s) := by
  refine controllerKept_live fun hlaw => ?_
  split
  · exact rideThroughLaw_onExpiry hlaw fun m _ hlaw => RideThroughLaw.enterNormal (r := { (s.advanceMs m).rtc with
      pLow := 1000 }) hlaw
  · exact hlaw

/-! ### The commands that leave the controller alone -/

theorem execSagListEntryAged_controllerKept (s : State) : ControllerKept s (execSagListEntryAged s) := by
  refine controllerKept_live fun hlaw => ?_
  split <;> exact hlaw

theorem execLinkLoss_controllerKept (p : Port) (cut : Bool) (s : State) : ControllerKept s (execLinkLoss p cut s) := by
  refine controllerKept_of_eq ?_
  split
  · exact s.setLink_rtc ..
  · split
    · exact (s.loseSignal_sameSources p cut).1
    · exact s.setLink_rtc ..

theorem execLinkUp_controllerKept (p : Port) (s : State) : ControllerKept s (execLinkUp p s) := by
  refine controllerKept_of_eq ?_
  split <;> exact s.setLink_rtc ..

theorem execDispatchFrameTaken_controllerKept (s : State) : ControllerKept s (execDispatchFrameTaken s) := by
  refine controllerKept_live_of_eq ?_
  split
  · rfl
  · exact (State.takeDispatch_sameSources _ _).1

theorem State.onExpiry_raise_rideThroughLaw {s : State} {timer : Timer} {f : State → State} {r : Raising}
    (hf : ∀ w, (f w).rtc = w.rtc) (hlaw : RideThroughLaw s.rtc s.fmu.mode) :
    RideThroughLaw (s.onExpiry timer fun w => (f w).raise r).rtc s.fmu.mode :=
  rideThroughLaw_onExpiry hlaw fun m _ hlaw => by rwa [State.raise_rtc, hf]

theorem execDispatchSilenceExpiry_controllerKept (s : State) : ControllerKept s (execDispatchSilenceExpiry s) :=
  controllerKept_live fun hlaw => State.onExpiry_raise_rideThroughLaw (fun _ => rfl) hlaw

theorem execStartTimerExpiry_controllerKept (c : Chan) (s : State) : ControllerKept s (execStartTimerExpiry c s) := by
  refine controllerKept_live fun hlaw => ?_
  split
  · exact State.onExpiry_raise_rideThroughLaw (fun _ => rfl) hlaw
  · exact hlaw

theorem execParkTimerExpiry_controllerKept (c : Chan) (s : State) : ControllerKept s (execParkTimerExpiry c s) := by
  refine controllerKept_live fun hlaw => ?_
  split
  · exact State.onExpiry_raise_rideThroughLaw (fun _ => rfl) hlaw
  · exact hlaw

theorem execReportTaken_controllerKept (s : State) (part : ReportPart) : ControllerKept s (execReportTaken s part) := by
  refine controllerKept_live_of_eq ?_
  cases part with
  | decide => simp
  | whole | hand | finish => dsimp only; split <;> simp

theorem execReportLoss_controllerKept (s : State) (part : ReportPart) : ControllerKept s (execReportLoss s part) := by
  refine controllerKept_live_of_eq ?_
  cases part with
  | whole | decide | hand | finish => dsimp only; split <;> simp

/-- Of a cycle start's parts only the expiry of the link cycle timer touches the controller: the list ages (R91). -/
theorem execCycleStart_controllerKept (part : CyclePart) (s : State) : ControllerKept s (execCycleStart part s) := by
  have hbegin : RideThroughLaw s.rtc s.fmu.mode → RideThroughLaw s.settle.beginCycle.rtc s.fmu.mode := fun hlaw => by
    have hsettle : RideThroughLaw s.settle.rtc s.fmu.mode := by rwa [State.settle_rtc]
    exact hsettle
  refine controllerKept_live fun hlaw => ?_
  cases part with
  | whole reportsFirst => cases reportsFirst <;> simpa using hbegin hlaw
  | start => exact hbegin hlaw
  | demands | standing | voltage | request | close | setpoint | look | status | reports => simpa using hlaw

theorem execTransmissionEndD_controllerKept (s : State) : ControllerKept s (execTransmissionEndD s) := by
  refine controllerKept_live fun hlaw => ?_
  split <;> exact hlaw

theorem execTransmissionEndU_controllerKept (s : State) : ControllerKept s (execTransmissionEndU s) := by
  refine controllerKept_live fun hlaw => ?_
  split <;> exact hlaw

theorem execMgmtRequestQueued_controllerKept (s : State) : ControllerKept s (execMgmtRequestQueued s) := by
  refine controllerKept_live_of_eq ?_
  split <;> simp

theorem execMgmtRequestRefused_controllerKept (s : State) : ControllerKept s (execMgmtRequestRefused s) := by
  refine controllerKept_live_of_eq ?_
  split
  · rfl
  · split
    · rfl
    · split <;> rfl

theorem execRestart_controllerKept (s : State) : ControllerKept s (execRestart s) := by
  refine controllerKept_live_of_eq ?_
  split
  · rfl
  · split <;> rfl

theorem decideAckHead_rtc (q : Request) (s : State) : (decideAckHead q s).1.rtc = s.rtc := by
  unfold decideAckHead; split <;> rfl

theorem decideAbort_rtc (q : Request) (s : State) : (decideAbort q s).1.rtc = s.rtc := by
  unfold decideAbort
  split
  · rfl
  · split <;> rfl

theorem decideFaultRead_rtc (q : Request) (s : State) : (decideFaultRead q s).1.rtc = s.rtc := by
  unfold decideFaultRead; split <;> rfl

theorem decideCounterWrite_rtc (q : Request) (s : State) : (decideCounterWrite q s).1.rtc = s.rtc := by
  unfold decideCounterWrite
  simp only []
  split
  · exact (State.foldl_putCounter_sameSources _ _ s).1
  · rfl

theorem decideHalt_rtc (q : Request) (s : State) : (decideHalt q s).1.rtc = s.rtc := by
  unfold decideHalt
  split
  · rfl
  · split <;> rfl

/-! ### The mode requests (R24, R41) -/

theorem RideThroughLaw.of_mode {r : RideThrough} {m m' : PartMode} (h : RideThroughLaw r m)
    (hm : m' = .load → m = .load) : RideThroughLaw r m' := by
  obtain ⟨hload, hrest⟩ := rideThroughLaw_iff.mp h
  exact rideThroughLaw_iff.mpr ⟨fun h' => hload (hm h'), hrest⟩

/-- With grid-lost set the controller goes from NORMAL to GRID_LOST as the part enters RUN (R24). -/
theorem decideRun_rideThroughLaw (q : Request) {s : State} (hlaw : RideThroughLaw s.rtc s.fmu.mode) :
    RideThroughLaw (decideRun q s).1.rtc (decideRun q s).1.fmu.mode := by
  unfold decideRun
  split
  · exact hlaw
  · split
    · exact hlaw
    · split
      · exact hlaw
      · have hrun : RideThroughLaw s.rtc .run := hlaw.of_mode fun h => nomatch h
        unfold State.enterRunFromLoad
        simp only []
        split
        · exact RideThroughLaw.loseGrid (r := s.rtc) hrun (by simp [State.enterRun]) .normal _
        · exact hrun

theorem decideResume_rideThroughLaw (q : Request) {s : State} (hlaw : RideThroughLaw s.rtc s.fmu.mode) :
    RideThroughLaw (decideResume q s).1.rtc s.fmu.mode := by
  unfold decideResume
  split
  · exact hlaw
  · split
    · exact hlaw
    · split
      · unfold State.enterRunFromHalt
        simp only []
        split
        · exact rideThroughLaw_untrip _ _
        · exact hlaw
      · exact hlaw

theorem decideLoad_rideThroughLaw (q : Request) {s : State} (hlaw : RideThroughLaw s.rtc s.fmu.mode) :
    RideThroughLaw (decideLoad q s).1.rtc (decideLoad q s).1.fmu.mode := by
  unfold decideLoad
  split
  · exact hlaw
  · split
    · exact hlaw
    · exact rideThroughLaw_enterLoad _ _

/-! ### Every command -/

/-- RUN and LOAD, and the resets: the commands that write the controller together with the part mode. -/
def Instr.entersMode : Instr → Bool
  | .modeRun | .modeLoad | .supplyStart | .resetReleased | .restartTakesEffect => true
  | _ => false

theorem exec_controllerKept (c : Instr) (s : State) (hc : Instr.entersMode c = false) :
    ControllerKept s (exec c s) := by
  cases c with
  | modeRun | modeLoad | supplyStart | resetReleased | restartTakesEffect => cases hc
  | resetAsserted n => exact controllerKept_of_eq (by split <;> rfl)
  | linkLoss p cut => exact execLinkLoss_controllerKept p cut s
  | linkUp p => exact execLinkUp_controllerKept p s
  | frameReceived p f => exact controllerKept_live_of_eq (s.receive_sameSources p f).1
  | gridSampleTaken b part => exact execGridSampleTaken_controllerKept b s part
  | gridSilenceExpiry => exact execGridSilenceExpiry_controllerKept s
  | envelopeExit row part =>
    exact controllerKept_live fun hlaw => State.tripOn_rideThroughLaw hlaw.not_load_of_dwell hlaw
  | swellExit part => exact controllerKept_live fun hlaw => State.tripOn_rideThroughLaw hlaw.not_load_of_swell hlaw
  | recoveryHoldExpiry => exact execRecoveryHoldExpiry_controllerKept s
  | recoveryRampExpiry => exact execRecoveryRampExpiry_controllerKept s
  | sagListEntryAged => exact execSagListEntryAged_controllerKept s
  | dispatchFrameTaken => exact execDispatchFrameTaken_controllerKept s
  | dispatchSilenceExpiry => exact execDispatchSilenceExpiry_controllerKept s
  | startTimerExpiry ch => exact execStartTimerExpiry_controllerKept ch s
  | parkTimerExpiry ch => exact execParkTimerExpiry_controllerKept ch s
  | reportTaken part => exact execReportTaken_controllerKept s part
  | cycleStart part => exact execCycleStart_controllerKept part s
  | reportLoss part => exact execReportLoss_controllerKept s part
  | transmissionEndD => exact execTransmissionEndD_controllerKept s
  | transmissionEndU => exact execTransmissionEndU_controllerKept s
  | mgmtRequestQueued => exact execMgmtRequestQueued_controllerKept s
  | mgmtRequestRefused => exact execMgmtRequestRefused_controllerKept s
  | restart => exact execRestart_controllerKept s
  | modeHalt => exact controllerKept_serve_of_eq fun q => decideHalt_rtc q s
  | modeResume => exact controllerKept_serve fun q hlaw => decideResume_rideThroughLaw q hlaw
  | ackHead => exact controllerKept_serve_of_eq fun q => decideAckHead_rtc q s
  | abort => exact controllerKept_serve_of_eq fun q => decideAbort_rtc q s
  | counterWrite => exact controllerKept_serve_of_eq fun q => decideCounterWrite_rtc q s
  | faultRead => exact controllerKept_serve_of_eq fun q => decideFaultRead_rtc q s
  | ackAll => exact controllerKept_serve_of_eq fun q => by rw [decideAckAll]
  | arm | trigger | mask | captureRead | summaryRead | contentionRead | channelStateRead | saglistRead
  | globalRead | envelopeRead | swellRead | channelRead | groupRead | profileRead | counterRead =>
    exact controllerKept_serve_of_eq fun _ => rfl
  | channelWrite => exact controllerKept_serveEntry writeChannelEntry_keepsController
  | envelopeWrite => exact controllerKept_serveEntry writeEnvelopeRow_keepsController
  | swellWrite => exact controllerKept_serveEntry writeSwell_keepsController
  | groupWrite => exact controllerKept_serveEntry writeGroup_keepsController
  | profileWrite => exact controllerKept_serveEntry writeProfile_keepsController
  | counterObjectWrite => exact controllerKept_serveEntry writeCounter_keepsController
  | globalWrite => exact controllerKept_serveEntry writeGlobal_keepsController
  | nRowsWrite => exact controllerKept_serveEntry (keepsController_of_classA fun _ _ _ hlaw => hlaw.putNRows _)
  | measurementStationWrite | tCycWrite =>
    exact controllerKept_serveEntry (keepsController_of_classA fun _ _ _ hlaw => hlaw)
  | wWrite | lWrite | triggerOnSagWrite =>
    exact controllerKept_serveEntry (keepsController_of_inRange fun _ _ _ hlaw => hlaw)
  | vRecoverWrite => exact controllerKept_serveEntry writeVRecover_keepsController
  | pPreWrite => exact controllerKept_serveEntry writePPre_keepsController

/-- Only the LOAD request and the resets lead into LOAD. -/
theorem load_of_exec_load {c : Instr} {s t : State} (hc : Instr.entersMode c = false) (h : exec c s = .next t)
    (ht : t.fmu.mode = .load) : s.fmu.mode = .load := by
  cases exec_modeChangesTo c s t h with
  | raises hmoves =>
    obtain hkept | ⟨-, hhalt, -⟩ := modeKeptOrTripped_of_moves hmoves
    · rw [← hkept, ht]
    · rw [hhalt] at ht; cases ht
  | keeps hkept => rw [← hkept, ht]
  | runs _ _ hrun | resumes _ _ hrun => rw [hrun] at ht; cases ht
  | halts _ _ hhalt => rw [hhalt] at ht; cases ht
  | loads hl => subst hl; cases hc
  | resets hl => rcases hl with rfl | rfl | rfl <;> cases hc

theorem exec_rideThroughLaw {c : Instr} {s t : State} (h : exec c s = .next t)
    (hlaw : RideThroughLaw s.rtc s.fmu.mode) : RideThroughLaw t.rtc t.fmu.mode := by
  have hserve : ∀ {accepts : Request → Bool} {f : Service},
      (∀ q, RideThroughLaw (f q s).1.rtc (f q s).1.fmu.mode) →
      RideThroughLaw (s.live (State.serve .mode .none accepts f)).rtc
        (s.live (State.serve .mode .none accepts f)).fmu.mode := fun hf =>
    State.live_ind (P := fun t => RideThroughLaw t.rtc t.fmu.mode) hlaw fun _ =>
      State.serve_ind (P := fun t => RideThroughLaw t.rtc t.fmu.mode) hlaw fun q _ _ _ => hf q
  cases hc : Instr.entersMode c with
  | false => exact (exec_controllerKept c s hc t h hlaw).of_mode (load_of_exec_load hc h)
  | true =>
    cases c with
    | modeRun => cases h; exact hserve fun q => decideRun_rideThroughLaw q hlaw
    | modeLoad => cases h; exact hserve fun q => decideLoad_rideThroughLaw q hlaw
    | supplyStart => cases h; exact rideThroughLaw_reset
    | resetReleased =>
      cases h
      split
      · exact rideThroughLaw_reset
      · exact hlaw
    | restartTakesEffect =>
      cases h
      refine State.live_ind (P := fun t => RideThroughLaw t.rtc t.fmu.mode) hlaw fun _ => ?_
      split
      · exact rideThroughLaw_restart _ _
      · exact hlaw
    | _ => cases hc

/-- Settles O58: while no command waits only the recent-sag list ages; a command keeps the law in the part mode it
found, or writes the controller with the mode. -/
theorem rideThroughLawKept : Obligations.RideThroughLawKept := by
  unfold Obligations.RideThroughLawKept
  intro s t h hlaw
  unfold step at h
  split at h
  case h_1 =>
    cases h
    unfold State.tick
    split <;> exact hlaw
  case h_2 c rest _ => exact exec_rideThroughLaw (s := { s with pending := rest }) h hlaw

end Sys2Proof.Machine
end

