-- ==== Sys2Proof/Proofs/FaultLaws.lean ====
section
/-! PROOFS. The laws of the part mode, of the fault list and of the raisings that wait, through the operations of their
owners (R40, R46, R136 to R141, R145). -/

namespace Sys2Proof.Machine

/-! ### The part mode and the fault list (R136, R138) -/

theorem modeLaw_iff {f : FaultModeUnit} : ModeLaw f ↔ (f.mode = .run → f.barred = false) := by
  have hbarred : f.barred = false ↔ (∀ e ∈ f.faults, e.cls ≠ .trip) ∧ f.droppedTrip = false := by
    rw [← Bool.not_eq_true, FaultModeUnit.barred_iff, not_or, not_exists, Bool.not_eq_true]
    simp only [not_and, ne_eq]
  rw [hbarred]
  exact Iff.rfl

/-- A part that is not in RUN may hold any fault. -/
theorem modeLaw_of_not_run {f : FaultModeUnit} (h : f.mode ≠ .run) : ModeLaw f := fun hrun => absurd hrun h

/-- A raising that is no TRIP bars RUN no more than the list did (R139 to R141). -/
theorem FaultModeUnit.barred_of_barred_record {f : FaultModeUnit} {r : Raising} {now : BitVec 32}
    {seq : Option (BitVec 16)} (hcls : r.cls ≠ .trip) (h : (f.record r now seq).barred = true) : f.barred = true := by
  revert h
  apply FaultModeUnit.record_cases f r now seq (P := fun g => g.barred = true → f.barred = true) <;> intros <;>
    rename_i hbarred <;> rw [barred_iff] at hbarred ⊢
  case hrep =>
    refine hbarred.imp_left fun ⟨e, he, htrip⟩ => ?_
    obtain ⟨x, hx, rfl⟩ := List.mem_map.mp he
    split at htrip
    · exact ⟨x, hx, ((FaultClass.graver_eq_trip_iff ..).mp htrip).resolve_right hcls⟩
    · exact ⟨x, hx, htrip⟩
  case hnew =>
    refine hbarred.imp_left fun ⟨e, he, htrip⟩ => ?_
    rcases List.mem_append.mp he with he | he
    · exact ⟨e, he, htrip⟩
    · rw [List.mem_singleton.mp he] at htrip
      exact absurd htrip hcls
  case hdis hdrop =>
    refine hbarred.imp_left fun ⟨e, he, htrip⟩ => ?_
    rcases List.mem_append.mp he with he | he
    · exact ⟨e, (dropNewestNote_sublist hdrop).1.subset he, htrip⟩
    · rw [List.mem_singleton.mp he] at htrip
      exact absurd htrip hcls
  case hlost => exact hbarred.imp_right fun hlost => by simpa [hcls] using hlost
  case hnote => exact hbarred

theorem RaisingMove.keeps_modeLaw {f g : FaultModeUnit} (h : RaisingMove f g) (hf : ModeLaw f) : ModeLaw g := by
  rw [modeLaw_iff] at hf ⊢
  intro hrun
  cases h with
  | keeps hsame =>
    rw [FaultModeUnit.barred_congr hsame.faults hsame.droppedTrip]
    exact hf (hsame.mode.symm.trans hrun)
  | records r now seq hstays =>
    rw [FaultModeUnit.record_mode] at hrun
    rw [← Bool.not_eq_true]
    intro hbarred
    have hf' := FaultModeUnit.barred_of_barred_record (fun ht => hstays ⟨ht, hrun⟩) hbarred
    simp [hf hrun] at hf'
  | trips r now seq _ _ hhalt => rw [hhalt] at hrun; cases hrun

/-- Entries may leave the list. -/
theorem FaultListLaw.of_sublist {f g : FaultModeUnit} (h : FaultListLaw f) (hs : g.faults.Sublist f.faults) :
    FaultListLaw g := by
  obtain ⟨hlength, hdistinct, hcounts⟩ := h
  exact ⟨hs.length_le.trans hlength, hdistinct.sublist hs, fun e he => hcounts e (hs.subset he)⟩

theorem FaultListLaw.of_eq {f g : FaultModeUnit} (h : FaultListLaw f) (hs : g.faults = f.faults) : FaultListLaw g :=
  h.of_sublist (hs ▸ List.Sublist.refl _)

/-- A new entry joins a list that has room and holds no entry that matches it (R138). -/
theorem FaultListLaw.append {f g : FaultModeUnit} (h : FaultListLaw f) {e : FaultEntry}
    (hg : g.faults = f.faults ++ [e]) (hroom : f.faults.length < 32)
    (hnew : ∀ x ∈ f.faults, ¬(x.code = e.code ∧ x.subject = e.subject))
    (hcount : e.count = 1) : FaultListLaw g := by
  obtain ⟨-, hdistinct, hcounts⟩ := h
  unfold FaultListLaw
  rw [hg]
  refine ⟨by simpa [Config.faultDepth] using hroom, ?_, fun x hx => ?_⟩
  · refine List.pairwise_append.mpr ⟨hdistinct, List.pairwise_singleton _ _, fun a ha b hb => ?_⟩
    rw [List.mem_singleton.mp hb]
    exact hnew a ha
  · rcases List.mem_append.mp hx with hx | hx
    · exact hcounts x hx
    · rw [List.mem_singleton.mp hx, hcount]
      exact ⟨le_rfl, by decide⟩

theorem FaultEntry.repeated_count (e : FaultEntry) (r : Raising) (h : 1 ≤ e.count) :
    1 ≤ (e.repeated r).count ∧ (e.repeated r).count ≤ 255 := by
  simp only [FaultEntry.repeated]
  omega

theorem FaultListLaw.record {f : FaultModeUnit} (h : FaultListLaw f) (r : Raising) (now : BitVec 32)
    (seq : Option (BitVec 16)) : FaultListLaw (f.record r now seq) := by
  have hunmatched : f.faults.any (fun e => e.matches r) = false →
      ∀ x ∈ f.faults, ¬(x.code = r.code ∧ x.subject = r.subject) := fun hany x hx hm =>
    List.any_eq_false.mp hany x hx ((x.matches_iff r).mpr hm)
  apply FaultModeUnit.record_cases f r now seq (P := FaultListLaw)
  case hrep =>
    intro _
    obtain ⟨hlength, hdistinct, hcounts⟩ := h
    refine ⟨by simpa using hlength, ?_, fun e he => ?_⟩
    · refine List.pairwise_map.mpr (hdistinct.imp fun hab => ?_)
      split <;> split <;> exact hab
    · obtain ⟨x, hx, rfl⟩ := List.mem_map.mp he
      split
      · exact x.repeated_count r (hcounts x hx).1
      · exact hcounts x hx
  case hnew => exact fun hany hroom => h.append rfl hroom (hunmatched hany) rfl
  case hdis =>
    intro hany _ _ l hdrop
    obtain ⟨hsub, hlength⟩ := dropNewestNote_sublist hdrop
    have hl : FaultListLaw { f with faults := l } := h.of_sublist hsub
    refine hl.append rfl ?_ (fun x hx => hunmatched hany x (hsub.subset hx)) rfl
    have hbound : f.faults.length ≤ 32 := h.1
    simp only []
    omega
  case hlost => exact fun _ _ _ _ => h.of_eq rfl
  case hnote => exact fun _ _ _ => h.of_eq rfl

theorem RaisingMove.keeps_faultListLaw {f g : FaultModeUnit} (h : RaisingMove f g) (hf : FaultListLaw f) :
    FaultListLaw g := by
  cases h with
  | keeps hsame => exact hf.of_eq hsame.faults
  | records r now seq _ => exact hf.record r now seq
  | trips r now seq _ _ _ hfaults _ => exact (hf.record r now seq).of_eq hfaults

/-- What every raising keeps, every sequence of raisings keeps. -/
theorem State.OnlyRaises.keeps {P : FaultModeUnit → Prop} (hP : ∀ f g, RaisingMove f g → P f → P g) {s t : State}
    (h : s.OnlyRaises t) (hs : P s.fmu) : P t.fmu := by
  unfold State.OnlyRaises at h
  generalize t.fmu = g at h ⊢
  induction h with
  | refl => exact hs
  | tail _ hmove ih => exact hP _ _ hmove ih

theorem State.OnlyRaises.modeLaw {s t : State} (h : s.OnlyRaises t) : ModeLaw s.fmu → ModeLaw t.fmu :=
  h.keeps fun _ _ hm => hm.keeps_modeLaw

theorem State.OnlyRaises.faultListLaw {s t : State} (h : s.OnlyRaises t) : FaultListLaw s.fmu → FaultListLaw t.fmu :=
  h.keeps fun _ _ hm => hm.keeps_faultListLaw

/-- No raising leads out of LOAD. -/
theorem State.OnlyRaises.load {s t : State} (h : s.OnlyRaises t) : t.fmu.mode = .load ↔ s.fmu.mode = .load := by
  obtain hkept | ⟨hrun, hhalt, -⟩ := modeKeptOrTripped_of_moves h
  · rw [hkept]
  · simp [hrun, hhalt]

/-! ### No new TRIP (R46, R145) -/

/-- Every TRIP-class entry of `g` stood as one in `f`, and so did the dropped-trip flag. -/
def FaultModeUnit.NoNewTrip (f g : FaultModeUnit) : Prop :=
  (∀ e ∈ g.faults, e.cls = .trip → ∃ x ∈ f.faults, x.code = e.code ∧ x.subject = e.subject ∧ x.cls = .trip) ∧
  (g.droppedTrip = true → f.droppedTrip = true)

theorem FaultModeUnit.NoNewTrip.of_sublist {f g : FaultModeUnit} (hs : g.faults.Sublist f.faults)
    (hlost : g.droppedTrip = true → f.droppedTrip = true) : f.NoNewTrip g :=
  ⟨fun e he htrip => ⟨e, hs.subset he, rfl, rfl, htrip⟩, hlost⟩

theorem FaultModeUnit.NoNewTrip.of_eq {f g : FaultModeUnit} (hfaults : g.faults = f.faults)
    (hlost : g.droppedTrip = f.droppedTrip) : f.NoNewTrip g :=
  .of_sublist (hfaults ▸ List.Sublist.refl _) fun h => hlost ▸ h

theorem FaultModeUnit.NoNewTrip.trans {f g h : FaultModeUnit} (hfg : f.NoNewTrip g) (hgh : g.NoNewTrip h) :
    f.NoNewTrip h := by
  obtain ⟨hfaults, hlost⟩ := hfg
  obtain ⟨hfaults', hlost'⟩ := hgh
  refine ⟨fun e he htrip => ?_, hlost ∘ hlost'⟩
  obtain ⟨x, hx, hcode, hsubject, hcls⟩ := hfaults' e he htrip
  obtain ⟨y, hy, hcode', hsubject', hcls'⟩ := hfaults x hx hcls
  exact ⟨y, hy, hcode'.trans hcode, hsubject'.trans hsubject, hcls'⟩

theorem FaultModeUnit.noNewTrip_record (f : FaultModeUnit) {r : Raising} (now : BitVec 32) (seq : Option (BitVec 16))
    (hcls : r.cls ≠ .trip) : f.NoNewTrip (f.record r now seq) := by
  have hjoins : ∀ {l : List FaultEntry} {e : FaultEntry}, l.Sublist f.faults → e.cls = r.cls →
      ∀ x ∈ l ++ [e], x.cls = .trip → ∃ y ∈ f.faults, y.code = x.code ∧ y.subject = x.subject ∧ y.cls = .trip := by
    intro l e hl he x hx htrip
    rcases List.mem_append.mp hx with hx | hx
    · exact ⟨x, hl.subset hx, rfl, rfl, htrip⟩
    · rw [List.mem_singleton.mp hx, he] at htrip
      exact absurd htrip hcls
  apply FaultModeUnit.record_cases f r now seq (P := f.NoNewTrip)
  case hrep =>
    refine fun _ => ⟨fun e he htrip => ?_, id⟩
    obtain ⟨x, hx, rfl⟩ := List.mem_map.mp he
    split at htrip
    · rw [if_pos ‹_›]
      exact ⟨x, hx, rfl, rfl, ((FaultClass.graver_eq_trip_iff ..).mp htrip).resolve_right hcls⟩
    · rw [if_neg ‹_›]
      exact ⟨x, hx, rfl, rfl, htrip⟩
  case hnew => exact fun _ _ => ⟨hjoins (List.Sublist.refl _) rfl, id⟩
  case hdis => exact fun _ _ _ l hdrop => ⟨hjoins (dropNewestNote_sublist hdrop).1 rfl, id⟩
  case hlost =>
    refine fun _ _ _ _ => ⟨fun e he htrip => ⟨e, he, rfl, rfl, htrip⟩, fun hlost => ?_⟩
    simpa [hcls] using hlost
  case hnote => exact fun _ _ _ => .of_eq rfl rfl

/-! ### The raisings that wait (R40, R46, R145) -/

/-- A raising that may wait: one of the three trips of the Ride-Through Controller. -/
def Raising.IsTrip (r : Raising) : Prop :=
  r.cls = .trip ∧ r.subject = .none ∧ (r.code = .envelopeExit ∨ r.code = .swellExit ∨ r.code = .repeatedSag)

/-- Going from `s` to `t` keeps the law of the raisings that wait, and in LOAD raises no TRIP. -/
def State.KeepsQuiet (s t : State) : Prop :=
  ChannelLaw s.cm s.fmu.mode → RaisingLaw s →
    RaisingLaw t ∧ (s.fmu.mode = .load → s.fmu.NoNewTrip t.fmu)

/-- Nothing that the law speaks of changes, but for raisings that leave. -/
theorem State.keepsQuiet_of_same {s t : State} (hsame : s.fmu.SameFaults t.fmu)
    (hhanded : t.fmu.handed.Sublist s.fmu.handed) (hwork : t.rr.work.faults ⊆ s.rr.work.faults) : s.KeepsQuiet t := by
  rintro - ⟨hload, hwaits⟩
  refine ⟨⟨fun h => ?_, fun r hr => hwaits r (hhanded.subset hr)⟩, fun _ => .of_eq hsame.faults hsame.droppedTrip⟩
  obtain ⟨hnil, hnone⟩ := hload (hsame.mode.symm.trans h)
  exact ⟨List.sublist_nil.mp (hnil ▸ hhanded), fun r hr => hnone r (hwork hr)⟩

/-- Going from `s` to `t` only raises, moves the channels, and keeps the law of the raisings. -/
structure State.RaisesLawfully (s t : State) : Prop where
  raises : s.OnlyRaises t
  moves : s.ChannelsMove t
  quiet : s.KeepsQuiet t

theorem State.RaisesLawfully.trans {s t u : State} (h : s.RaisesLawfully t) (h' : t.RaisesLawfully u) :
    s.RaisesLawfully u where
  raises := h.raises.trans h'.raises
  moves := h.moves.trans h'.moves
  quiet hchannels hlaw := by
    obtain ⟨hlaw', hload⟩ := h.quiet hchannels hlaw
    have hchannels' : ChannelLaw t.cm t.fmu.mode :=
      h.moves.keeps (P := fun x => ChannelLaw x.1 x.2) (fun _ _ hm => hm.keeps_channelLaw) hchannels
    obtain ⟨hlaw'', hload'⟩ := h'.quiet hchannels' hlaw'
    exact ⟨hlaw'', fun hl => (hload hl).trans (hload' (h.raises.load.mpr hl))⟩

/-- A change of anything but the Channel Manager, the part mode, the fault list and the raisings. -/
theorem State.raisesLawfully_of_same {s t : State} (hcm : t.cm = s.cm) (hsame : s.fmu.SameFaults t.fmu)
    (hhanded : t.fmu.handed = s.fmu.handed) (hwork : t.rr.work = s.rr.work) : s.RaisesLawfully t where
  raises := State.onlyRaises_of_same hsame
  moves := State.channelsMove_of_eq hcm hsame.mode
  quiet := State.keepsQuiet_of_same hsame (hhanded ▸ List.Sublist.refl _) (hwork ▸ List.Subset.refl _)

theorem State.raisesLawfully_of_eq {s t : State} (hcm : t.cm = s.cm) (hfmu : t.fmu = s.fmu) (hrr : t.rr = s.rr) :
    s.RaisesLawfully t :=
  State.raisesLawfully_of_same hcm (.of_eq hfmu) (by rw [hfmu]) (by rw [hrr])

theorem State.RaisesLawfully.of_eq {s t u : State} (h : t.RaisesLawfully u) (hcm : t.cm = s.cm) (hfmu : t.fmu = s.fmu)
    (hrr : t.rr = s.rr) : s.RaisesLawfully u := (State.raisesLawfully_of_eq hcm hfmu hrr).trans h

theorem State.RaisesLawfully.refl (s : State) : s.RaisesLawfully s := State.raisesLawfully_of_eq rfl rfl rfl

/-- The Channel Manager moves, and nothing else that the laws speak of. -/
theorem State.raisesLawfully_of_moves {s t : State} (hmoves : s.ChannelsMove t) (hfmu : t.fmu = s.fmu)
    (hwork : t.rr.work.faults = s.rr.work.faults) : s.RaisesLawfully t where
  raises := State.onlyRaises_of_eq hfmu
  moves := hmoves
  quiet := State.keepsQuiet_of_same (.of_eq hfmu) (by rw [hfmu]) (hwork ▸ List.Subset.refl _)

theorem State.raisesLawfully_ite {s t : State} {p : Prop} [Decidable p] (h : p → s.RaisesLawfully t) :
    s.RaisesLawfully (if p then t else s) := by
  split
  · exact h ‹p›
  · exact .refl s

/-! ### Raisings taken -/

@[simp] theorem FaultModeUnit.record_handed (f : FaultModeUnit) (r : Raising) (now : BitVec 32)
    (seq : Option (BitVec 16)) : (f.record r now seq).handed = f.handed := by
  apply FaultModeUnit.record_cases f r now seq (P := fun g => g.handed = f.handed) <;> intros <;> rfl

@[simp] theorem State.raise_handed (s : State) (r : Raising) : (s.raise r).fmu.handed = s.fmu.handed := by
  unfold State.raise
  split <;> simp [State.enterHalt]

theorem State.raise_keepsQuiet {s : State} {r : Raising} (hr : s.fmu.mode = .load → r.cls ≠ .trip) :
    s.KeepsQuiet (s.raise r) := by
  rintro - ⟨hload, hwaits⟩
  refine ⟨⟨fun h => ?_, fun x hx => hwaits x (by simpa using hx)⟩, fun h => ?_⟩
  · rw [State.raise_handed, State.raise_rr]
    exact hload ((s.raise_onlyRaises r).load.mp h)
  · rw [State.raise_eq_record fun hc => hr h hc.1]
    exact FaultModeUnit.noNewTrip_record _ _ _ (hr h)

/-- A raising that in LOAD is no TRIP. -/
theorem State.raise_raisesLawfully {s : State} {r : Raising} (hr : s.fmu.mode = .load → r.cls ≠ .trip) :
    s.RaisesLawfully (s.raise r) :=
  ⟨s.raise_onlyRaises r, s.raise_channelsMove r, State.raise_keepsQuiet hr⟩

theorem State.raiseAll_raisesLawfully {s : State} {l : List Raising}
    (hl : s.fmu.mode = .load → ∀ r ∈ l, r.cls ≠ .trip) : s.RaisesLawfully (s.raiseAll l) := by
  unfold State.raiseAll
  induction l generalizing s with
  | nil => exact .refl s
  | cons r l ih =>
    refine (State.raise_raisesLawfully fun h => hl h r List.mem_cons_self).trans (ih fun h x hx => ?_)
    exact hl ((s.raise_onlyRaises r).load.mp h) x (List.mem_cons_of_mem _ hx)

/-- In LOAD no raising waits to be taken. -/
theorem State.takeRaising_keepsQuiet (s : State) (code : FaultCode) : s.KeepsQuiet (s.takeRaising code) := by
  intro hchannels hlaw
  have hnil := fun h => (hlaw.1 h).1
  unfold State.takeRaising
  split
  · exact (State.RaisesLawfully.refl s).quiet hchannels hlaw
  · rename_i r hfind
    have hnot : s.fmu.mode ≠ .load := fun h => by rw [hnil h] at hfind; cases hfind
    have hleft : s.KeepsQuiet { s with fmu := { s.fmu with
        handed := s.fmu.handed.eraseP fun x => decide (x.code = code) } } :=
      State.keepsQuiet_of_same ⟨rfl, rfl, rfl⟩ List.eraseP_sublist (List.Subset.refl _)
    obtain ⟨hlaw', -⟩ := hleft hchannels hlaw
    have hraise := State.raise_keepsQuiet (r := r) (s := { s with fmu := { s.fmu with
      handed := s.fmu.handed.eraseP fun x => decide (x.code = code) } }) fun h => absurd h hnot
    exact ⟨(hraise hchannels hlaw').1, fun h => absurd h hnot⟩

/-- Outside LOAD a trip may be handed over (R111). -/
theorem State.handRaising_keepsQuiet {s : State} {r : Raising} (hr : r.IsTrip) (hmode : s.fmu.mode ≠ .load) :
    s.KeepsQuiet (s.handRaising r) := by
  rintro - ⟨-, hwaits⟩
  refine ⟨⟨fun h => absurd h hmode, fun x hx => ?_⟩, fun h => absurd h hmode⟩
  rcases List.mem_append.mp hx with hx | hx
  · exact hwaits x hx
  · rw [List.mem_singleton.mp hx]
    exact hr

/-! ### The Report Receiver's work (R120, R124) -/

theorem State.handEvents_faults (s : State) : s.handEvents.rr.work.faults = s.rr.work.faults := by
  unfold State.handEvents
  split <;> simp [ReportWork.faults, *]

/-- The faults of the work in progress, among which in LOAD is no TRIP, are raised as the work ends. -/
theorem State.reportsIdle_raiseAll_raisesLawfully (s : State) :
    s.RaisesLawfully (s.reportsIdle.raiseAll s.rr.work.faults) where
  raises := s.reportsIdle.raiseAll_onlyRaises _
  moves := .of_eq (State.raiseAll_channelsMove ..) rfl rfl
  quiet hchannels hlaw := by
    have hidle : s.KeepsQuiet s.reportsIdle :=
      State.keepsQuiet_of_same ⟨rfl, rfl, rfl⟩ (List.Sublist.refl _) (List.nil_subset _)
    have hraises : s.reportsIdle.RaisesLawfully (s.reportsIdle.raiseAll s.rr.work.faults) :=
      State.raiseAll_raisesLawfully fun h => (hlaw.1 h).2
    exact hraises.quiet hchannels (hidle hchannels hlaw).1

theorem State.finishReport_raisesLawfully (s : State) : s.RaisesLawfully s.finishReport := by
  refine (State.raisesLawfully_of_moves s.handEvents_channelsMove s.handEvents_fmu s.handEvents_faults).trans ?_
  unfold State.finishReport
  generalize s.handEvents = s
  simp only []
  split
  · exact .refl s
  · exact .refl s
  · rename_i faults forward hwork
    have hraises := s.reportsIdle_raiseAll_raisesLawfully
    rw [hwork] at hraises
    cases forward with
    | none => exact hraises
    | some f => exact hraises.trans (State.raisesLawfully_of_eq rfl rfl rfl)

/-- New work whose faults in LOAD hold no TRIP. -/
theorem State.keepsQuiet_of_work {s t : State} (hfmu : t.fmu = s.fmu)
    (hwork : ChannelLaw s.cm s.fmu.mode → s.fmu.mode = .load → ∀ r ∈ t.rr.work.faults, r.cls ≠ .trip) :
    s.KeepsQuiet t := by
  rintro hchannels ⟨hload, hwaits⟩
  refine ⟨⟨fun h => ?_, fun r hr => hwaits r (hfmu ▸ hr)⟩, fun _ => by rw [hfmu]; exact .of_eq rfl rfl⟩
  rw [hfmu] at h ⊢
  exact ⟨(hload h).1, hwork hchannels h⟩

/-- A report loss is a HOLD (R124). -/
theorem State.decideLoss_raisesLawfully (s : State) : s.RaisesLawfully s.decideLoss where
  raises := State.onlyRaises_of_eq s.decideLoss_fmu
  moves := State.channelsMove_of_eq (by simp) (by simp)
  quiet := by
    unfold State.decideLoss
    split
    · exact (State.RaisesLawfully.refl s).quiet
    · refine State.keepsQuiet_of_work rfl fun _ _ r hr => ?_
      obtain ⟨c, -, rfl⟩ := List.mem_map.mp hr
      simp [reportLossOf]

theorem State.settleReports_raisesLawfully (s : State) : s.RaisesLawfully s.settleReports :=
  s.finishReport_raisesLawfully.trans
    ((State.decideLoss_raisesLawfully _).trans (State.finishReport_raisesLawfully _))

theorem State.takeExpiry_raisesLawfully (s : State) : s.RaisesLawfully s.takeExpiry :=
  State.raisesLawfully_ite fun _ =>
    s.settleReports_raisesLawfully.trans (State.raisesLawfully_of_same rfl ⟨rfl, rfl, rfl⟩ rfl rfl)

/-- In LOAD no channel is on, so a report gives no fault (R69, R121). -/
theorem State.reportFaults_of_load {s : State} (h : ChannelLaw s.cm .load) (r : Report) : s.reportFaults r = [] := by
  refine List.flatMap_eq_nil_iff.mpr fun c _ => List.map_eq_nil_iff.mpr ?_
  obtain ⟨-, hactive, -⟩ := h c
  have hoff : ¬(s.cm.chan[c]).isOn = true := fun hon => by
    rcases isOn_iff.mp hon with hst | hst <;> exact absurd (hactive (by rw [hst]; rfl)) (by decide)
  unfold State.verdict
  split
  · exact reportVerdict_faults_of_not_isOn hoff
  · rfl

theorem State.decideReport_raisesLawfully (s : State) (r : Report) : s.RaisesLawfully (s.decideReport r) where
  raises := State.onlyRaises_of_eq rfl
  moves := State.channelsMove_of_eq rfl rfl
  quiet := by
    refine State.keepsQuiet_of_work rfl fun hchannels hload x hx => ?_
    have hx : x ∈ s.reportFaults r := hx
    rw [hload] at hchannels
    rw [State.reportFaults_of_load hchannels] at hx
    cases hx

theorem State.takeReport_raisesLawfully (s : State) : s.RaisesLawfully s.takeReport := by
  unfold State.takeReport
  split
  · exact .refl s
  · rename_i r rest _
    exact s.settleReports_raisesLawfully.trans <| .trans (t := { s.settleReports with
      rr := { s.settleReports.rr with handed := rest } })
      (State.raisesLawfully_of_same rfl ⟨rfl, rfl, rfl⟩ rfl rfl) (State.decideReport_raisesLawfully _ r)

/-! ### The Setpoint Engine's work (R93, R112) -/

/-- Of what the laws speak of, the Setpoint Engine's work moves the channels alone. -/
theorem State.raisesLawfully_of_engine {s t : State} (hmoves : s.ChannelsMove t) (hsame : s.fmu.SameFaults t.fmu)
    (hhanded : t.fmu.handed = s.fmu.handed) (hrr : t.rr = s.rr) : s.RaisesLawfully t where
  raises := State.onlyRaises_of_same hsame
  moves := hmoves
  quiet := State.keepsQuiet_of_same hsame (hhanded ▸ List.Sublist.refl _) (hrr ▸ List.Subset.refl _)

theorem State.requestChannels_raisesLawfully (s : State) : s.RaisesLawfully s.requestChannels :=
  State.raisesLawfully_of_engine s.requestChannels_channelsMove (.of_eq (by simp)) (by simp) (by simp)

theorem State.closeCycle_raisesLawfully (s : State) : s.RaisesLawfully s.closeCycle := by
  refine .trans (t := s.readVoltage.requestChannels) (.trans (t := s.readVoltage)
    (State.raisesLawfully_of_eq (by simp) (by simp) (by simp)) (State.requestChannels_raisesLawfully _)) ?_
  unfold State.closeCycle
  generalize s.readVoltage.requestChannels = s
  simp only []
  split
  · exact .refl s
  · exact State.raisesLawfully_of_engine (State.channelsMove_single (.results ..)) ⟨rfl, rfl, rfl⟩ rfl rfl

theorem State.handSetpointFrame_raisesLawfully (s : State) : s.RaisesLawfully s.handSetpointFrame := by
  refine s.closeCycle_raisesLawfully.trans ?_
  unfold State.handSetpointFrame
  generalize s.closeCycle = s
  simp only []
  split
  · split <;> exact State.raisesLawfully_of_eq rfl rfl rfl
  · exact .refl s

theorem State.lookAt_raisesLawfully (s : State) (o : StatusOwner) : s.RaisesLawfully (s.lookAt o) := by
  refine s.handSetpointFrame_raisesLawfully.trans ?_
  unfold State.lookAt
  generalize s.handSetpointFrame = s
  simp only []
  split <;> exact State.raisesLawfully_of_eq rfl rfl rfl

theorem State.handStatusFrame_raisesLawfully (s : State) : s.RaisesLawfully s.handStatusFrame := by
  refine s.handSetpointFrame_raisesLawfully.trans ?_
  unfold State.handStatusFrame
  generalize s.handSetpointFrame = s
  simp only []
  split <;> exact State.raisesLawfully_of_eq rfl rfl rfl

theorem State.settle_raisesLawfully (s : State) : s.RaisesLawfully s.settle :=
  s.handStatusFrame_raisesLawfully.trans
    ((State.takeExpiry_raisesLawfully _).trans (State.settleReports_raisesLawfully _))

theorem State.beginCycle_raisesLawfully (s : State) : s.RaisesLawfully s.beginCycle :=
  State.raisesLawfully_of_same rfl ⟨rfl, rfl, rfl⟩ rfl rfl

theorem State.cyclePart_raisesLawfully (s : State) (part : CyclePart) : s.RaisesLawfully (s.cyclePart part) := by
  have hbegin : s.RaisesLawfully s.settle.beginCycle :=
    s.settle_raisesLawfully.trans (State.beginCycle_raisesLawfully _)
  cases part with
  | whole reportsFirst =>
    cases reportsFirst with
    | true =>
      exact hbegin.trans ((State.takeExpiry_raisesLawfully _).trans
        ((State.settleReports_raisesLawfully _).trans (State.handStatusFrame_raisesLawfully _)))
    | false =>
      exact hbegin.trans ((State.handStatusFrame_raisesLawfully _).trans (State.takeExpiry_raisesLawfully _))
  | start => exact hbegin
  | demands | standing | voltage =>
    exact State.raisesLawfully_of_eq (by simp [State.cyclePart]) (by simp [State.cyclePart]) (by simp [State.cyclePart])
  | request => exact s.requestChannels_raisesLawfully
  | close => exact s.closeCycle_raisesLawfully
  | setpoint => exact s.handSetpointFrame_raisesLawfully
  | look o => exact s.lookAt_raisesLawfully o
  | status => exact s.handStatusFrame_raisesLawfully
  | reports => exact s.takeExpiry_raisesLawfully

end Sys2Proof.Machine
end

