-- ==== Sys2Proof/Proofs/FaultLawsKept.lean ====
section
/-! PROOFS. The laws of the part mode, of the fault list and of the raisings that wait, through every command (O55). -/

namespace Sys2Proof.Machine

/-! ### Frames, links and counters -/

/-- In LOAD a valid frame trips nothing, so its trip is raised or handed over outside LOAD alone (R24, R37). -/
theorem State.takeValidFrame_keepsQuiet (s : State) (f : GridSample) (b held : Bool) :
    s.KeepsQuiet (s.takeValidFrame f b held) := by
  have hrecord : ∀ w : State, w.RaisesLawfully
      (w.takeRecord (s.validRecord f) (s.noticeResult f).sagBegan) := fun _ =>
    State.raisesLawfully_of_same rfl ⟨rfl, rfl, rfl⟩ rfl rfl
  have hnotice : s.RaisesLawfully (s.afterNotice f) := State.raisesLawfully_of_same rfl ⟨rfl, rfl, rfl⟩ rfl rfl
  have htaken := hnotice.trans (hrecord _)
  rw [State.takeValidFrame_eq]
  split
  · rename_i hrepeated
    have hmode : s.fmu.mode ≠ .load := fun h => by
      rw [State.noticeResult_of_load h] at hrepeated
      cases hrepeated
    have hraise : ∀ w : State, w.fmu.mode = s.fmu.mode → w.RaisesLawfully (w.raise (tripFault .repeatedSag)) :=
      fun _ hw => State.raise_raisesLawfully fun h => absurd (hw.symm.trans h) hmode
    split
    · intro hchannels hlaw
      obtain ⟨hlaw', -⟩ := htaken.quiet hchannels hlaw
      have hhand := State.handRaising_keepsQuiet (s := (s.afterNotice f).takeRecord (s.validRecord f)
        (s.noticeResult f).sagBegan) (r := tripFault .repeatedSag) ⟨rfl, rfl, .inr (.inr rfl)⟩ hmode
      exact ⟨(hhand hchannels hlaw').1, fun h => absurd h hmode⟩
    · split
      · exact (hnotice.trans ((hraise (s.afterNotice f) rfl).trans (hrecord _))).quiet
      · exact (htaken.trans (hraise _ rfl)).quiet
  · exact htaken.quiet

theorem State.takeSample_keepsQuiet (s : State) (b held : Bool) : s.KeepsQuiet (s.takeSample b held) := by
  unfold State.takeSample
  split
  · exact (State.RaisesLawfully.refl s).quiet
  · rename_i f rest _
    unfold State.takeGridFrame
    split
    case h_4 => exact State.takeValidFrame_keepsQuiet { s with gm := { s.gm with handed := rest } } f b held
    all_goals exact State.keepsQuiet_of_same ⟨rfl, rfl, rfl⟩ (List.Sublist.refl _) (List.Subset.refl _)

/-- A raising that is never a TRIP, after a change that the laws do not speak of. -/
theorem State.raisesLawfully_raise {s t : State} {r : Raising} (h : s.RaisesLawfully t) (hr : r.cls ≠ .trip) :
    s.RaisesLawfully (t.raise r) :=
  h.trans (State.raise_raisesLawfully fun _ => hr)

theorem State.storeEntry_raisesLawfully (s : State) (e : DispatchEntry) : s.RaisesLawfully (s.storeEntry e) := by
  unfold State.storeEntry
  split
  · exact .refl s
  · split
    · exact State.raisesLawfully_of_eq rfl rfl rfl
    · split
      · exact State.raisesLawfully_of_eq rfl rfl rfl
      · exact State.raisesLawfully_raise (State.raisesLawfully_of_eq rfl rfl rfl) (by simp)

theorem State.foldl_storeEntry_raisesLawfully (l : List DispatchEntry) (s : State) :
    s.RaisesLawfully (l.foldl State.storeEntry s) := by
  induction l generalizing s with
  | nil => exact .refl s
  | cons e l ih => exact (s.storeEntry_raisesLawfully e).trans (ih _)

theorem State.takeDispatch_raisesLawfully (s : State) (f : Dispatch) : s.RaisesLawfully (s.takeDispatch f) := by
  unfold State.takeDispatch
  split
  · exact State.raisesLawfully_of_eq rfl rfl rfl
  · split
    · exact State.raisesLawfully_raise (State.raisesLawfully_of_eq rfl rfl rfl) (by simp)
    · exact (State.foldl_storeEntry_raisesLawfully f.entries s).trans (State.raisesLawfully_of_eq rfl rfl rfl)

/-- A frame that the part takes waits for its block, whose work it leaves as it is. -/
theorem State.receive_raisesLawfully (s : State) (p : Port) (f : Frame) : s.RaisesLawfully (s.receive p f) := by
  have hdeliver : ∀ w : State, (w.deliver p f).rr.work = w.rr.work := fun w => by
    cases p with
    | u => unfold State.deliver; simp only []; split <;> rfl
    | d | g => rfl
  unfold State.receive
  split
  case h_6 => exact State.raisesLawfully_of_same (by simp) (.of_eq (by simp)) (by simp) (by simp [hdeliver])
  all_goals exact State.raisesLawfully_of_eq (by simp) (by simp) (by simp)

theorem State.loseSignal_raisesLawfully (s : State) (p : Port) (cut : Bool) :
    s.RaisesLawfully (s.loseSignal p cut) := by
  unfold State.loseSignal
  simp only []
  refine .trans (State.raisesLawfully_raise (r := { code := .linkDown, cls := .hold, subject := .port p })
    (t := { s.setLink p false false with fmu := { s.fmu with summary := { s.fmu.summary with link := true } } })
    (State.raisesLawfully_of_same (s.setLink_cm ..) ⟨rfl, rfl, rfl⟩ rfl
      (congrArg ReportReceiver.work (s.setLink_rr ..))) (by simp)) ?_
  rw [State.setLink_fmu]
  split <;> exact State.raisesLawfully_of_eq (by simp) (by simp) (by simp)

theorem State.queueRequest_raisesLawfully (s : State) (q : Request) : s.RaisesLawfully (s.queueRequest q) := by
  unfold State.queueRequest
  split
  · exact State.raisesLawfully_raise (.refl s) (by simp)
  · exact State.raisesLawfully_of_eq rfl rfl rfl

theorem State.putCounter_raisesLawfully (s : State) (n : CounterName) (v : Nat) :
    s.RaisesLawfully (s.putCounter n v) := by
  refine State.raisesLawfully_of_same (s.putCounter_cm n v) (s.putCounter_sameFaults n v) ?_ ?_ <;> cases n <;>
    simp [State.putCounter]

theorem State.foldl_putCounter_raisesLawfully (l : List CounterName) (v : Nat) (s : State) :
    s.RaisesLawfully (l.foldl (fun s n => s.putCounter n v) s) := by
  induction l generalizing s with
  | nil => exact .refl s
  | cons n l ih => exact (s.putCounter_raisesLawfully n v).trans (ih _)

/-! ### What a command does to the laws -/

/-- What the headline claims of a step from `s` to `t`. -/
def State.KeepsFaultLaws (s t : State) : Prop :=
  (ModeLaw s.fmu → ModeLaw t.fmu) ∧ (FaultListLaw s.fmu → FaultListLaw t.fmu) ∧
  (RideThroughLaw s.rtc s.fmu.mode → s.KeepsQuiet t)

theorem State.keepsFaultLaws_of_raises {s t : State} (h : s.OnlyRaises t)
    (hquiet : RideThroughLaw s.rtc s.fmu.mode → s.KeepsQuiet t) : s.KeepsFaultLaws t :=
  ⟨h.modeLaw, h.faultListLaw, hquiet⟩

theorem State.RaisesLawfully.keepsFaultLaws {s t : State} (h : s.RaisesLawfully t) : s.KeepsFaultLaws t :=
  State.keepsFaultLaws_of_raises h.raises fun _ => h.quiet

theorem State.KeepsFaultLaws.refl (s : State) : s.KeepsFaultLaws s := (State.RaisesLawfully.refl s).keepsFaultLaws

/-- The changes of a served request, whose answer the laws do not speak of. -/
theorem State.KeepsFaultLaws.of_fmu {s t u : State} (h : s.KeepsFaultLaws t) (hfmu : u.fmu = t.fmu)
    (hrr : u.rr = t.rr) : s.KeepsFaultLaws u := by
  unfold State.KeepsFaultLaws State.KeepsQuiet RaisingLaw at *
  rwa [hfmu, hrr]

/-- Whatever next state the outcome gives, reaching it from `s` keeps the laws. -/
def FaultLawsTo (s : State) (o : Host.Outcome State Fault Refusal) : Prop := ∀ t, o = .next t → s.KeepsFaultLaws t

section
variable {s t : State}

theorem faultLawsTo_next (h : s.KeepsFaultLaws t) : FaultLawsTo s (.next t) := by
  intro u hu; cases hu; exact h

/-- A command that a held part ignores. -/
theorem faultLawsTo_live {f : State → State} (h : s.KeepsFaultLaws (f s)) : FaultLawsTo s (.next (s.live f)) :=
  faultLawsTo_next (State.live_ind (P := s.KeepsFaultLaws) (.refl s) fun _ => h)

theorem faultLawsTo_lawfully {f : State → State} (h : s.RaisesLawfully (f s)) : FaultLawsTo s (.next (s.live f)) :=
  faultLawsTo_live h.keepsFaultLaws

theorem faultLawsTo_serve {op : Operation} {o : Object} {accepts : Request → Bool} {f : Service}
    (hf : ∀ q, s.KeepsFaultLaws (f q s).1) : FaultLawsTo s (.next (s.live (State.serve op o accepts f))) :=
  faultLawsTo_live <| State.serve_ind (P := s.KeepsFaultLaws) (.refl s) fun q _ _ _ => (hf q).of_fmu rfl rfl

theorem State.onExpiry_raisesLawfully {timer : Timer} {f : State → State}
    (h : ∀ w : State, w.cm = s.cm → w.fmu = s.fmu → w.RaisesLawfully (f w)) : s.RaisesLawfully (s.onExpiry timer f) :=
  State.onExpiry_ind (P := s.RaisesLawfully) (.refl s) fun m _ =>
    .trans (t := s.advanceMs m) (State.raisesLawfully_of_eq rfl rfl rfl) (h _ rfl rfl)

end

/-- Accepting an entry leaves the faults and the raisings alone. -/
def EntryDecision.KeepsQuiet (d : EntryDecision) : Prop :=
  ∀ (i : Nat) (data : List Byte) (s t : State), d i data s = .ok t →
    s.fmu.SameFaults t.fmu ∧ t.fmu.handed = s.fmu.handed ∧ t.rr.work = s.rr.work

theorem State.keepsFaultLaws_of_same {s t : State} (h : s.fmu.SameFaults t.fmu) (hhanded : t.fmu.handed = s.fmu.handed)
    (hwork : t.rr.work = s.rr.work) : s.KeepsFaultLaws t :=
  State.keepsFaultLaws_of_raises (State.onlyRaises_of_same h) fun _ =>
    State.keepsQuiet_of_same h (hhanded ▸ List.Sublist.refl _) (hwork ▸ List.Subset.refl _)

theorem State.keepsFaultLaws_of_eq {s t : State} (hfmu : t.fmu = s.fmu) (hrr : t.rr = s.rr) : s.KeepsFaultLaws t :=
  State.keepsFaultLaws_of_same (.of_eq hfmu) (by rw [hfmu]) (by rw [hrr])

theorem faultLawsTo_serveEntry {s : State} {o : Object} {owns : Nat → Bool} {d : EntryDecision}
    (hd : d.KeepsQuiet) : FaultLawsTo s (.next (s.live (State.serveEntry o owns d))) :=
  faultLawsTo_live <| State.serveEntry_ind (P := s.KeepsFaultLaws) (.refl s)
    (fun _ _ _ => State.keepsFaultLaws_of_eq rfl rfl)
    fun _ _ _ _ _ ht =>
      have ⟨hsame, hhanded, hwork⟩ := hd _ _ _ _ ht
      have h := State.keepsFaultLaws_of_same hsame hhanded hwork
      ⟨h.of_fmu rfl rfl, h.of_fmu rfl rfl⟩

/-! ### Owners that decide an entry of a WRITE -/

theorem keepsQuiet_of_eq {d : EntryDecision}
    (h : ∀ i data s t, d i data s = .ok t → t.fmu = s.fmu ∧ t.rr.work = s.rr.work) :
    d.KeepsQuiet := fun i data s t hd =>
  have ⟨hfmu, hwork⟩ := h i data s t hd
  ⟨.of_eq hfmu, by rw [hfmu], hwork⟩

theorem writeCounter_keepsQuiet : EntryDecision.KeepsQuiet writeCounter := by
  intro i data s t h
  unfold writeCounter at h
  split at h
  · cases h
  · rename_i n _
    split at h <;> cases h
    refine ⟨s.putCounter_sameFaults .., ?_, ?_⟩ <;> cases n <;> simp [State.putCounter]

theorem State.putChannel_work (s : State) (c : Chan) (e : ChannelEntry) : (s.putChannel c e).rr.work = s.rr.work := by
  unfold State.putChannel
  simp only []
  split
  · rfl
  · split <;> rfl

theorem writeChannelEntry_keepsQuiet : EntryDecision.KeepsQuiet writeChannelEntry := by
  refine keepsQuiet_of_eq fun i data s t h => ?_
  unfold writeChannelEntry at h
  split at h
  · cases h
  · unfold State.writeChannel at h
    split at h
    · cases h
    · split at h
      · cases h
      · split at h <;> cases h
        exact ⟨s.putChannel_fmu .., s.putChannel_work ..⟩

theorem writeGroup_keepsQuiet : EntryDecision.KeepsQuiet writeGroup := by
  refine keepsQuiet_of_eq fun i data s t h => ?_
  unfold writeGroup at h
  split at h
  · cases h
  · split at h <;> cases h
    exact ⟨rfl, rfl⟩

theorem writeProfile_keepsQuiet : EntryDecision.KeepsQuiet writeProfile := by
  refine keepsQuiet_of_eq fun i data s t h => ?_
  unfold writeProfile at h
  split at h <;> cases h
  exact ⟨rfl, rfl⟩

theorem writeEnvelopeRow_keepsQuiet : EntryDecision.KeepsQuiet writeEnvelopeRow := by
  refine keepsQuiet_of_eq fun i data s t h => ?_
  unfold writeEnvelopeRow at h
  split at h
  · cases h
  · split at h <;> rw [State.decideEnvelope_eq_ok h] <;> exact ⟨rfl, rfl⟩

theorem writeSwell_keepsQuiet : EntryDecision.KeepsQuiet writeSwell := by
  refine keepsQuiet_of_eq fun i data s t h => ?_
  unfold writeSwell at h
  simp only [] at h
  split at h <;> cases h
  exact ⟨rfl, rfl⟩

theorem writePPre_keepsQuiet : EntryDecision.KeepsQuiet writePPre := by
  refine keepsQuiet_of_eq fun i data s t h => ?_
  unfold writePPre at h
  split at h
  · cases h
  · split at h <;> cases h
    exact ⟨rfl, rfl⟩

theorem writeVRecover_keepsQuiet : EntryDecision.KeepsQuiet writeVRecover :=
  keepsQuiet_of_eq fun _ _ _ _ h => by rw [State.decideEnvelope_eq_ok h]; exact ⟨rfl, rfl⟩

theorem writeGlobal_keepsQuiet : EntryDecision.KeepsQuiet writeGlobal := by
  refine keepsQuiet_of_eq fun i data s t h => ?_
  unfold writeGlobal State.writeSetting at h
  split at h
  case h_15 => cases h
  case h_1 | h_2 | h_3 | h_4 => rw [State.classA_eq_ok h]; exact ⟨rfl, rfl⟩
  all_goals rw [inRange_eq_ok h]; exact ⟨rfl, rfl⟩

theorem keepsQuiet_of_classA {ok : List Byte → State → Bool} {w : List Byte → State → State}
    (hw : ∀ data s, (w data s).fmu = s.fmu ∧ (w data s).rr.work = s.rr.work) :
    EntryDecision.KeepsQuiet fun _ data s => s.classA (ok data s) (w data s) :=
  keepsQuiet_of_eq fun _ data s _ h => by rw [State.classA_eq_ok h]; exact hw data s

theorem keepsQuiet_of_inRange {ok : List Byte → State → Bool} {w : List Byte → State → State}
    (hw : ∀ data s, (w data s).fmu = s.fmu ∧ (w data s).rr.work = s.rr.work) :
    EntryDecision.KeepsQuiet fun _ data s => inRange (ok data s) (w data s) :=
  keepsQuiet_of_eq fun _ data s _ h => by rw [inRange_eq_ok h]; exact hw data s

/-! ### Owners that decide a request -/

/-- Entries leave the list, in the same part mode. -/
theorem State.keepsFaultLaws_of_acknowledged {s t : State} (hmode : t.fmu.mode = s.fmu.mode)
    (hfaults : t.fmu.faults.Sublist s.fmu.faults) (hlost : t.fmu.droppedTrip = true → s.fmu.droppedTrip = true)
    (hhanded : t.fmu.handed = s.fmu.handed) (hrr : t.rr = s.rr) : s.KeepsFaultLaws t := by
  refine ⟨fun h hrun => ?_, fun h => h.of_sublist hfaults, ?_⟩
  · obtain ⟨hnone, hclear⟩ := h (hmode.symm.trans hrun)
    refine ⟨fun e he => hnone e (hfaults.subset he), ?_⟩
    rw [← Bool.not_eq_true]
    exact fun hl => by simp [hlost hl] at hclear
  · rintro - - ⟨hload, hwaits⟩
    refine ⟨⟨fun h => ?_, fun r hr => hwaits r (hhanded ▸ hr)⟩, fun _ => .of_sublist hfaults hlost⟩
    rw [hhanded, hrr]
    exact hload (hmode.symm.trans h)

/-- A change of the part mode that does not lead to LOAD and leaves the faults and the raisings alone. -/
theorem State.keepsFaultLaws_of_mode {s t : State} (hfaults : t.fmu.faults = s.fmu.faults)
    (hlost : t.fmu.droppedTrip = s.fmu.droppedTrip) (hhanded : t.fmu.handed = s.fmu.handed)
    (hnot : t.fmu.mode ≠ .load) (hbarred : t.fmu.mode = .run → s.fmu.barred = false) : s.KeepsFaultLaws t := by
  refine ⟨fun _ => modeLaw_iff.mpr fun hrun => ?_, fun h => h.of_eq hfaults, fun _ _ hlaw => ?_⟩
  · rw [FaultModeUnit.barred_congr hfaults hlost]
    exact hbarred hrun
  · exact ⟨⟨fun h => absurd h hnot, fun r hr => hlaw.2 r (hhanded ▸ hr)⟩, fun _ => .of_eq hfaults hlost⟩

section
variable (q : Request) (s : State)

theorem decideAckHead_keepsFaultLaws : s.KeepsFaultLaws (decideAckHead q s).1 := by
  unfold decideAckHead
  split
  · exact .refl s
  · rename_i e rest hlist
    exact State.keepsFaultLaws_of_acknowledged rfl (hlist ▸ List.sublist_cons_self e rest) id rfl rfl

theorem decideAckAll_keepsFaultLaws : s.KeepsFaultLaws (decideAckAll q s).1 :=
  State.keepsFaultLaws_of_acknowledged rfl (List.nil_sublist _) (fun h => by cases h) rfl (by rw [decideAckAll])

theorem decideAbort_keepsFaultLaws : s.KeepsFaultLaws (decideAbort q s).1 := by
  refine State.keepsFaultLaws_of_eq (decideAbort_fmu q s) ?_
  unfold decideAbort
  split
  · rfl
  · split <;> rfl

theorem decideFaultRead_keepsFaultLaws : s.KeepsFaultLaws (decideFaultRead q s).1 := by
  unfold decideFaultRead
  split <;> exact .refl s

theorem decideCounterWrite_keepsFaultLaws : s.KeepsFaultLaws (decideCounterWrite q s).1 := by
  unfold decideCounterWrite
  simp only []
  split
  · exact (State.foldl_putCounter_raisesLawfully _ _ s).keepsFaultLaws
  · exact .refl s

theorem decideHalt_keepsFaultLaws : s.KeepsFaultLaws (decideHalt q s).1 := by
  unfold decideHalt
  split
  · exact .refl s
  · split
    · exact .refl s
    · exact State.keepsFaultLaws_of_mode rfl rfl rfl (by simp [State.enterHalt]) (by simp [State.enterHalt])

/-- The first check of RUN finds no TRIP (R132). -/
theorem State.not_barred_of_runFailure {s : State} (h : s.runFailure = none) : s.fmu.barred = false := by
  unfold State.runFailure at h
  split at h
  · cases h
  · rename_i hbarred
    simpa using hbarred

theorem State.not_barred_of_resumeAllowed {s : State} (h : s.resumeAllowed = true) : s.fmu.barred = false := by
  simp only [State.resumeAllowed, Bool.and_eq_true, Bool.not_eq_true'] at h
  exact h.1.1

@[simp] theorem State.enterRunFromLoad_fmu : s.enterRunFromLoad.fmu = { s.fmu with mode := .run } := by
  unfold State.enterRunFromLoad
  simp only []
  split <;> rfl

@[simp] theorem State.enterRunFromHalt_fmu : s.enterRunFromHalt.fmu = { s.fmu with mode := .run } := by
  unfold State.enterRunFromHalt
  simp only []
  split <;> rfl

theorem decideRun_keepsFaultLaws : s.KeepsFaultLaws (decideRun q s).1 := by
  unfold decideRun
  split
  · exact .refl s
  · split
    · exact .refl s
    · split
      · exact .refl s
      · rename_i hnone
        exact State.keepsFaultLaws_of_mode (by simp) (by simp) (by simp) (by simp) fun _ =>
          State.not_barred_of_runFailure hnone

theorem decideResume_keepsFaultLaws : s.KeepsFaultLaws (decideResume q s).1 := by
  unfold decideResume
  split
  · exact .refl s
  · split
    · exact .refl s
    · split
      · rename_i hallowed
        exact State.keepsFaultLaws_of_mode (by simp) (by simp) (by simp) (by simp) fun _ =>
          State.not_barred_of_resumeAllowed hallowed
      · exact .refl s

theorem State.takeRaisings_handed : s.takeRaisings.fmu.handed = [] := by
  have hall : ∀ (l : List Raising) (w : State), (w.raiseAll l).fmu.handed = w.fmu.handed := by
    intro l
    induction l with
    | nil => exact fun _ => rfl
    | cons r l ih => exact fun w => (ih (w.raise r)).trans (w.raise_handed r)
  exact hall _ _

theorem State.endTrippingReport_onlyRaises : s.OnlyRaises s.endTrippingReport :=
  State.onlyRaises_ite fun _ => s.finishReport_onlyRaises

theorem State.takeRaisings_onlyRaises : s.OnlyRaises s.takeRaisings :=
  .trans (t := { s with fmu := { s.fmu with handed := [] } }) (State.onlyRaises_of_same ⟨rfl, rfl, rfl⟩)
    (State.raiseAll_onlyRaises _ _)

/-- After it the Report Receiver has no TRIP to raise. -/
theorem State.endTrippingReport_faults : ∀ r ∈ s.endTrippingReport.rr.work.faults, r.cls ≠ .trip := by
  by_cases h : ∃ r ∈ s.rr.work.faults, r.cls = .trip
  · rw [State.endTrippingReport_of_trip h, State.finishReport_rr]
    simp [ReportWork.faults]
  · have hnone : ∀ r ∈ s.rr.work.faults, r.cls ≠ .trip := fun r hr htrip => h ⟨r, hr, htrip⟩
    rwa [State.endTrippingReport_of_no_trip hnone]

/-- LOAD is entered with every raising taken and no TRIP left to raise (R46, R145). -/
theorem decideLoad_keepsFaultLaws : s.KeepsFaultLaws (decideLoad q s).1 := by
  unfold decideLoad
  split
  · exact .refl s
  · split
    · exact .refl s
    · rename_i hmode
      have hhalt : s.fmu.mode = .halt := not_not.mp hmode
      have hraises := s.endTrippingReport_onlyRaises.trans (State.takeRaisings_onlyRaises _)
      refine ⟨fun _ => modeLaw_of_not_run (by simp [State.enterLoad]), fun h => (hraises.faultListLaw h).of_eq rfl,
        fun _ _ _ => ⟨⟨fun _ => ⟨State.takeRaisings_handed _, ?_⟩, fun r hr => ?_⟩, fun h => by simp [hhalt] at h⟩⟩
      · simpa [State.enterLoad] using s.endTrippingReport_faults
      · have hr : r ∈ s.endTrippingReport.takeRaisings.fmu.handed := hr
        rw [State.takeRaisings_handed] at hr
        cases hr

end

/-! ### The commands that have a form of their own -/

/-- With every list emptied, no law has anything to ask (R153, R200, R203). -/
theorem State.keepsFaultLaws_of_reset {s t : State} (hmode : t.fmu.mode = .load) (hfaults : t.fmu.faults = [])
    (hlost : t.fmu.droppedTrip = false) (hhanded : t.fmu.handed = []) (hwork : t.rr.work = .idle) :
    s.KeepsFaultLaws t := by
  refine ⟨fun _ => modeLaw_of_not_run (by simp [hmode]), fun _ => ?_,
    fun _ _ _ => ⟨⟨fun _ => ⟨hhanded, ?_⟩, ?_⟩, fun _ => ?_⟩⟩
  · simp [FaultListLaw, hfaults]
  · simp [hwork, ReportWork.faults]
  · simp [hhanded]
  · simp [FaultModeUnit.NoNewTrip, hfaults, hlost]

theorem State.powerOn_keepsFaultLaws (s : State) (b : Bool) : s.KeepsFaultLaws { s.powerOn with held := b } :=
  State.keepsFaultLaws_of_reset rfl rfl rfl rfl rfl

theorem State.restartNow_keepsFaultLaws (s : State) : s.KeepsFaultLaws s.restartNow :=
  State.keepsFaultLaws_of_reset rfl rfl rfl rfl rfl

/-- In LOAD no timer that can trip runs, so a trip is handed over outside LOAD alone (R24, R111). -/
theorem State.tripOn_keepsFaultLaws {s : State} {code : FaultCode} {t : Timer} (part : TripPart)
    (ht : RideThroughLaw s.rtc s.fmu.mode → t.isSome = true → s.fmu.mode ≠ .load)
    (hcode : (tripFault code).IsTrip) : s.KeepsFaultLaws (s.tripOn code t part) := by
  refine State.keepsFaultLaws_of_raises (s.tripOn_onlyRaises code t part) fun hlaw => ?_
  have hexpiry : ∀ f : State → State,
      (∀ w : State, w.fmu = s.fmu → w.rr = s.rr → w.cm = s.cm → s.fmu.mode ≠ .load → s.KeepsQuiet (f w)) →
      s.KeepsQuiet (s.onExpiry t f) := fun f hf =>
    State.onExpiry_ind (P := s.KeepsQuiet) (State.RaisesLawfully.refl s).quiet fun m hm =>
      hf _ rfl rfl rfl (ht hlaw (by rw [hm]; rfl))
  cases part with
  | whole =>
    refine hexpiry _ fun w hfmu hrr hcm hmode => ?_
    refine (State.RaisesLawfully.trans (t := { w with rtc := w.rtc.enterTripped })
      (State.raisesLawfully_of_eq hcm hfmu hrr) (State.raise_raisesLawfully fun h => ?_)).quiet
    rw [hfmu] at h
    exact absurd h hmode
  | trip =>
    refine hexpiry _ fun w hfmu hrr hcm hmode hchannels hraising => ?_
    have hhand := State.handRaising_keepsQuiet (s := s) hcode hmode hchannels hraising
    unfold RaisingLaw State.handRaising at *
    rwa [hfmu, hrr]
  | raise => exact s.takeRaising_keepsQuiet code

theorem execReportTaken_faultLawsTo (s : State) (part : ReportPart) : FaultLawsTo s (execReportTaken s part) := by
  refine faultLawsTo_lawfully ?_
  cases part with
  | whole =>
    dsimp only
    split
    · exact .refl s
    · exact s.takeReport_raisesLawfully.trans (State.finishReport_raisesLawfully _)
  | decide => exact s.takeReport_raisesLawfully
  | hand =>
    exact State.raisesLawfully_ite fun _ =>
      State.raisesLawfully_of_moves s.handEvents_channelsMove s.handEvents_fmu s.handEvents_faults
  | finish => exact State.raisesLawfully_ite fun _ => s.finishReport_raisesLawfully

theorem execReportLoss_faultLawsTo (s : State) (part : ReportPart) : FaultLawsTo s (execReportLoss s part) := by
  refine faultLawsTo_lawfully ?_
  cases part with
  | whole => exact State.raisesLawfully_ite fun _ => s.settleReports_raisesLawfully
  | decide =>
    exact State.raisesLawfully_ite fun _ =>
      s.finishReport_raisesLawfully.trans (State.decideLoss_raisesLawfully _)
  | hand =>
    exact State.raisesLawfully_ite fun _ =>
      State.raisesLawfully_of_moves s.handEvents_channelsMove s.handEvents_fmu s.handEvents_faults
  | finish => exact State.raisesLawfully_ite fun _ => s.finishReport_raisesLawfully

theorem execGridSampleTaken_faultLawsTo (b : Bool) (s : State) (part : TripPart) :
    FaultLawsTo s (execGridSampleTaken b s part) := by
  refine faultLawsTo_live ?_
  cases part with
  | whole =>
    exact State.keepsFaultLaws_of_raises (s.takeSample_onlyRaises b false) fun _ => s.takeSample_keepsQuiet b false
  | trip =>
    exact State.keepsFaultLaws_of_raises (s.takeSample_onlyRaises b true) fun _ => s.takeSample_keepsQuiet b true
  | raise => exact State.keepsFaultLaws_of_raises (s.takeRaising_onlyRaises _) fun _ => s.takeRaising_keepsQuiet _

theorem execLinkLoss_faultLawsTo (p : Port) (cut : Bool) (s : State) : FaultLawsTo s (execLinkLoss p cut s) := by
  refine faultLawsTo_next (State.RaisesLawfully.keepsFaultLaws ?_)
  split
  · exact State.raisesLawfully_of_eq (by simp) (by simp) (by simp)
  · split
    · exact s.loseSignal_raisesLawfully p cut
    · exact State.raisesLawfully_of_eq (by simp) (by simp) (by simp)

theorem execLinkUp_faultLawsTo (p : Port) (s : State) : FaultLawsTo s (execLinkUp p s) := by
  refine faultLawsTo_next ?_
  split <;> exact State.keepsFaultLaws_of_eq (by simp) (by simp)

theorem execResetAsserted_faultLawsTo (n : Nat) (s : State) : FaultLawsTo s (execResetAsserted n s) := by
  refine faultLawsTo_next ?_
  split <;> exact State.keepsFaultLaws_of_eq rfl rfl

theorem execResetReleased_faultLawsTo (s : State) : FaultLawsTo s (execResetReleased s) := by
  refine faultLawsTo_next ?_
  split
  · exact s.powerOn_keepsFaultLaws false
  · exact .refl s

theorem execDispatchFrameTaken_faultLawsTo (s : State) : FaultLawsTo s (execDispatchFrameTaken s) := by
  refine faultLawsTo_lawfully ?_
  split
  · exact .refl s
  · exact .of_eq (State.takeDispatch_raisesLawfully _ _) rfl rfl rfl

theorem execMgmtRequestQueued_faultLawsTo (s : State) : FaultLawsTo s (execMgmtRequestQueued s) := by
  refine faultLawsTo_lawfully ?_
  split
  · exact .refl s
  · exact .of_eq (State.queueRequest_raisesLawfully _ _) rfl rfl rfl

theorem execMgmtRequestRefused_faultLawsTo (s : State) : FaultLawsTo s (execMgmtRequestRefused s) := by
  refine faultLawsTo_live ?_
  split
  · exact .refl s
  · split
    · exact .refl s
    · split <;> exact State.keepsFaultLaws_of_eq rfl rfl

theorem execRestart_faultLawsTo (s : State) : FaultLawsTo s (execRestart s) := by
  refine faultLawsTo_live ?_
  split
  · exact .refl s
  · split <;> exact State.keepsFaultLaws_of_eq rfl rfl

theorem execRestartTakesEffect_faultLawsTo (s : State) : FaultLawsTo s (execRestartTakesEffect s) := by
  refine faultLawsTo_live ?_
  split
  · exact s.restartNow_keepsFaultLaws
  · exact .refl s

theorem execTransmissionEndD_faultLawsTo (s : State) : FaultLawsTo s (execTransmissionEndD s) := by
  refine faultLawsTo_live ?_
  split <;> exact State.keepsFaultLaws_of_eq rfl rfl

theorem execTransmissionEndU_faultLawsTo (s : State) : FaultLawsTo s (execTransmissionEndU s) := by
  refine faultLawsTo_live ?_
  split <;> exact State.keepsFaultLaws_of_eq rfl rfl

theorem execSagListEntryAged_faultLawsTo (s : State) : FaultLawsTo s (execSagListEntryAged s) := by
  refine faultLawsTo_live ?_
  split <;> exact State.keepsFaultLaws_of_eq rfl rfl

/-- A channel out of its timed state, and its fault, a HOLD or a NOTE (R62, R65). -/
theorem State.passes_raise_raisesLawfully {s : State} {c : Chan} {st : ChannelState} {r : Raising}
    (hoff : s.cm.chan[c] ≠ .off) (hst : st = .standby ∨ st = .faulted) (hr : r.cls ≠ .trip) :
    s.RaisesLawfully (State.raise r { s with cm := s.cm.pass c st }) :=
  State.raisesLawfully_raise (State.raisesLawfully_of_moves
    (State.channelsMove_single (.passes hoff (hst.imp_right .inl))) rfl rfl) hr

theorem execStartTimerExpiry_faultLawsTo (c : Chan) (s : State) : FaultLawsTo s (execStartTimerExpiry c s) :=
  faultLawsTo_lawfully <| State.raisesLawfully_ite fun h => State.onExpiry_raisesLawfully fun w hw _ =>
    State.passes_raise_raisesLawfully (by rw [hw, h]; decide) (.inr rfl) (by simp)

theorem execParkTimerExpiry_faultLawsTo (c : Chan) (s : State) : FaultLawsTo s (execParkTimerExpiry c s) :=
  faultLawsTo_lawfully <| State.raisesLawfully_ite fun h => State.onExpiry_raisesLawfully fun w hw _ =>
    State.passes_raise_raisesLawfully (by rw [hw, h]; decide) (.inl rfl) (by simp)

/-! ### Every command -/

theorem exec_faultLawsTo (c : Instr) (s : State) : FaultLawsTo s (exec c s) := by
  cases c with
  | supplyStart => exact faultLawsTo_next (s.powerOn_keepsFaultLaws s.held)
  | resetReleased => exact execResetReleased_faultLawsTo s
  | resetAsserted n => exact execResetAsserted_faultLawsTo n s
  | linkLoss p cut => exact execLinkLoss_faultLawsTo p cut s
  | linkUp p => exact execLinkUp_faultLawsTo p s
  | frameReceived p f => exact faultLawsTo_lawfully (s.receive_raisesLawfully p f)
  | gridSampleTaken b part => exact execGridSampleTaken_faultLawsTo b s part
  | gridSilenceExpiry | dispatchSilenceExpiry =>
    exact faultLawsTo_lawfully (State.onExpiry_raisesLawfully fun _ _ _ =>
      State.raisesLawfully_raise (State.raisesLawfully_of_eq rfl rfl rfl) (by simp))
  | envelopeExit row part =>
    exact faultLawsTo_live (State.tripOn_keepsFaultLaws part (fun h => h.not_load_of_dwell) ⟨rfl, rfl, .inl rfl⟩)
  | swellExit part =>
    exact faultLawsTo_live (State.tripOn_keepsFaultLaws part (fun h => h.not_load_of_swell) ⟨rfl, rfl, .inr (.inl rfl)⟩)
  | recoveryHoldExpiry | recoveryRampExpiry =>
    exact faultLawsTo_lawfully (State.raisesLawfully_ite fun _ => State.onExpiry_raisesLawfully fun _ _ _ =>
      State.raisesLawfully_of_eq rfl rfl rfl)
  | sagListEntryAged => exact execSagListEntryAged_faultLawsTo s
  | dispatchFrameTaken => exact execDispatchFrameTaken_faultLawsTo s
  | startTimerExpiry ch => exact execStartTimerExpiry_faultLawsTo ch s
  | parkTimerExpiry ch => exact execParkTimerExpiry_faultLawsTo ch s
  | reportTaken part => exact execReportTaken_faultLawsTo s part
  | cycleStart part => exact faultLawsTo_lawfully (s.cyclePart_raisesLawfully part)
  | reportLoss part => exact execReportLoss_faultLawsTo s part
  | transmissionEndD => exact execTransmissionEndD_faultLawsTo s
  | transmissionEndU => exact execTransmissionEndU_faultLawsTo s
  | mgmtRequestQueued => exact execMgmtRequestQueued_faultLawsTo s
  | mgmtRequestRefused => exact execMgmtRequestRefused_faultLawsTo s
  | restart => exact execRestart_faultLawsTo s
  | restartTakesEffect => exact execRestartTakesEffect_faultLawsTo s
  | modeRun => exact faultLawsTo_serve fun q => decideRun_keepsFaultLaws q s
  | modeHalt => exact faultLawsTo_serve fun q => decideHalt_keepsFaultLaws q s
  | modeResume => exact faultLawsTo_serve fun q => decideResume_keepsFaultLaws q s
  | modeLoad => exact faultLawsTo_serve fun q => decideLoad_keepsFaultLaws q s
  | ackHead => exact faultLawsTo_serve fun q => decideAckHead_keepsFaultLaws q s
  | ackAll => exact faultLawsTo_serve fun q => decideAckAll_keepsFaultLaws q s
  | abort => exact faultLawsTo_serve fun q => decideAbort_keepsFaultLaws q s
  | counterWrite => exact faultLawsTo_serve fun q => decideCounterWrite_keepsFaultLaws q s
  | faultRead => exact faultLawsTo_serve fun q => decideFaultRead_keepsFaultLaws q s
  | mask | summaryRead => exact faultLawsTo_serve fun _ => State.keepsFaultLaws_of_same ⟨rfl, rfl, rfl⟩ rfl rfl
  | arm | trigger | captureRead | contentionRead | channelStateRead | saglistRead | globalRead | envelopeRead
  | swellRead | channelRead | groupRead | profileRead | counterRead =>
    exact faultLawsTo_serve fun _ => State.keepsFaultLaws_of_eq rfl rfl
  | channelWrite => exact faultLawsTo_serveEntry writeChannelEntry_keepsQuiet
  | envelopeWrite => exact faultLawsTo_serveEntry writeEnvelopeRow_keepsQuiet
  | swellWrite => exact faultLawsTo_serveEntry writeSwell_keepsQuiet
  | groupWrite => exact faultLawsTo_serveEntry writeGroup_keepsQuiet
  | profileWrite => exact faultLawsTo_serveEntry writeProfile_keepsQuiet
  | counterObjectWrite => exact faultLawsTo_serveEntry writeCounter_keepsQuiet
  | globalWrite => exact faultLawsTo_serveEntry writeGlobal_keepsQuiet
  | measurementStationWrite | nRowsWrite | tCycWrite =>
    exact faultLawsTo_serveEntry (keepsQuiet_of_classA fun _ _ => ⟨rfl, rfl⟩)
  | wWrite | lWrite | triggerOnSagWrite => exact faultLawsTo_serveEntry (keepsQuiet_of_inRange fun _ _ => ⟨rfl, rfl⟩)
  | vRecoverWrite => exact faultLawsTo_serveEntry writeVRecover_keepsQuiet
  | pPreWrite => exact faultLawsTo_serveEntry writePPre_keepsQuiet

/-- Settles O55: time raises nothing, and a case split over the commands for the rest. -/
theorem faultLawsKept : Obligations.FaultLawsKept := by
  unfold Obligations.FaultLawsKept
  intro s t h
  have hkept : s.KeepsFaultLaws t := by
    unfold step at h
    split at h
    case h_1 =>
      cases h
      unfold State.tick
      split
      · exact .refl s
      · exact State.keepsFaultLaws_of_eq rfl rfl
    case h_2 c rest _ => exact exec_faultLawsTo c { s with pending := rest } t h
  exact hkept

end Sys2Proof.Machine
end

