-- ==== Sys2Proof/Proofs/ControllerRules.lean ====
section
/-! PROOFS. One rule per change of state of the Ride-Through Controller: the standings and the active row, the entry to
RECOVER, the beginning of a sag, what a notice carries over, and the swell check (R25 to R39). -/

namespace Sys2Proof.Machine

/-! ### Caps and P_state (R19, R42) -/

theorem EnvelopeRow.effCap_eq_capOf (row : EnvelopeRow) : row.effCap = capOf row := by
  unfold EnvelopeRow.effCap capOf
  split <;> simp [*]

theorem RideThrough.sagPState_eq_sagCap (r : RideThrough) : r.sagPState = r.sagCap r.active := by
  unfold RideThrough.sagPState RideThrough.sagCap
  cases r.active with
  | none => simp only [EnvelopeRow.effCap_eq_capOf]
  | some i => exact EnvelopeRow.effCap_eq_capOf _

theorem allowance_le_factor {p : Nat} (h : p ≤ 1000) (factor : Nat) : allowance p factor ≤ factor :=
  calc p * factor / 1000 ≤ 1000 * factor / 1000 := Nat.div_le_div_right (Nat.mul_le_mul_right factor h)
    _ = factor := Nat.mul_div_cancel_left factor (by decide)

/-- Settles O22: P_state is read off its definition state by state, and its bounds are those of its sources. -/
theorem allowanceBounds : Obligations.AllowanceBounds := by
  unfold Obligations.AllowanceBounds
  intro r g now
  refine ⟨fun h => ?_, fun h i hi => ?_, fun h hi hn => ?_, fun h hi hn => ?_, fun h hp => ?_, fun h hp => ?_,
    fun h => ?_, fun h => ?_, fun p => rfl, fun hlaw => ?bounds⟩
  case bounds =>
    obtain ⟨hcaps, -, hfactor⟩ := allowanceLaw_iff.mp hlaw
    have hle := allowance_le_factor (hcaps.pState_le now) g.factor
    exact ⟨hcaps.pState_le now, hle, hle.trans hfactor⟩
  all_goals simp only [RideThrough.pState, h]
  · simp [RideThrough.sagPState, hi, EnvelopeRow.effCap_eq_capOf]
  · simp [RideThrough.sagPState, hi, hn, EnvelopeRow.effCap_eq_capOf]
  · simp [RideThrough.sagPState, hi, hn]
  · simp [RideThrough.recoverPState, hp]
  · simp [RideThrough.recoverPState, hp]

/-! ### The standings and the active row (R25, R26) -/

/-- The active row is the last of those below. -/
theorem activeRow_eq_some_iff {below : Vector Bool 8} {i : Row} :
    activeRow below = some i ↔ below[i] = true ∧ ∀ j : Row, i < j → below[j] = false := by
  have hlast : ∀ k : Row, activeRow below = some k → below[k] = true ∧ ∀ j : Row, k < j → below[j] = false := by
    intro k hk
    obtain ⟨hbelow, before, after, hsplit, hnot⟩ := List.find?_eq_some_iff_append.mp hk
    refine ⟨hbelow, fun j hj => ?_⟩
    have hsorted : (before ++ k :: after).Pairwise (· > ·) :=
      hsplit ▸ List.pairwise_reverse.mpr (List.pairwise_lt_finRange 8)
    have hmem : j ∈ before ++ k :: after := hsplit ▸ List.mem_reverse.mpr (List.mem_finRange j)
    rcases List.mem_append.mp hmem with hin | hin
    · simpa using hnot j hin
    · have hle : j ≤ k := by
        rcases List.mem_cons.mp hin with rfl | hin
        · exact le_rfl
        · exact ((List.pairwise_cons.mp (List.pairwise_append.mp hsorted).2.1).1 j hin).le
      exact absurd hj hle.not_gt
  refine ⟨hlast i, fun ⟨hbelow, hafter⟩ => ?_⟩
  cases hact : activeRow below with
  | none => exact absurd hbelow (List.find?_eq_none.mp hact i (by simp))
  | some k =>
    obtain ⟨hk, hkafter⟩ := hlast k hact
    rcases lt_trichotomy i k with h | rfl | h
    · exact absurd hk (by simp [hafter k h])
    · rfl
    · exact absurd hbelow (by simp [hkafter i h])

theorem activeRow_isSome_of_below {below : Vector Bool 8} {i : Row} (h : below[i] = true) :
    ∃ k, activeRow below = some k := by
  cases hact : activeRow below with
  | none => exact absurd h (List.find?_eq_none.mp hact i (by simp))
  | some k => exact ⟨k, rfl⟩

theorem RideThrough.rowsFormed_of_standings {r t : RideThrough} {v : Nat} (hbelow : t.below = r.standings v)
    (hactive : t.active = activeRow (r.standings v)) : r.RowsFormed v t := by
  refine ⟨fun i => ?_, fun i => ?_⟩
  · rw [hbelow]
    exact RideThrough.standings_iff
  · rw [hbelow, hactive]
    exact activeRow_eq_some_iff

theorem RideThrough.rowsCleared_of_eq {t : RideThrough} (hbelow : t.below = noStandings) (hactive : t.active = none)
    (hdwell : t.dwellTimers = noDwell) : t.RowsCleared :=
  ⟨hactive, fun i => by rw [hbelow, hdwell]; exact ⟨noStandings_getElem i, noDwell_getElem i⟩⟩

theorem RideThrough.dwellAfter_getElem (r : RideThrough) (ms : Nat) (old new : Vector Bool 8) (i : Row) :
    (r.dwellAfter ms old new)[i] = if new[i] = false then none else if old[i] = true then r.dwellTimers[i]
      else if (r.rows[i]).dwell = 0 then none else some (ms + (r.rows[i]).dwell) := by
  simp [RideThrough.dwellAfter, startTimer]

theorem RideThrough.dwellFollows_classify (r : RideThrough) (ms v : Nat) : r.DwellFollows ms (r.classify ms v) := by
  intro i
  have hdwell : (r.classify ms v).dwellTimers[i] = _ := r.dwellAfter_getElem ms r.below (r.standings v) i
  rw [hdwell, show (r.classify ms v).below = r.standings v from rfl]
  exact ⟨fun h => if_pos h, fun h hold => by rw [h, hold]; rfl, fun h hold => by rw [h, hold]; rfl⟩

/-! ### What no notice touches (R21, R29) -/

/-- The records of `t` that a notice may change, in `r`. -/
def RideThrough.withRecordsOf (r t : RideThrough) : RideThrough :=
  { r with
    state := t.state, prior := t.prior, below := t.below, active := t.active, pLow := t.pLow
    dwellTimers := t.dwellTimers, swellTimer := t.swellTimer, swellAbove := t.swellAbove, recovery := t.recovery
    phase := t.phase, rampStart := t.rampStart, rampSlope := t.rampSlope }

theorem RideThrough.sameSettings_iff {r t : RideThrough} : r.SameSettings t ↔ t = r.withRecordsOf t := Iff.rfl

theorem RideThrough.SameSettings.refl (r : RideThrough) : r.SameSettings r := rfl

theorem RideThrough.SameSettings.trans {r t u : RideThrough} (hrt : r.SameSettings t) (htu : t.SameSettings u) :
    r.SameSettings u := by
  have heq : t.withRecordsOf u = (r.withRecordsOf t).withRecordsOf u :=
    congrArg (RideThrough.withRecordsOf · u) (RideThrough.sameSettings_iff.mp hrt)
  exact (RideThrough.sameSettings_iff.mp htu).trans heq

theorem RideThrough.sameSettings_endHold (r : RideThrough) (ms : Nat) : r.SameSettings (r.endHold ms) := by
  unfold RideThrough.endHold
  split <;> rfl

/-! ### The entry to RECOVER (R32, R34) -/

/-- The controller as it enters RECOVER, before the hold is timed (R32). -/
def RideThrough.recovering (r : RideThrough) : RideThrough :=
  { r.clearRows with state := .recover, prior := none, phase := .hold, recovery := none }

theorem RideThrough.enterRecover_eq (r : RideThrough) (ms : Nat) :
    r.enterRecover ms = if r.hold = 0 then r.recovering.endHold ms
      else { r.recovering with recovery := some (ms + r.hold) } := rfl

theorem RideThrough.sameSettings_enterRecover (r : RideThrough) (ms : Nat) : r.SameSettings (r.enterRecover ms) := by
  rw [RideThrough.enterRecover_eq]
  split
  · exact RideThrough.SameSettings.trans (t := r.recovering) rfl (RideThrough.sameSettings_endHold _ ms)
  · rfl

theorem RideThrough.endHold_of_full {r : RideThrough} (h : r.pLow = 1000) (ms : Nat) : r.endHold ms = r.enterNormal :=
  if_pos h

theorem RideThrough.endHold_of_low {r : RideThrough} (h : r.pLow ≠ 1000) (ms : Nat) :
    r.endHold ms = { r with
      phase := .ramp, rampSlope := r.slope, rampStart := timeBaseAt ms
      recovery := some (ms + rampDuration r.pLow r.slope) } := if_neg h

theorem RideThrough.recoverEntered_enterRecover (r : RideThrough) (ms : Nat) :
    r.RecoverEntered ms r.pLow (r.enterRecover ms) := by
  have hcleared := RideThrough.rowsCleared_of_eq (t := r.recovering) rfl rfl rfl
  rw [RideThrough.enterRecover_eq]
  split
  case isTrue hhold =>
    by_cases hfull : r.pLow = 1000
    · rw [RideThrough.endHold_of_full (r := r.recovering) hfull]
      exact ⟨RideThrough.rowsCleared_of_eq rfl rfl rfl, rfl, rfl, fun h => absurd hhold h.ne', fun _ _ => ⟨rfl, rfl⟩,
        fun _ hne => absurd hfull hne⟩
    · rw [RideThrough.endHold_of_low (r := r.recovering) hfull]
      exact ⟨hcleared, rfl, rfl, fun h => absurd hhold h.ne', fun _ h => absurd h hfull,
        fun _ _ => ⟨rfl, rfl, rfl, rfl, rfl⟩⟩
  case isFalse hhold =>
    exact ⟨hcleared, rfl, rfl, fun _ => ⟨rfl, rfl, rfl⟩, fun h => absurd h hhold, fun h => absurd h hhold⟩

/-! ### A sag goes on, or ends (R32, R39) -/

/-- The controller with the rows formed from a notice of `v`, in SAG, P_low lowered to the least of the sag. -/
def RideThrough.sagFormed (r : RideThrough) (ms v : Nat) : RideThrough :=
  { r.classify ms v with state := .sag, prior := none, pLow := min r.pLow (r.sagCap (activeRow (r.standings v))) }

theorem RideThrough.continueSag_eq (r : RideThrough) (ms v : Nat) :
    r.continueSag ms v = if r.vRecover ≤ v then (r.sagFormed ms v).enterRecover ms else r.sagFormed ms v := by
  unfold RideThrough.continueSag RideThrough.sagFormed
  simp only [RideThrough.sagPState_eq_sagCap]
  rfl

theorem RideThrough.sameSettings_continueSag (r : RideThrough) (ms v : Nat) : r.SameSettings (r.continueSag ms v) := by
  rw [RideThrough.continueSag_eq]
  split
  · exact RideThrough.SameSettings.trans (t := r.sagFormed ms v) rfl (RideThrough.sameSettings_enterRecover _ ms)
  · rfl

theorem RideThrough.rowsFormed_sagFormed (r : RideThrough) (ms v : Nat) : r.RowsFormed v (r.sagFormed ms v) :=
  RideThrough.rowsFormed_of_standings rfl rfl

/-! ### The beginning of a sag (R29 to R31) -/

/-- The controller with a sag that begins at millisecond `ms` counted and listed (R29, R30). -/
def RideThrough.sagCounted (r : RideThrough) (ms : Nat) : RideThrough :=
  { r with sagCount := countSag r.sagCount, sags := addSag (timeBaseAt ms) r.window r.sags }

theorem RideThrough.isRepeated_iff {r : RideThrough} :
    r.isRepeated = true ↔ 0 < r.nRep ∧ r.nRep < r.sags.length := by
  simp [RideThrough.isRepeated]

theorem RideThrough.beginSag_of_repeated {r : RideThrough} {ms : Nat}
    (h : 0 < r.nRep ∧ r.nRep < (r.sagCounted ms).sags.length) (v : Nat) :
    r.beginSag ms v = { rtc := (r.sagCounted ms).enterTripped, sagBegan := true, repeated := true } :=
  if_pos (RideThrough.isRepeated_iff.mpr h)

/-- The controller in SAG after the first notice of a sag (R29). -/
def RideThrough.sagBegun (r : RideThrough) (ms v : Nat) : RideThrough :=
  { ((r.sagCounted ms).clearRows.classify ms v) with
    state := .sag, prior := none, recovery := none, pLow := r.sagCap (activeRow (r.standings v)) }

theorem RideThrough.beginSag_of_not_repeated {r : RideThrough} {ms : Nat}
    (h : ¬(0 < r.nRep ∧ r.nRep < (r.sagCounted ms).sags.length)) (v : Nat) :
    r.beginSag ms v = { rtc := r.sagBegun ms v, sagBegan := true, repeated := false } := by
  refine (if_neg (mt RideThrough.isRepeated_iff.mp h)).trans ?_
  simp only [RideThrough.sagPState_eq_sagCap]
  rfl

/-- What a beginning sag does, tripping or not: it is counted and listed, and ends whatever was before. -/
theorem RideThrough.beginSag_counted (r : RideThrough) (ms v : Nat) :
    (r.sagCounted ms).SameSettings (r.beginSag ms v).rtc ∧ (r.beginSag ms v).rtc.prior = none ∧
      (r.beginSag ms v).rtc.recovery = none := by
  by_cases h : 0 < r.nRep ∧ r.nRep < (r.sagCounted ms).sags.length
  · rw [RideThrough.beginSag_of_repeated h]
    exact ⟨rfl, rfl, rfl⟩
  · rw [RideThrough.beginSag_of_not_repeated h]
    exact ⟨rfl, rfl, rfl⟩

/-- The dwell timers of a sag that begins: no row was below before (R26). -/
theorem RideThrough.sagBegun_dwellTimers (r : RideThrough) (ms v : Nat) (i : Row) :
    (r.sagBegun ms v).dwellTimers[i] = if (r.standings v)[i] = true ∧ 0 < (r.rows[i]).dwell then
      some (ms + (r.rows[i]).dwell) else none := by
  have hdwell : (r.sagBegun ms v).dwellTimers[i] = _ :=
    (r.sagCounted ms).clearRows.dwellAfter_getElem ms noStandings (r.standings v) i
  rw [hdwell, noStandings_getElem, show (r.sagCounted ms).clearRows.rows = r.rows from rfl]
  cases (r.standings v)[i] with
  | false => simp
  | true => simp [Nat.pos_iff_ne_zero]

/-- Below row 0, some row is active, and its cap is P_low (R29, R42). -/
theorem RideThrough.sagBegun_active {r : RideThrough} {v : Nat} (h : r.BelowRow0 v) (ms : Nat) :
    ∃ i : Row, (r.sagBegun ms v).active = some i ∧ (r.sagBegun ms v).pLow = capOf r.rows[i] := by
  have hrow0 : (r.standings v)[(0 : Row)] = true := RideThrough.standings_iff.mpr h
  obtain ⟨i, hi⟩ := activeRow_isSome_of_below hrow0
  refine ⟨i, hi, ?_⟩
  change r.sagCap (activeRow (r.standings v)) = _
  rw [hi]
  rfl

/-! ### What each state does with a notice (R28, R32, R33, R39) -/

section
variable {r : RideThrough} {v : Nat} (ms : Nat)

theorem RideThrough.handleNotice_of_normal (hst : r.state = .normal) (h : ¬r.BelowRow0 v) :
    r.handleNotice ms v = quiet r := by
  simp only [RideThrough.handleNotice, hst]
  exact if_neg (mt RideThrough.belowRow0_eq_true_iff.mp h)

theorem RideThrough.handleNotice_of_sag (hst : r.state = .sag) : r.handleNotice ms v = quiet (r.continueSag ms v) := by
  simp only [RideThrough.handleNotice, hst]

theorem RideThrough.handleNotice_of_recover (hst : r.state = .recover) (h : ¬r.BelowRow0 v) :
    r.handleNotice ms v = quiet (r.stayInRecover v) := by
  simp only [RideThrough.handleNotice, hst]
  exact if_neg (mt RideThrough.belowRow0_eq_true_iff.mp h)

theorem RideThrough.handleNotice_of_tripped (hst : r.state = .tripped) : r.handleNotice ms v = quiet r := by
  simp only [RideThrough.handleNotice, hst]

theorem RideThrough.handleNotice_of_lost_normal (hst : r.state = .gridLost) (hprior : r.prior = some .normal)
    (h : ¬r.BelowRow0 v) : r.handleNotice ms v = quiet r.enterNormal := by
  simp only [RideThrough.handleNotice, hst, RideThrough.leaveGridLost, hprior]
  exact if_neg (mt RideThrough.belowRow0_eq_true_iff.mp h)

/-- With the grid lost in a sag or a recovery, the sag goes on or its end is entered (R39). -/
theorem RideThrough.handleNotice_of_lost_sag (hst : r.state = .gridLost) (hnone : r.prior ≠ none)
    (hprior : r.prior ≠ some .normal) :
    r.handleNotice ms v = quiet (if r.vRecover ≤ v then r.enterRecover ms else r.continueSag ms v) := by
  simp only [RideThrough.handleNotice, hst, RideThrough.leaveGridLost]
  match hp : r.prior with
  | none => exact absurd hp hnone
  | some .normal => exact absurd hp hprior
  | some .sag => rfl
  | some .recover => rfl

theorem RideThrough.handleNotice_of_begins (h : r.BelowRow0 v)
    (hst : r.state = .normal ∨ r.state = .recover ∨ (r.state = .gridLost ∧ r.prior = some .normal)) :
    r.handleNotice ms v = r.beginSag ms v := by
  have hbelow := RideThrough.belowRow0_eq_true_iff.mpr h
  rcases hst with hst | hst | ⟨hst, hprior⟩
  · simp [RideThrough.handleNotice, hst, hbelow]
  · simp [RideThrough.handleNotice, hst, hbelow]
  · simp [RideThrough.handleNotice, hst, RideThrough.leaveGridLost, hprior, hbelow]

end

/-! ### The swell check (R36, R40) -/

section
variable (r : RideThrough) (ms v : Nat)

theorem RideThrough.swellCheck_eq : r.swellCheck ms v =
    { r with swellTimer := (r.swellCheck ms v).swellTimer, swellAbove := (r.swellCheck ms v).swellAbove } := by
  unfold RideThrough.swellCheck
  split
  · rfl
  · split
    · split <;> rfl
    · rfl

theorem RideThrough.swellCheck_of_tripped {r : RideThrough} (h : r.state = .tripped) : r.swellCheck ms v = r := if_pos h

theorem RideThrough.sameSettings_swellCheck : r.SameSettings (r.swellCheck ms v) := by
  rw [RideThrough.swellCheck_eq]
  rfl

theorem RideThrough.RowsFormed.swellCheck {q : RideThrough} {vMin : Nat} {r : RideThrough} (h : q.RowsFormed vMin r) :
    q.RowsFormed vMin (r.swellCheck ms v) := by
  rw [RideThrough.swellCheck_eq]
  exact h

theorem RideThrough.DwellFollows.swellCheck {q r : RideThrough} {now : Nat} (h : q.DwellFollows now r) :
    q.DwellFollows now (r.swellCheck ms v) := by
  rw [RideThrough.swellCheck_eq]
  exact h

theorem RideThrough.RecoverEntered.swellCheck {q r : RideThrough} {now p : Nat} (h : q.RecoverEntered now p r) :
    q.RecoverEntered now p (r.swellCheck ms v) := by
  rw [RideThrough.swellCheck_eq]
  exact h

/-- The check on a controller that has not tripped. -/
theorem RideThrough.swellCheck_standing {r : RideThrough} (h : r.state ≠ .tripped) :
    (0 < r.tSwell ∧ r.vSwell < v → (r.swellCheck ms v).swellAbove = true ∧
      (r.swellAbove = false → (r.swellCheck ms v).swellTimer = some (ms + r.tSwell)) ∧
      (r.swellAbove = true → (r.swellCheck ms v).swellTimer = r.swellTimer)) ∧
    (¬(0 < r.tSwell ∧ r.vSwell < v) →
      (r.swellCheck ms v).swellAbove = false ∧ (r.swellCheck ms v).swellTimer = none) := by
  unfold RideThrough.swellCheck
  rw [if_neg h]
  refine ⟨fun habove => ?_, fun hnot => ?_⟩
  · rw [if_pos habove]
    cases hwas : r.swellAbove <;> simp [hwas, startTimer]
  · rw [if_neg hnot]
    exact ⟨rfl, rfl⟩

end

/-- `t` carries the swell settings of `r`, and its swell standing and timer unless it has tripped, which stops and
clears them (R36, R40). -/
def RideThrough.SwellCarried (r t : RideThrough) : Prop :=
  t.tSwell = r.tSwell ∧ t.vSwell = r.vSwell ∧
  (t.state ≠ .tripped → t.swellAbove = r.swellAbove ∧ t.swellTimer = r.swellTimer) ∧
  (t.state = .tripped → t.swellAbove = false ∧ t.swellTimer = none)

section
variable {r : RideThrough} (ms v : Nat)

theorem RideThrough.swellCarried_of_eq {t : RideThrough} (hst : t.state ≠ .tripped) (htime : t.tSwell = r.tSwell)
    (hlimit : t.vSwell = r.vSwell) (habove : t.swellAbove = r.swellAbove) (htimer : t.swellTimer = r.swellTimer) :
    r.SwellCarried t :=
  ⟨htime, hlimit, fun _ => ⟨habove, htimer⟩, fun h => absurd h hst⟩

theorem RideThrough.swellCarried_beginSag : r.SwellCarried (r.beginSag ms v).rtc := by
  by_cases h : 0 < r.nRep ∧ r.nRep < (r.sagCounted ms).sags.length
  · rw [RideThrough.beginSag_of_repeated h]
    exact ⟨rfl, rfl, fun hn => absurd rfl hn, fun _ => ⟨rfl, rfl⟩⟩
  · rw [RideThrough.beginSag_of_not_repeated h]
    exact RideThrough.swellCarried_of_eq nofun rfl rfl rfl rfl

theorem RideThrough.swellCarried_enterRecover : r.SwellCarried (r.enterRecover ms) := by
  unfold RideThrough.enterRecover RideThrough.endHold
  dsimp only
  split
  · split <;> exact RideThrough.swellCarried_of_eq nofun rfl rfl rfl rfl
  · exact RideThrough.swellCarried_of_eq nofun rfl rfl rfl rfl

theorem RideThrough.swellCarried_continueSag : r.SwellCarried (r.continueSag ms v) := by
  rw [RideThrough.continueSag_eq]
  split
  · exact RideThrough.swellCarried_enterRecover (r := r.sagFormed ms v) ms
  · exact RideThrough.swellCarried_of_eq nofun rfl rfl rfl rfl

theorem RideThrough.swellCarried_handleNotice (hst : r.state ≠ .tripped) :
    r.SwellCarried (r.handleNotice ms v).rtc := by
  have hself : r.SwellCarried r := RideThrough.swellCarried_of_eq hst rfl rfl rfl rfl
  have hstay : r.SwellCarried (r.stayInRecover v) := RideThrough.swellCarried_of_eq hst rfl rfl rfl rfl
  have hnormal : r.SwellCarried r.enterNormal := RideThrough.swellCarried_of_eq nofun rfl rfl rfl rfl
  have hbegin : ∀ t, r.SwellCarried t →
      r.SwellCarried (if r.belowRow0 v then r.beginSag ms v else quiet t : NoticeResult).rtc := by
    intro t ht
    split
    · exact RideThrough.swellCarried_beginSag ms v
    · exact ht
  have hsag : r.SwellCarried (if r.vRecover ≤ v then r.enterRecover ms else r.continueSag ms v) := by
    split
    · exact RideThrough.swellCarried_enterRecover ms
    · exact RideThrough.swellCarried_continueSag ms v
  unfold RideThrough.handleNotice
  split
  case h_1 => exact hbegin r hself
  case h_2 => exact RideThrough.swellCarried_continueSag ms v
  case h_3 => exact hbegin _ hstay
  case h_4 =>
    unfold RideThrough.leaveGridLost
    split
    case h_1 | h_2 => exact hsag
    case h_3 | h_4 => exact hbegin _ hnormal
  case h_5 => exact hself

end

end Sys2Proof.Machine
end

