-- ==== Sys2Proof/Proofs/ControllerNotices.lean ====
section
/-! PROOFS. The valid frame as the Ride-Through Controller takes it in RUN and HALT: the sag that begins, the notice
that begins none, and the swell check (R25 to R40). -/

namespace Sys2Proof.Machine

/-! ### What a trip leaves of the part mode and of the fault list (R40, R136) -/

theorem State.raise_sameList (s : State) (r : Raising) :
    (s.raise r).fmu.SameList (s.fmu.record r s.timeBase s.gm.seqState) :=
  ⟨State.raise_faults s r, State.raise_dropped s r, State.raise_droppedTrip s r⟩

/-- A TRIP raised in RUN or HALT leaves the part in HALT. -/
theorem State.raise_mode_of_trip {s : State} {r : Raising} (hr : r.cls = .trip) (hm : s.fmu.mode ≠ .load) :
    (s.raise r).fmu.mode = .halt := by
  cases hmode : s.fmu.mode with
  | load => exact absurd hmode hm
  | run =>
    rw [State.raise_eq_halt hr hmode]
    rfl
  | halt =>
    rw [State.raise_eq_record fun h => by simp [hmode] at h]
    exact (FaultModeUnit.record_mode ..).trans hmode

/-! ### The frame, its notice and what becomes of it -/

section
variable {s : State} {f : GridSample} {rest : List GridSample}

/-- A valid frame taken as a whole command. -/
theorem exec_gridSampleTaken_valid (b : Bool) (hheld : s.held = false) (hf : s.gm.handed = f :: rest)
    (hvalid : s.takesAsValid f) :
    exec (.gridSampleTaken b) s = .next ((s.leftToTake rest).takeValidFrame f b false) := by
  have htaken : (s.leftToTake rest).takeGridFrame f b false = (s.leftToTake rest).takeValidFrame f b false :=
    State.takeGridFrame_of_valid b false hvalid
  rw [← htaken]
  exact exec_gridSampleTaken_whole b hheld hf

/-- The frame to take is no part of the notice. -/
theorem State.noticeResult_leftToTake (s : State) (rest : List GridSample) (f : GridSample) :
    (s.leftToTake rest).noticeResult f = s.noticeResult f := rfl

/-- The notice of a frame that begins a sag. -/
theorem State.noticeResult_of_sagStarts (h : s.sagStarts f) :
    s.noticeResult f = {
      rtc := (s.rtc.beginSag s.ms f.vMin).rtc.swellCheck s.ms f.vMax, sagBegan := true
      repeated := (s.rtc.beginSag s.ms f.vMin).repeated } := by
  obtain ⟨hmode, hbelow, hst⟩ := h
  have hbegin : s.rtc.handleNotice s.ms f.vMin = _ := RideThrough.handleNotice_of_begins s.ms hbelow hst
  rw [State.noticeResult_of_not_load hmode, RideThrough.notice, hbegin,
    ← RideThrough.beginSag_sagBegan s.rtc s.ms f.vMin]

/-- The notice of a frame whose sag is one too many (R31). -/
theorem State.noticeResult_of_tooMany (h : s.sagStarts f)
    (hmany : 0 < s.rtc.nRep ∧ s.rtc.nRep < (s.rtc.sagCounted s.ms).sags.length) :
    s.noticeResult f = { rtc := (s.rtc.sagCounted s.ms).enterTripped, sagBegan := true, repeated := true } := by
  rw [State.noticeResult_of_sagStarts h, RideThrough.beginSag_of_repeated hmany]
  congr 1

/-- The notice of a frame that begins no sag sends nothing. -/
theorem State.noticeResult_of_quiet (hmode : s.fmu.mode ≠ .load) {q : RideThrough}
    (h : s.rtc.handleNotice s.ms f.vMin = quiet q) : s.noticeResult f = quiet (q.swellCheck s.ms f.vMax) := by
  rw [State.noticeResult_of_not_load hmode, RideThrough.notice, h]
  rfl

/-- A sag that trips: HALT, and REPEATED SAG at the sequence of its frame, whichever of the record and the HALT notice
comes first (R31, R162). -/
theorem State.takeValidFrame_trips (hmode : s.fmu.mode ≠ .load) (hrep : (s.noticeResult f).repeated = true) (b : Bool) :
    (s.takeValidFrame f b false).fmu.mode = .halt ∧
      (s.takeValidFrame f b false).fmu.SameList
        (s.fmu.record (tripFault .repeatedSag) s.timeBase (some f.seq)) := by
  have hlist : ∀ w : State, w.fmu.SameList s.fmu →
      (w.fmu.record (tripFault .repeatedSag) s.timeBase (some f.seq)).SameList
        (s.fmu.record (tripFault .repeatedSag) s.timeBase (some f.seq)) :=
    fun w h => h.record ..
  rw [State.takeValidFrame_eq, if_pos hrep, if_neg Bool.false_ne_true]
  cases b with
  | true =>
    rw [if_pos rfl]
    exact ⟨State.raise_mode_of_trip (s := s.afterNotice f) rfl hmode,
      ((s.afterNotice f).raise_sameList _).trans (hlist (s.afterNotice f) ⟨rfl, rfl, rfl⟩)⟩
  | false =>
    rw [if_neg Bool.false_ne_true]
    exact ⟨State.raise_mode_of_trip (s := (s.afterNotice f).takeRecord _ _) rfl hmode,
      (State.raise_sameList ..).trans (hlist ((s.afterNotice f).takeRecord _ _) ⟨rfl, rfl, rfl⟩)⟩

/-- The SAG flag is the notice's, whatever else the frame does (R29). -/
theorem State.takeValidFrame_sag (s : State) (f : GridSample) (b held : Bool) :
    (s.takeValidFrame f b held).fmu.summary.sag = (s.fmu.summary.sag || (s.noticeResult f).sagBegan) := by
  have hraise : ∀ (w : State) (r : Raising), (w.raise r).fmu.summary.sag = w.fmu.summary.sag := by
    intro w r
    have hrecord : (w.fmu.record r w.timeBase w.gm.seqState).summary.sag = w.fmu.summary.sag := by
      apply FaultModeUnit.record_cases w.fmu r w.timeBase w.gm.seqState
        (P := fun x => x.summary.sag = w.fmu.summary.sag) <;> intros <;> rfl
    unfold State.raise
    split <;> exact hrecord
  exact State.takeValidFrame_keeps (g := fun w => w.fmu.summary.sag) (fun _ _ _ => rfl) hraise (fun _ _ => rfl) s f b
    held

end

/-! ### The pin of a trip (R151) -/

theorem State.tripRequestPin_of_tripped {s : State} (hheld : s.held = false) (h : s.rtc.state = .tripped) :
    s.tripRequestPin = .high := by
  simp [State.tripRequestPin, hheld, h]

/-! ### The statements -/

/-- Settles O16: the sag that begins is counted before anything is decided, and the repeat limit then parts the two
cases. -/
theorem sagBegins : Obligations.SagBegins := by
  unfold Obligations.SagBegins
  intro s b f rest hheld hf hvalid hstarts
  have hnotice := (State.noticeResult_leftToTake s rest f).trans (State.noticeResult_of_sagStarts hstarts)
  have hrtc : ((s.leftToTake rest).takeValidFrame f b false).rtc =
      (s.rtc.beginSag s.ms f.vMin).rtc.swellCheck s.ms f.vMax := by
    rw [State.takeValidFrame_rtc, hnotice]
  have hflag : ((s.leftToTake rest).takeValidFrame f b false).fmu.summary.sag = true := by
    rw [State.takeValidFrame_sag, hnotice, Bool.or_true]
  obtain ⟨hsame, hprior, hrecovery⟩ := s.rtc.beginSag_counted s.ms f.vMin
  have hchecked := hsame.trans (RideThrough.sameSettings_swellCheck _ s.ms f.vMax)
  have hsags : ((s.leftToTake rest).takeValidFrame f b false).rtc.sags = (s.rtc.sagCounted s.ms).sags := by
    rw [hrtc, RideThrough.sameSettings_iff.mp hchecked]
    rfl
  have hcount : ((s.leftToTake rest).takeValidFrame f b false).rtc.sagCount = countSag s.rtc.sagCount := by
    rw [hrtc, RideThrough.sameSettings_iff.mp hchecked]
    rfl
  refine ⟨_, exec_gridSampleTaken_valid b hheld hf hvalid, hflag, hsags, hcount, ?_, ?_, ?_, fun hfew => ?sag,
    fun hmany => ?trip⟩
  · rw [hsags, hcount, hrtc]
    exact hchecked
  · rw [hrtc, RideThrough.swellCheck_eq]
    exact hprior
  · rw [hrtc, RideThrough.swellCheck_eq]
    exact hrecovery
  case sag =>
    rw [hsags] at hfew
    have hbegin : s.rtc.beginSag s.ms f.vMin = _ := RideThrough.beginSag_of_not_repeated hfew f.vMin
    rw [hbegin] at hnotice
    have hsag := RideThrough.swellCheck_eq (s.rtc.sagBegun s.ms f.vMin) s.ms f.vMax
    rw [hrtc, hbegin, State.takeValidFrame_of_not_repeated b false (by rw [hnotice])]
    refine ⟨by rw [hsag]; rfl, ?_, fun i => ?_, ?_, rfl, ⟨rfl, rfl, rfl⟩, rfl, rfl⟩
    · exact RideThrough.RowsFormed.swellCheck _ _ (RideThrough.rowsFormed_of_standings rfl rfl)
    · rw [hsag]
      exact s.rtc.sagBegun_dwellTimers s.ms f.vMin i
    · rw [hsag]
      exact RideThrough.sagBegun_active hstarts.2.1 s.ms
  case trip =>
    rw [hsags] at hmany
    have htrips := (State.noticeResult_leftToTake s rest f).trans (State.noticeResult_of_tooMany hstarts hmany)
    obtain ⟨hmode, hlist⟩ := State.takeValidFrame_trips (s := s.leftToTake rest) hstarts.1 (by rw [htrips]) b
    have htripped : ((s.leftToTake rest).takeValidFrame f b false).rtc = (s.rtc.sagCounted s.ms).enterTripped := by
      rw [State.takeValidFrame_rtc, htrips]
    refine ⟨by rw [htripped]; rfl, ?_, State.tripRequestPin_of_tripped ?_ (by rw [htripped]; rfl), hmode, hlist⟩
    · rw [htripped]
      exact RideThrough.rowsCleared_of_eq rfl rfl rfl
    · rw [State.takeValidFrame_held]
      exact hheld

/-- What a valid notice of `v` at millisecond `ms` that begins no sag makes of the controller, state by state (R25 to
R40); the swell standing and timer are left open. -/
def RideThrough.NoticeTaken (r : RideThrough) (ms v : Nat) (t : RideThrough) : Prop :=
  (r.state = .normal → t = { r with swellTimer := t.swellTimer, swellAbove := t.swellAbove }) ∧
  (r.state = .sag ∨ (r.state = .gridLost ∧ r.prior ≠ some .normal) → v < r.vRecover →
    t.state = .sag ∧ t.prior = none ∧ r.RowsFormed v t ∧ r.DwellFollows ms t ∧
    t.pLow = min r.pLow (r.sagCap t.active) ∧ t.recovery = r.recovery) ∧
  (r.state = .sag → r.vRecover ≤ v →
    ∃ m : RideThrough, r.RowsFormed v m ∧ r.RecoverEntered ms (min r.pLow (r.sagCap m.active)) t) ∧
  (r.state = .recover → r.RowsFormed v t ∧
    t = { r with below := t.below, active := t.active, swellTimer := t.swellTimer, swellAbove := t.swellAbove }) ∧
  (r.state = .gridLost → r.prior ≠ some .normal → r.vRecover ≤ v → r.RecoverEntered ms r.pLow t) ∧
  (r.state = .gridLost → r.prior = some .normal →
    t.state = .normal ∧ t.RowsCleared ∧ t.prior = none ∧ t.recovery = none ∧ t.pLow = r.pLow) ∧
  (r.state = .tripped → t = r)

section
variable {r : RideThrough} {v : Nat} (ms vMax : Nat)

theorem RideThrough.noticeTaken_of_normal (hst : r.state = .normal) : r.NoticeTaken ms v (r.swellCheck ms vMax) := by
  refine ⟨fun _ => r.swellCheck_eq ms vMax, ?_, ?_, ?_, ?_, ?_, ?_⟩ <;> simp [hst]

theorem RideThrough.noticeTaken_of_tripped (hst : r.state = .tripped) : r.NoticeTaken ms v (r.swellCheck ms vMax) := by
  refine ⟨?_, ?_, ?_, ?_, ?_, ?_, fun _ => RideThrough.swellCheck_of_tripped ms vMax hst⟩ <;> simp [hst]

theorem RideThrough.noticeTaken_of_recover (hst : r.state = .recover) :
    r.NoticeTaken ms v ((r.stayInRecover v).swellCheck ms vMax) := by
  have hrows : r.RowsFormed v (r.stayInRecover v) := RideThrough.rowsFormed_of_standings rfl rfl
  refine ⟨?_, ?_, ?_, fun _ => ⟨hrows.swellCheck ms vMax, ?_⟩, ?_, ?_, ?_⟩
  case refine_4 =>
    rw [RideThrough.swellCheck_eq]
    rfl
  all_goals simp [hst]

/-- A sag that goes on below V_recover (R32, R39). -/
theorem RideThrough.continueSag_below (h : v < r.vRecover) :
    ((r.continueSag ms v).swellCheck ms vMax).state = .sag ∧ ((r.continueSag ms v).swellCheck ms vMax).prior = none ∧
      r.RowsFormed v ((r.continueSag ms v).swellCheck ms vMax) ∧
      r.DwellFollows ms ((r.continueSag ms v).swellCheck ms vMax) ∧
      ((r.continueSag ms v).swellCheck ms vMax).pLow =
        min r.pLow (r.sagCap ((r.continueSag ms v).swellCheck ms vMax).active) ∧
      ((r.continueSag ms v).swellCheck ms vMax).recovery = r.recovery := by
  rw [RideThrough.continueSag_eq, if_neg h.not_ge, RideThrough.swellCheck_eq]
  exact ⟨rfl, rfl, r.rowsFormed_sagFormed ms v, r.dwellFollows_classify ms v, rfl, rfl⟩

theorem RideThrough.noticeTaken_of_sag (hst : r.state = .sag) :
    r.NoticeTaken ms v ((r.continueSag ms v).swellCheck ms vMax) := by
  refine ⟨?_, fun _ => RideThrough.continueSag_below ms vMax,
    fun _ hv => ⟨r.sagFormed ms v, r.rowsFormed_sagFormed ms v, ?_⟩, ?_, ?_, ?_, ?_⟩
  case refine_2 =>
    rw [RideThrough.continueSag_eq, if_pos hv]
    exact RideThrough.RecoverEntered.swellCheck ms vMax ((r.sagFormed ms v).recoverEntered_enterRecover ms)
  all_goals simp [hst]

/-- The grid back after it was lost in a sag or a recovery (R39). -/
theorem RideThrough.noticeTaken_of_lost_sag (hst : r.state = .gridLost) (hprior : r.prior ≠ some .normal) :
    r.NoticeTaken ms v
      ((if r.vRecover ≤ v then r.enterRecover ms else r.continueSag ms v).swellCheck ms vMax) := by
  refine ⟨?_, fun _ hv => ?_, ?_, ?_, fun _ _ hv => ?_, ?_, ?_⟩
  case refine_2 =>
    rw [if_neg hv.not_ge]
    exact RideThrough.continueSag_below ms vMax hv
  case refine_5 =>
    rw [if_pos hv]
    exact (r.recoverEntered_enterRecover ms).swellCheck ms vMax
  all_goals simp [hst, hprior]

theorem RideThrough.noticeTaken_of_lost_normal (hst : r.state = .gridLost) (hprior : r.prior = some .normal) :
    r.NoticeTaken ms v (r.enterNormal.swellCheck ms vMax) := by
  refine ⟨?_, ?_, ?_, ?_, ?_, fun _ _ => ?_, ?_⟩
  case refine_6 =>
    rw [RideThrough.swellCheck_eq]
    exact ⟨rfl, RideThrough.rowsCleared_of_eq rfl rfl rfl, rfl, rfl, rfl⟩
  all_goals simp [hst, hprior]

/-- A notice that begins no sag sends nothing and keeps the settings, and does what its state asks. -/
theorem RideThrough.handleNotice_quiet (hprior : r.state = .gridLost → r.prior ≠ none)
    (h : ¬(r.BelowRow0 v ∧
      (r.state = .normal ∨ r.state = .recover ∨ (r.state = .gridLost ∧ r.prior = some .normal)))) :
    ∃ q, r.handleNotice ms v = quiet q ∧ r.SameSettings q ∧ r.NoticeTaken ms v (q.swellCheck ms vMax) := by
  cases hst : r.state with
  | normal =>
    exact ⟨_, RideThrough.handleNotice_of_normal ms hst fun hb => h ⟨hb, .inl hst⟩, rfl,
      RideThrough.noticeTaken_of_normal ms vMax hst⟩
  | sag =>
    exact ⟨_, RideThrough.handleNotice_of_sag ms hst, r.sameSettings_continueSag ms v,
      RideThrough.noticeTaken_of_sag ms vMax hst⟩
  | recover =>
    exact ⟨_, RideThrough.handleNotice_of_recover ms hst fun hb => h ⟨hb, .inr (.inl hst)⟩, rfl,
      RideThrough.noticeTaken_of_recover ms vMax hst⟩
  | tripped =>
    exact ⟨_, RideThrough.handleNotice_of_tripped ms hst, rfl, RideThrough.noticeTaken_of_tripped ms vMax hst⟩
  | gridLost =>
    by_cases hnormal : r.prior = some .normal
    · exact ⟨_, RideThrough.handleNotice_of_lost_normal ms hst hnormal fun hb => h ⟨hb, .inr (.inr ⟨hst, hnormal⟩)⟩,
        rfl, RideThrough.noticeTaken_of_lost_normal ms vMax hst hnormal⟩
    · refine ⟨_, RideThrough.handleNotice_of_lost_sag ms hst (hprior hst) hnormal, ?_,
        RideThrough.noticeTaken_of_lost_sag ms vMax hst hnormal⟩
      split
      · exact r.sameSettings_enterRecover ms
      · exact r.sameSettings_continueSag ms v

end

/-- Settles O17: the notice of each state, with the swell check after it, which touches the swell standing and timer
alone. -/
theorem gridNotices : Obligations.GridNotices := by
  unfold Obligations.GridNotices
  rintro s b f rest _ hheld hf hvalid hmode hstarts rfl hprior
  obtain ⟨q, hq, hsame, htaken⟩ := RideThrough.handleNotice_quiet (v := f.vMin) s.ms f.vMax hprior
    fun h => hstarts ⟨hmode, h⟩
  have hnotice := (State.noticeResult_leftToTake s rest f).trans (State.noticeResult_of_quiet hmode hq)
  have hrtc : ((s.leftToTake rest).takeValidFrame f b false).rtc = q.swellCheck s.ms f.vMax := by
    rw [State.takeValidFrame_rtc, hnotice]
    rfl
  have hflag : ((s.leftToTake rest).takeValidFrame f b false).fmu.summary.sag = s.fmu.summary.sag := by
    rw [State.takeValidFrame_sag, hnotice]
    exact Bool.or_false _
  refine ⟨_, exec_gridSampleTaken_valid b hheld hf hvalid, ?_⟩
  rw [hflag, hrtc, State.takeValidFrame_of_not_repeated b false (by rw [hnotice]; rfl)]
  exact ⟨hsame.trans (q.sameSettings_swellCheck s.ms f.vMax), rfl, rfl, rfl, ⟨rfl, rfl, rfl⟩, rfl, htaken⟩

/-- Settles O18: the check reads the standing and the timer that the state handling carries over, or that a trip has
stopped. -/
theorem swellCheck : Obligations.SwellCheck := by
  unfold Obligations.SwellCheck
  intro s b f rest hheld hf hvalid hmode hst
  have hrtc : ((s.leftToTake rest).takeValidFrame f b false).rtc =
      (s.rtc.handleNotice s.ms f.vMin).rtc.swellCheck s.ms f.vMax := by
    rw [State.takeValidFrame_rtc, State.noticeResult_leftToTake, State.noticeResult_of_not_load hmode]
    rfl
  obtain ⟨htime, hlimit, hcarried, hcleared⟩ := RideThrough.swellCarried_handleNotice s.ms f.vMin hst
  refine ⟨_, exec_gridSampleTaken_valid b hheld hf hvalid, ?_⟩
  rw [hrtc, RideThrough.swellCheck_state]
  refine ⟨fun hn => ?_, fun htripped => ?_⟩
  · obtain ⟨habove, htimer⟩ := hcarried hn
    rw [← htime, ← hlimit, ← habove, ← htimer]
    exact RideThrough.swellCheck_standing s.ms f.vMax hn
  · rw [RideThrough.swellCheck_of_tripped _ _ htripped]
    exact hcleared htripped

end Sys2Proof.Machine
end

