-- ==== Sys2Proof/Proofs/ControllerExpiries.lean ====
section
/-! PROOFS. The expiries of the Ride-Through Controller's timers: the exits that trip it, whole and in parts, the
recovery timer, and the oldest recent sag (R27, R30, R34, R35, R37, R40, R111). -/

namespace Sys2Proof.Machine

/-! ### A trip by an expiry (R27, R37, R40) -/

/-- The part at millisecond `m`, its controller tripped, and nothing raised yet. -/
def State.trippedAt (s : State) (m : Nat) : State :=
  { s.advanceMs m with rtc := (s.advanceMs m).rtc.enterTripped }

theorem State.tripOn_whole (s : State) (code : FaultCode) (m : Nat) :
    s.tripOn code (some m) .whole = (s.trippedAt m).raise (tripFault code) := rfl

theorem exec_envelopeExit_of_running {s : State} {m : Nat} {i : Row} (hheld : s.held = false)
    (h : s.rtc.dwellTimers[i] = some m) (part : TripPart) :
    exec (.envelopeExit i part) s = .next (s.tripOn .envelopeExit (some m) part) := by
  rw [exec_envelopeExit hheld, h]

theorem exec_swellExit_of_running {s : State} {m : Nat} (hheld : s.held = false) (h : s.rtc.swellTimer = some m)
    (part : TripPart) : exec (.swellExit part) s = .next (s.tripOn .swellExit (some m) part) := by
  rw [exec_swellExit hheld, h]

theorem State.raise_timeBase (s : State) (r : Raising) : (s.raise r).timeBase = s.timeBase :=
  congrArg (fun clock => timeBaseAt (clock / Config.clocksPerMs)) (State.raise_clock s r)

theorem State.changesOnly_tripped (s : State) (m : Nat) (r : Raising) :
    s.changesOnly ((s.trippedAt m).handRaising r) [.clock, .rtc, .fmu] := by
  intro p hp
  cases p with
  | clock | rtc | fmu => simp at hp
  | held | gm | di | cm | se | rr | cu | me | pu | pending => rfl

/-! ### A raising taken by a command of its own (R111) -/

/-- The oldest raising of `code` is taken from among the others. -/
theorem State.takeRaising_of_append {s : State} {code : FaultCode} {l1 l2 : List Raising} {r : Raising}
    (h : s.fmu.handed = l1 ++ r :: l2) (hbefore : ∀ x ∈ l1, x.code ≠ code) (hr : r.code = code) :
    s.takeRaising code = State.raise r { s with fmu := { s.fmu with handed := l1 ++ l2 } } := by
  have hnone : ∀ x ∈ l1, ¬decide (x.code = code) = true := fun x hx => by simpa using hbefore x hx
  have hfind : s.fmu.handed.find? (fun x => decide (x.code = code)) = some r := by
    rw [h, List.find?_append, List.find?_eq_none.mpr hnone]
    simp [hr]
  have herase : s.fmu.handed.eraseP (fun x => decide (x.code = code)) = l1 ++ l2 := by
    rw [h, List.eraseP_append_right _ hnone]
    simp [hr]
  unfold State.takeRaising
  rw [hfind, herase]

/-- The three commands that take a raising handed to the Fault and Mode Unit. -/
theorem exec_raise {c : Instr} {code : FaultCode} {s : State} (hheld : s.held = false)
    (hc : ((∃ i : Row, c = .envelopeExit i .raise) ∧ code = .envelopeExit) ∨
      (c = .swellExit .raise ∧ code = .swellExit) ∨
      ((∃ b : Bool, c = .gridSampleTaken b .raise) ∧ code = .repeatedSag)) :
    exec c s = .next (s.takeRaising code) := by
  rcases hc with ⟨⟨i, rfl⟩, rfl⟩ | ⟨rfl, rfl⟩ | ⟨⟨b, rfl⟩, rfl⟩ <;>
    exact congrArg Host.Outcome.next (State.live_of_not_held hheld)

/-! ### A sag that trips, its raising handed over (R31, R111) -/

/-- A valid frame taken as the first part of a trip. -/
theorem exec_gridSampleTaken_trip {s : State} {f : GridSample} {rest : List GridSample} (b : Bool)
    (hheld : s.held = false) (hf : s.gm.handed = f :: rest) (hvalid : s.takesAsValid f) :
    exec (.gridSampleTaken b .trip) s = .next ((s.leftToTake rest).takeValidFrame f b true) := by
  have htake : s.takeSample b true = (s.leftToTake rest).takeValidFrame f b true := by
    rw [← State.takeGridFrame_of_valid (s := s.leftToTake rest) b true hvalid]
    unfold State.takeSample
    rw [hf]
    rfl
  obtain ⟨-, htrip, -⟩ := exec_gridSampleTaken_parts hheld b
  rw [htrip, htake]

theorem State.takeValidFrame_hands {s : State} {f : GridSample} (h : (s.noticeResult f).repeated = true) (b : Bool) :
    s.takeValidFrame f b true =
      ((s.afterNotice f).takeRecord (s.validRecord f) (s.noticeResult f).sagBegan).handRaising
        (tripFault .repeatedSag) := by
  rw [State.takeValidFrame_eq, if_pos h, if_pos rfl]

/-! ### The statement about trips -/

/-- Everything that a trip by an expiry does to a part at once, the code of its fault apart. -/
theorem State.tripOn_spec (s : State) (code : FaultCode) (m : Nat) (hheld : s.held = false) :
    ∃ t, s.tripOn code (some m) .whole = t ∧ t.clock = max s.clock (m * 25000) ∧ t.rtc.state = .tripped ∧
      t.tripRequestPin = .high ∧ t.rtc = (s.advanceMs m).rtc.enterTripped ∧
      t.fmu.SameList (s.fmu.record (tripFault code) t.timeBase s.gm.seqState) ∧
      (t.gm = s.gm ∧ t.se = s.se ∧ t.rr = s.rr ∧ t.me = s.me ∧ t.pu = s.pu) ∧
      (s.fmu.mode = .run → t.fmu.mode = .halt ∧ t.fmu.summary.halt = true ∧ t.di.silence = none ∧
        t.cu = s.cu.trigger .halt ∧
        ∀ d : Chan, t.cm.chan[d] = (if (s.cm.chan[d]).isActive then .standby else s.cm.chan[d])) ∧
      (s.fmu.mode ≠ .run → t.fmu.mode = s.fmu.mode ∧ t.cm = s.cm ∧ t.di = s.di ∧ t.cu = s.cu) := by
  have hrtc : ((s.trippedAt m).raise (tripFault code)).rtc = (s.advanceMs m).rtc.enterTripped := State.raise_rtc ..
  have htripped : ((s.trippedAt m).raise (tripFault code)).rtc.state = .tripped := by rw [hrtc]; rfl
  refine ⟨_, s.tripOn_whole code m, State.raise_clock .., htripped,
    State.tripRequestPin_of_tripped ((State.raise_held ..).trans hheld) htripped, hrtc, ?_,
    ⟨State.raise_gm .., State.raise_se .., State.raise_rr .., State.raise_me .., State.raise_pu ..⟩,
    fun hrun => ?_, fun hrun => ?_⟩
  · rw [State.raise_timeBase]
    exact State.raise_sameList ..
  · rw [State.raise_eq_halt (s := s.trippedAt m) rfl hrun]
    exact ⟨rfl, rfl, rfl, rfl, fun d => s.cm.enterHalt_chan d⟩
  · rw [State.raise_eq_record (s := s.trippedAt m) fun h => hrun h.2]
    exact ⟨FaultModeUnit.record_mode .., rfl, rfl, rfl⟩

/-- Settles O20: one rule of the trip for both exits, whole; in parts the trip only hands its raising over. -/
theorem tripByExpiry : Obligations.TripByExpiry := by
  unfold Obligations.TripByExpiry
  refine ⟨fun c s m hheld hc => ?whole, fun c code s m hheld hc => ?trip,
    fun s b f rest hheld hf hvalid hstarts hlimit hmany => ?sag, fun c code s hheld hc => ?raise⟩
  case whole =>
    have hexec : exec c s =
        .next (s.tripOn (if c = .swellExit then .swellExit else .envelopeExit) (some m) .whole) := by
      rcases hc with ⟨i, rfl, hi⟩ | ⟨rfl, hsw⟩
      · rw [if_neg nofun]
        exact exec_envelopeExit_of_running hheld hi .whole
      · rw [if_pos rfl]
        exact exec_swellExit_of_running hheld hsw .whole
    obtain ⟨t, ht, hclock, hst, hpin, hrtc, hlist, ⟨hgm, hse, hrr, hme, hpu⟩, hrun, hnot⟩ :=
      s.tripOn_spec (if c = .swellExit then .swellExit else .envelopeExit) m hheld
    rw [ht] at hexec
    refine ⟨t, hexec, hclock, hst, hpin, ?_⟩
    rw [hrtc]
    exact ⟨rfl, rfl, rfl, rfl, rfl, fun i => ⟨noStandings_getElem i, noDwell_getElem i⟩, rfl, rfl, rfl, hlist, hgm,
      hse, hrr, hme, hpu, hrun, hnot⟩
  case trip =>
    have hexec : exec c s = .next ((s.trippedAt m).handRaising (tripFault code)) := by
      rcases hc with ⟨i, rfl, rfl, hi⟩ | ⟨rfl, rfl, hsw⟩
      · exact exec_envelopeExit_of_running hheld hi .trip
      · exact exec_swellExit_of_running hheld hsw .trip
    exact ⟨_, hexec, s.changesOnly_tripped m _, rfl, rfl, State.tripRequestPin_of_tripped hheld rfl,
      RideThrough.rowsCleared_of_eq rfl rfl rfl, rfl, rfl, rfl, rfl, rfl⟩
  case sag =>
    have htrips := (State.noticeResult_leftToTake s rest f).trans
      (State.noticeResult_of_tooMany hstarts ⟨hlimit, hmany⟩)
    have hexec := exec_gridSampleTaken_trip b hheld hf hvalid
    rw [State.takeValidFrame_hands (by rw [htrips])] at hexec
    have hrtc := congrArg NoticeResult.rtc htrips
    have htripped : ((s.leftToTake rest).noticeResult f).rtc.state = .tripped := by rw [hrtc]; rfl
    have hcleared : ((s.leftToTake rest).noticeResult f).rtc.RowsCleared :=
      hrtc ▸ RideThrough.rowsCleared_of_eq rfl rfl rfl
    exact ⟨_, hexec, htripped, State.tripRequestPin_of_tripped hheld htripped, hcleared, rfl, rfl, rfl,
      ⟨rfl, rfl, rfl⟩, rfl⟩
  case raise =>
    rw [exec_raise hheld hc]
    refine ⟨fun hnone => ?_, fun l1 l2 r hsplit hbefore hr => ?_⟩
    · rw [State.takeRaising_of_none hnone]
    · rw [State.takeRaising_of_append hsplit hbefore hr]

/-! ### The recovery timer (R34, R35) -/

/-- The duration of the ramp, rounded up, is the least that reaches 1000. -/
theorem rampDuration_spec {pLow slope : Nat} (hlow : pLow < 1000) (hslope : 1 ≤ slope) :
    1 ≤ rampDuration pLow slope ∧ rampDuration pLow slope ≤ 1000 ∧ 1000 ≤ pLow + slope * rampDuration pLow slope ∧
      pLow + slope * (rampDuration pLow slope - 1) < 1000 := by
  have hdiv : slope * rampDuration pLow slope + (1000 - pLow + slope - 1) % slope = 1000 - pLow + slope - 1 :=
    Nat.div_add_mod ..
  have hmod := Nat.mod_lt (1000 - pLow + slope - 1) hslope
  have hpos : 1 ≤ rampDuration pLow slope := (Nat.one_le_div_iff hslope).mpr (by omega)
  have hpred : slope * (rampDuration pLow slope - 1) = slope * rampDuration pLow slope - slope := by
    rw [Nat.mul_sub, Nat.mul_one]
  have hle : slope ≤ slope * rampDuration pLow slope := Nat.le_mul_of_pos_right slope hpos
  refine ⟨hpos, ?_, by omega, by omega⟩
  by_contra hlong
  have hbig : slope * 1000 ≤ slope * (rampDuration pLow slope - 1) := Nat.mul_le_mul_left slope (by omega)
  omega

theorem exec_recoveryHoldExpiry {s : State} {m : Nat} (hheld : s.held = false) (hm : s.rtc.recovery = some m)
    (hphase : s.rtc.phase = .hold) :
    exec .recoveryHoldExpiry s =
      .next { s.advanceMs m with rtc := (s.advanceMs m).rtc.endHold (s.advanceMs m).ms } := by
  refine congrArg Host.Outcome.next ((State.live_of_not_held hheld).trans ?_)
  dsimp only
  rw [if_pos hphase, hm, State.onExpiry_some, RideThrough.endHold_withRecovery]

theorem exec_recoveryRampExpiry {s : State} {m : Nat} (hheld : s.held = false) (hm : s.rtc.recovery = some m)
    (hphase : s.rtc.phase = .ramp) :
    exec .recoveryRampExpiry s =
      .next { s.advanceMs m with rtc := { (s.advanceMs m).rtc with pLow := 1000 }.enterNormal } := by
  refine congrArg Host.Outcome.next ((State.live_of_not_held hheld).trans ?_)
  dsimp only
  rw [if_pos hphase, hm, State.onExpiry_some]

theorem State.changesOnly_advanceMs_rtc (s : State) (m : Nat) (r : RideThrough) :
    s.changesOnly { s.advanceMs m with rtc := r } [.clock, .rtc] := by
  intro p hp
  cases p with
  | clock | rtc => simp at hp
  | held | gm | di | cm | se | rr | fmu | cu | me | pu | pending => rfl

/-! ### The oldest recent sag (R30) -/

theorem exec_sagListEntryAged {s : State} {x : BitVec 32} {rest : List (BitVec 32)} (hheld : s.held = false)
    (hsags : s.rtc.sags = x :: rest) :
    exec .sagListEntryAged s = .next (s.advanceMs (s.ms + (s.rtc.window + 1 - sagAge s.timeBase x))) := by
  refine congrArg Host.Outcome.next ((State.live_of_not_held hheld).trans ?_)
  simp only [hsags]

/-- The ages when the oldest entry has just outgrown W: it is one millisecond past it, and the entries that stay are
those of the rest that are no older than W. -/
theorem State.advanceMs_agesOldest {s : State} {x : BitVec 32} {rest : List (BitVec 32)}
    (hlaw : SagListLaw s.rtc s.timeBase) (hsags : s.rtc.sags = x :: rest) {d : Nat}
    (hd : d = s.rtc.window + 1 - sagAge s.timeBase x) :
    sagAge (s.advanceMs (s.ms + d)).timeBase x = s.rtc.window + 1 ∧ x ∉ (s.advanceMs (s.ms + d)).rtc.sags ∧
      ∀ y, y ∈ (s.advanceMs (s.ms + d)).rtc.sags ↔
        y ∈ rest ∧ sagAge (s.advanceMs (s.ms + d)).timeBase y ≤ s.rtc.window := by
  obtain ⟨hwindow, -, hyoung, -⟩ := hlaw
  have hx := hyoung x (by rw [hsags]; exact List.mem_cons_self)
  have hnow : (s.advanceMs (s.ms + d)).timeBase = timeBaseAt (s.ms + d) := by
    rw [State.timeBase, State.advanceMs_ms, Nat.max_eq_right (Nat.le_add_right ..)]
  have hage : ∀ y ∈ x :: rest, sagAge (s.advanceMs (s.ms + d)).timeBase y = sagAge s.timeBase y + d := by
    intro y hy
    have hle := hyoung y (hsags ▸ hy)
    rw [hnow]
    exact sagAge_add (show sagAge s.timeBase y + d < 2 ^ 32 by omega)
  have hmem : ∀ y, y ∈ (s.advanceMs (s.ms + d)).rtc.sags ↔ y ∈ x :: rest ∧ sagAge s.timeBase y + d ≤ s.rtc.window := by
    intro y
    rw [State.advanceMs_rtc, Nat.max_eq_right (Nat.le_add_right ..), Nat.add_sub_cancel_left]
    simp [RideThrough.ageSags, hsags]
  refine ⟨by rw [hage x List.mem_cons_self]; omega, fun hin => ?_, fun y => ?_⟩
  · have hle := ((hmem x).mp hin).2
    omega
  · rw [hmem y]
    constructor
    · rintro ⟨hin, hle⟩
      rw [hage y hin]
      rcases List.mem_cons.mp hin with rfl | hrest
      · omega
      · exact ⟨hrest, hle⟩
    · rintro ⟨hrest, hle⟩
      have hin := List.mem_cons_of_mem x hrest
      rw [hage y hin] at hle
      exact ⟨hin, hle⟩

/-- Settles O21: the hold and the ramp end as their steps say, and the list ages by just what the oldest entry lacks. -/
theorem recoveryAndSagListExpiries : Obligations.RecoveryAndSagListExpiries := by
  unfold Obligations.RecoveryAndSagListExpiries
  refine ⟨fun s m hheld hm => ⟨fun hphase => ?hold, fun hphase => ?ramp⟩, fun s x rest hheld hlaw hsags => ?aged⟩
  case hold =>
    refine ⟨_, exec_recoveryHoldExpiry hheld hm hphase, rfl, s.changesOnly_advanceMs_rtc m _, ?_, fun hfull => ?_,
      fun hlow hslope hst => ?_⟩
    · dsimp only
      unfold RideThrough.endHold
      split <;> rfl
    · rw [RideThrough.endHold_of_full (r := (s.advanceMs m).rtc) hfull]
      exact ⟨rfl, rfl⟩
    · rw [RideThrough.endHold_of_low (r := (s.advanceMs m).rtc) hlow.ne]
      exact ⟨hst, rfl, rfl, rfl, _, rfl, rampDuration_spec hlow hslope⟩
  case ramp =>
    exact ⟨_, exec_recoveryRampExpiry hheld hm hphase, rfl, s.changesOnly_advanceMs_rtc m _, rfl, rfl, rfl⟩
  case aged =>
    obtain ⟨hage, hgone, hstay⟩ := State.advanceMs_agesOldest hlaw hsags rfl
    exact ⟨_, exec_sagListEntryAged hheld hsags, s.changesOnly_advanceMs _, hage, rfl, hgone, hstay⟩

end Sys2Proof.Machine
end

