-- ==== Sys2Proof/Proofs/CycleInputs.lean ====
section
/-! PROOFS. The parts of a cycle start that gather its inputs: each reads its owner once, at its own moment (R42, R43,
R59, R84, R92 to R94). -/

namespace Sys2Proof.Machine

theorem RideThrough.blocking_eq (r : RideThrough) :
    r.blocking = r.active.any fun i => decide ((r.rows[i]).action = .block) := by
  unfold RideThrough.blocking
  cases r.active <;> rfl

theorem State.changesOnly_beginCycle (s : State) : s.changesOnly s.beginCycle [.clock, .rtc, .se, .rr] := by
  intro p hp
  cases p with
  | clock | rtc | se | rr => simp at hp
  | held | gm | di | cm | fmu | cu | me | pu | pending => rfl

theorem State.changesOnly_cm_se (s : State) (m : ChannelManager) (e : SetpointEngine) :
    s.changesOnly { s with cm := m, se := e } [.cm, .se] := by
  intro p hp
  cases p with
  | cm | se => simp at hp
  | held | clock | rtc | gm | di | rr | fmu | cu | me | pu | pending => rfl

/-- A request that has been answered is not made again (R59, R94). -/
theorem State.requestChannels_of_answered {s : State} {g : Gathering} (h : s.se.work = .gathering g)
    (hd : g.demands ≠ none) (hs : g.standing ≠ none) (ha : g.answer ≠ none) : s.requestChannels = s := by
  obtain ⟨d, st, v, a⟩ := g
  obtain ⟨d, rfl⟩ := Option.ne_none_iff_exists'.mp hd
  obtain ⟨st, rfl⟩ := Option.ne_none_iff_exists'.mp hs
  obtain ⟨a, rfl⟩ := Option.ne_none_iff_exists'.mp ha
  unfold State.requestChannels
  rw [State.readDemands_of_read h hd, State.readStanding_of_read h hs]
  simp only [h]

/-- The start examination, channel by channel (R59). -/
theorem ChannelManager.examine_spec (m : ChannelManager) (p : PartMode) (rtc : RtcState) (store : Vector Nat 16)
    (ms : Nat) (c : Chan) :
    (m.chan[c] = .standby ∧ p = .run ∧ rtc = .normal ∧ 0 < store[c] →
      (m.examine p rtc store ms).chan[c] = .starting ∧
        (m.examine p rtc store ms).startTimers[c] = some (ms + m.tStart)) ∧
    (¬(m.chan[c] = .standby ∧ p = .run ∧ rtc = .normal ∧ 0 < store[c]) →
      (m.examine p rtc store ms).chan[c] = m.chan[c] ∧
        (m.examine p rtc store ms).startTimers[c] = m.startTimers[c]) := by
  rw [ChannelManager.examine_chan, ChannelManager.examine_startTimers, ← ChannelManager.starts_iff]
  exact ⟨fun h => by rw [if_pos h, if_pos h]; exact ⟨rfl, rfl⟩, fun h => by rw [if_neg h, if_neg h]; exact ⟨rfl, rfl⟩⟩

/-- Settles O37: each part is the rule of its reading, and the identity once it has been made. -/
theorem cycleReadings : Obligations.CycleReadings := by
  unfold Obligations.CycleReadings
  refine ⟨fun s hheld hsettled => ?start, fun s g hheld hwork => ⟨fun hd => ?demands, fun hs => ?standing,
    fun hv => ?voltage, fun d st hd hs ha => ?request, fun p hp => ?again⟩⟩
  case start =>
    have hstart : s.cyclePart .start = s.beginCycle := congrArg State.beginCycle (State.settle_of_settled hsettled)
    rw [exec_cycleStart hheld, hstart]
    refine ⟨_, rfl, s.changesOnly_beginCycle, rfl, s.advanceTo_agesSags s.se.nextCycle, rfl, ?_⟩
    rw [Nat.mul_comm 25]
    rfl
  case demands =>
    exact (exec_cycleStart hheld .demands).trans (congrArg Host.Outcome.next (State.readDemands_eq hwork hd))
  case standing =>
    rw [← RideThrough.blocking_eq]
    exact (exec_cycleStart hheld .standing).trans (congrArg Host.Outcome.next (State.readStanding_eq hwork hs))
  case voltage =>
    exact (exec_cycleStart hheld .voltage).trans (congrArg Host.Outcome.next (State.readVoltage_eq hwork hv))
  case request =>
    refine ⟨_, (exec_cycleStart hheld .request).trans
      (congrArg Host.Outcome.next (State.requestChannels_eq hwork hd hs ha)), s.changesOnly_cm_se _ _, rfl, rfl,
      fun c => ?_⟩
    exact s.cm.examine_spec s.fmu.mode st.rtc d.store s.ms c
  case again =>
    refine (exec_cycleStart hheld p).trans (congrArg Host.Outcome.next ?_)
    rcases hp with ⟨rfl, h⟩ | ⟨rfl, h⟩ | ⟨rfl, h⟩ | ⟨rfl, hd, hs, ha⟩
    · exact State.readDemands_of_read hwork h
    · exact State.readStanding_of_read hwork h
    · exact State.readVoltage_of_read hwork h
    · exact State.requestChannels_of_answered hwork hd hs ha

end Sys2Proof.Machine
end

