-- ==== Sys2Proof/Proofs/EnvelopeRules.lean ====
section
/-! PROOFS. What the checks of the envelope and of the RUN request say: the first failing row, the validity of the
table, and the channel that its group cannot carry (R20, R132). -/

namespace Sys2Proof.Machine

/-- The first member that `p` holds of, in the order of the numbers. -/
theorem find?_finRange_eq_some {n : Nat} {p : Fin n → Bool} {i : Fin n} (hi : p i = true)
    (hfirst : ∀ j, j < i → p j = false) : (List.finRange n).find? p = some i := by
  refine List.find?_eq_some_iff_getElem.mpr ⟨hi, i.val, by simp, by simp, fun j hj => ?_⟩
  simpa using hfirst ⟨j, hj.trans i.isLt⟩ hj

theorem find?_finRange_eq_none_iff {n : Nat} {p : Fin n → Bool} :
    (List.finRange n).find? p = none ↔ ∀ i, p i = false := by
  simp

/-! ### The envelope (R20) -/

/-- Row `i` passes the validity test: row 0 lies below V_recover, a later row below the row before it (R20). -/
theorem rowFails_eq_false_iff {rows : Vector EnvelopeRow 8} {vRecover : Nat} {i : Row} :
    rowFails rows vRecover i = false ↔ (i.val = 0 → (rows[i]).threshold < vRecover) ∧
      ∀ j : Row, j.val + 1 = i.val → (rows[i]).threshold < (rows[j]).threshold := by
  unfold rowFails
  dsimp only
  rw [decide_eq_false_iff_not, not_le]
  split
  case isTrue h0 => exact ⟨fun h => ⟨fun _ => h, fun j hj => by omega⟩, fun h => h.1 h0⟩
  case isFalse h0 =>
    refine ⟨fun h => ⟨fun h0' => absurd h0' h0, fun j hj => ?_⟩, fun h => h.2 _ (Nat.sub_add_cancel (by omega))⟩
    have hj : j = ⟨i.val - 1, by omega⟩ := Fin.ext (by simp [← hj])
    rw [hj]
    exact h

theorem rowsDescend_iff {rows : Vector EnvelopeRow 8} {vRecover n : Nat} :
    RowsDescend rows vRecover n ↔ ∀ i : Row, i.val < n → rowFails rows vRecover i = false :=
  forall_congr' fun _ => imp_congr_right fun _ => rowFails_eq_false_iff.symm

theorem firstFailingRow_eq_none_iff {rows : Vector EnvelopeRow 8} {nRows vRecover : Nat} :
    firstFailingRow rows nRows vRecover = none ↔ RowsDescend rows vRecover nRows := by
  rw [rowsDescend_iff]
  refine find?_finRange_eq_none_iff.trans (forall_congr' fun i => ?_)
  by_cases h : i.val < nRows <;> simp [h]

/-- The first failing row is the one up to which the thresholds descend, and no further. -/
theorem firstFailingRow_eq_some {rows : Vector EnvelopeRow 8} {nRows vRecover : Nat} {i : Row} (hi : i.val < nRows)
    (hbefore : RowsDescend rows vRecover i.val) (hfails : ¬RowsDescend rows vRecover (i.val + 1)) :
    firstFailingRow rows nRows vRecover = some i := by
  rw [rowsDescend_iff] at hbefore hfails
  have hrow : rowFails rows vRecover i = true := by
    by_contra hpass
    refine hfails fun j hj => ?_
    rcases Nat.lt_succ_iff_lt_or_eq.mp hj with hlt | heq
    · exact hbefore j hlt
    · rw [Fin.ext heq]
      simpa using hpass
  exact find?_finRange_eq_some (by simp [hi, hrow]) fun j hj => by simp [hbefore j hj]

theorem envelopeValid_iff {rows : Vector EnvelopeRow 8} {nRows vRecover : Nat} :
    envelopeValid rows nRows vRecover = true ↔ EnvelopeOk rows nRows vRecover := by
  rw [envelopeValid, Bool.and_eq_true, decide_eq_true_eq, Option.isNone_iff_eq_none, firstFailingRow_eq_none_iff]
  rfl

/-! ### The channels (R132) -/

theorem ChannelManager.anyEnabled_iff {m : ChannelManager} :
    m.anyEnabled = true ↔ ∃ c : Chan, (m.table[c]).enable = true := by
  simp [ChannelManager.anyEnabled]

theorem ChannelManager.firstUncarried_eq_none {m : ChannelManager}
    (h : ∀ c : Chan, (m.table[c]).enable = true → (m.table[c]).iMin ≤ m.groups[(m.table[c]).group]) :
    m.firstUncarried = none := by
  refine find?_finRange_eq_none_iff.mpr fun c => ?_
  cases hen : (m.table[c]).enable with
  | false => rfl
  | true => simpa using h c hen

theorem ChannelManager.firstUncarried_eq_some {m : ChannelManager} {c : Chan} (hen : (m.table[c]).enable = true)
    (hover : m.groups[(m.table[c]).group] < (m.table[c]).iMin)
    (hbefore : ∀ d : Chan, d < c → (m.table[d]).enable = true → (m.table[d]).iMin ≤ m.groups[(m.table[d]).group]) :
    m.firstUncarried = some c := by
  refine find?_finRange_eq_some (by rw [hen, Bool.true_and]; exact decide_eq_true hover) fun d hd => ?_
  cases hen : (m.table[d]).enable with
  | false => rfl
  | true => simpa using hbefore d hd hen

/-! ### The four checks of RUN (R132) -/

section
variable {s : State}

theorem State.runFailure_of_barred (h : s.fmu.barred = true) : s.runFailure = some (.fault, noIndex) := if_pos h

theorem State.runFailure_of_noRows (hbarred : s.fmu.barred = false) (h : s.rtc.nRows = 0) :
    s.runFailure = some (.envelope, noIndex) := by
  have hrow : firstFailingRow s.rtc.rows s.rtc.nRows s.rtc.vRecover = none :=
    firstFailingRow_eq_none_iff.mpr fun i hi => by omega
  have hvalid : s.rtc.valid = false := by simp [RideThrough.valid, envelopeValid, h]
  simp [State.runFailure, hbarred, hvalid, hrow]

theorem State.runFailure_of_row (hbarred : s.fmu.barred = false) {i : Row}
    (h : firstFailingRow s.rtc.rows s.rtc.nRows s.rtc.vRecover = some i) :
    s.runFailure = some (.envelope, i.val) := by
  have hvalid : s.rtc.valid = false := by simp [RideThrough.valid, envelopeValid, h]
  simp [State.runFailure, hbarred, hvalid, h]

variable (hbarred : s.fmu.barred = false) (henvelope : EnvelopeOk s.rtc.rows s.rtc.nRows s.rtc.vRecover)
include hbarred henvelope

/-- With the first two checks passed, the channels decide. -/
theorem State.runFailure_of_envelope : s.runFailure =
    if s.cm.anyEnabled = false then some (.channel, noIndex)
    else s.cm.firstUncarried.map fun c => (.channel, c.val) := by
  have hvalid : s.rtc.valid = true := envelopeValid_iff.mpr henvelope
  simp only [State.runFailure, hbarred, hvalid, Bool.false_eq_true, Bool.true_eq_false, if_false]
  cases s.cm.firstUncarried <;> rfl

theorem State.runFailure_of_noneEnabled (h : ∀ c : Chan, (s.cm.table[c]).enable = false) :
    s.runFailure = some (.channel, noIndex) := by
  have hnone : s.cm.anyEnabled = false := by
    rw [← Bool.not_eq_true, ChannelManager.anyEnabled_iff]
    rintro ⟨c, hc⟩
    rw [h c] at hc
    cases hc
  rw [State.runFailure_of_envelope hbarred henvelope, if_pos hnone]

theorem State.runFailure_of_enabled {c : Chan} (h : (s.cm.table[c]).enable = true) :
    s.runFailure = s.cm.firstUncarried.map fun c => (.channel, c.val) := by
  rw [State.runFailure_of_envelope hbarred henvelope, ChannelManager.anyEnabled_iff.mpr ⟨c, h⟩, if_neg nofun]

end

end Sys2Proof.Machine
end

