-- ==== Sys2Proof/Proofs/ModeRequests.lean ====
section
/-! PROOFS. The four mode requests: RUN with its checks (O44), HALT, RESUME and LOAD (O45). -/

namespace Sys2Proof.Machine

/-! ### The code of a mode request (R131, R199) -/

theorem Request.modeIs_of_code {q : Request} {m : ModeRequest} (h : modeRequest? (byteAt q.data 0) = some m) :
    q.modeIs m = true ∧ q.modeAbsent = false := by
  simp [Request.modeIs, Request.modeAbsent, h]

theorem Request.modeIs_of_absent {q : Request} (h : modeRequest? (byteAt q.data 0) = none) (m : ModeRequest) :
    q.modeIs m = true ∧ q.modeAbsent = true := by
  simp [Request.modeIs, Request.modeAbsent, h]

/-! ### RUN (R131, R132) -/

section
variable {s : State} {q : Request} (hcode : q.modeAbsent = false)
include hcode

theorem decideRun_of_not_load (h : s.fmu.mode ≠ .load) : decideRun q s = (s, q.answered .badMode) := by
  simp [decideRun, hcode, h]

theorem decideRun_of_failure (hload : s.fmu.mode = .load) {o : Object} {i : Nat} (h : s.runFailure = some (o, i)) :
    decideRun q s = (s, { q.answered .badValue with object := o.code, index := i }) := by
  simp [decideRun, hcode, hload, h]

theorem decideRun_of_passes (hload : s.fmu.mode = .load) (h : s.runFailure = none) :
    decideRun q s = (s.enterRunFromLoad, q.answered .done) := by
  simp [decideRun, hcode, hload, h]

end

theorem State.enterRunFromLoad_eq (s : State) : s.enterRunFromLoad = { s with
    fmu := { s.fmu with mode := .run }, di := { s.di with silence := some (s.ms + s.di.tDs) }
    rtc := if s.gm.gridLost = true then s.rtc.loseGrid .normal s.timeBase else s.rtc } := by
  unfold State.enterRunFromLoad
  dsimp only
  by_cases h : s.gm.gridLost = true
  · rw [if_pos h, if_pos (show s.enterRun.gm.gridLost = true from h)]
    rfl
  · rw [if_neg h, if_neg (show ¬s.enterRun.gm.gridLost = true from h)]
    rfl

theorem State.changesOnly_fmu_di_rtc (s : State) (f : FaultModeUnit) (d : DemandIntake) (r : RideThrough) :
    s.changesOnly { s with fmu := f, di := d, rtc := r } [.fmu, .di, .rtc] := by
  intro p hp
  cases p with
  | fmu | di | rtc => simp at hp
  | held | clock | gm | cm | se | rr | cu | me | pu | pending => rfl

/-- A normal controller that loses the grid as the part enters RUN (R24, R38). -/
theorem RideThrough.loseGrid_of_normal {r : RideThrough} (h : r.state = .normal) (now : BitVec 32) :
    r.loseGrid .normal now = { r with state := .gridLost, prior := some .normal, pLoss := 1000, recovery := none } := by
  simp [RideThrough.loseGrid, RideThrough.pState, h]

/-- Settles O44: each clause is the check that fails first, and with none failing the entry to RUN. -/
theorem modeRun : Obligations.ModeRun := by
  unfold Obligations.ModeRun
  intro s q hserves hbyte
  obtain ⟨hmode, hcode⟩ := Request.modeIs_of_code (q := q) (m := .run) (by rw [hbyte]; rfl)
  have hreplies := State.serve_repliesTo (f := decideRun) hserves hmode
  have hrefused : ∀ (o : Object) (i : Nat), s.fmu.mode = .load → s.runFailure = some (o, i) →
      s.repliesTo q { q.answered .badValue with object := o.code, index := i }
        (s.live (State.serve .mode .none (Request.modeIs .run) decideRun)) := by
    intro o i hload hfails
    rw [decideRun_of_failure hcode hload hfails] at hreplies
    exact hreplies
  refine ⟨_, rfl, fun trip htrip => ?_⟩
  have hbarred : trip ↔ s.fmu.barred = true := htrip.trans (FaultModeUnit.barred_iff _).symm
  have hfree : ¬trip → s.fmu.barred = false := fun h => by simpa [hbarred] using h
  refine ⟨fun hnot => ?_, fun hload h => hrefused .fault noIndex hload (State.runFailure_of_barred (hbarred.mp h)),
    fun hload h hrows => hrefused .envelope noIndex hload (State.runFailure_of_noRows (hfree h) hrows),
    fun i hload h hi hbefore hfails =>
      hrefused .envelope i.val hload (State.runFailure_of_row (hfree h) (firstFailingRow_eq_some hi hbefore hfails)),
    fun hload h henvelope => ⟨fun hnone =>
        hrefused .channel noIndex hload (State.runFailure_of_noneEnabled (hfree h) henvelope hnone),
      fun c hen hover hbefore => hrefused .channel c.val hload ?_, fun ⟨c, hen⟩ hcarried => ?_⟩⟩
  · rw [decideRun_of_not_load hcode hnot] at hreplies
    exact hreplies
  · rw [State.runFailure_of_enabled (hfree h) henvelope hen, ChannelManager.firstUncarried_eq_some hen hover hbefore]
    rfl
  · have hpasses : s.runFailure = none := by
      rw [State.runFailure_of_enabled (hfree h) henvelope hen, ChannelManager.firstUncarried_eq_none hcarried]
      rfl
    rw [decideRun_of_passes hcode hload hpasses, State.enterRunFromLoad_eq] at hreplies
    refine ⟨_, hreplies, s.changesOnly_fmu_di_rtc _ _ _, rfl, rfl, fun hdata => ?_, fun hlost hnormal => ?_⟩
    · exact if_neg (by simp [hdata])
    · exact (if_pos hlost).trans (RideThrough.loseGrid_of_normal hnormal _)

/-! ### HALT (R133) -/

section
variable {s : State} {q : Request} (hcode : q.modeAbsent = false)
include hcode

theorem decideHalt_of_not_run (h : s.fmu.mode ≠ .run) : decideHalt q s = (s, q.answered .badMode) := by
  simp [decideHalt, hcode, h]

theorem decideHalt_of_run (h : s.fmu.mode = .run) : decideHalt q s = (s.enterHalt, q.answered .done) := by
  simp [decideHalt, hcode, h]

/-! ### RESUME (R134) -/

theorem decideResume_of_not_halt (h : s.fmu.mode ≠ .halt) :
    decideResume q s = (s, { q.answered .badMode with index := 0 }) := by
  simp [decideResume, hcode, h]

theorem decideResume_of_refused (hhalt : s.fmu.mode = .halt) (h : s.resumeAllowed = false) :
    decideResume q s = (s, { q.answered .busy with index := 0 }) := by
  simp [decideResume, hcode, hhalt, h]

theorem decideResume_of_allowed (hhalt : s.fmu.mode = .halt) (h : s.resumeAllowed = true) :
    decideResume q s = (s.enterRunFromHalt, q.answered .done) := by
  simp [decideResume, hcode, hhalt, h]

/-! ### LOAD (R135) -/

theorem decideLoad_of_not_halt (h : s.fmu.mode ≠ .halt) : decideLoad q s = (s, q.answered .badMode) := by
  simp [decideLoad, hcode, h]

theorem decideLoad_of_halt (h : s.fmu.mode = .halt) :
    decideLoad q s = (s.endTrippingReport.takeRaisings.enterLoad, q.answered .done) := by
  simp [decideLoad, hcode, h]

end

/-! ### What HALT and RESUME enter -/

theorem State.changesOnly_enterHalt (s : State) : s.changesOnly s.enterHalt [.fmu, .cu, .cm, .di] := by
  intro p hp
  cases p with
  | fmu | cu | cm | di => simp at hp
  | held | clock | gm | rtc | se | rr | me | pu | pending => rfl

theorem State.resumeAllowed_iff {s : State} : s.resumeAllowed = true ↔
    (∀ e ∈ s.fmu.faults, e.cls ≠ .trip) ∧ s.fmu.droppedTrip = false ∧ s.gm.gridLost = false ∧
      (s.rtc.state = .normal ∨ (s.rtc.state = .tripped ∧ s.rtc.vRecover ≤ s.gm.vLast)) := by
  have hbarred : s.fmu.barred = false ↔ (∀ e ∈ s.fmu.faults, e.cls ≠ .trip) ∧ s.fmu.droppedTrip = false := by
    rw [← Bool.not_eq_true, FaultModeUnit.barred_iff, not_or, Bool.not_eq_true]
    exact and_congr_left' ⟨fun h e he htrip => h ⟨e, he, htrip⟩, fun h ⟨e, he, htrip⟩ => h e he htrip⟩
  simp only [State.resumeAllowed, Bool.and_eq_true, Bool.not_eq_true', Bool.or_eq_true, decide_eq_true_eq, hbarred,
    and_assoc]

theorem State.enterRunFromHalt_eq (s : State) : s.enterRunFromHalt = { s with
    fmu := { s.fmu with mode := .run }, di := { s.di with silence := some (s.ms + s.di.tDs) }
    rtc := if s.rtc.state = .tripped then s.rtc.untrip else s.rtc } := by
  unfold State.enterRunFromHalt
  dsimp only
  by_cases h : s.rtc.state = .tripped
  · rw [if_pos h, if_pos (show s.enterRun.rtc.state = .tripped from h)]
    rfl
  · rw [if_neg h, if_neg (show ¬s.enterRun.rtc.state = .tripped from h)]
    rfl

theorem State.tripRequestPin_of_not_tripped {s : State} (h : s.rtc.state ≠ .tripped) : s.tripRequestPin = .low := by
  simp [State.tripRequestPin, h]

/-! ### The raisings that LOAD takes first (R46, R145) -/

theorem FaultModeUnit.record_with_handed (f : FaultModeUnit) (l : List Raising) (r : Raising) (now : BitVec 32)
    (seq : Option (BitVec 16)) :
    ({ f with handed := l } : FaultModeUnit).record r now seq = { f.record r now seq with handed := l } := by
  unfold FaultModeUnit.record
  dsimp only
  split
  · rfl
  · split
    · rfl
    · split
      · split <;> rfl
      · rfl

theorem FaultModeUnit.recordAll_with_handed (f : FaultModeUnit) (l l' : List Raising) (now : BitVec 32)
    (seq : Option (BitVec 16)) :
    ({ f with handed := l } : FaultModeUnit).recordAll l' now seq = { f.recordAll l' now seq with handed := l } := by
  unfold FaultModeUnit.recordAll
  induction l' generalizing f with
  | nil => rfl
  | cons r l' ih =>
    rw [List.foldl_cons, FaultModeUnit.record_with_handed]
    exact ih (f.record r now seq)

theorem FaultModeUnit.recordAll_barred {f : FaultModeUnit} {l : List Raising} (now : BitVec 32)
    (seq : Option (BitVec 16)) (h : f.barred = true ∨ ∃ r ∈ l, r.cls = .trip) :
    (f.recordAll l now seq).barred = true := by
  unfold FaultModeUnit.recordAll
  induction l generalizing f with
  | nil => simpa using h
  | cons r l ih =>
    refine ih ?_
    rcases h with h | ⟨x, hx, htrip⟩
    · exact .inl (FaultModeUnit.barred_record r now seq h)
    · rcases List.mem_cons.mp hx with rfl | hx
      · exact .inl (f.barred_record_trip now seq htrip)
      · exact .inr ⟨x, hx, htrip⟩

/-- The part in LOAD with the waiting raisings taken (R135). -/
def State.loaded (s : State) : State :=
  { s with
    fmu := { s.fmu.recordAll s.fmu.handed s.timeBase s.gm.seqState with mode := .load, handed := [] }
    rtc := s.rtc.enterLoad
    cm := { s.cm with chan := s.cm.standbyStates, startTimers := Vector.replicate 16 none,
                      parkTimers := Vector.replicate 16 none }
    di := { s.di with silence := none } }

theorem State.takeRaisings_enterLoad {s : State} (h : s.fmu.mode = .halt) :
    s.takeRaisings.enterLoad = s.loaded := by
  have hrecorded : s.fmu.handed.foldl (fun f r => f.record r s.timeBase s.gm.seqState) { s.fmu with handed := [] } =
      { s.fmu.recordAll s.fmu.handed s.timeBase s.gm.seqState with handed := [] } :=
    s.fmu.recordAll_with_handed [] s.fmu.handed s.timeBase s.gm.seqState
  rw [State.takeRaisings_of_not_run (by rw [h]; decide), hrecorded]
  rfl

theorem State.changesOnly_loaded (s : State) : s.changesOnly s.loaded [.fmu, .di, .cm, .rtc] := by
  intro p hp
  cases p with
  | fmu | di | cm | rtc => simp at hp
  | held | clock | gm | se | rr | cu | me | pu | pending => rfl

theorem State.OnlyRaises.barred {s t : State} (h : s.OnlyRaises t) : s.fmu.barred = true → t.fmu.barred = true :=
  h.keeps fun _ _ hm => hm.barred

theorem State.OnlyRaises.halt {s t : State} (h : s.OnlyRaises t) (hs : s.fmu.mode = .halt) : t.fmu.mode = .halt := by
  rcases modeKeptOrTripped_of_moves h with hkept | ⟨-, hhalt, -⟩
  · exact hkept.trans hs
  · exact hhalt

/-- Work that has a TRIP to raise bars RUN when it is finished (R120, R136). -/
theorem State.finishReport_barred {s : State} (h : ∃ r ∈ s.rr.work.faults, r.cls = .trip) :
    s.finishReport.fmu.barred = true := by
  have hhanded : ∀ {w : State} {faults : List Raising} {forward : Option Frame}, w.rr.work = .handed faults forward →
      (∃ r ∈ faults, r.cls = .trip) → w.finishReport.fmu.barred = true := by
    intro w faults forward hwork htrip
    obtain ⟨-, -, ⟨⟨hfaults, -, hlost⟩, -⟩, -⟩ := State.finishReport_finishes hwork
    rw [FaultModeUnit.barred_congr hfaults hlost]
    exact FaultModeUnit.recordAll_barred _ _ (.inr htrip)
  cases hwork : s.rr.work with
  | idle => simp [hwork, ReportWork.faults] at h
  | handed faults forward =>
    rw [hwork] at h
    exact hhanded hwork h
  | decided events faults forward =>
    rw [hwork] at h
    rw [State.finishReport_of_decided hwork]
    exact hhanded (faults := faults) (forward := forward) (by rw [State.handEvents_eq hwork]) h

/-- The command that finishes the work in progress, when there is some. -/
theorem exec_finish {s : State} (hheld : s.held = false) (hwork : s.rr.work ≠ .idle) :
    exec (if s.rr.work.isReport then .reportTaken .finish else .reportLoss .finish) s = .next s.finishReport := by
  cases hreport : s.rr.work.isReport with
  | true => exact (exec_reportTaken_finish hheld).trans (by rw [if_pos hreport])
  | false =>
    have hloss : s.rr.work.isLossTest = true := by
      by_contra hnot
      exact hwork (ReportWork.eq_idle hreport (by simpa using hnot))
    exact (exec_reportLoss_finish hheld).trans (by rw [if_pos hloss])

/-- LOAD with a TRIP still to be raised by the Report Receiver: first its work is finished, then the same is done, and
RUN is barred (R46, R145). -/
theorem modeLoad_after_finish {s : State} {q : Request} (hserves : s.serves q .mode .none)
    (hmode : q.modeIs .load = true) (hcode : q.modeAbsent = false) (hhalt : s.fmu.mode = .halt)
    (htrip : ∃ r ∈ s.rr.work.faults, r.cls = .trip) :
    exec .modeLoad s.finishReport = exec .modeLoad s ∧ s.finishReport.fmu.mode = .halt ∧
      ∀ t, exec .modeLoad s = .next t → t.fmu.barred = true := by
  obtain ⟨hheld, hrestart, hhead, hfor⟩ := id hserves
  have hserves' : s.finishReport.serves q .mode .none :=
    ⟨s.finishReport_held.trans hheld, by rw [State.finishReport_me]; exact hrestart,
      by rw [State.finishReport_me]; exact hhead, hfor⟩
  have hhalt' := s.finishReport_onlyRaises.halt hhalt
  have hended : s.finishReport.endTrippingReport = s.finishReport :=
    State.endTrippingReport_of_no_trip (by rw [State.finishReport_rr]; simp [ReportWork.faults])
  have hsame : decideLoad q s.finishReport = decideLoad q s := by
    rw [decideLoad_of_halt hcode hhalt', decideLoad_of_halt hcode hhalt, hended,
      State.endTrippingReport_of_trip htrip]
  have hexec : ∀ {w : State}, w.serves q .mode .none →
      exec .modeLoad w = .next ((decideLoad q w).1.answer q (decideLoad q w).2) := fun hw =>
    congrArg Host.Outcome.next ((State.live_of_not_held hw.1).trans (State.serve_of_serves hw hmode))
  refine ⟨by rw [hexec hserves', hexec hserves, hsame], hhalt', fun t ht => ?_⟩
  rw [hexec hserves] at ht
  cases ht
  rw [← hsame, decideLoad_of_halt hcode hhalt', hended]
  exact (State.takeRaisings_onlyRaises (s := s.finishReport)).barred (State.finishReport_barred htrip)

/-- A code absent from the table is answered by each of the four commands alike (R199). -/
theorem exec_mode_absent {s : State} {q : Request} {c : Instr} (hserves : s.serves q .mode .none)
    (hcode : modeRequest? (byteAt q.data 0) = none)
    (hc : c = .modeRun ∨ c = .modeHalt ∨ c = .modeResume ∨ c = .modeLoad) :
    ∃ t, exec c s = .next t ∧ s.repliesTo q (q.answered .badValue) t := by
  have habsent := (Request.modeIs_of_absent hcode .run).2
  have hanswer : ∀ (m : ModeRequest) (f : Service), f q s = (s, q.answered .badValue) →
      s.repliesTo q (q.answered .badValue) (s.live (State.serve .mode .none (Request.modeIs m) f)) := by
    intro m f hf
    have hreplies := State.serve_repliesTo (f := f) hserves (Request.modeIs_of_absent hcode m).1
    rwa [hf] at hreplies
  rcases hc with rfl | rfl | rfl | rfl
  · exact ⟨_, rfl, hanswer .run decideRun (if_pos habsent)⟩
  · exact ⟨_, rfl, hanswer .halt decideHalt (if_pos habsent)⟩
  · exact ⟨_, rfl, hanswer .resume decideResume (if_pos habsent)⟩
  · exact ⟨_, rfl, hanswer .load decideLoad (if_pos habsent)⟩

/-- Settles O45: each request is its decision's clause for the mode; LOAD ends the tripping work and takes the raisings
before it clears the controller. -/
theorem modeHaltResumeLoad : Obligations.ModeHaltResumeLoad := by
  unfold Obligations.ModeHaltResumeLoad
  refine ⟨fun s q hserves hbyte => ?halt, fun s q hserves hbyte => ?resume, fun s q hserves hbyte => ?load,
    fun s q c hserves hcode hc => exec_mode_absent hserves hcode hc⟩
  case halt =>
    obtain ⟨hmode, hcode⟩ := Request.modeIs_of_code (q := q) (m := .halt) (by rw [hbyte]; rfl)
    have hreplies := State.serve_repliesTo (f := decideHalt) hserves hmode
    refine ⟨_, rfl, fun hnot => ?_, fun hrun => ?_⟩
    · rw [decideHalt_of_not_run hcode hnot] at hreplies
      exact hreplies
    · rw [decideHalt_of_run hcode hrun] at hreplies
      refine ⟨_, hreplies, s.changesOnly_enterHalt, rfl, rfl, rfl, s.cm.enterHalt_table, fun c =>
        ⟨s.cm.enterHalt_chan c, fun hactive => ⟨?_, ?_⟩⟩⟩
      · exact (s.cm.enterHalt_startTimers c).trans (if_pos hactive)
      · exact (s.cm.enterHalt_parkTimers c).trans (if_pos hactive)
  case resume =>
    obtain ⟨hmode, hcode⟩ := Request.modeIs_of_code (q := q) (m := .resume) (by rw [hbyte]; rfl)
    have hreplies := State.serve_repliesTo (f := decideResume) hserves hmode
    refine ⟨_, rfl, fun ok hok => ?_⟩
    rw [← State.resumeAllowed_iff] at hok
    refine ⟨fun hnot => ?_, fun hhalt hno => ?_, fun hhalt hyes => ?_⟩
    · rw [decideResume_of_not_halt hcode hnot] at hreplies
      exact hreplies
    · rw [decideResume_of_refused hcode hhalt (by simpa [hok] using hno)] at hreplies
      exact hreplies
    · rw [decideResume_of_allowed hcode hhalt (hok.mp hyes), State.enterRunFromHalt_eq] at hreplies
      obtain ⟨-, -, -, hstate⟩ := State.resumeAllowed_iff.mp (hok.mp hyes)
      refine ⟨_, hreplies, s.changesOnly_fmu_di_rtc _ _ _, rfl, rfl, ?_⟩
      rcases hstate with hnormal | ⟨htripped, -⟩
      · have hkept : (if s.rtc.state = .tripped then s.rtc.untrip else s.rtc) = s.rtc := if_neg (by simp [hnormal])
        rw [hkept]
        exact ⟨State.tripRequestPin_of_not_tripped (by simp [hnormal]), hnormal, rfl, rfl, fun _ => rfl,
          fun h => by simp [hnormal] at h⟩
      · have huntripped : (if s.rtc.state = .tripped then s.rtc.untrip else s.rtc) = s.rtc.untrip := if_pos htripped
        rw [huntripped]
        exact ⟨State.tripRequestPin_of_not_tripped (by simp [RideThrough.untrip]), rfl, rfl, rfl,
          fun h => by simp [htripped] at h,
          fun _ => ⟨rfl, rfl, rfl, rfl, fun i => ⟨noStandings_getElem i, noDwell_getElem i⟩⟩⟩
  case load =>
    obtain ⟨hmode, hcode⟩ := Request.modeIs_of_code (q := q) (m := .load) (by rw [hbyte]; rfl)
    have hreplies := State.serve_repliesTo (f := decideLoad) hserves hmode
    refine ⟨_, rfl, fun hnot => ?_, fun hhalt htrip c v hc hv => ?_, fun hhalt hno => ?_⟩
    · rw [decideLoad_of_not_halt hcode hnot] at hreplies
      exact hreplies
    · have hwork : s.rr.work ≠ .idle := fun hidle => by simp [hidle, ReportWork.faults] at htrip
      rw [hc, exec_finish hserves.1 hwork] at hv
      cases hv
      obtain ⟨hsame, hhalt', hbarred⟩ := modeLoad_after_finish hserves hmode hcode hhalt htrip
      exact ⟨hsame, hhalt', s.finishReport_me, by rw [State.finishReport_rr],
        (FaultModeUnit.barred_iff _).mp (hbarred _ rfl)⟩
    · rw [decideLoad_of_halt hcode hhalt, State.endTrippingReport_of_no_trip hno,
        State.takeRaisings_enterLoad hhalt] at hreplies
      refine ⟨_, hreplies, s.changesOnly_loaded, rfl, fun htrip => ?_, fun hnil => ?_, rfl,
        State.tripRequestPin_of_not_tripped (by simp [State.loaded, RideThrough.enterLoad]), rfl,
        s.cm.standbyStates_getElem, rfl, rfl, rfl, rfl, rfl, rfl, rfl, rfl, rfl,
        fun i => ⟨noStandings_getElem i, noDwell_getElem i⟩⟩
      · exact (FaultModeUnit.barred_iff _).mp (FaultModeUnit.recordAll_barred (f := s.fmu) _ _ (.inr htrip))
      · unfold State.loaded
        rw [hnil, ← hnil]
        simp [FaultModeUnit.recordAll, hnil]

end Sys2Proof.Machine
end

