-- ==== Sys2Proof/Proofs/EnvelopeWrites.lean ====
section
/-! PROOFS. The writes of the envelope rows, V_recover, the SWELL settings and P_pre, with their refusals (O53). -/

namespace Sys2Proof.Machine

/-! ### The decision of an envelope write (R22) -/

section
variable {s w : State} {fits valid : Bool}

theorem State.decideEnvelope_of_busy (h : s.fmu.mode = .run ∧ s.rtc.state ≠ .normal) :
    s.decideEnvelope fits valid w = .error .busy := if_pos h

variable (hfree : ¬(s.fmu.mode = .run ∧ s.rtc.state ≠ .normal))
include hfree

theorem State.decideEnvelope_of_outOfRange : s.decideEnvelope false valid w = .error .badValue := by
  rw [State.decideEnvelope, if_neg hfree, if_pos rfl]

theorem State.decideEnvelope_of_invalid (hrun : s.fmu.mode = .run) :
    s.decideEnvelope fits false w = .error .badValue := by
  rw [State.decideEnvelope, if_neg hfree, if_pos (⟨hrun, rfl⟩ : s.fmu.mode = .run ∧ false = false), ite_self]

theorem State.decideEnvelope_of_taken (h : s.fmu.mode ≠ .run ∨ valid = true) :
    s.decideEnvelope true valid w = .ok w := by
  have hvalid : ¬(s.fmu.mode = .run ∧ valid = false) := by
    rintro ⟨hrun, hinvalid⟩
    rcases h with h | h
    · exact h hrun
    · rw [h] at hinvalid
      cases hinvalid
  rw [State.decideEnvelope, if_neg hfree, if_neg nofun, if_neg hvalid]

end

theorem envelopeValid_eq_false_iff {rows : Vector EnvelopeRow 8} {nRows vRecover : Nat} :
    envelopeValid rows nRows vRecover = false ↔ ¬EnvelopeOk rows nRows vRecover := by
  rw [← envelopeValid_iff, Bool.not_eq_true]

/-! ### The row that a WRITE decides next (R195) -/

/-- The entries of a WRITE of the envelope name rows. -/
theorem State.entryIndex_lt_of_envelope {s : State} {q : Request} (h : s.serves q .write .envelope)
    (hacc : s.me.accepted < q.count) : s.entryIndex q < 8 := by
  obtain ⟨-, hrun⟩ : 1 ≤ q.count ∧ q.index + q.count ≤ 8 := runWithin_iff.mp h.itemsExist
  unfold State.entryIndex
  omega

section
variable {s : State} {data : List Byte} (i : Row)

theorem writeEnvelopeRow_of_bad (h : envelopeRow? data = none) :
    writeEnvelopeRow i.val data s = s.decideEnvelope false true s := by
  unfold writeEnvelopeRow
  simp only [index?_of_lt i.isLt, h]

theorem writeEnvelopeRow_of_row {row : EnvelopeRow} (h : envelopeRow? data = some row) :
    writeEnvelopeRow i.val data s =
      s.decideEnvelope true (envelopeValid (s.rtc.rows.set i row) s.rtc.nRows s.rtc.vRecover)
        { s with rtc := s.rtc.putRow i row } := by
  unfold writeEnvelopeRow
  simp only [index?_of_lt i.isLt, h]

end

/-! ### SWELL and P_pre (R21, R155) -/

section
variable {s : State} {i : Nat} {data : List Byte}

theorem writeSwell_of_bad (h : ¬(1000 ≤ field data 0 2 ∧ field data 0 2 ≤ 2000 ∧ field data 2 2 ≤ 60000)) :
    writeSwell i data s = .error .badValue := if_neg h

theorem writeSwell_of_good (h : 1000 ≤ field data 0 2 ∧ field data 0 2 ≤ 2000 ∧ field data 2 2 ≤ 60000) :
    writeSwell i data s = .ok { s with rtc := s.rtc.putSwell (field data 0 2) (field data 2 2) } := if_pos h

theorem writePPre_of_bad (h : 1023 < settingValue data) : writePPre i data s = .error .badValue :=
  if_pos (by rw [← Bool.not_eq_true, between_zero_iff]; omega)

theorem writePPre_of_good (h : settingValue data ≤ 1023) : writePPre i data s =
    if s.cu.state = .armed ∨ s.cu.state = .triggered then .error .busy
    else .ok (s.withSetting 0x14 (settingValue data)) :=
  if_neg (by rw [between_zero_iff.mpr h]; exact nofun)

end

/-- Settles O53: each write is the decision of its owner, case by case, on the entry in service. -/
theorem envelopeAndCaptureWrites : Obligations.EnvelopeAndCaptureWrites := by
  unfold Obligations.EnvelopeAndCaptureWrites
  refine ⟨fun s q hserves hacc => ?row, fun s q v hserves hacc hindex hv => ?vRecover,
    fun s q v d hserves hacc hv hd => ?swell, fun s q v hserves hacc hindex hv => ?pPre⟩
  case row =>
    obtain ⟨i, hi⟩ : ∃ i : Row, i.val = s.entryIndex q := ⟨⟨_, State.entryIndex_lt_of_envelope hserves hacc⟩, rfl⟩
    obtain ⟨hrefused, htaken⟩ := State.serveEntry_entry (owns := anyEntry) (d := writeEnvelopeRow) hserves rfl
    rw [← hi] at hrefused htaken
    have hdecided : ∀ {e}, writeEnvelopeRow i.val (s.entryData q 8) s = e →
        writeEnvelopeRow i.val (s.entryData q (recordSize .envelope)) s = e := fun h => h
    refine ⟨i, _, hi, rfl, fun hbusy => ?_, fun hfree => ⟨fun hbad => ?_, fun row hrow => ⟨fun hrun hinvalid => ?_,
      fun hok => ?_⟩⟩⟩
    · refine hrefused _ (hdecided ?_)
      cases hrow : envelopeRow? (s.entryData q 8) with
      | none => rw [writeEnvelopeRow_of_bad i hrow, State.decideEnvelope_of_busy hbusy]
      | some row => rw [writeEnvelopeRow_of_row i hrow, State.decideEnvelope_of_busy hbusy]
    · refine hrefused _ (hdecided ?_)
      rw [writeEnvelopeRow_of_bad i hbad, State.decideEnvelope_of_outOfRange hfree]
    · refine hrefused _ (hdecided ?_)
      rw [writeEnvelopeRow_of_row i hrow, envelopeValid_eq_false_iff.mpr hinvalid,
        State.decideEnvelope_of_invalid hfree hrun]
    · refine htaken _ (hdecided ?_) rfl
      rw [writeEnvelopeRow_of_row i hrow,
        State.decideEnvelope_of_taken hfree (hok.imp_right envelopeValid_iff.mpr)]
      rfl
  case vRecover =>
    obtain ⟨hrefused, htaken⟩ := State.serveEntry_entry (owns := fun i => i == 0x0B) (d := writeVRecover) hserves
      (by simpa [State.entryIndex] using hindex)
    have hdecided : ∀ {e}, s.decideEnvelope (between 500 1100 v) (envelopeValid s.rtc.rows s.rtc.nRows v)
        (s.withSetting 0x0B v) = e →
        writeVRecover (s.entryIndex q) (s.entryData q (recordSize .global)) s = e := fun h => by rw [← h, hv]; rfl
    refine ⟨_, rfl, fun hbusy => hrefused _ (hdecided (State.decideEnvelope_of_busy hbusy)),
      fun hfree => ⟨fun hout => ?_, fun hrun hinvalid => ?_, fun hin hok => ?_⟩⟩
    · have hnot : between 500 1100 v = false := by
        rw [← Bool.not_eq_true, between_eq_true_iff]
        exact hout
      exact hrefused _ (hdecided (by rw [hnot, State.decideEnvelope_of_outOfRange hfree]))
    · exact hrefused _ (hdecided (by
        rw [envelopeValid_eq_false_iff.mpr hinvalid, State.decideEnvelope_of_invalid hfree hrun]))
    · refine htaken _ (hdecided ?_) (by rw [State.withSetting_me])
      rw [between_eq_true_iff.mpr hin, State.decideEnvelope_of_taken hfree (hok.imp_right envelopeValid_iff.mpr)]
  case swell =>
    obtain ⟨hrefused, htaken⟩ := State.serveEntry_entry (owns := anyEntry) (d := writeSwell) hserves rfl
    subst hv hd
    refine ⟨_, rfl, fun hbad => hrefused _ (writeSwell_of_bad hbad), fun hlow hhigh hzero => ?_,
      fun hlow hhigh hpos hlong => ?_⟩
    · refine htaken _ ((writeSwell_of_good ⟨hlow, hhigh, hzero.trans_le (Nat.zero_le _)⟩).trans ?_) rfl
      rw [RideThrough.putSwell, if_pos hzero, hzero]
    · refine htaken _ ((writeSwell_of_good ⟨hlow, hhigh, hlong⟩).trans ?_) rfl
      rw [RideThrough.putSwell, if_neg hpos.ne']
  case pPre =>
    obtain ⟨hrefused, htaken⟩ := State.serveEntry_entry (owns := fun i => i == 0x14) (d := writePPre) hserves
      (by simpa [State.entryIndex] using hindex)
    subst hv
    refine ⟨_, rfl, fun hbad => hrefused _ (writePPre_of_bad hbad), fun hgood hbusy => ?_, fun hgood hidle => ?_⟩
    · exact hrefused _ ((writePPre_of_good hgood).trans (if_pos hbusy))
    · have hnot : ¬(s.cu.state = .armed ∨ s.cu.state = .triggered) := by
        rcases hidle with h | h <;> simp [h]
      exact htaken _ ((writePPre_of_good hgood).trans (if_neg hnot)) (by rw [State.withSetting_me])

end Sys2Proof.Machine
end

