-- ==== Sys2Proof/Proofs/RecordsReadBack.lean ====
section
/-! PROOFS. What is written reads back: numbers, the records of management data, and the frames the part builds
(O13). -/

namespace Sys2Proof.Machine

/-! ### Numbers (section 5.4 of 00_scope.md) -/

theorem foldl_bytes (l : List Byte) (a : Nat) :
    l.foldl (fun a b => a * 256 + b.toNat) a = a * 256 ^ l.length + ofBe l := by
  unfold ofBe
  induction l generalizing a with
  | nil => simp
  | cons b l ih =>
    rw [List.foldl_cons, ih, List.foldl_cons, ih (0 * 256 + b.toNat), List.length_cons, pow_succ']
    ring

theorem ofBe_cons (b : Byte) (l : List Byte) : ofBe (b :: l) = b.toNat * 256 ^ l.length + ofBe l := by
  rw [ofBe, List.foldl_cons, foldl_bytes, Nat.zero_mul, Nat.zero_add]

/-- A number's bytes hold it up to their size. -/
theorem ofBe_be_mod (k n : Nat) : ofBe (be k n) = n % 256 ^ k := by
  induction k with
  | zero => simp [be, ofBe, Nat.mod_one]
  | succ k ih =>
    rw [be, ofBe_cons, ih, be_length, BitVec.toNat_ofNat, pow_succ 256 k, Nat.mod_mul, Nat.add_comm, Nat.mul_comm]

theorem ofBe_be {k n : Nat} (h : n < 256 ^ k) : ofBe (be k n) = n := by
  rw [ofBe_be_mod, Nat.mod_eq_of_lt h]

/-! ### Where a record's fields stand -/

section
variable (b : Byte) (l : List Byte) (n i size : Nat)

theorem byteAt_cons_zero : byteAt (b :: l) 0 = b := rfl

theorem byteAt_cons_succ : byteAt (b :: l) (i + 1) = byteAt l i := rfl

theorem field_cons_zero_one : field (b :: l) 0 1 = b.toNat := by
  simp [field, ofBe]

theorem field_cons_succ : field (b :: l) (i + 1) size = field l i size := rfl

theorem byteAt_be_two_append : byteAt (be 2 n ++ l) (i + 2) = byteAt l i := rfl

theorem field_be_two_append : field (be 2 n ++ l) (i + 2) size = field l i size := rfl

theorem field_be_zero {k : Nat} (h : n < 256 ^ k) : field (be k n) 0 k = n := by
  rw [field, List.drop_zero, List.take_of_length_le (be_length k n).le, ofBe_be h]

theorem field_be_append_zero {k : Nat} (h : n < 256 ^ k) : field (be k n ++ l) 0 k = n := by
  rw [field, List.drop_zero, List.take_left' (be_length k n), ofBe_be h]

theorem word16_cons_succ : word16 (b :: l) (i + 1) = word16 l i := rfl

theorem word16_be_two_append : word16 (be 2 n ++ l) (i + 2) = word16 l i := rfl

theorem word16_be_append_zero (w : BitVec 16) : word16 (be 2 w.toNat ++ l) 0 = w := by
  rw [word16, field_be_append_zero _ _ w.isLt, BitVec.ofNat_toNat, BitVec.setWidth_eq]

end

/-! ### Profiles and envelope rows (R19, R56, R177) -/

theorem Profile.bytes_length (p : Profile) : p.bytes.length = 10 := by
  simp [Profile.bytes, be_length]

theorem Profile.profile?_bytes {p : Profile} (h : p.inRange = true) : profile? p.bytes = some p := by
  obtain ⟨-, hup, -, hdown, -, hrecovery, hpark⟩ := Profile.inRange_iff.mp h
  have hread : profileSpelt p.bytes = p := by
    simp (disch := omega) only [profileSpelt, Profile.bytes, List.append_assoc, field_be_two_append,
      field_be_append_zero, field_be_zero]
  rw [profile?_eq, hread, if_pos h]

theorem EnvelopeRow.bytes_length (r : EnvelopeRow) : r.bytes.length = 8 := by
  simp [EnvelopeRow.bytes, be_length]

theorem RowAction.flagByte?_byte (a : RowAction) : flagByte? a.byte = some (decide (a = .block)) := by
  cases a <;> rfl

theorem EnvelopeRow.envelopeRow?_bytes {r : EnvelopeRow} (h : r.inRange = true) : envelopeRow? r.bytes = some r := by
  obtain ⟨hthreshold, hdwell, hcap⟩ : r.threshold ≤ 1099 ∧ r.dwell ≤ 60000 ∧ r.cap ≤ 1000 := by
    simp only [EnvelopeRow.inRange, Bool.and_eq_true, decide_eq_true_eq] at h
    omega
  have haction : flagByte? (byteAt r.bytes 6) = some (decide (r.action = .block)) := by
    rw [← RowAction.flagByte?_byte]
    rfl
  have hread : ({ threshold := field r.bytes 0 2, dwell := field r.bytes 2 2, cap := field r.bytes 4 2
                  action := if decide (r.action = .block) = true then .block else .curtail } : EnvelopeRow) = r := by
    simp (disch := omega) only [EnvelopeRow.bytes, List.append_assoc, field_be_two_append, field_be_append_zero]
    obtain ⟨_, _, _, action⟩ := r
    cases action <;> rfl
  unfold envelopeRow?
  simp only [haction]
  rw [hread, if_pos h]

theorem envelopeRow?_inRange {l : List Byte} {r : EnvelopeRow} (h : envelopeRow? l = some r) : r.inRange = true := by
  unfold envelopeRow? at h
  split at h
  · obtain ⟨hr, he⟩ := Option.ite_none_right_eq_some.mp h
    rw [← Option.some.inj he]
    exact hr
  · cases h

/-! ### Channel entries (R50, R177) -/

theorem ChannelEntry.bytes_length (e : ChannelEntry) : e.bytes.length = 18 := by
  simp [ChannelEntry.bytes, be_length]

theorem flagByte?_toNat (b : Bool) : flagByte? (BitVec.ofNat 8 b.toNat) = some b := by cases b <;> rfl

theorem ReadySource.readyByte?_byte (r : ReadySource) : readyByte? r.byte = some r := by
  cases r with
  | self => rfl
  | leader c =>
    have hbyte : (BitVec.ofNat 8 c.val).toNat = c.val := by
      rw [BitVec.toNat_ofNat, Nat.mod_eq_of_lt (c.isLt.trans (by decide))]
    have hself : BitVec.ofNat 8 c.val ≠ 0xFF := fun h => by
      have hval := congrArg BitVec.toNat h
      rw [hbyte] at hval
      exact absurd c.isLt (by rw [hval]; decide)
    simp only [ReadySource.byte, readyByte?, if_neg hself, hbyte, index?_of_lt c.isLt, Option.map_some]

theorem CompareClass.compareByte?_code (c : CompareClass) : compareByte? c.faultClass.code = some c := by
  cases c <;> rfl

theorem index?_ofNat {n : Nat} (hn : n ≤ 256) (c : Fin n) : index? n (BitVec.ofNat 8 c.val).toNat = some c := by
  rw [BitVec.toNat_ofNat, Nat.mod_eq_of_lt (c.isLt.trans_le hn), index?_of_lt c.isLt]

theorem ChannelEntry.channelEntry?_bytes {e : ChannelEntry} (h : e.inRange = true) :
    channelEntry? e.bytes = some e := by
  obtain ⟨hrated, hmin, hfallback⟩ : e.rated ≤ 60000 ∧ e.iMin ≤ e.rated ∧ e.fallback ≤ e.rated := by
    simp only [ChannelEntry.inRange, Bool.and_eq_true, decide_eq_true_eq] at h
    omega
  have hread : ({ enable := e.enable, station := byteAt e.bytes 1, group := e.group, rank := e.rank
                  rated := field e.bytes 4 2, iMin := field e.bytes 6 2, profile := e.profile, ready := e.ready
                  cmpRef := word16 e.bytes 10, cmpMask := word16 e.bytes 12, cmpClass := e.cmpClass
                  fallback := field e.bytes 16 2 } : ChannelEntry) = e := by
    simp (disch := omega) only [ChannelEntry.bytes, List.append_assoc, List.cons_append, List.nil_append,
      byteAt_cons_succ, byteAt_cons_zero, field_cons_succ, field_be_two_append, field_be_append_zero, field_be_zero,
      word16_cons_succ, word16_be_two_append, word16_be_append_zero]
  have henable : flagByte? (byteAt e.bytes 0) = some e.enable := flagByte?_toNat _
  have hgroup : index? 4 (field e.bytes 2 1) = some e.group :=
    (congrArg (index? 4) (field_cons_zero_one ..)).trans (index?_ofNat (by decide) _)
  have hrank : index? 16 (field e.bytes 3 1) = some e.rank :=
    (congrArg (index? 16) (field_cons_zero_one ..)).trans (index?_ofNat (by decide) _)
  have hprofile : index? 8 (field e.bytes 8 1) = some e.profile :=
    (congrArg (index? 8) (field_cons_zero_one ..)).trans (index?_ofNat (by decide) _)
  have hready : readyByte? (byteAt e.bytes 9) = some e.ready := ReadySource.readyByte?_byte _
  have hclass : compareByte? (byteAt e.bytes 14) = some e.cmpClass := CompareClass.compareByte?_code _
  unfold channelEntry?
  simp only [henable, hgroup, hrank, hprofile, hready, hclass]
  rw [hread, if_pos h]

/-! ### Frames the part builds (R165 to R167, R170) -/

/-- The bytes of a frame between its type and the payload: the Feed Link header (R166). -/
def linkHeader (own : Station) (kind : Byte) (dest : Station) (seq : BitVec 16) (n : Nat) : List Byte :=
  [0x01, kind] ++ be 2 n ++ [own, dest] ++ be 2 seq.toNat

theorem fcs_length (l : List Byte) : (fcs l).length = 4 := by
  rw [fcs, List.length_reverse, be_length]

/-- Bytes followed by their frame check sequence pass the check. -/
theorem fcsMatches_append_fcs (l : List Byte) : fcsMatches (l ++ fcs l) = true := by
  have hlength : (l ++ fcs l).length - 4 = l.length := by
    rw [List.length_append, fcs_length, Nat.add_sub_cancel]
  rw [fcsMatches, hlength, List.drop_left, List.take_left, List.length_append, fcs_length]
  simp

section
variable (own dest : Station) (type : BitVec 16) (kind : Byte) (seq : BitVec 16) (payload : List Byte)

/-- A frame the part builds is its two headers, the payload, and what fills it up: the padding and the FCS. -/
theorem buildFrame_eq : ∃ fill : List Byte, 4 ≤ fill.length ∧
    buildFrame own type kind dest seq payload =
      [0xFF, 0xFF, 0xFF, 0xFF, 0xFF, 0xFF, 0x02, 0x00, 0x00, 0x00, 0x00, own] ++ (be 2 type.toNat ++
        (linkHeader own kind dest seq payload.length ++ (payload ++ fill))) := by
  refine ⟨List.replicate (60 - (frameBody own type kind dest seq payload).length) 0 ++
    fcs (frameBody own type kind dest seq payload ++
      List.replicate (60 - (frameBody own type kind dest seq payload).length) 0), ?_, ?_⟩
  · rw [List.length_append, fcs_length]
    omega
  · simp only [buildFrame, frameBody, linkHeader, List.append_assoc]

theorem buildFrame_length : (buildFrame own type kind dest seq payload).length = max 64 (26 + payload.length) := by
  simp only [buildFrame, frameBody, List.length_append, List.length_cons, List.length_nil, be_length, fcs_length,
    List.length_replicate]
  omega

theorem field_type_buildFrame : field (buildFrame own type kind dest seq payload) 12 2 = type.toNat := by
  obtain ⟨fill, -, heq⟩ := buildFrame_eq own dest type kind seq payload
  rw [heq]
  exact field_be_append_zero _ _ type.isLt

/-- Behind the type of an untagged frame stand the Feed Link header, the payload, and at least the four bytes of the
FCS. -/
theorem drop_buildFrame : ∃ fill : List Byte, 4 ≤ fill.length ∧ (buildFrame own type kind dest seq payload).drop 14 =
    linkHeader own kind dest seq payload.length ++ (payload ++ fill) := by
  obtain ⟨fill, hfill, heq⟩ := buildFrame_eq own dest type kind seq payload
  refine ⟨fill, hfill, ?_⟩
  rw [heq]
  rfl

variable {own dest type kind seq payload} (htype : isVlanTag type.toNat = false)
include htype

theorem vlanTags_buildFrame : vlanTags (buildFrame own type kind dest seq payload) = 0 := by
  rw [vlanTags, field_type_buildFrame, htype]
  rfl

theorem typeField_buildFrame : typeField (buildFrame own type kind dest seq payload) = type := by
  rw [typeField, vlanTags_buildFrame htype, word16, field_type_buildFrame, BitVec.ofNat_toNat,
    BitVec.setWidth_eq]

variable (hlength : payload.length ≤ 1492)
include hlength

theorem headerOf_buildFrame : headerOf (buildFrame own type kind dest seq payload) =
    { version := 1, kind := kind, length := payload.length, source := own, dest := dest, seq := seq } := by
  obtain ⟨fill, -, hdrop⟩ := drop_buildFrame own dest type kind seq payload
  unfold headerOf headerStart
  rw [vlanTags_buildFrame htype, hdrop]
  simp (disch := omega) only [linkHeader, List.append_assoc, List.cons_append, List.nil_append, byteAt_cons_zero,
    byteAt_cons_succ, field_cons_succ, field_be_append_zero, byteAt_be_two_append, word16_cons_succ,
    word16_be_two_append, word16_be_append_zero]

theorem payloadOf_buildFrame : payloadOf (buildFrame own type kind dest seq payload) = payload := by
  obtain ⟨fill, hfill, hdrop⟩ := drop_buildFrame own dest type kind seq payload
  have hafter : (buildFrame own type kind dest seq payload).drop 22 = payload ++ fill := by
    rw [show 22 = 14 + 8 from rfl, ← List.drop_drop, hdrop]
    rfl
  have hroom : payload.length ≤ (buildFrame own type kind dest seq payload).length - 22 - 4 := by
    rw [buildFrame_length]
    omega
  unfold payloadOf afterHeader headerStart
  rw [headerOf_buildFrame htype hlength, vlanTags_buildFrame htype]
  dsimp only
  rw [hafter, List.take_take, min_eq_left hroom, List.take_left]

theorem lengthOk_buildFrame : lengthOk (buildFrame own type kind dest seq payload) = true := by
  rw [lengthOk, buildFrame_length, vlanTags_buildFrame htype, Bool.and_eq_true, decide_eq_true_eq,
    decide_eq_true_eq]
  omega

end

/-- Settles O13: each field is read where its record or frame was written, and what is decoded has passed its ranges. -/
theorem framesAndRecordsReadBack : Obligations.FramesAndRecordsReadBack := by
  unfold Obligations.FramesAndRecordsReadBack
  refine ⟨fun own dest type kind seq payload hlength htype => ?frame,
    fun e he => ⟨ChannelEntry.channelEntry?_bytes he, e.bytes_length⟩, fun l e he => ?entry,
    fun r hr => ⟨EnvelopeRow.envelopeRow?_bytes hr, r.bytes_length⟩, fun l r hr => ?row,
    fun p hp => ⟨Profile.profile?_bytes hp, p.bytes_length⟩, fun k n hn => ⟨ofBe_be hn, be_length k n⟩⟩
  case frame =>
    exact ⟨fcsMatches_append_fcs _, lengthOk_buildFrame htype hlength, buildFrame_length ..,
      typeField_buildFrame htype, headerOf_buildFrame htype hlength, payloadOf_buildFrame htype hlength⟩
  case entry =>
    have hrange := channelEntry?_inRange he
    simpa only [ChannelEntry.inRange, isRectifierStation, Bool.and_eq_true, decide_eq_true_eq, and_assoc] using hrange
  case row =>
    have hrange := envelopeRow?_inRange hr
    simpa only [EnvelopeRow.inRange, Bool.and_eq_true, decide_eq_true_eq, and_assoc] using hrange

end Sys2Proof.Machine
end
